-- ==== Sys2Proof/Word.lean ====
section
/-! DEFINITION. The two word types of the Obrisel 4120: a byte of a frame or of buffer memory, and a sixteen-bit
register of the host window (spec/00_scope.md, Conventions). -/

namespace Sys2Proof

/-- One byte: a character's data, a body byte, a byte of buffer memory. -/
abbrev Byte := BitVec 8

/-- One sixteen-bit register of the host window. -/
abbrev Word := BitVec 16

end Sys2Proof
end

