-- ==== Sys2Proof/Syntax.lean ====
section
/-! DEFINITION. The commands of the block: one constructor per row of spec/opcode_table.json, with the row's
operands. A row is one whole step of the device (spec/95_what_each_step_holds.md). Host register writes carry
the written value; the port of a per-port register is the one PORT_SELECT names (R179). -/

namespace Sys2Proof

/-- A station link port, 0 to 3. -/
abbrev PortId := Fin 4

/-- A slot of the context table, 0 to 63 (R27). -/
abbrev Slot := Fin 64

/-- The two countdowns of a slot (R91). -/
inductive CountdownKind where
  | repair
  | life
  deriving DecidableEq, Repr

/-- The ten per-port statistics counters, in the order of their PORT_LIMITS positions (R164, R180). -/
inductive Counter where
  | framesGood
  | framesBad
  | framesIgnored
  | fragsStored
  | fragsDuplicate
  | fragsHeld
  | recordsComplete
  | recordsFailed
  | repliesSent
  | repliesDropped
  deriving DecidableEq, Repr

/-- A completed character: good, the level of data bit k of RXDn being bit k of the value, or with a framing error, its data bits
discarded (R2). -/
inductive Character where
  | good (value : Byte)
  | framingError
  deriving DecidableEq, Repr

/-- The levels of RXDn sampled on a port since its receiver last came to stand between two characters, oldest first, true for high
(R2, log 12). -/
structure LineSamples where
  port : PortId
  samples : List Bool
  deriving DecidableEq, Repr

/-- The two writes that clear UNREPORTED: to the counter, or to STATUS (R170). -/
inductive UnreportedRoute where
  | counter
  | status
  deriving DecidableEq, Repr

/-- The commands. The docstring of each constructor names its row and rule. -/
inductive Instr where
  /-- POWER_UP (R185). `resetHigh`: RESET# is already high when the power-up hold ends. -/
  | powerUp (resetHigh : Bool)
  /-- HARDWARE_RESET (R185): RESET# is asserted. -/
  | hardwareReset
  /-- RESET_DEASSERTED (R185): RESET# is deasserted. -/
  | resetDeasserted
  /-- SOFT_RESET (R184): a write to CTRL. -/
  | softReset (value : Word)
  /-- WALK_STEP (R86). -/
  | walkStep
  /-- SYNC_RECEIVED (R9): a good character 0xC3 on the port. -/
  | syncReceived (port : PortId)
  /-- BAD_LEN (R10): a good character outside 5 to 101 in the place of LEN. -/
  | badLen (port : PortId) (value : Byte)
  /-- FRAMING_ERROR (R12): a character with a framing error inside a frame. -/
  | framingError (port : PortId)
  /-- CHARACTER_TIMEOUT (R12). -/
  | characterTimeout (port : PortId)
  /-- FRAME_COMPLETION (R13): the good character that is the CRC high byte. -/
  | frameCompletion (port : PortId) (crcHigh : Byte)
  /-- FRAG (R50): the table controller takes its next claim, a frame claim for a FRAG. -/
  | frag
  /-- ABORT (R69): the table controller takes its next claim, a frame claim for an ABORT. -/
  | abort
  /-- QUERY (R72): the table controller takes its next claim, a frame claim for a QUERY. -/
  | query
  /-- TICK (R89): the timebase divider reaches zero. -/
  | tick
  /-- COUNTDOWN_EXPIRY (R92): one countdown at 1 reaches zero at a tick. -/
  | countdownExpiry (slot : Slot) (kind : CountdownKind)
  /-- REPAIR_EXPIRY (R98): the table controller takes the presented repair expiry claim. -/
  | repairExpiry
  /-- LIFE_EXPIRY (R102): the table controller takes the presented life expiry claim. -/
  | lifeExpiry
  /-- REPLY_START (R18). -/
  | replyStart (port : PortId)
  /-- REPLY_END (R18). -/
  | replyEnd (port : PortId)
  /-- GUARD_END (R18). -/
  | guardEnd (port : PortId)
  /-- RETURN_MOVE (R79). -/
  | returnMove
  /-- DRAIN_DATA_READ (R135). -/
  | drainDataRead
  /-- DRAIN_READ_GRANT (R85). -/
  | drainReadGrant
  /-- HELD_READ_ENDED (R177). -/
  | heldReadEnded
  /-- DRAIN_POS_WRITE (R137). -/
  | drainPosWrite (value : Word)
  /-- PORT_ENABLE (R19): a PORT_CTRL write with ENABLE set. -/
  | portEnable (value : Word)
  /-- PORT_DISABLE (R20): a PORT_CTRL write with ENABLE clear. -/
  | portDisable (value : Word)
  /-- PORT_ADDR_WRITE (R23). -/
  | portAddrWrite (value : Word)
  /-- PORT_RATE_WRITE (R3). -/
  | portRateWrite (value : Word)
  /-- TICK_WRITE (R89). -/
  | tickWrite (value : Word)
  /-- COUNTER_CLEAR (R167). -/
  | counterClear (counter : Counter) (value : Word)
  /-- PORT_LIMITS_WRITE (R168). -/
  | portLimitsWrite (value : Word)
  /-- UNREPORTED_CLEAR (R170). -/
  | unreportedClear (route : UnreportedRoute) (value : Word)
  /-- EVENTS_WRITE (R172). -/
  | eventsWrite (value : Word)
  /-- EVENT_ENABLE_WRITE (R173). -/
  | eventEnableWrite (value : Word)
  /-- REGISTER_WRITE (R178): a write at a byte offset of the window. -/
  | registerWrite (offset : Byte) (value : Word)
  /-- TAKE (R130): a CMD write with code 1 below the ignored byte `upper` (R180); so for the nine rows below. -/
  | take (upper : Byte)
  /-- RELEASE (R140), code 2. -/
  | release (upper : Byte)
  /-- LOOKUP (R150), code 3. -/
  | lookup (upper : Byte)
  /-- NEXT (R152), code 4. -/
  | next (upper : Byte)
  /-- RESERVE (R154), code 5. -/
  | reserve (upper : Byte)
  /-- PIN (R156), code 6. -/
  | pin (upper : Byte)
  /-- UNPIN (R156), code 7. -/
  | unpin (upper : Byte)
  /-- CANCEL (R157), code 8. -/
  | cancel (upper : Byte)
  /-- PURGE (R159), code 9. -/
  | purge (upper : Byte)
  /-- FORGET (R162), code 10. -/
  | forget (upper : Byte)
  /-- BAD_COMMAND (R144): a CMD write of an unknown code. -/
  | badCommand (value : Word)
  /-- COMMAND_CLAIM (R149): the table controller takes its next claim, the command unit's. -/
  | commandClaim
  /-- WALK_VISIT (R47): the table controller takes its next claim, a visit of NEXT or PURGE. -/
  | walkVisit
  /-- START_EDGE (R2): RXDn changes from high to low at the last of these samples. -/
  | startEdge (line : LineSamples)
  /-- START_CHECK (R2): the start bit is sampled; `level` true is high, a false start. -/
  | startCheck (port : PortId) (level : Bool)
  /-- GOOD_CHARACTER (R11): a valid LEN, a body byte or the CRC low byte. -/
  | goodCharacter (port : PortId) (value : Byte)
  /-- CHARACTER_SKIPPED (R9): a character in HUNT that is not a good 0xC3. -/
  | characterSkipped (port : PortId) (character : Character)
  /-- PORT_CTRL_WRITE (R22): a PORT_CTRL write whose ENABLE bit has no effect. -/
  | portCtrlWrite (value : Word)
  /-- FILL_SEGMENT_END (R83). -/
  | fillSegmentEnd
  deriving DecidableEq, Repr

end Sys2Proof
end

