-- ==== Sys2Proof/Config.lean ====
section
/-! DEFINITION. The free values: what the spec leaves open while the device goes on. Each is a constant with
no body, applied to the plain counter `State.free`, so that nothing can be proved about which value it is. -/

namespace Sys2Proof.Config

/-- What D0 to D15 hold when the host ends a DRAIN_DATA read that WAIT# still holds: the spec says only "whatever
D0 to D15 held when RD# was deasserted" (R177). DESIGN CHOICE: a free value (log 8). Safe. -/
opaque floatingBus : Nat → Word

/-- Which staging buffer receives a frame when both are FREE: "either may receive the frame" (R15); true is
buffer B. DESIGN CHOICE: a free value (log 7). Safe. -/
opaque eitherBuffer : Nat → Bool

end Sys2Proof.Config
end

