-- ==== Sys2Proof/Machine/State.lean ====
section
/-! DEFINITION. The state of the Obrisel 4120, as plain data, and its value right after hardware reset.
The blocks are those of spec/00_scope.md's Block Overview; INVENTORY.md lists every field with its rule. -/

namespace Sys2Proof.Machine

/-- Why the machine stops. -/
inductive Fault where
  /-- Raised by DRAIN_DATA_READ when a byte of the record was never written by the fill engine, or lies in no
  fragment of the bound context. R74 and R134 say that this does not happen, and no run from reset reaches it.
  SAFE (log 5). -/
  | unwrittenByte
  deriving DecidableEq, Repr

/-- Why a command has no meaning. -/
inductive Refusal where
  /-- Raised by `exec` for a row that has no meaning yet; every row has one. SAFE. -/
  | notModelled (mnemonic : String)
  deriving DecidableEq, Repr

/-! ### Names -/

/-- A way of a set, 0 to 3 (R27). -/
abbrev Way := Fin 4

/-- A set of four slots (R27). -/
abbrev SetId := Fin 16

/-- A segment of buffer memory, 0 to 1023 (R74). -/
abbrev Seg := Fin 1024

/-- One of the four banks (R74). -/
abbrev Bank := Fin 4

/-- A record's key (R28). -/
structure Key where
  port : PortId
  station : Byte
  tag : Byte
  deriving DecidableEq, Repr

/-! ### Link ports (chapter 1) -/

/-- The receiver states of section 1.3, as PORT_STATE shows them. -/
inductive RxState where
  | off
  | hunt
  | receiving
  | stopping
  deriving DecidableEq, Repr

/-- The position within the frame in flight. `bodyByte` awaits body byte j, where j is the number of body bytes
already in the assembly buffer. -/
inductive FramePosition where
  | awaitingLen
  | bodyByte
  | crcLow
  | crcHigh
  deriving DecidableEq, Repr

/-- The character timer (R12). `forestalled`: a start edge with a good start check came first, so the timer cannot
run out until the character ends. -/
inductive CharTimer where
  | stopped
  | running
  | forestalled
  deriving DecidableEq, Repr

/-- Where the receiver stands on RXDn (R2). `between`: not inside a character, with the level of the latest sample, against which
the next is compared; none when no sample was taken yet, which is so in OFF and at the entry into HUNT from OFF.
`edgeSeen`: a start edge awaits its start check. `startConfirmed`: the start check was low, and the data bits and the stop bit
follow. -/
inductive CharPhase where
  | between (level : Option Bool)
  | edgeSeen
  | startConfirmed
  deriving DecidableEq, Repr

/-- A receiver: its state, the character in progress, and the assembly of the frame in flight (section 1.3). -/
structure Receiver where
  state : RxState
  char : CharPhase
  position : FramePosition
  len : Nat
  body : List Byte
  crc : Word
  crcLow : Byte
  timer : CharTimer
  deriving DecidableEq, Repr

/-- A receiver in state `st` with no frame in flight: the assembly buffer empty and the timer stopped (R8). The
position, the CRC register and the stored CRC byte, which no rule gives then, stand at the values a SYNC or R5
gives them. DESIGN CHOICE (log 4). -/
def Receiver.noFrame (st : RxState) (ch : CharPhase) : Receiver where
  state := st
  char := ch
  position := .awaitingLen
  len := 0
  body := []
  crc := 0xFFFF#16
  crcLow := 0#8
  timer := .stopped

/-- An occupied staging buffer (section 1.4). `bufferB` tells buffer B from buffer A; `inService` tells IN SERVICE
from WAITING. -/
structure StagedFrame where
  bufferB : Bool
  inService : Bool
  len : Nat
  body : List Byte
  deriving DecidableEq, Repr

/-- The reply kinds (Table 1-2). -/
inductive ReplyKind where
  | accept
  | repeat
  | hold
  | status
  deriving DecidableEq, Repr

/-- An entry of a reply queue (R109). The bitmap is absent for ACCEPT and HOLD. -/
structure Reply where
  kind : ReplyKind
  station : Byte
  tag : Byte
  index : Byte
  bitmap : Option (BitVec 64)
  deriving DecidableEq, Repr

/-- A transmitter in SENDING: the reply, PORT_RATE and PORT_ADDR as read at its start, the characters of the frame
from SYNC to the CRC high byte, and whether the frame has ended and the guard runs (R6, R18). -/
structure Transmission where
  reply : Reply
  rate : Word
  addr : BitVec 7
  frame : List Byte
  inGuard : Bool
  deriving DecidableEq, Repr

/-- An entry of a recent-completion list (R118). -/
structure RecentEntry where
  station : Byte
  tag : Byte
  count : Nat
  deriving DecidableEq, Repr

/-- One station link port with its configuration, its reply queue, its counters and its recent-completion list.
`staging` holds the occupied staging buffers in arrival order; a buffer that is not in it is FREE (R15).
`tx` is none in IDLE. -/
structure Port where
  rx : Receiver
  staging : List StagedFrame
  tx : Option Transmission
  replies : List Reply
  configFault : Bool
  enable : Bool
  reclaim : Bool
  attempts : BitVec 3
  addr : BitVec 7
  rate : Word
  quota : BitVec 11
  gap : Word
  repair : Word
  life : Word
  reclimit : BitVec 13
  held : Nat
  counters : Vector Word 10
  limits : BitVec 10
  recent : List RecentEntry
  deriving DecidableEq, Repr

/-- A port after hardware reset (R25, R8, R17, R18, R80, R109, R118, R175). -/
def Port.reset : Port where
  rx := Receiver.noFrame .off (.between none)
  staging := []
  tx := none
  replies := []
  configFault := false
  enable := false
  reclaim := false
  attempts := 3#3
  addr := 0#7
  rate := 208#16
  quota := 1024#11
  gap := 50#16
  repair := 100#16
  life := 2000#16
  reclimit := 6144#13
  held := 0
  counters := Vector.replicate 10 0#16
  limits := 0#10
  recent := []

/-! ### The context table (chapter 2) -/

/-- The six context states (R34). -/
inductive CtxState where
  | free
  | expecting
  | collecting
  | repairing
  | done
  | draining
  deriving DecidableEq, Repr

/-- An entry of a fragment list (R31). -/
structure FragEntry where
  index : Fin 64
  length : Nat
  segs : List Seg
  deriving DecidableEq, Repr

/-- A context record (R30). -/
structure Context where
  state : CtxState
  key : Option Key
  pinned : Bool
  frags : List FragEntry
  count : Option Nat
  highest : Option (Fin 64)
  storedBytes : Nat
  heldSegs : Nat
  attemptsLeft : Nat
  attemptsUsed : Nat
  deriving DecidableEq, Repr

/-- A FREE context, with the FREE values of R30. -/
def Context.freed : Context where
  state := .free
  key := none
  pinned := false
  frags := []
  count := none
  highest := none
  storedBytes := 0
  heldSegs := 0
  attemptsLeft := 0
  attemptsUsed := 0

/-- The six claimants of the table controller (R45). -/
inductive Claimant where
  | receiver (port : PortId)
  | timer
  | command
  deriving DecidableEq, Repr

/-- The claim in service while the fill engine copies a payload (R57 to R60, R83): the port and slot, the entry to be
inserted, whether it carries LAST, the state in which the claim found the context, the payload, the number
of the segment being written, and whether the engine waits to begin it. -/
structure StoreClaim where
  port : PortId
  slot : Slot
  index : Fin 64
  last : Bool
  prior : CtxState
  payload : List Byte
  segs : List Seg
  current : Nat
  waiting : Bool
  deriving DecidableEq, Repr

/-- The context table and its controller (sections 2.1 to 2.7). -/
structure Table where
  contexts : Vector Context 64
  openOrder : Vector (List Way) 16
  lastServed : Claimant
  service : Option StoreClaim
  deriving DecidableEq, Repr

/-- The table after either reset (R49). -/
def Table.reset : Table where
  contexts := Vector.replicate 64 Context.freed
  openOrder := Vector.replicate 16 []
  lastServed := .command
  service := none

/-! ### The segment pool and buffer memory (chapter 4) -/

/-- The segment pool: the two FIFOs, head first, and the POOL_LOW threshold. -/
structure Pool where
  freeList : List Seg
  backlog : List Seg
  low : BitVec 11
  deriving DecidableEq, Repr

/-- Buffer memory (R74) as the list of the bytes written, by byte address (segment x 32 + offset). An unlisted
address has no value: nothing has written it (log 5). -/
abbrev Memory := List Host.Cell

/-! ### The timer unit (chapter 5) -/

/-- The two countdowns of a slot, none when absent, with their expired marks (R91). -/
structure SlotTimers where
  repair : Option Nat
  repairMark : Bool
  life : Option Nat
  lifeMark : Bool
  deriving DecidableEq, Repr

/-- Both countdowns absent and both marks clear (R91). -/
def SlotTimers.cleared : SlotTimers where
  repair := none
  repairMark := false
  life := none
  lifeMark := false

/-- An expiry claim names one slot and one countdown (R95). -/
structure ExpiryClaim where
  slot : Slot
  kind : CountdownKind
  deriving DecidableEq, Repr

/-- The timer unit. `divider` is none when the timebase is stopped, and else the number of CLK periods it was last
loaded with (log 2). -/
structure TimerUnit where
  tick : Word
  divider : Option Nat
  slots : Vector SlotTimers 64
  scan : Fin 128
  claim : Option ExpiryClaim
  deriving DecidableEq, Repr

/-! ### Reports and drain (chapter 7) -/

/-- The statuses of a report entry (R125). -/
inductive ReportStatus where
  | complete
  | timedOut
  | expired
  | aborted
  | inconsistent
  | oversize
  | displaced
  deriving DecidableEq, Repr

/-- An entry of the report queue (R125). -/
structure ReportEntry where
  status : ReportStatus
  slot : Option Slot
  key : Key
  length : Option Nat
  count : Option Nat
  fragments : Option Nat
  highest : Option (Fin 64)
  attemptsUsed : Nat
  deriving DecidableEq, Repr

/-- A DRAIN_DATA read that WAIT# holds: its position, the record bytes it returns, and the banks it still needs,
in the order of its accesses (R84, R141). -/
structure HeldRead where
  pos : Nat
  data : Word
  needs : List Bank
  deriving DecidableEq, Repr

/-- The drain port (R133). `readData` is the model's own: the word the last DRAIN_DATA read drove on D0 to D15. -/
structure DrainPort where
  bound : Option Slot
  pos : Nat
  len : Nat
  held : Option HeldRead
  readData : Word
  deriving DecidableEq, Repr

/-- The drain port after a reset (R133, R142). -/
def DrainPort.reset : DrainPort where
  bound := none
  pos := 0
  len := 0
  held := none
  readData := 0#16

/-! ### The command unit (chapter 8) -/

/-- The ten commands (Table 10-4). -/
inductive CommandCode where
  | take
  | release
  | lookup
  | next
  | reserve
  | pin
  | unpin
  | cancel
  | purge
  | forget
  deriving DecidableEq, Repr

/-- The command in flight: its code and captured operands and, for a walk, the slot of the next visit and the running
totals (section 8.1). -/
structure InFlight where
  code : CommandCode
  operands : Vector Word 4
  slot : Slot
  freed : Nat
  segments : Nat
  deriving DecidableEq, Repr

/-- The command unit. It is BUSY exactly while `inFlight` is present. -/
structure CommandUnit where
  cmd : Byte
  status : BitVec 4
  operands : Vector Word 4
  results : Vector Word 10
  inFlight : Option InFlight
  deriving DecidableEq, Repr

/-- The command unit after either reset (R143). -/
def CommandUnit.reset : CommandUnit where
  cmd := 0#8
  status := 0#4
  operands := Vector.replicate 4 0#16
  results := Vector.replicate 10 0#16
  inFlight := none

/-! ### Statistics, events and the host port (chapters 9 and 10) -/

/-- The global part of the statistics and event block. -/
structure Stats where
  events : BitVec 9
  enable : BitVec 9
  unreported : Word
  unreportedLimit : Bool
  deriving DecidableEq, Repr

/-- The device as a whole: INITIALISING with RESET# asserted (or held at power-up), INITIALISING with `k` steps of the
walk ended, or READY (R181, R86). -/
inductive DevicePhase where
  | resetAsserted
  | walking (k : Fin 1024)
  | ready
  deriving DecidableEq, Repr

/-- What the host port owns (chapter 10): the phase, SOFT_RESET and PORT_SELECT. -/
structure HostPort where
  phase : DevicePhase
  softReset : Bool
  portSelect : PortId
  deriving DecidableEq, Repr

/-- The whole state. `free` counts the free values used (the model's own); `pending` is the queue of waiting
commands, front first. -/
structure State where
  ports : Vector Port 4
  table : Table
  pool : Pool
  mem : Memory
  timer : TimerUnit
  reports : List ReportEntry
  drain : DrainPort
  cmd : CommandUnit
  stats : Stats
  host : HostPort
  free : Nat
  pending : List Instr
  deriving DecidableEq, Repr

/-- The state while RESET# is asserted (R185): every block emptied and every register at its value after hardware
reset. Buffer memory has nothing listed, and the divider, which R89 loads at the deassertion, is stopped (log 4). -/
def State.held : State where
  ports := Vector.replicate 4 Port.reset
  table := Table.reset
  pool := { freeList := [], backlog := [], low := 64#11 }
  mem := []
  timer := { tick := 94#16, divider := none, slots := Vector.replicate 64 SlotTimers.cleared, scan := 0, claim := none }
  reports := []
  drain := DrainPort.reset
  cmd := CommandUnit.reset
  stats := { events := 0#9, enable := 0#9, unreported := 0#16, unreportedLimit := false }
  host := { phase := .resetAsserted, softReset := false, portSelect := 0 }
  free := 0
  pending := []

/-- The machine right after hardware reset: RESET# has just been deasserted, the divider is loaded with TICK x 256
(R89) and the initialization walk stands at step 0 (R86, R185). -/
def State.reset : State :=
  { State.held with
    timer := { State.held.timer with divider := some (94 * 256) }
    host := { State.held.host with phase := .walking 0 } }

end Sys2Proof.Machine
end

