-- ==== Sys2Proof/Machine/Operands.lean ====
section
/-! DEFINITION. Operand forms: the fields of frames, of commands and of registers, at the bit positions of Tables 1-1,
1-2 and 10-1 to 10-8, and the values computed from them. -/

namespace Sys2Proof.Machine

/-! ### Keys, slots and segments -/

/-- The set of a key: (station + tag + 5 x port) mod 16 (R28). -/
def setOf (k : Key) : SetId := Fin.ofNat 16 (k.station.toNat + k.tag.toNat + 5 * k.port.val)

/-- Slot number = set x 4 + way (R27). -/
def slotOf (t : SetId) (w : Way) : Slot := ⟨t.val * 4 + w.val, by omega⟩

/-- The set of a slot (R27). -/
def setOfSlot (i : Slot) : SetId := ⟨i.val / 4, by omega⟩

/-- The way of a slot within its set (R27). -/
def wayOfSlot (i : Slot) : Way := ⟨i.val % 4, by omega⟩

/-- The four slots of a set, lowest way first (R27). -/
def slotsOfSet (t : SetId) : List Slot := (List.finRange 4).map (slotOf t)

/-- The bank of a segment: segment number mod 4 (R74). -/
def bankOf (g : Seg) : Bank := ⟨g.val % 4, by omega⟩

/-- The byte address of an offset in a segment (R74). -/
def segAddr (g : Seg) (offset : Nat) : Nat := g.val * 32 + offset

/-- The segments a payload of `length` bytes needs: length / 32 rounded up (R56). -/
def segsNeeded (length : Nat) : Nat := (length + 31) / 32

/-! ### Bitmaps -/

/-- The 64-bit bitmap with bit i set for each index i of the list (R32, R99). -/
def bitmapOf (l : List (Fin 64)) : BitVec 64 := l.foldr (fun i b => b ||| (1#64 <<< i.val)) 0#64

/-- The received bitmap of a fragment list (R32). -/
def receivedBitmap (l : List FragEntry) : BitVec 64 := bitmapOf (l.map (·.index))

/-- The first index that does not count as missing for its place: the count when it is known, and otherwise one above
highest (R99). -/
def missingBound (c : Context) : Nat :=
  match c.count with
  | some n => n
  | none => match c.highest with
    | some h => h.val + 1
    | none => 0

/-- The missing bitmap of a repair step (R99). -/
def missingBitmap (c : Context) : BitVec 64 :=
  bitmapOf ((List.finRange 64).filter fun i =>
    decide (i.val < missingBound c) && !(c.frags.any fun e => e.index == i))

/-- The eight bitmap bytes, body bytes 5 to 12: index i is bit (i mod 8) of byte 5 + floor(i / 8) (R7). -/
def bitmapBytes (b : BitVec 64) : List Byte := (List.range 8).map fun j => b.extractLsb' (8 * j) 8

/-! ### Characters -/

/-- The levels of a character on a line, one for each of its ten bit times: the start bit low, the data bits with bit 0 first, the
stop bit high (R1). -/
def charLevels (v : Byte) : List Bool := false :: (List.range 8).map v.getLsbD ++ [true]

/-- The search for a start edge in the samples of RXDn that follow one at `level`: an edge is a low sample next after a high one,
and the very first sample only sets the level (R2). -/
def findEdge : Option Bool → List Bool → CharPhase
  | level, [] => .between level
  | level, x :: rest => if level = some true ∧ x = false then .edgeSeen else findEdge (some x) rest

/-! ### Link frames -/

/-- One bit fed into the CRC register (R5). -/
def crcBit (crc : Word) (bit : Bool) : Word :=
  if crc.msb ^^ bit then (crc <<< 1) ^^^ 0x1021#16 else crc <<< 1

/-- One byte fed into the CRC register, bit 7 first (R5). -/
def crcByte (crc : Word) (b : Byte) : Word :=
  [7, 6, 5, 4, 3, 2, 1, 0].foldl (fun c i => crcBit c (b.getLsbD i)) crc

/-- The CRC of a run of bytes (R5). -/
def crcOf (l : List Byte) : Word := l.foldl crcByte 0xFFFF#16

/-- The kind code of a reply (Table 1-2). -/
def ReplyKind.code : ReplyKind → Byte
  | .accept => 0x81#8
  | .repeat => 0x82#8
  | .hold => 0x83#8
  | .status => 0x84#8

/-- The body of an outbound frame (R6): destination, source, kind, tag, index byte and the bitmap bytes. -/
def replyBody (r : Reply) (addr : BitVec 7) : List Byte :=
  [r.station, addr.setWidth 8, r.kind.code, r.tag, r.index] ++
    match r.bitmap with
    | some b => bitmapBytes b
    | none => []

/-- The characters of an outbound frame: SYNC, LEN, the body, and the CRC low byte first (R4, R5, R6). -/
def replyFrame (r : Reply) (addr : BitVec 7) : List Byte :=
  let body := replyBody r addr
  let len := BitVec.ofNat 8 body.length
  let crc := crcOf (len :: body)
  [0xC3#8, len] ++ body ++ [crc.extractLsb' 0 8, crc.extractLsb' 8 8]

/-- A valid LEN is 5 to 101 (R4). -/
def validLen (v : Byte) : Bool := decide (5 ≤ v.toNat) && decide (v.toNat ≤ 101)

/-- A station address in use is 1 to 126 (R4). -/
def validStation (v : Byte) : Bool := decide (1 ≤ v.toNat) && decide (v.toNat ≤ 126)

/-- Body byte j of a frame (R4). -/
def bodyByte (body : List Byte) (j : Nat) : Byte := body.getD j 0#8

/-- The kind code of FRAG (Table 1-2). -/
def kindFrag : Byte := 0x01#8

/-- The kind code of ABORT (Table 1-2). -/
def kindAbort : Byte := 0x02#8

/-- The kind code of QUERY (Table 1-2). -/
def kindQuery : Byte := 0x03#8

/-- The address and form checks of R14: true when the frame passes all of them. -/
def formOk (addr : BitVec 7) (len : Nat) (body : List Byte) : Bool :=
  let kind := bodyByte body 2
  bodyByte body 0 == addr.setWidth 8 &&
  validStation (bodyByte body 1) && bodyByte body 1 != addr.setWidth 8 &&
  (kind == kindFrag || kind == kindAbort || kind == kindQuery) &&
  !(bodyByte body 4).getLsbD 6 &&
  (if kind == kindFrag then len != 5 else len == 5)

/-- The kind of a staged frame (R50). -/
def StagedFrame.kind (f : StagedFrame) : Byte := bodyByte f.body 2

/-- The key a frame names: the port of its receiver, its source and its tag (R50). -/
def StagedFrame.key (f : StagedFrame) (p : PortId) : Key :=
  { port := p, station := bodyByte f.body 1, tag := bodyByte f.body 3 }

/-- The index byte of a frame (R50). -/
def StagedFrame.indexByte (f : StagedFrame) : Byte := bodyByte f.body 4

/-- The fragment index: bits 0 to 5 of the index byte (R50). -/
def StagedFrame.index (f : StagedFrame) : Fin 64 := Fin.ofNat 64 f.indexByte.toNat

/-- LAST: bit 7 of the index byte, and taken as set at index 63 (R50). -/
def StagedFrame.last (f : StagedFrame) : Bool := f.indexByte.getLsbD 7 || f.index == 63

/-- The payload: LEN - 5 bytes from body byte 5 on (R50). -/
def StagedFrame.payload (f : StagedFrame) : List Byte := (f.body.drop 5).take (f.len - 5)

/-! ### Replies -/

/-- An ACCEPT: count - 1 with LAST set (R51, R114). -/
def acceptReply (k : Key) (count : Nat) : Reply :=
  { kind := .accept, station := k.station, tag := k.tag, index := 0x80#8 ||| BitVec.ofNat 8 ((count - 1) % 64), bitmap := none }

/-- A HOLD: a copy of the refused FRAG's index byte (R51, R116). -/
def holdReply (k : Key) (indexByte : Byte) : Reply :=
  { kind := .hold, station := k.station, tag := k.tag, index := indexByte, bitmap := none }

/-- A STATUS: the state code and the bitmap (R51, R72, R117). -/
def statusReply (k : Key) (code : Byte) (bitmap : BitVec 64) : Reply :=
  { kind := .status, station := k.station, tag := k.tag, index := code, bitmap := some bitmap }

/-- A REPEAT: highest in bits 0 to 5, TAIL in bit 6 when the count is absent, and the missing bitmap (R99). -/
def repeatReply (k : Key) (c : Context) : Reply :=
  { kind := .repeat, station := k.station, tag := k.tag
    index := BitVec.ofNat 8 ((c.highest.map (·.val)).getD 0 + if c.count.isNone then 64 else 0)
    bitmap := some (missingBitmap c) }

/-! ### Commands -/

/-- The command code in bits 0 to 7 of a CMD write (Table 10-4). -/
def commandOf (code : Byte) : Option CommandCode :=
  if code = 1#8 then some .take
  else if code = 2#8 then some .release
  else if code = 3#8 then some .lookup
  else if code = 4#8 then some .next
  else if code = 5#8 then some .reserve
  else if code = 6#8 then some .pin
  else if code = 7#8 then some .unpin
  else if code = 8#8 then some .cancel
  else if code = 9#8 then some .purge
  else if code = 10#8 then some .forget
  else none

/-- The walk commands (R47). -/
def CommandCode.isWalk : CommandCode → Bool
  | .next => true
  | .purge => true
  | _ => false

/-- The port operand: OPERAND0 bits 0 to 2 (Table 10-5). -/
def opPort (o : Vector Word 4) : BitVec 3 := o[0].extractLsb' 0 3

/-- The pin option: OPERAND0 bit 8 (Table 10-5). -/
def opPin (o : Vector Word 4) : Bool := o[0].getLsbD 8

/-- The include-pinned option: OPERAND0 bit 9 (Table 10-5). -/
def opIncludePinned (o : Vector Word 4) : Bool := o[0].getLsbD 9

/-- The all option: OPERAND0 bit 10 (Table 10-5). -/
def opAll (o : Vector Word 4) : Bool := o[0].getLsbD 10

/-- The station operand: OPERAND1 bits 0 to 6 (Table 10-5). -/
def opStation (o : Vector Word 4) : BitVec 7 := o[1].extractLsb' 0 7

/-- The tag operand: OPERAND2 bits 0 to 7 (Table 10-5). -/
def opTag (o : Vector Word 4) : Byte := o[2].extractLsb' 0 8

/-- The slot operand: OPERAND3 bits 0 to 7 (Table 10-5). -/
def opSlot (o : Vector Word 4) : Byte := o[3].extractLsb' 0 8

/-- The port operand as a port; R146 lets only 0 to 3 past the acceptance. -/
def opPortId (o : Vector Word 4) : PortId := Fin.ofNat 4 (opPort o).toNat

/-- The slot operand as a slot; R146 lets only 0 to 63 past the acceptance. -/
def opSlotId (o : Vector Word 4) : Slot := Fin.ofNat 64 (opSlot o).toNat

/-- The key operand. -/
def opKey (o : Vector Word 4) : Key :=
  { port := opPortId o, station := (opStation o).setWidth 8, tag := opTag o }

/-- A valid port operand is 0 to 3 (R146). -/
def portOk (o : Vector Word 4) : Bool := decide ((opPort o).toNat ≤ 3)

/-- A valid station operand is 1 to 126 (R146). -/
def stationOk (o : Vector Word 4) : Bool := decide (1 ≤ (opStation o).toNat) && decide ((opStation o).toNat ≤ 126)

/-- A valid slot operand is 0 to 63 (R146). -/
def slotOk (o : Vector Word 4) : Bool := decide ((opSlot o).toNat ≤ 63)

/-- Every operand field the command uses is in range (R146). -/
def operandsOk (c : CommandCode) (o : Vector Word 4) : Bool :=
  match c with
  | .take => true
  | .release => true
  | .lookup => portOk o && stationOk o
  | .next => slotOk o
  | .reserve => portOk o && stationOk o
  | .pin => portOk o && stationOk o
  | .unpin => portOk o && stationOk o
  | .cancel => portOk o && stationOk o
  | .purge => portOk o
  | .forget => portOk o && (opAll o || stationOk o)

/-- The status codes of R147. -/
inductive CommandStatus where
  | ok
  | notFound
  | exists
  | setFull
  | wrongState
  | drainBusy
  | noReport
  | notDraining
  | badOperand
  | notReady
  | badCommand
  deriving DecidableEq, Repr

/-- The status code as CMD_STATUS shows it (R147). -/
def CommandStatus.code : CommandStatus → BitVec 4
  | .ok => 0#4
  | .notFound => 1#4
  | .exists => 2#4
  | .setFull => 3#4
  | .wrongState => 4#4
  | .drainBusy => 5#4
  | .noReport => 6#4
  | .notDraining => 7#4
  | .badOperand => 8#4
  | .notReady => 9#4
  | .badCommand => 10#4

/-- The ten result registers from the leading values, with 0 in the rest (R147). -/
def resultWords (l : List Word) : Vector Word 10 :=
  #v[l.getD 0 0#16, l.getD 1 0#16, l.getD 2 0#16, l.getD 3 0#16, l.getD 4 0#16,
     l.getD 5 0#16, l.getD 6 0#16, l.getD 7 0#16, l.getD 8 0#16, l.getD 9 0#16]

/-! ### Register fields -/

/-- A number in a register field. -/
def word (n : Nat) : Word := BitVec.ofNat 16 n

/-- A flag in a register bit. -/
def flagAt (b : Bool) (i : Nat) : Word := if b then 1#16 <<< i else 0#16

/-- The state code LOOKUP and NEXT show (R30). -/
def CtxState.code : CtxState → Nat
  | .free => 0
  | .expecting => 1
  | .collecting => 2
  | .repairing => 3
  | .done => 4
  | .draining => 5

/-- The status code of a report entry (R125). -/
def ReportStatus.code : ReportStatus → Nat
  | .complete => 1
  | .timedOut => 2
  | .expired => 3
  | .aborted => 4
  | .inconsistent => 5
  | .oversize => 6
  | .displaced => 7

/-- A success entry is a COMPLETE entry (R125). -/
def ReportEntry.isSuccess (e : ReportEntry) : Bool := e.status == .complete

/-- "highest, 0xFF when absent" (R125, R151). -/
def highestShown (h : Option (Fin 64)) : Nat :=
  match h with
  | some i => i.val
  | none => 0xFF

/-- REPORT_HEAD0 to REPORT_HEAD5 of an entry (Table 10-7, R125). -/
def reportWords (e : ReportEntry) : List Word :=
  [ word (e.status.code + 256 * (match e.slot with | some i => i.val | none => 0xFF)),
    word (e.key.port.val + 256 * e.key.station.toNat),
    word (e.key.tag.toNat + 256 * e.attemptsUsed),
    word (e.length.getD 0),
    word (e.count.getD 0 + 256 * highestShown e.highest),
    word (e.fragments.getD 0) ]

/-- RESULT1 with the state code and pinned (Table 10-6). -/
def statePinnedWord (c : Context) : Word := word c.state.code ||| flagAt c.pinned 4

/-- The results of LOOKUP and NEXT for the context in a slot (R151, Table 10-6). -/
def contextResults (i : Slot) (c : Context) : List Word :=
  let bm := receivedBitmap c.frags
  [ word i.val,
    statePinnedWord c ||| word (256 * c.attemptsLeft),
    word ((match c.key with | some k => k.port.val + 256 * k.station.toNat | none => 0)),
    word ((match c.key with | some k => k.tag.toNat | none => 0)),
    word (c.count.getD 0 + 256 * highestShown c.highest),
    word c.storedBytes,
    bm.extractLsb' 0 16, bm.extractLsb' 16 16, bm.extractLsb' 32 16, bm.extractLsb' 48 16 ]

/-- The registers of Table 10-1. -/
inductive Reg where
  | ctrl
  | status
  | events
  | eventEnable
  | portSelect
  | tick
  | poolFree
  | poolBacklog
  | poolLow
  | unreported
  | cmd
  | cmdStatus
  | operand (i : Fin 4)
  | result (i : Fin 10)
  | reportCount
  | reportHead (i : Fin 6)
  | drainData
  | drainPos
  | drainLen
  | portCtrl
  | portAddr
  | portRate
  | portQuota
  | portHeld
  | portGap
  | portRepair
  | portLife
  | portReclimit
  | portState
  | counter (c : Counter)
  | portLimits
  deriving DecidableEq, Repr

/-- Table 10-1: the 57 registers with their byte offsets (R178). -/
def registerMap : List (Byte × Reg) :=
  [ (0x00#8, .ctrl), (0x02#8, .status), (0x04#8, .events), (0x06#8, .eventEnable), (0x08#8, .portSelect), (0x0A#8, .tick),
    (0x0C#8, .poolFree), (0x0E#8, .poolBacklog), (0x10#8, .poolLow), (0x12#8, .unreported), (0x14#8, .cmd),
    (0x16#8, .cmdStatus) ] ++
  [ (0x18#8, .operand 0), (0x1A#8, .operand 1), (0x1C#8, .operand 2), (0x1E#8, .operand 3),
    (0x20#8, .result 0), (0x22#8, .result 1), (0x24#8, .result 2), (0x26#8, .result 3), (0x28#8, .result 4),
    (0x2A#8, .result 5), (0x2C#8, .result 6), (0x2E#8, .result 7), (0x30#8, .result 8), (0x32#8, .result 9) ] ++
  [ (0x34#8, .reportCount), (0x36#8, .reportHead 0), (0x38#8, .reportHead 1), (0x3A#8, .reportHead 2),
    (0x3C#8, .reportHead 3), (0x3E#8, .reportHead 4), (0x40#8, .reportHead 5), (0x42#8, .drainData), (0x44#8, .drainPos),
    (0x46#8, .drainLen) ] ++
  [ (0x50#8, .portCtrl), (0x52#8, .portAddr), (0x54#8, .portRate), (0x56#8, .portQuota), (0x58#8, .portHeld),
    (0x5A#8, .portGap), (0x5C#8, .portRepair), (0x5E#8, .portLife), (0x60#8, .portReclimit), (0x62#8, .portState) ] ++
  [ (0x64#8, .counter .framesGood), (0x66#8, .counter .framesBad), (0x68#8, .counter .framesIgnored),
    (0x6A#8, .counter .fragsStored), (0x6C#8, .counter .fragsDuplicate), (0x6E#8, .counter .fragsHeld),
    (0x70#8, .counter .recordsComplete), (0x72#8, .counter .recordsFailed), (0x74#8, .counter .repliesSent),
    (0x76#8, .counter .repliesDropped), (0x78#8, .portLimits) ]

/-- The register at a byte offset; none where the offset selects no register (R178, log 14). -/
def regAt (offset : Byte) : Option Reg := registerMap.lookup offset

/-- A port number in bits 0 to 1 (R179). -/
def portField (v : Word) : PortId := Fin.ofNat 4 v.toNat

/-- A field that stores its maximum when a larger value is written (R178). -/
def clampTo (w max : Nat) (v : Word) : BitVec w := BitVec.ofNat w (min v.toNat max)

end Sys2Proof.Machine
end

