-- ==== Sys2Proof/WellFormed.lean ====
section
/-! DEFINITION. The well-formed commands: the written value or character is one the row is about. A row whose occasion
depends on the state (an enable while the receiver is OFF) is not judged here. -/

namespace Sys2Proof

/-- The registers whose writes have rows of their own; REGISTER_WRITE is "a write to any other". -/
def Machine.Reg.hasRow : Machine.Reg → Bool
  | .tick => true
  | .drainPos => true
  | .portCtrl => true
  | .portAddr => true
  | .portRate => true
  | .counter _ => true
  | .portLimits => true
  | .unreported => true
  | .events => true
  | .eventEnable => true
  | .cmd => true
  | _ => false

/-- A REGISTER_WRITE names an even offset of the window (R178) whose register has no row of its own; CTRL and STATUS are
among them with the writes that have no effect. -/
def registerWriteOk (offset : Byte) (value : Word) : Bool :=
  offset.toNat % 2 == 0 && decide (offset.toNat < 0x80) &&
    match Machine.regAt offset with
    | some .ctrl => !value.getLsbD 0
    | some .status => !value.getLsbD 8
    | some r => !r.hasRow
    | none => true

/-- The samples of a START_EDGE end with its edge: the last is low, and no earlier one makes an edge (R2). -/
def startSamplesOk (samples : List Bool) : Bool :=
  samples.getLast? == some false && Machine.findEdge none samples.dropLast != .edgeSeen

/-- Well-formed commands. -/
def Instr.wellFormed : Instr → Bool
  | .softReset v => v.getLsbD 0
  | .badLen _ v => !Machine.validLen v
  | .characterSkipped _ (.good v) => v != 0xC3#8
  | .startEdge line => startSamplesOk line.samples
  | .portEnable v => v.getLsbD 0
  | .portDisable v => !v.getLsbD 0
  | .unreportedClear .status v => v.getLsbD 8
  | .registerWrite offset v => registerWriteOk offset v
  | .badCommand v => (Machine.commandOf (v.extractLsb' 0 8)).isNone
  | _ => true

end Sys2Proof
end

