-- ==== Sys2Proof/Machine/Access.lean ====
section
/-! DEFINITION. Access to the parts of the state that are indexed: ports, context records, countdowns and open-order
lists. Every meaning reads and writes them through these. -/

namespace Sys2Proof.Machine

/-- Port `p`. -/
def State.port (s : State) (p : PortId) : Port := s.ports[p]

/-- Port `p` changed by `f`. -/
def State.modifyPort (s : State) (p : PortId) (f : Port → Port) : State :=
  { s with ports := s.ports.set p (f (s.port p)) }

/-- The context record of slot `i` (R27). -/
def State.ctx (s : State) (i : Slot) : Context := s.table.contexts[i]

/-- The context record of slot `i` replaced. -/
def State.setCtx (s : State) (i : Slot) (c : Context) : State :=
  { s with table := { s.table with contexts := s.table.contexts.set i c } }

/-- The open-order list of set `t` (R38). -/
def State.order (s : State) (t : SetId) : List Way := s.table.openOrder[t]

/-- The open-order list of set `t` replaced. -/
def State.setOrder (s : State) (t : SetId) (l : List Way) : State :=
  { s with table := { s.table with openOrder := s.table.openOrder.set t l } }

/-- The countdowns and marks of slot `i` (R91). -/
def State.timers (s : State) (i : Slot) : SlotTimers := s.timer.slots[i]

/-- The countdowns and marks of slot `i` replaced. -/
def State.setTimers (s : State) (i : Slot) (t : SlotTimers) : State :=
  { s with timer := { s.timer with slots := s.timer.slots.set i t } }

/-- The claim in service replaced. -/
def State.setService (s : State) (c : Option StoreClaim) : State :=
  { s with table := { s.table with service := c } }

/-- The claimant served last replaced (R45). -/
def State.setLastServed (s : State) (c : Claimant) : State :=
  { s with table := { s.table with lastServed := c } }

/-- The drain port replaced. -/
def State.setDrain (s : State) (d : DrainPort) : State := { s with drain := d }

/-- STATUS shows INITIALISING (R181). -/
def State.initialising (s : State) : Bool := s.host.phase != .ready

end Sys2Proof.Machine
end

