-- ==== Sys2Proof/Machine/Flags.lean ====
section
/-! DEFINITION. The event flags, the statistics counters and their limit flags (chapter 9). -/

namespace Sys2Proof.Machine

/-- The nine flags of EVENTS (Table 10-3). -/
inductive Event where
  | reportAdded
  | cmdDone
  | poolLow
  | statLimit
  | portOff
  | initDone
  | cmdOverrun
  | drainFault
  | reportLost
  deriving DecidableEq, Repr

/-- The position of a flag in EVENTS and EVENT_ENABLE (Table 10-3). -/
def Event.bit : Event → Nat
  | .reportAdded => 0
  | .cmdDone => 1
  | .poolLow => 2
  | .statLimit => 3
  | .portOff => 4
  | .initDone => 5
  | .cmdOverrun => 6
  | .drainFault => 7
  | .reportLost => 8

/-- A raised event sets its flag; a flag already set stays set (R171). -/
def raise (e : Event) (s : State) : State :=
  { s with stats := { s.stats with events := s.stats.events ||| (1#9 <<< e.bit) } }

/-- IRQ# is asserted while at least one flag of EVENTS is set whose enable is set (R174). -/
def State.irq (s : State) : Bool := (s.stats.events &&& s.stats.enable) != 0#9

/-- The position of a counter in the per-port window and in PORT_LIMITS (Table 10-8). -/
def counterIdx : Counter → Fin 10
  | .framesGood => 0
  | .framesBad => 1
  | .framesIgnored => 2
  | .fragsStored => 3
  | .fragsDuplicate => 4
  | .fragsHeld => 5
  | .recordsComplete => 6
  | .recordsFailed => 7
  | .repliesSent => 8
  | .repliesDropped => 9

/-- A per-port counter (R164). -/
def State.counter (s : State) (p : PortId) (c : Counter) : Word := (s.port p).counters[(counterIdx c)]

/-- The limit flag of a per-port counter (R164). -/
def State.limitFlag (s : State) (p : PortId) (c : Counter) : Bool := (s.port p).limits.getLsbD (counterIdx c).val

/-- An increment of a counter of port `p`: one more below 65535; reaching 65535 sets the limit flag and raises
STAT_LIMIT; at 65535 nothing changes (R165). -/
def count (p : PortId) (c : Counter) (s : State) : State :=
  let v := s.counter p c
  if v = 0xFFFF#16 then s
  else if v = 0xFFFE#16 then
    raise .statLimit (s.modifyPort p fun q =>
      { q with counters := q.counters.set (counterIdx c) 0xFFFF#16, limits := q.limits ||| (1#10 <<< (counterIdx c).val) })
  else s.modifyPort p fun q => { q with counters := q.counters.set (counterIdx c) (v + 1#16) }

/-- `n` increments of one counter, each judged on the counter as the previous one left it (R165). -/
def countMany (p : PortId) (c : Counter) : Nat → State → State
  | 0, s => s
  | n + 1, s => countMany p c n (count p c s)

/-- A clear of a counter clears its limit flag with it (R167). -/
def clearCounter (p : PortId) (c : Counter) (s : State) : State :=
  s.modifyPort p fun q =>
    { q with counters := q.counters.set (counterIdx c) 0#16, limits := q.limits &&& ~~~(1#10 <<< (counterIdx c).val) }

/-- All ten counters, in the order of their positions. -/
def allCounters : List Counter :=
  [.framesGood, .framesBad, .framesIgnored, .fragsStored, .fragsDuplicate, .fragsHeld, .recordsComplete,
   .recordsFailed, .repliesSent, .repliesDropped]

/-- A write to PORT_LIMITS clears each counter and limit flag whose position holds 1 (R168). -/
def clearLimits (p : PortId) (v : Word) (s : State) : State :=
  allCounters.foldl (fun s c => if v.getLsbD (counterIdx c).val then clearCounter p c s else s) s

/-- An increment of UNREPORTED, which follows R165 (R170). -/
def countUnreported (s : State) : State :=
  if s.stats.unreported = 0xFFFF#16 then s
  else if s.stats.unreported = 0xFFFE#16 then
    raise .statLimit { s with stats := { s.stats with unreported := 0xFFFF#16, unreportedLimit := true } }
  else { s with stats := { s.stats with unreported := s.stats.unreported + 1#16 } }

/-- A clear of UNREPORTED and its limit flag (R170). -/
def clearUnreported (s : State) : State :=
  { s with stats := { s.stats with unreported := 0#16, unreportedLimit := false } }

/-- A write to EVENTS clears each flag whose position holds 1 (R172). -/
def clearEvents (v : Word) (s : State) : State :=
  { s with stats := { s.stats with events := s.stats.events &&& ~~~(v.setWidth 9) } }

end Sys2Proof.Machine
end

