-- ==== Sys2Proof/Machine/Ops.lean ====
section
/-! DEFINITION. The operations the commands share: buffer memory, the context table's own changes, the pool, replies and
reports, the countdowns, the rotation among claimants, the fill engine and the bank arbiter, the drain port, the
completion of a command and the resets. A meaning is a composition of these. -/

namespace Sys2Proof.Machine

/-! ### Buffer memory -/

/-- One byte of buffer memory; none when nothing has written it (log 5). -/
def readByte (m : Memory) (a : Nat) : Option Byte := m.lookup a

/-- One byte written, keeping the addresses strictly rising. -/
def writeByte (a : Nat) (b : Byte) : Memory → Memory
  | [] => [(a, b)]
  | (x, y) :: rest =>
    if a < x then (a, b) :: (x, y) :: rest
    else if a = x then (a, b) :: rest
    else (x, y) :: writeByte a b rest

/-- One word write: the byte at the even offset is the low half (R58). -/
def writeWord (a : Nat) (w : Word) (m : Memory) : Memory :=
  writeByte (a + 1) (w.extractLsb' 8 8) (writeByte a (w.extractLsb' 0 8) m)

/-- The canonical form of buffer memory: addresses strictly rising, all within the 32768 bytes of R74. -/
def Memory.wf (m : Memory) : Bool :=
  decide (List.Pairwise (· < ·) (m.map Prod.fst)) && m.all fun c => decide (c.1 < 32768)

/-- Word `j` of segment number `k` of a payload; bytes beyond the payload's end are 0 (R58). -/
def fillWord (payload : List Byte) (k j : Nat) : Word :=
  payload.getD (32 * k + 2 * j + 1) 0#8 ++ payload.getD (32 * k + 2 * j) 0#8

/-- The 16 word writes of a segment, at offsets 0, 2, …, 30 (R58, R83). -/
def writeSegment (payload : List Byte) (k : Nat) (g : Seg) (m : Memory) : Memory :=
  (List.range 16).foldl (fun m j => writeWord (segAddr g (2 * j)) (fillWord payload k j) m) m

/-- Where record byte `p` lies: its segment and the offset in it (R134). -/
def locate : List FragEntry → Nat → Option (Seg × Nat)
  | [], _ => none
  | e :: rest, p =>
    if p < e.length then
      match e.segs[p / 32]? with
      | some g => some (g, p % 32)
      | none => none
    else locate rest (p - e.length)

/-- Record byte `p` of the context in slot `i`, with the segment it lies in; none when it lies in no fragment or was
never written. -/
def State.recordByte (s : State) (i : Slot) (p : Nat) : Option (Seg × Byte) :=
  match locate (s.ctx i).frags p with
  | some (g, off) => (readByte s.mem (segAddr g off)).map fun b => (g, b)
  | none => none

/-! ### Views of the pool (R76, R78, R79) -/

/-- POOL_FREE (R76). -/
def State.poolFree (s : State) : Nat := s.pool.freeList.length

/-- POOL_BACKLOG (R78). -/
def State.poolBacklog (s : State) : Nat := s.pool.backlog.length

/-- The return engine is MOVING exactly while the backlog is not empty, since it begins a move at once (R79, log 23). -/
def State.returnMoving (s : State) : Bool := !s.pool.backlog.isEmpty

/-! ### Countdowns (R91 to R94) -/

/-- PORT_GAP and PORT_LIFE as loaded: absent if 0 (R93). -/
def gapLoad (v : Word) : Option Nat := if v = 0#16 then none else some v.toNat

/-- PORT_REPAIR as loaded: 0 is loaded as 1 (R93). -/
def repairLoad (v : Word) : Option Nat := some (max v.toNat 1)

/-- Loading the repair countdown clears its mark (R93). -/
def loadRepair (i : Slot) (v : Option Nat) (s : State) : State :=
  s.setTimers i { s.timers i with repair := v, repairMark := false }

/-- Loading the life countdown clears its mark (R93). -/
def loadLife (i : Slot) (v : Option Nat) (s : State) : State :=
  s.setTimers i { s.timers i with life := v, lifeMark := false }

/-- Both countdowns cleared with their marks (R33). -/
def clearCountdowns (i : Slot) (s : State) : State := s.setTimers i SlotTimers.cleared

/-- A countdown at a tick: above 1 it goes on with the reduced value; at 1 it becomes absent and sets its mark; an
absent one and its mark stand (R92). -/
def tickCountdown (c : Option Nat × Bool) : Option Nat × Bool :=
  match c with
  | (some v, m) => if v ≤ 1 then (none, true) else (some (v - 1), m)
  | (none, m) => (none, m)

/-- Both countdowns of a slot at a tick (R92). -/
def SlotTimers.ticked (t : SlotTimers) : SlotTimers :=
  let r := tickCountdown (t.repair, t.repairMark)
  let l := tickCountdown (t.life, t.lifeMark)
  { repair := r.1, repairMark := r.2, life := l.1, lifeMark := l.2 }

/-- The value of one countdown of a slot. -/
def SlotTimers.value (t : SlotTimers) : CountdownKind → Option Nat
  | .repair => t.repair
  | .life => t.life

/-- The expired mark of one countdown of a slot. -/
def SlotTimers.mark (t : SlotTimers) : CountdownKind → Bool
  | .repair => t.repairMark
  | .life => t.lifeMark

/-- One countdown of a slot expired: absent, with its mark set (R92). -/
def SlotTimers.expire (t : SlotTimers) : CountdownKind → SlotTimers
  | .repair => { t with repair := none, repairMark := true }
  | .life => { t with life := none, lifeMark := true }

/-- The mark of one countdown cleared (R96). -/
def SlotTimers.clearMark (t : SlotTimers) : CountdownKind → SlotTimers
  | .repair => { t with repairMark := false }
  | .life => { t with lifeMark := false }

/-- The claim of a scan position: 2n is the repair countdown of slot n, 2n + 1 its life countdown (R95). -/
def claimAt (pos : Fin 128) : ExpiryClaim :=
  { slot := ⟨pos.val / 2, by omega⟩, kind := if pos.val % 2 = 0 then .repair else .life }

/-- The scan position of a claim (R95). -/
def positionOf (c : ExpiryClaim) : Fin 128 :=
  ⟨2 * c.slot.val + (match c.kind with | .repair => 0 | .life => 1), by cases c.kind <;> simp <;> omega⟩

/-- The scan position after a claim, or 0 after position 127 (R95). -/
def positionAfter (c : ExpiryClaim) : Fin 128 := positionOf c + 1

/-- The mark at a scan position. -/
def State.markedAt (s : State) (pos : Fin 128) : Bool :=
  let c := claimAt pos
  (s.timers c.slot).mark c.kind

/-- The first position with a set mark, searching from the scan position upward and on from position 0 (R95). -/
def State.firstMarked (s : State) : Option (Fin 128) :=
  ((List.finRange 128).map fun d => s.timer.scan + d).find? s.markedAt

/-- When the timer unit has no claim presented and a mark is set, it presents the claim of the first marked position
(R95). -/
def presentExpiry (s : State) : State :=
  match s.timer.claim with
  | some _ => s
  | none => { s with timer := { s.timer with claim := s.firstMarked.map claimAt } }

/-! ### Looking a key up (R28, R39, R40) -/

/-- The context of a slot bears the key: it is not FREE and its key is the one sought (R28). -/
def State.bears (s : State) (k : Key) (i : Slot) : Bool :=
  (s.ctx i).state != .free && (s.ctx i).key == some k

/-- The lookup of a key in the four ways of its set (R28). -/
def State.lookup (s : State) (k : Key) : Option Slot := (slotsOfSet (setOf k)).find? (s.bears k)

/-- The FREE way of a set with the lowest way number (R39). -/
def State.freeWay (s : State) (t : SetId) : Option Slot :=
  (slotsOfSet t).find? fun i => (s.ctx i).state == .free

/-- COLLECTING or REPAIRING: the states an expiry or an ABORT acts on (R69, R96). -/
def Context.gathering (c : Context) : Bool := c.state == .collecting || c.state == .repairing

/-- Eligible for displacement: COLLECTING or REPAIRING and not pinned (R40). -/
def Context.eligible (c : Context) : Bool := c.gathering && !c.pinned

/-- The victim: the eligible context whose way stands earliest in its set's open-order list (R40). -/
def State.victim (s : State) (t : SetId) : Option Slot :=
  ((s.order t).map (slotOf t)).find? fun i => (s.ctx i).eligible

/-! ### Reports (R124 to R127) -/

/-- The failure entries in the queue (R124). -/
def failureCount (l : List ReportEntry) : Nat := (l.filter fun e => !e.isSuccess).length

/-- The success entries in the queue (R124). -/
def successCount (l : List ReportEntry) : Nat := (l.filter fun e => e.isSuccess).length

/-- An entry appended at the tail raises REPORT_ADDED (R126). -/
def appendEntry (e : ReportEntry) (s : State) : State :=
  raise .reportAdded { s with reports := s.reports ++ [e] }

/-- A failure entry, or in its place UNREPORTED and REPORT_LOST when the queue holds 16 (R127). -/
def appendFailure (e : ReportEntry) (s : State) : State :=
  if failureCount s.reports < 16 then appendEntry e s
  else raise .reportLost (countUnreported s)

/-- The failure entry of a context as it stands (R37, R125). -/
def failureEntry (st : ReportStatus) (k : Key) (c : Context) : ReportEntry :=
  { status := st, slot := none, key := k, length := none, count := c.count, fragments := some c.frags.length
    highest := c.highest, attemptsUsed := c.attemptsUsed }

/-- The OVERSIZE entry of a first fragment refused without a context (R63). -/
def refusalEntry (k : Key) : ReportEntry := failureEntry .oversize k Context.freed

/-- The success entry of a completed context (R61, R125). -/
def successEntry (i : Slot) (k : Key) (c : Context) : ReportEntry :=
  { status := .complete, slot := some i, key := k, length := some c.storedBytes, count := c.count, fragments := none
    highest := none, attemptsUsed := c.attemptsUsed }

/-! ### Replies (R110) -/

/-- A reply offered to a reply queue: admitted at the tail when the receiver is not OFF and the queue holds 0 to 7
entries, and otherwise dropped and counted (R110). -/
def offerReply (p : PortId) (r : Reply) (s : State) : State :=
  if (s.port p).rx.state ≠ .off ∧ (s.port p).replies.length < 8 then
    s.modifyPort p fun q => { q with replies := q.replies ++ [r] }
  else count p .repliesDropped s

/-- Every queued reply discarded and counted (R20, R21). -/
def discardReplies (p : PortId) (s : State) : State :=
  countMany p .repliesDropped (s.port p).replies.length (s.modifyPort p fun q => { q with replies := [] })

/-! ### The context table (R35 to R37) -/

/-- The drain port unbound, with the position and the length 0 (R133). -/
def unbindDrain (s : State) : State := s.setDrain { s.drain with bound := none, pos := 0, len := 0 }

/-- The segments of a context in fragment-list order and, within an entry, in segment order (R36). -/
def contextSegs (c : Context) : List Seg := c.frags.flatMap (·.segs)

/-- PORT_HELD changed for the port of a context. -/
def lowerHeld (c : Context) (s : State) : State :=
  match c.key with
  | some k => s.modifyPort k.port fun q => { q with held := q.held - c.heldSegs }
  | none => s

/-- Freeing a context (R36): its segments to the backlog tail, PORT_HELD lowered, countdowns and marks cleared, the way
taken from the open-order list, the drain port unbound if it was DRAINING, the fields at their FREE values. -/
def freeContext (i : Slot) (s : State) : State :=
  let c := s.ctx i
  let s := { s with pool := { s.pool with backlog := s.pool.backlog ++ contextSegs c } }
  let s := lowerHeld c s
  let s := clearCountdowns i s
  let s := s.setOrder (setOfSlot i) ((s.order (setOfSlot i)).filter fun w => w != wayOfSlot i)
  let s := if c.state = .draining then unbindDrain s else s
  s.setCtx i Context.freed

/-- A context fails (R37): the failure entry, RECORDS_FAILED on its port, the freeing. A context with no key, which is
FREE (R30), has nothing to fail. -/
def failContext (i : Slot) (st : ReportStatus) (s : State) : State :=
  match (s.ctx i).key with
  | some k => freeContext i (count k.port .recordsFailed (appendFailure (failureEntry st k (s.ctx i)) s))
  | none => s

/-- Opening a context in a FREE way (R35): key, state, pinned, and the way at the tail of the open-order list. -/
def openContext (i : Slot) (k : Key) (st : CtxState) (pinned : Bool) (s : State) : State :=
  let s := s.setCtx i { Context.freed with state := st, key := some k, pinned := pinned }
  s.setOrder (setOfSlot i) (s.order (setOfSlot i) ++ [wayOfSlot i])

/-! ### Recent-completion lists (R118 to R121) -/

/-- The entry of a port's list for (station, tag) (R121). -/
def State.recentEntry (s : State) (k : Key) : Option RecentEntry :=
  (s.port k.port).recent.find? fun e => e.station == k.station && e.tag == k.tag

/-- The key's entry removed; the others keep their order (R120). -/
def forgetKey (k : Key) (s : State) : State :=
  s.modifyPort k.port fun q => { q with recent := q.recent.filter fun e => !(e.station == k.station && e.tag == k.tag) }

/-- A key appended as the newest entry, the oldest of 8 removed first (R119). -/
def rememberKey (k : Key) (n : Nat) (s : State) : State :=
  s.modifyPort k.port fun q =>
    { q with recent := (if 8 ≤ q.recent.length then q.recent.drop 1 else q.recent) ++
        [{ station := k.station, tag := k.tag, count := n }] }

/-! ### The table controller's rotation (R45, R46) -/

/-- Receiver `p` presents a frame claim: no buffer of the port is IN SERVICE and at least one is WAITING (R15). -/
def State.frameClaim (s : State) (p : PortId) : Bool :=
  !(s.port p).staging.isEmpty && !((s.port p).staging.any (·.inService))

/-- The claimant presents a claim (R46). -/
def State.presents (s : State) : Claimant → Bool
  | .receiver p => s.frameClaim p
  | .timer => s.timer.claim.isSome
  | .command => s.cmd.inFlight.isSome

/-- The claimants in rotation order (R45). -/
def rotation : List Claimant := [.receiver 0, .receiver 1, .receiver 2, .receiver 3, .timer, .command]

/-- The place of a claimant in the rotation. -/
def Claimant.rank : Claimant → Nat
  | .receiver p => p.val
  | .timer => 4
  | .command => 5

/-- The six claimants, the first after `c` first and `c` itself last (R45). -/
def rotationAfter (c : Claimant) : List Claimant := rotation.rotate (c.rank + 1)

/-- The claim the table controller takes next: none while a claim is in service (R44), and else that of the first
presenting claimant after the one served last (R45). -/
def State.nextClaimant (s : State) : Option Claimant :=
  match s.table.service with
  | some _ => none
  | none => (rotationAfter s.table.lastServed).find? s.presents

/-! ### Staging buffers (R15, R16) -/

/-- The older WAITING buffer of the port becomes IN SERVICE (R15). -/
def serveFrame (p : PortId) (s : State) : State :=
  s.modifyPort p fun q =>
    { q with staging := match q.staging with
        | f :: rest => { f with inService := true } :: rest
        | [] => [] }

/-- The buffer in service returns to FREE (R16). -/
def releaseFrame (p : PortId) (s : State) : State :=
  s.modifyPort p fun q => { q with staging := q.staging.filter fun f => !f.inService }

/-! ### Segments, the fill engine and the bank arbiter (R56 to R58, R83, R84) -/

/-- The room check of R56 for `n` segments on port `p`: true when the fragment passes. -/
def State.hasRoom (s : State) (p : PortId) (n : Nat) : Bool :=
  decide (n ≤ s.poolFree) && decide ((s.port p).held + n ≤ (s.port p).quota.toNat)

/-- Allocation of `n` segments from the free-list head (R57): PORT_HELD rises, and POOL_LOW is raised when POOL_FREE
goes from at or above the threshold to below it (R82). -/
def allocate (p : PortId) (n : Nat) (s : State) : State :=
  let before := s.poolFree
  let s := { s with pool := { s.pool with freeList := s.pool.freeList.drop n } }
  let s := s.modifyPort p fun q => { q with held := q.held + n }
  if s.pool.low.toNat ≤ before ∧ s.poolFree < s.pool.low.toNat then raise .poolLow s else s

/-- The bank the fill engine holds: that of the segment it is writing (R83). -/
def State.fillBank (s : State) : Option Bank :=
  match s.table.service with
  | some c => if c.waiting then none else c.segs[c.current]?.map bankOf
  | none => none

/-- The banks a waiting read still needs (R84). -/
def State.readNeeds (s : State) : List Bank :=
  match s.drain.held with
  | some h => h.needs
  | none => []

/-- The states of a bank arbiter (R83). -/
inductive BankState where
  | idle
  | fill
  | read
  deriving DecidableEq, Repr

/-- The state of a bank's arbiter (R83, log 23): FILL while the fill engine writes a segment in it, READ while it is
granted to a held read for its next access, IDLE otherwise. -/
def State.bankState (s : State) (b : Bank) : BankState :=
  if s.fillBank = some b then .fill
  else if s.readNeeds.head? = some b then .read
  else .idle

/-- WAIT# is asserted while a DRAIN_DATA read is held (R85). -/
def State.wait (s : State) : Bool := s.drain.held.isSome

/-- The fill engine waits to begin a segment in a bank that a waiting read still needs (R84). -/
def State.fillBlocked (s : State) (g : Seg) : Bool := s.readNeeds.contains (bankOf g)

/-- The fill engine goes on when the read has given back its banks (R84). -/
def resumeFill (s : State) : State :=
  s.setService (s.table.service.map fun c => { c with waiting := false })

/-! ### The command unit (R147) -/

/-- The completion of a command in one step: status, all ten results, BUSY clear, CMD_DONE (R147). -/
def completeCommand (st : CommandStatus) (results : List Word) (s : State) : State :=
  raise .cmdDone { s with cmd := { s.cmd with status := st.code, results := resultWords results, inFlight := none } }

/-! ### The host bus -/

/-- The host port takes an access: RESET# is not asserted (R185) and no DRAIN_DATA read is held, since the bus carries
one access at a time (R176). -/
def State.busFree (s : State) : Bool := s.host.phase != .resetAsserted && s.drain.held.isNone

/-! ### Resets (R184, R185) -/

/-- The divider as a reset's end or a tick loads it: TICK x 256, or stopped if TICK is 0 (R89). -/
def dividerLoad (tick : Word) : Option Nat := if tick = 0#16 then none else some (tick.toNat * 256)

/-- A port at a soft reset (R26): everything as after hardware reset, but the configuration kept. -/
def Port.softReset (q : Port) : Port :=
  { Port.reset with
    reclaim := q.reclaim, attempts := q.attempts, addr := q.addr, rate := q.rate, quota := q.quota, gap := q.gap
    repair := q.repair, life := q.life, reclimit := q.reclimit }

/-- A soft reset, taken as one event (R184): every block emptied, the configuration, TICK, POOL_LOW, EVENT_ENABLE,
PORT_SELECT and buffer memory kept, the divider loaded and the walk begun at step 0. -/
def softResetState (s : State) : State :=
  { s with
    ports := s.ports.map Port.softReset
    table := Table.reset
    pool := { freeList := [], backlog := [], low := s.pool.low }
    timer := { tick := s.timer.tick, divider := dividerLoad s.timer.tick
               slots := Vector.replicate 64 SlotTimers.cleared, scan := 0, claim := none }
    reports := []
    drain := { DrainPort.reset with readData := s.drain.readData }
    cmd := CommandUnit.reset
    stats := { events := 0#9, enable := s.stats.enable, unreported := 0#16, unreportedLimit := false }
    host := { phase := .walking 0, softReset := true, portSelect := s.host.portSelect } }

/-- The assertion of RESET# (R185): every block emptied and every register at its value after hardware reset. Buffer
memory stands (R74), as do the model's queue and its count of free values. -/
def resetAssert (s : State) : State :=
  { State.held with mem := s.mem, free := s.free, pending := s.pending }

/-- The deassertion of RESET# (R185): the divider is loaded (R89) and the walk begins at step 0 (R86). -/
def resetDeassert (s : State) : State :=
  { s with
    timer := { s.timer with divider := dividerLoad s.timer.tick }
    host := { s.host with phase := .walking 0 } }

end Sys2Proof.Machine
end

