-- ==== Sys2Proof/Machine/Frames.lean ====
section
/-! DEFINITION. Frame claims at the table controller: FRAG, ABORT and QUERY (chapter 3), displacement (R41), and the fill
copy with the store that follows it (R57 to R61, R83). -/

namespace Sys2Proof.Machine

/-- The table controller takes its next claim when that is a frame claim of the given kind: the older WAITING buffer of
the port becomes IN SERVICE, and the port is the claimant served last (R15, R45, R50). Otherwise this event does not
occur (log 1). -/
def takeFrame (kind : Byte) (handle : PortId → StagedFrame → State → State) (s : State) : State :=
  match s.nextClaimant with
  | some (.receiver p) =>
    match (s.port p).staging with
    | f :: _ => if f.kind = kind then handle p f (serveFrame p (s.setLastServed (.receiver p))) else s
    | [] => s
  | _ => s

/-! ### The store (R57 to R61) -/

/-- A fragment entry inserted at the position its index takes in increasing order (R31, R59). -/
def insertFrag (e : FragEntry) : List FragEntry → List FragEntry
  | [] => [e]
  | x :: rest => if e.index < x.index then e :: x :: rest else x :: insertFrag e rest

/-- Highest after the insertion of an index (R59). -/
def raiseHighest (h : Option (Fin 64)) (i : Fin 64) : Option (Fin 64) :=
  match h with
  | some h => some (max h i)
  | none => some i

/-- The context after the insertion of the entry of a store (R59). -/
def Context.insert (c : Context) (st : StoreClaim) : Context :=
  { c with
    frags := insertFrag { index := st.index, length := st.payload.length, segs := st.segs } c.frags
    storedBytes := c.storedBytes + st.payload.length
    heldSegs := c.heldSegs + st.segs.length
    highest := raiseHighest c.highest st.index
    count := if st.last then some (st.index.val + 1) else c.count }

/-- The insertion of R59, with FRAGS_STORED counted. -/
def insertEntry (st : StoreClaim) (s : State) : State :=
  count st.port .fragsStored (s.setCtx st.slot ((s.ctx st.slot).insert st))

/-- The countdown and attempt loads of R60, by the state in which the claim found the context. -/
def loadAfterStore (st : StoreClaim) (s : State) : State :=
  let q := s.port st.port
  let c := s.ctx st.slot
  match st.prior with
  | .repairing => loadRepair st.slot (repairLoad q.repair) s
  | .collecting => loadRepair st.slot (gapLoad q.gap) s
  | _ =>
    let s := s.setCtx st.slot { c with state := .collecting, attemptsLeft := q.attempts.toNat, attemptsUsed := 0 }
    loadRepair st.slot (gapLoad q.gap) (loadLife st.slot (gapLoad q.life) s)

/-- The record is complete: its count is known and its list holds count entries (R61). -/
def Context.complete (c : Context) : Bool := c.count == some c.frags.length

/-- Completion (R61): DONE, countdowns and marks cleared, the success entry, RECORDS_COMPLETE, the ACCEPT. -/
def completeRecord (p : PortId) (i : Slot) (k : Key) (s : State) : State :=
  let c := s.ctx i
  let s := s.setCtx i { c with state := .done }
  let s := clearCountdowns i s
  let s := appendEntry (successEntry i k c) s
  let s := count p .recordsComplete s
  offerReply p (acceptReply k (c.count.getD 0)) s

/-- The completion test of R61. -/
def completeIfFull (p : PortId) (i : Slot) (s : State) : State :=
  match (s.ctx i).key with
  | some k => if (s.ctx i).complete then completeRecord p i k s else s
  | none => s

/-- The end of the fill copy: insertion, loads and completion test, after which the claim is over and its staging buffer
FREE (R59 to R61, R50). -/
def finishStore (st : StoreClaim) (s : State) : State :=
  let s := insertEntry st s
  let s := loadAfterStore st s
  let s := completeIfFull st.port st.slot s
  releaseFrame st.port (s.setService none)

/-- The store of a fragment begins: allocation (R57), and the fill engine begins segment 0 of the list or waits for a
bank that a held read still needs (R58, R83, R84). The claim stays in service (log 10). -/
def beginStore (p : PortId) (i : Slot) (prior : CtxState) (f : StagedFrame) (s : State) : State :=
  let n := segsNeeded f.payload.length
  let segs := s.pool.freeList.take n
  let s := allocate p n s
  s.setService (some
    { port := p, slot := i, index := f.index, last := f.last, prior := prior, payload := f.payload, segs := segs
      current := 0, waiting := segs.head?.any s.fillBlocked })

/-! ### FRAG (R50 to R68) -/

/-- A late fragment or a fragment of a recent key: discarded, FRAGS_DUPLICATE counted, answered with ACCEPT (R62, R68). -/
def answerLate (p : PortId) (k : Key) (n : Nat) (s : State) : State :=
  releaseFrame p (offerReply p (acceptReply k n) (count p .fragsDuplicate s))

/-- A refused fragment: HOLD, FRAGS_HELD, the payload discarded (R56, R64). -/
def refuseFrag (p : PortId) (f : StagedFrame) (s : State) : State :=
  releaseFrame p (count p .fragsHeld (offerReply p (holdReply (f.key p) f.indexByte) s))

/-- The index is already stored (R53). -/
def Context.hasIndex (c : Context) (i : Fin 64) : Bool := c.frags.any fun e => e.index == i

/-- The fragment disagrees with the known count or with highest (R54). -/
def Context.inconsistent (c : Context) (i : Fin 64) (last : Bool) : Bool :=
  if last then
    (match c.count with | some n => i.val + 1 != n | none => false) ||
    (match c.highest with | some h => decide (i < h) | none => false)
  else
    match c.count with
    | some n => decide (n ≤ i.val)
    | none => false

/-- The checks of R52 on a FRAG for an EXPECTING, COLLECTING or REPAIRING context, in their order: duplicate (R53),
consistency (R54), size (R55), room (R56); then the store. -/
def fragOnContext (p : PortId) (i : Slot) (f : StagedFrame) (s : State) : State :=
  let c := s.ctx i
  let q := s.port p
  let len := f.payload.length
  if c.hasIndex f.index then releaseFrame p (count p .fragsDuplicate s)
  else if c.inconsistent f.index f.last then releaseFrame p (failContext i .inconsistent s)
  else if q.reclimit.toNat < c.storedBytes + len then releaseFrame p (failContext i .oversize s)
  else if s.hasRoom p (segsNeeded len) then beginStore p i c.state f s
  else refuseFrag p f s

/-- The store into a way opened for the key (R65). -/
def openAndStore (p : PortId) (i : Slot) (f : StagedFrame) (s : State) : State :=
  beginStore p i .free f (openContext i (f.key p) .collecting false s)

/-- The way search of R64: a FREE way, or with RECLAIM the displacement of the victim (R41), or a HOLD. -/
def findWay (p : PortId) (f : StagedFrame) (s : State) : State :=
  let t := setOf (f.key p)
  match s.freeWay t with
  | some i => openAndStore p i f s
  | none =>
    if (s.port p).reclaim then
      match s.victim t with
      | some i => openAndStore p i f (failContext i .displaced s)
      | none => refuseFrag p f s
    else refuseFrag p f s

/-- A first fragment longer than PORT_RECLIMIT (R63): an OVERSIZE failure entry and RECORDS_FAILED. -/
def refuseOversize (p : PortId) (f : StagedFrame) (s : State) : State :=
  releaseFrame p (count p .recordsFailed (appendFailure (refusalEntry (f.key p)) s))

/-- The first-fragment path (R62 to R65). -/
def firstFragment (p : PortId) (f : StagedFrame) (s : State) : State :=
  match s.recentEntry (f.key p) with
  | some e => answerLate p (f.key p) e.count s
  | none =>
    if (s.port p).reclimit.toNat < f.payload.length then refuseOversize p f s
    else if s.hasRoom p (segsNeeded f.payload.length) then findWay p f s
    else refuseFrag p f s

/-- The handling of a FRAG (R50): by the lookup and the context's state. -/
def handleFrag (p : PortId) (f : StagedFrame) (s : State) : State :=
  match s.lookup (f.key p) with
  | some i =>
    match (s.ctx i).state with
    | .done | .draining => answerLate p (f.key p) ((s.ctx i).count.getD 0) s
    | _ => fragOnContext p i f s
  | none => firstFragment p f s

/-- FRAG (R50). -/
def execFrag (s : State) : Host.Outcome State Fault Refusal := .next (takeFrame kindFrag handleFrag s)

/-! ### ABORT (R69, R70) -/

/-- The effect of an ABORT: a COLLECTING or REPAIRING context fails with ABORTED (R69); on a DONE or DRAINING context or a
recent key it is a late abort (R70); otherwise it does nothing. -/
def abortEffect (p : PortId) (f : StagedFrame) (s : State) : State :=
  match s.lookup (f.key p) with
  | some i =>
    match (s.ctx i).state with
    | .collecting | .repairing => failContext i .aborted s
    | .done | .draining => count p .fragsDuplicate s
    | _ => s
  | none =>
    match s.recentEntry (f.key p) with
    | some _ => count p .fragsDuplicate s
    | none => s

/-- The handling of an ABORT, after which its staging buffer is FREE (R16). -/
def handleAbort (p : PortId) (f : StagedFrame) (s : State) : State := releaseFrame p (abortEffect p f s)

/-- ABORT (R69). -/
def execAbort (s : State) : Host.Outcome State Fault Refusal := .next (takeFrame kindAbort handleAbort s)

/-! ### QUERY (R72) -/

/-- The state code and bitmap of a STATUS (R72). -/
def State.queryAnswer (s : State) (k : Key) : Byte × BitVec 64 :=
  match s.lookup k with
  | some i =>
    match (s.ctx i).state with
    | .expecting => (1#8, 0#64)
    | .collecting | .repairing => (2#8, receivedBitmap (s.ctx i).frags)
    | .done | .draining => (3#8, 0#64)
    | .free => (0#8, 0#64)
  | none =>
    match s.recentEntry k with
    | some _ => (3#8, 0#64)
    | none => (0#8, 0#64)

/-- The handling of a QUERY: a STATUS is offered (R72). -/
def handleQuery (p : PortId) (f : StagedFrame) (s : State) : State :=
  let a := s.queryAnswer (f.key p)
  releaseFrame p (offerReply p (statusReply (f.key p) a.1 a.2) s)

/-- QUERY (R72). -/
def execQuery (s : State) : Host.Outcome State Fault Refusal := .next (takeFrame kindQuery handleQuery s)

/-! ### FILL_SEGMENT_END (R83) -/

/-- The sixteenth word write of the current segment of a store ends: the segment stands written and its bank is given
back; then the next segment begins, or waits for a read that needs its bank (R84), or after the last one the fill copy
ends. -/
def endSegment (st : StoreClaim) (s : State) : State :=
  let s := match st.segs[st.current]? with
    | some g => { s with mem := writeSegment st.payload st.current g s.mem }
    | none => s
  match st.segs[st.current + 1]? with
  | some g => s.setService (some { st with current := st.current + 1, waiting := s.fillBlocked g })
  | none => finishStore st s

/-- FILL_SEGMENT_END (R83, R84, R59): only while the fill engine writes a segment. -/
def execFillSegmentEnd (s : State) : Host.Outcome State Fault Refusal :=
  match s.table.service with
  | some st => .next (if st.waiting then s else endSegment st s)
  | none => .next s

end Sys2Proof.Machine
end

