-- ==== Sys2Proof/Machine/PoolMoves.lean ====
section
/-! DEFINITION. The return engine (R79). -/

namespace Sys2Proof.Machine

/-- RETURN_MOVE (R79): at the end of a move the backlog head joins the free-list tail in one step. It runs whatever the
rest of the device does; with an empty backlog the engine is IDLE and no move ends. -/
def execReturnMove (s : State) : Host.Outcome State Fault Refusal :=
  match s.pool.backlog with
  | g :: rest => .next { s with pool := { s.pool with freeList := s.pool.freeList ++ [g], backlog := rest } }
  | [] => .next s

end Sys2Proof.Machine
end

