-- ==== Sys2Proof/Machine/Commands.lean ====
section
/-! DEFINITION. The command unit and the table commands (chapter 8), with TAKE and RELEASE (R130, R131, R140). -/

namespace Sys2Proof.Machine

/-! ### Writing CMD (R144, R145) -/

/-- A command accepted that completes at once in the command unit (R144 cases 1, 3 and 4). -/
def completeAtOnce (code : Byte) (st : CommandStatus) (s : State) : State :=
  completeCommand st [] { s with cmd := { s.cmd with cmd := code } }

/-- A command accepted for the table: operands captured, the code stored, BUSY set and the claim presented (R144 case 5). A
NEXT starts at its slot operand and a PURGE at slot 0 (R47). -/
def acceptCommand (code : Byte) (c : CommandCode) (s : State) : State :=
  { s with cmd := { s.cmd with
      cmd := code
      inFlight := some { code := c, operands := s.cmd.operands
                         slot := if c = .next then opSlotId s.cmd.operands else 0
                         freed := 0, segments := 0 } } }

/-- A host write to CMD, decided in the order of R144; bits 8 to 15 are ignored (R180). -/
def writeCmd (v : Word) (s : State) : State :=
  let code := v.extractLsb' 0 8
  if s.initialising then completeAtOnce code .notReady s
  else if s.cmd.inFlight.isSome then raise .cmdOverrun s
  else
    match commandOf code with
    | none => completeAtOnce code .badCommand s
    | some c =>
      if operandsOk c s.cmd.operands then acceptCommand code c s
      else completeAtOnce code .badOperand s

/-- The CMD write of a row: the ignored byte above the code, at the host port. -/
def commandWrite (upper code : Byte) (s : State) : Host.Outcome State Fault Refusal :=
  .next (if s.busFree then writeCmd (upper ++ code) s else s)

/-- TAKE (R130, R163): written to CMD; its claim does the work. -/
def execTake (upper : Byte) (s : State) : Host.Outcome State Fault Refusal := commandWrite upper 1#8 s

/-- RELEASE (R140, R163). -/
def execRelease (upper : Byte) (s : State) : Host.Outcome State Fault Refusal := commandWrite upper 2#8 s

/-- LOOKUP (R150). -/
def execLookup (upper : Byte) (s : State) : Host.Outcome State Fault Refusal := commandWrite upper 3#8 s

/-- NEXT (R152). -/
def execNext (upper : Byte) (s : State) : Host.Outcome State Fault Refusal := commandWrite upper 4#8 s

/-- RESERVE (R154). -/
def execReserve (upper : Byte) (s : State) : Host.Outcome State Fault Refusal := commandWrite upper 5#8 s

/-- PIN (R156). -/
def execPin (upper : Byte) (s : State) : Host.Outcome State Fault Refusal := commandWrite upper 6#8 s

/-- UNPIN (R156). -/
def execUnpin (upper : Byte) (s : State) : Host.Outcome State Fault Refusal := commandWrite upper 7#8 s

/-- CANCEL (R157). -/
def execCancel (upper : Byte) (s : State) : Host.Outcome State Fault Refusal := commandWrite upper 8#8 s

/-- PURGE (R159). -/
def execPurge (upper : Byte) (s : State) : Host.Outcome State Fault Refusal := commandWrite upper 9#8 s

/-- FORGET (R162). -/
def execForget (upper : Byte) (s : State) : Host.Outcome State Fault Refusal := commandWrite upper 10#8 s

/-- BAD_COMMAND (R144): a CMD write of an unknown code. -/
def execBadCommand (value : Word) (s : State) : Host.Outcome State Fault Refusal :=
  .next (if s.busFree then writeCmd value s else s)

/-! ### The work of the claims -/

/-- The binding of the drain port by a TAKE of a success entry (R131). -/
def bindDrain (i : Slot) (len : Nat) (s : State) : State :=
  let s := s.setCtx i { s.ctx i with state := .draining }
  s.setDrain { s.drain with bound := some i, pos := 0, len := len }

/-- The head entry taken from the queue, with its fields in RESULT0 to RESULT5 (R130). -/
def takeHead (e : ReportEntry) (s : State) : State :=
  completeCommand .ok (reportWords e) { s with reports := s.reports.drop 1 }

/-- The work of a TAKE claim (R130). -/
def claimTake (s : State) : State :=
  match s.reports with
  | [] => completeCommand .noReport [] s
  | e :: _ =>
    match e.slot with
    | none => takeHead e s
    | some i =>
      if s.drain.bound.isSome then completeCommand .drainBusy [] s
      else takeHead e (bindDrain i (e.length.getD 0) s)

/-- The work of a RELEASE claim (R140): the key to the recent-completion list, the context freed, the drain port unbound. -/
def claimRelease (s : State) : State :=
  match s.drain.bound with
  | none => completeCommand .notDraining [] s
  | some i =>
    let c := s.ctx i
    let s := match c.key with
      | some k => rememberKey k (c.count.getD 0) s
      | none => s
    completeCommand .ok [word i.val, word c.heldSegs, word c.storedBytes] (unbindDrain (freeContext i s))

/-- The work of a LOOKUP claim (R150, R151). -/
def claimLookup (k : Key) (s : State) : State :=
  match s.lookup k with
  | some i => completeCommand .ok (contextResults i (s.ctx i)) s
  | none => completeCommand .notFound [] s

/-- The work of a RESERVE claim, in the order of R154. -/
def claimReserve (k : Key) (pinned : Bool) (s : State) : State :=
  match s.lookup k with
  | some i => completeCommand .exists [word i.val, word (s.ctx i).state.code] s
  | none =>
    match s.freeWay (setOf k) with
    | none => completeCommand .setFull [] s
    | some i => completeCommand .ok [word i.val] (forgetKey k (openContext i k .expecting pinned s))

/-- A context that PIN, UNPIN and CANCEL act on: EXPECTING, COLLECTING or REPAIRING (R156, R157). -/
def Context.unfinished (c : Context) : Bool := c.state == .expecting || c.gathering

/-- WRONG_STATE: the slot, and the state code and pinned value (R156, R157). -/
def wrongState (i : Slot) (s : State) : State :=
  completeCommand .wrongState [word i.val, statePinnedWord (s.ctx i)] s

/-- The work of a PIN or UNPIN claim, which sets pinned to `v` (R156). -/
def setPinned (v : Bool) (k : Key) (s : State) : State :=
  match s.lookup k with
  | none => completeCommand .notFound [] s
  | some i =>
    let c := s.ctx i
    if c.unfinished then
      let c' := { c with pinned := v }
      completeCommand .ok [word i.val, statePinnedWord c', flagAt c.pinned 0] (s.setCtx i c')
    else wrongState i s

/-- The work of a CANCEL claim (R157). -/
def claimCancel (k : Key) (s : State) : State :=
  match s.lookup k with
  | none => completeCommand .notFound [] s
  | some i =>
    let c := s.ctx i
    if c.unfinished then
      completeCommand .ok [word i.val, word c.heldSegs, word c.storedBytes] (freeContext i s)
    else wrongState i s

/-- The work of a FORGET claim (R162). -/
def claimForget (all : Bool) (k : Key) (s : State) : State :=
  if all then
    completeCommand .ok [word (s.port k.port).recent.length] (s.modifyPort k.port fun q => { q with recent := [] })
  else
    match s.recentEntry k with
    | some e => completeCommand .ok [word e.count] (forgetKey k s)
    | none => completeCommand .notFound [] s

/-- The work of the claim of a command that is not a walk (R149). The walks make visits instead. -/
def commandWork (f : InFlight) (s : State) : State :=
  let k := opKey f.operands
  match f.code with
  | .take => claimTake s
  | .release => claimRelease s
  | .lookup => claimLookup k s
  | .reserve => claimReserve k (opPin f.operands) s
  | .pin => setPinned true k s
  | .unpin => setPinned false k s
  | .cancel => claimCancel k s
  | .forget => claimForget (opAll f.operands) k s
  | .next => s
  | .purge => s

/-! ### Walk visits (R47, R152, R159, R160) -/

/-- The claim for the next slot presented, with the running totals. -/
def nextVisit (f : InFlight) (freed segments : Nat) (s : State) : State :=
  { s with cmd := { s.cmd with inFlight := some { f with slot := f.slot + 1, freed := freed, segments := segments } } }

/-- One visit of a NEXT (R152). -/
def visitNext (f : InFlight) (s : State) : State :=
  if (s.ctx f.slot).state ≠ .free then completeCommand .ok (contextResults f.slot (s.ctx f.slot)) s
  else if f.slot = 63 then completeCommand .notFound [] s
  else nextVisit f 0 0 s

/-- The context is freed by a PURGE of port `p` (R159). -/
def Context.purged (c : Context) (p : PortId) (includePinned : Bool) : Bool :=
  (match c.key with | some k => k.port == p | none => false) && c.unfinished && (!c.pinned || includePinned)

/-- One visit of a PURGE: the context freed when eligible, and the totals (R159); the visit to slot 63 completes it
(R160). -/
def visitPurge (f : InFlight) (s : State) : State :=
  let c := s.ctx f.slot
  let hit := c.purged (opPortId f.operands) (opIncludePinned f.operands)
  let freed := if hit then f.freed + 1 else f.freed
  let segments := if hit then f.segments + c.heldSegs else f.segments
  let s := if hit then freeContext f.slot s else s
  if f.slot = 63 then completeCommand .ok [word freed, word segments] s
  else nextVisit f freed segments s

/-- The work of a visit. -/
def visitWork (f : InFlight) (s : State) : State :=
  match f.code with
  | .next => visitNext f s
  | .purge => visitPurge f s
  | _ => s

/-- The table controller takes the command unit's claim when it is the next claim and of the given kind (R45); otherwise
this event does not occur (log 1). -/
def takeCommand (walk : Bool) (work : InFlight → State → State) (s : State) : State :=
  match s.nextClaimant, s.cmd.inFlight with
  | some .command, some f => if f.code.isWalk = walk then work f (s.setLastServed .command) else s
  | _, _ => s

/-- COMMAND_CLAIM (R149). -/
def execCommandClaim (s : State) : Host.Outcome State Fault Refusal := .next (takeCommand false commandWork s)

/-- WALK_VISIT (R47, R152, R159). -/
def execWalkVisit (s : State) : Host.Outcome State Fault Refusal := .next (takeCommand true visitWork s)

end Sys2Proof.Machine
end

