-- ==== Sys2Proof/Machine/Drain.lean ====
section
/-! DEFINITION. The drain port as the host sees it, and the reads that wait for a bank (R83 to R85, R133 to R138, R141,
R177). -/

namespace Sys2Proof.Machine

/-- What a DRAIN_DATA read at a position below the length finds: the word it returns and the banks it needs, in the order of
its accesses (R84, R135). None when a byte is not there. -/
def State.drainWord (s : State) (i : Slot) (p len : Nat) : Option (Word × List Bank) :=
  match s.recordByte i p with
  | none => none
  | some (g, low) =>
    if p + 1 < len then
      match s.recordByte i (p + 1) with
      | none => none
      | some (g', high) => some (high ++ low, if g' = g then [bankOf g] else [bankOf g, bankOf g'])
    else some (0#8 ++ low, [bankOf g])

/-- A read whose data is driven at once: the word, and the position advanced by 2 (R135, R176). -/
def driveWord (w : Word) (s : State) : State :=
  s.setDrain { s.drain with readData := w, pos := s.drain.pos + 2 }

/-- A read that finds a bank it needs held by the fill engine: WAIT# is asserted, and the read still needs that bank and
those after it; an access to an IDLE bank before it is made at once (R84, R85). -/
def holdRead (b : Bank) (w : Word) (needs : List Bank) (s : State) : State :=
  s.setDrain { s.drain with held := some { pos := s.drain.pos, data := w, needs := needs.dropWhile (· != b) } }

/-- A read that returns 0 and touches no memory (R136). -/
def readZero (s : State) : State := s.setDrain { s.drain with readData := 0#16 }

/-- A read with the port bound and the position below the length (R135, R138). -/
def readRecord (i : Slot) (s : State) : Host.Outcome State Fault Refusal :=
  match s.drainWord i s.drain.pos s.drain.len with
  | none => .fault .unwrittenByte
  | some (w, needs) =>
    match s.fillBank with
    | some b => if needs.contains b then .next (holdRead b w needs s) else .next (driveWord w s)
    | none => .next (driveWord w s)

/-- DRAIN_DATA_READ (R135, R136, R138): while RESET# is asserted a read returns 0 (R185), and so it does during the walk,
with no fault; unbound, or at or above the length, it returns 0 and raises DRAIN_FAULT. While a read is held the bus
carries no other access (R176). -/
def execDrainDataRead (s : State) : Host.Outcome State Fault Refusal :=
  if s.drain.held.isSome then .next s
  else if s.initialising then .next (readZero s)
  else
    match s.drain.bound with
    | none => .next (raise .drainFault (readZero s))
    | some i =>
      if s.drain.len ≤ s.drain.pos then .next (raise .drainFault (readZero s))
      else readRecord i s

/-- The banks a held read still needs are not held by the fill engine. -/
def State.readGranted (s : State) : Bool :=
  match s.fillBank with
  | some b => !s.readNeeds.contains b
  | none => true

/-- The position after a held read's data is driven: 2 above the read's, unless the port has been unbound meanwhile, where
the unbinding stands (R141). -/
def heldAdvance (d : DrainPort) (h : HeldRead) : Nat := if d.bound.isSome then h.pos + 2 else d.pos

/-- DRAIN_READ_GRANT (R84, R85, R141): the held read is granted its banks when the fill engine has given them back; its data
is driven, WAIT# released, and the fill engine goes on. -/
def execDrainReadGrant (s : State) : Host.Outcome State Fault Refusal :=
  match s.drain.held with
  | some h =>
    .next (if s.readGranted then
      resumeFill (s.setDrain { s.drain with held := none, readData := h.data, pos := heldAdvance s.drain h })
    else s)
  | none => .next s

/-- HELD_READ_ENDED (R177): the host ends a read that WAIT# still holds. Its bank requests are withdrawn, the position does
not advance, and what it read is whatever the bus held (log 8). -/
def execHeldReadEnded (s : State) : Host.Outcome State Fault Refusal :=
  match s.drain.held with
  | some _ =>
    .next (resumeFill { s.setDrain { s.drain with held := none, readData := Config.floatingBus s.free } with
      free := s.free + 1 })
  | none => .next s

/-- A write of `v` to DRAIN_POS (R137): the value as written is compared with the length, and then bit 0 is cleared (log 15).
The walk ignores it with no fault. -/
def writeDrainPos (v : Word) (s : State) : State :=
  if s.initialising then s
  else if s.drain.bound.isSome ∧ v.toNat < s.drain.len then
    s.setDrain { s.drain with pos := v.toNat / 2 * 2 }
  else raise .drainFault s

/-- DRAIN_POS_WRITE (R137). -/
def execDrainPosWrite (value : Word) (s : State) : Host.Outcome State Fault Refusal :=
  .next (if s.busFree then writeDrainPos value s else s)

end Sys2Proof.Machine
end

