-- ==== Sys2Proof/Machine/Receiver.lean ====
section
/-! DEFINITION. The receivers: characters, frames and staging (R2, R8 to R15, R21). A character row is one completed
character; what it does depends on the receiver's state (log 13). -/

namespace Sys2Proof.Machine

/-- The receiver of port `p` replaced. -/
def setRx (p : PortId) (r : Receiver) (s : State) : State := s.modifyPort p fun q => { q with rx := r }

/-- The receiver enters OFF at an accepted disable or at its end in STOPPING: the queued replies are discarded and counted,
and PORT_OFF is raised when the transmitter is IDLE (R20, R21). -/
def enterOff (p : PortId) (s : State) : State :=
  let s := discardReplies p (setRx p (Receiver.noFrame .off (.between none)) s)
  match (s.port p).tx with
  | none => raise .portOff s
  | some _ => s

/-- The frame in flight ends: to HUNT from RECEIVING, to OFF from STOPPING (R13, R12, R10, R21). `ch` is where the
receiver then stands on RXDn. -/
def endFrame (p : PortId) (ch : CharPhase) (s : State) : State :=
  if (s.port p).rx.state = .stopping then enterOff p s
  else setRx p (Receiver.noFrame .hunt ch) s

/-- The frame in flight is dropped with FRAMES_BAD counted (R10, R12). -/
def dropFrame (p : PortId) (ch : CharPhase) (s : State) : State := endFrame p ch (count p .framesBad s)

/-- The buffer that receives a frame: the FREE one, and either when both are FREE (R15, log 7). True is buffer B. -/
def State.freeBuffer (s : State) (p : PortId) : Bool :=
  match (s.port p).staging with
  | f :: _ => !f.bufferB
  | [] => Config.eitherBuffer s.free

/-- The assembled frame copied into a FREE staging buffer, which becomes WAITING behind the one that came before
(R15). -/
def stageFrame (p : PortId) (s : State) : State :=
  let rx := (s.port p).rx
  let f : StagedFrame := { bufferB := s.freeBuffer p, inService := false, len := rx.len, body := rx.body }
  let s := s.modifyPort p fun q => { q with staging := q.staging ++ [f] }
  { s with free := s.free + 1 }

/-- A frame's completion with CRC high byte `v`: the CRC is compared, then the overrun test (R13) and the checks of R14
are made, and the frame is staged (R15) or dropped. -/
def judgeFrame (p : PortId) (v : Byte) (s : State) : State :=
  let q := s.port p
  if v ++ q.rx.crcLow ≠ q.rx.crc then count p .framesBad s
  else
    let s := count p .framesGood s
    if 2 ≤ q.staging.length then count p .framesBad s
    else if formOk q.addr q.rx.len q.rx.body then stageFrame p s
    else count p .framesIgnored s

/-- A good character with the value `v` on port `p`, by the receiver's state and position (R9 to R13). It leaves RXDn high, the
level of its stop bit (R2). -/
def takeGood (p : PortId) (v : Byte) (s : State) : State :=
  let r := (s.port p).rx
  let high := CharPhase.between (some true)
  match r.state with
  | .off => s
  | .hunt =>
    if v = 0xC3#8 then
      setRx p { Receiver.noFrame .receiving high with timer := .running } s
    else setRx p { r with char := high } s
  | .receiving | .stopping =>
    match r.position with
    | .awaitingLen =>
      if validLen v then
        setRx p { r with len := v.toNat, position := .bodyByte, crc := crcByte r.crc v, timer := .running, char := high } s
      else dropFrame p high s
    | .bodyByte =>
      let body := r.body ++ [v]
      setRx p { r with
        body := body
        position := if body.length = r.len then .crcLow else .bodyByte
        crc := crcByte r.crc v
        timer := .running
        char := high } s
    | .crcLow => setRx p { r with crcLow := v, position := .crcHigh, timer := .running, char := high } s
    | .crcHigh => endFrame p high (judgeFrame p v s)

/-- A character with a framing error: skipped in HUNT (R9), and inside a frame the frame is dropped (R12). It leaves RXDn low, so
that no edge follows until RXDn has been high again (R2). -/
def takeBad (p : PortId) (s : State) : State :=
  let r := (s.port p).rx
  let low := CharPhase.between (some false)
  match r.state with
  | .off => s
  | .hunt => setRx p { r with char := low } s
  | .receiving | .stopping => dropFrame p low s

/-- A completed character. Only one whose start check was low completes: there is no other (R2, log 1). -/
def takeCharacter (p : PortId) (c : Character) (s : State) : State :=
  match (s.port p).rx.char, c with
  | .startConfirmed, .good v => takeGood p v s
  | .startConfirmed, .framingError => takeBad p s
  | _, _ => s

/-- The samples of RXDn taken up to a start edge, by a receiver that is not OFF and not inside a character (R2). -/
def sampleLine (p : PortId) (samples : List Bool) (s : State) : State :=
  let r := (s.port p).rx
  match r.state, r.char with
  | .off, _ => s
  | _, .between level => setRx p { r with char := findEdge level samples } s
  | _, _ => s

/-- START_EDGE (R2): the samples are compared one with the next; a character begins at a change from high to low. -/
def execStartEdge (line : LineSamples) (s : State) : Host.Outcome State Fault Refusal :=
  .next (sampleLine line.port line.samples s)

/-- The start check of R2: high is a false start; low confirms the character and forestalls a running character timer
(R12). -/
def checkStart (r : Receiver) (level : Bool) : Receiver :=
  if level then { r with char := .between (some true) }
  else { r with char := .startConfirmed, timer := if r.timer = .running then .forestalled else r.timer }

/-- START_CHECK (R2, R12): half a bit time after a start edge. -/
def execStartCheck (p : PortId) (level : Bool) (s : State) : Host.Outcome State Fault Refusal :=
  let r := (s.port p).rx
  .next (if r.state ≠ .off ∧ r.char = .edgeSeen then setRx p (checkStart r level) s else s)

/-- SYNC_RECEIVED (R9). -/
def execSyncReceived (p : PortId) (s : State) : Host.Outcome State Fault Refusal :=
  .next (takeCharacter p (.good 0xC3#8) s)

/-- GOOD_CHARACTER (R10, R11). -/
def execGoodCharacter (p : PortId) (v : Byte) (s : State) : Host.Outcome State Fault Refusal :=
  .next (takeCharacter p (.good v) s)

/-- CHARACTER_SKIPPED (R9). -/
def execCharacterSkipped (p : PortId) (c : Character) (s : State) : Host.Outcome State Fault Refusal :=
  .next (takeCharacter p c s)

/-- BAD_LEN (R10). -/
def execBadLen (p : PortId) (v : Byte) (s : State) : Host.Outcome State Fault Refusal :=
  .next (takeCharacter p (.good v) s)

/-- FRAMING_ERROR (R12). -/
def execFramingError (p : PortId) (s : State) : Host.Outcome State Fault Refusal :=
  .next (takeCharacter p .framingError s)

/-- CHARACTER_TIMEOUT (R12): the character timer runs out, which a confirmed start bit forestalls. A character whose
start is not confirmed yet goes on and is examined in HUNT. -/
def execCharacterTimeout (p : PortId) (s : State) : Host.Outcome State Fault Refusal :=
  let r := (s.port p).rx
  .next (if (r.state = .receiving ∨ r.state = .stopping) ∧ r.timer = .running then dropFrame p r.char s else s)

/-- FRAME_COMPLETION (R13 to R15, R21): the CRC high byte. -/
def execFrameCompletion (p : PortId) (v : Byte) (s : State) : Host.Outcome State Fault Refusal :=
  .next (takeCharacter p (.good v) s)

end Sys2Proof.Machine
end

