-- ==== Sys2Proof/Machine/Reset.lean ====
section
/-! DEFINITION. Power-up, the two resets and the initialization walk (R86, R87, R181, R183 to R185). -/

namespace Sys2Proof.Machine

/-- POWER_UP (R185): the device holds itself in hardware reset and then follows RESET#; if RESET# is already high the
walk begins at once. Buffer memory has nothing written yet (log 6). -/
def execPowerUp (resetHigh : Bool) (s : State) : Host.Outcome State Fault Refusal :=
  let s := { resetAssert s with mem := [] }
  .next (if resetHigh then resetDeassert s else s)

/-- HARDWARE_RESET (R185). -/
def execHardwareReset (s : State) : Host.Outcome State Fault Refusal := .next (resetAssert s)

/-- RESET_DEASSERTED (R185, R86, R89). Only an asserted RESET# is deasserted. -/
def execResetDeasserted (s : State) : Host.Outcome State Fault Refusal :=
  .next (if s.host.phase = .resetAsserted then resetDeassert s else s)

/-- A write to CTRL: 1 in bit 0 is a soft reset, 0 there has no effect, the other bits are ignored (R183). -/
def writeCtrl (v : Word) (s : State) : State := if v.getLsbD 0 then softResetState s else s

/-- SOFT_RESET (R183, R184): the CTRL write, which the host port ignores while RESET# is asserted (R185). -/
def execSoftReset (value : Word) (s : State) : Host.Outcome State Fault Refusal :=
  .next (if s.busFree then writeCtrl value s else s)

/-- The end of step 1023: READY, SOFT_RESET 0 and INIT_DONE, in one step (R86, R181, R183). -/
def endWalk (s : State) : State :=
  raise .initDone { s with host := { s.host with phase := .ready, softReset := false } }

/-- The end of step `k` of the walk: segment `k` joins the free-list tail (R86). -/
def walkStep (k : Fin 1024) (s : State) : State :=
  let s := { s with pool := { s.pool with freeList := s.pool.freeList ++ [k] } }
  if k = 1023 then endWalk s
  else { s with host := { s.host with phase := .walking (k + 1) } }

/-- WALK_STEP (R86): only while the walk runs. -/
def execWalkStep (s : State) : Host.Outcome State Fault Refusal :=
  match s.host.phase with
  | .walking k => .next (walkStep k s)
  | .resetAsserted => .next s
  | .ready => .next s

end Sys2Proof.Machine
end

