-- ==== Sys2Proof/Machine/Transmitter.lean ====
section
/-! DEFINITION. The transmitters (R6, R18, R112). -/

namespace Sys2Proof.Machine

/-- An IDLE transmitter removes the head reply, reads PORT_RATE and PORT_ADDR, builds the frame of R6 and enters SENDING
(R18). -/
def startReply (p : PortId) (s : State) : State :=
  match (s.port p).tx, (s.port p).replies with
  | none, r :: _ =>
    s.modifyPort p fun q =>
      { q with
        replies := q.replies.drop 1
        tx := some { reply := r, rate := q.rate, addr := q.addr, frame := replyFrame r q.addr, inGuard := false } }
  | _, _ => s

/-- TXENn is asserted from the SYNC start bit to the end of the CRC stop bit (R18). -/
def State.txen (s : State) (p : PortId) : Bool :=
  match (s.port p).tx with
  | some t => !t.inGuard
  | none => false

/-- The level that a transmission drives on TXDn in bit time `bit`, counted from the beginning of the SYNC start bit: the characters
of the frame back to back (R1), and high in the guard (R18). Bit times are not counted by the state (logs 2, 20). -/
def Transmission.level (t : Transmission) (bit : Nat) : Bool :=
  if t.inGuard then true else (t.frame.flatMap charLevels).getD bit true

/-- TXDn: the frame being sent, and high whenever the transmitter is not sending a character (R1, R18, R185). -/
def State.txd (s : State) (p : PortId) (bit : Nat) : Bool :=
  match (s.port p).tx with
  | some t => t.level bit
  | none => true

/-- The port is OFF: its receiver is OFF and its transmitter IDLE (R21). -/
def State.portOff (s : State) (p : PortId) : Bool := (s.port p).rx.state == .off && (s.port p).tx.isNone

/-- REPLY_START (R18, R112). -/
def execReplyStart (p : PortId) (s : State) : Host.Outcome State Fault Refusal := .next (startReply p s)

/-- The end of the frame: REPLIES_SENT counted, TXENn deasserted, the guard begun (R18). -/
def endReply (p : PortId) (t : Transmission) (s : State) : State :=
  count p .repliesSent (s.modifyPort p fun q => { q with tx := some { t with inGuard := true } })

/-- REPLY_END (R18): only while a frame is being sent. -/
def execReplyEnd (p : PortId) (s : State) : Host.Outcome State Fault Refusal :=
  match (s.port p).tx with
  | some t => .next (if t.inGuard then s else endReply p t s)
  | none => .next s

/-- The end of the guard: IDLE, and the next reply begun at once (R18); PORT_OFF when this brings the port to OFF
(R21). -/
def endGuard (p : PortId) (s : State) : State :=
  let s := s.modifyPort p fun q => { q with tx := none }
  match (s.port p).replies with
  | _ :: _ => startReply p s
  | [] => if (s.port p).rx.state = .off then raise .portOff s else s

/-- GUARD_END (R18, R21): only while the guard runs. -/
def execGuardEnd (p : PortId) (s : State) : Host.Outcome State Fault Refusal :=
  match (s.port p).tx with
  | some t => .next (if t.inGuard then endGuard p s else s)
  | none => .next s

end Sys2Proof.Machine
end

