-- ==== Sys2Proof/Machine/Registers.lean ====
section
/-! DEFINITION. The register window (R178 to R180): what a host write to each register does, what a host read of each
returns, and the rows that are register writes. -/

namespace Sys2Proof.Machine

/-! ### Port registers (R19 to R23) -/

/-- An enable request on the port's PORT_ADDR (R19). -/
def requestEnable (p : PortId) (s : State) : State :=
  let a := (s.port p).addr.toNat
  if 1 ≤ a ∧ a ≤ 126 then
    s.modifyPort p fun q => { q with rx := Receiver.noFrame .hunt (.between none), configFault := false, enable := true }
  else s.modifyPort p fun q => { q with configFault := true, enable := false }

/-- A disable: ENABLE reads 0, the queued replies are discarded and counted, and the receiver goes to OFF from HUNT, with
its PORT_OFF (R21), or to STOPPING from RECEIVING (R20). -/
def disablePort (p : PortId) (s : State) : State :=
  let s := s.modifyPort p fun q => { q with enable := false }
  if (s.port p).rx.state = .hunt then enterOff p s
  else discardReplies p (setRx p { (s.port p).rx with state := .stopping } s)

/-- The effect of the ENABLE bit of a PORT_CTRL write (R19, R20). -/
def applyEnable (p : PortId) (en : Bool) (s : State) : State :=
  match (s.port p).rx.state with
  | .off => if en && !s.initialising then requestEnable p s else s
  | .hunt | .receiving => if en then s else disablePort p s
  | .stopping => s

/-- A write to PORT_CTRL: RECLAIM and ATTEMPTS are stored in every receiver state (R22), and ENABLE acts as R19 and R20
give. -/
def writePortCtrl (p : PortId) (v : Word) (s : State) : State :=
  applyEnable p (v.getLsbD 0)
    (s.modifyPort p fun q => { q with reclaim := v.getLsbD 1, attempts := v.extractLsb' 4 3 })

/-- A write to PORT_ADDR, accepted while the receiver is OFF (R23). -/
def writePortAddr (p : PortId) (v : Word) (s : State) : State :=
  if (s.port p).rx.state = .off then s.modifyPort p fun q => { q with addr := v.extractLsb' 0 7 } else s

/-- A write to PORT_RATE, accepted while the receiver is OFF; 0 to 15 stores 16 (R3, R23). -/
def writePortRate (p : PortId) (v : Word) (s : State) : State :=
  if (s.port p).rx.state = .off then
    s.modifyPort p fun q => { q with rate := if v.toNat < 16 then 16#16 else v }
  else s

/-! ### Global registers -/

/-- A write to TICK: 0 stops the timebase; a non-zero value starts it when it is stopped, and does not change a count in
progress (R89, R90). -/
def writeTick (v : Word) (s : State) : State :=
  { s with timer := { s.timer with
      tick := v
      divider := if v = 0#16 then none else some (s.timer.divider.getD (v.toNat * 256)) } }

/-- A write to STATUS: 1 in bit 8 clears UNREPORTED with its flag, and nothing else changes (R170, R182). -/
def writeStatus (v : Word) (s : State) : State := if v.getLsbD 8 then clearUnreported s else s

/-- A write to EVENT_ENABLE stores the nine enables (R173). -/
def writeEventEnable (v : Word) (s : State) : State := { s with stats := { s.stats with enable := v.setWidth 9 } }

/-- A write to PORT_SELECT stores bits 0 to 1 (R179). -/
def writePortSelect (v : Word) (s : State) : State := { s with host := { s.host with portSelect := portField v } }

/-- A write to POOL_LOW, 1024 for any value above (R82). -/
def writePoolLow (v : Word) (s : State) : State := { s with pool := { s.pool with low := clampTo 11 1024 v } }

/-- A write to an OPERAND register stores all 16 bits (R143). -/
def writeOperand (i : Fin 4) (v : Word) (s : State) : State :=
  { s with cmd := { s.cmd with operands := s.cmd.operands.set i v } }

/-! ### The register window (R178) -/

/-- A host write delivered to the register's owner; a per-port register is that of the port PORT_SELECT names (R179). A
read-only register ignores it (R178). -/
def writeReg (r : Reg) (v : Word) (s : State) : State :=
  let p := s.host.portSelect
  match r with
  | .ctrl => writeCtrl v s
  | .status => writeStatus v s
  | .events => clearEvents v s
  | .eventEnable => writeEventEnable v s
  | .portSelect => writePortSelect v s
  | .tick => writeTick v s
  | .poolFree => s
  | .poolBacklog => s
  | .poolLow => writePoolLow v s
  | .unreported => clearUnreported s
  | .cmd => writeCmd v s
  | .cmdStatus => s
  | .operand i => writeOperand i v s
  | .result _ => s
  | .reportCount => s
  | .reportHead _ => s
  | .drainData => s
  | .drainPos => writeDrainPos v s
  | .drainLen => s
  | .portCtrl => writePortCtrl p v s
  | .portAddr => writePortAddr p v s
  | .portRate => writePortRate p v s
  | .portQuota => s.modifyPort p fun q => { q with quota := clampTo 11 1024 v }
  | .portHeld => s
  | .portGap => s.modifyPort p fun q => { q with gap := v }
  | .portRepair => s.modifyPort p fun q => { q with repair := v }
  | .portLife => s.modifyPort p fun q => { q with life := v }
  | .portReclimit => s.modifyPort p fun q => { q with reclimit := clampTo 13 6144 v }
  | .portState => s
  | .counter c => clearCounter p c s
  | .portLimits => clearLimits p v s

/-- A host write to a register, which the host port ignores while RESET# is asserted (R185) and cannot take while a read
is held (R176). -/
def hostWrite (r : Reg) (v : Word) (s : State) : State := if s.busFree then writeReg r v s else s

/-- A host write at a byte offset; an offset that selects no register ignores it (R178). -/
def writeRegister (offset : Byte) (v : Word) (s : State) : State :=
  match regAt offset with
  | some r => hostWrite r v s
  | none => s

/-! ### Reads (R176, R178, R180) -/

/-- STATUS (R182). -/
def State.statusWord (s : State) : Word :=
  flagAt (s.host.phase == .ready) 0 ||| flagAt s.stats.unreportedLimit 8

/-- CMD_STATUS (R143, Table 10-4). -/
def State.cmdStatusWord (s : State) : Word := s.cmd.status.setWidth 16 ||| flagAt s.cmd.inFlight.isSome 15

/-- REPORT_COUNT (R128, Table 10-7). -/
def State.reportCountWord (s : State) : Word := word (successCount s.reports + 256 * failureCount s.reports)

/-- REPORT_HEAD0 to REPORT_HEAD5: the head entry, or 0 in all six (R128). -/
def State.reportHeadWord (s : State) (i : Fin 6) : Word :=
  match s.reports with
  | e :: _ => (reportWords e).getD i.val 0#16
  | [] => 0#16

/-- The receiver state as PORT_STATE shows it (Table 10-8). -/
def RxState.code : RxState → Nat
  | .off => 0
  | .hunt => 1
  | .receiving => 2
  | .stopping => 3

/-- PORT_STATE (R24, Table 10-8). -/
def Port.stateWord (q : Port) : Word :=
  word (q.rx.state.code + 16 * q.staging.length + 256 * q.replies.length) |||
    flagAt q.tx.isSome 2 ||| flagAt q.configFault 3

/-- PORT_CTRL (R22, Table 10-8). -/
def Port.ctrlWord (q : Port) : Word :=
  flagAt q.enable 0 ||| flagAt q.reclaim 1 ||| (q.attempts.setWidth 16 <<< 4)

/-- The word a DRAIN_DATA read would return at the drain position: the record bytes, or 0 where it would not touch buffer
memory (R135, R136). The read's own effects are the row DRAIN_DATA_READ. -/
def State.drainDataWord (s : State) : Word :=
  match s.drain.bound with
  | none => 0#16
  | some i =>
    if s.drain.len ≤ s.drain.pos then 0#16
    else match s.drainWord i s.drain.pos s.drain.len with
      | some (w, _) => w
      | none => 0#16

/-- What a host read of a register returns (R176, R180). -/
def readReg (r : Reg) (s : State) : Word :=
  let q := s.port s.host.portSelect
  match r with
  | .ctrl => flagAt s.host.softReset 0
  | .status => s.statusWord
  | .events => s.stats.events.setWidth 16
  | .eventEnable => s.stats.enable.setWidth 16
  | .portSelect => word s.host.portSelect.val
  | .tick => s.timer.tick
  | .poolFree => word s.poolFree
  | .poolBacklog => word s.poolBacklog
  | .poolLow => s.pool.low.setWidth 16
  | .unreported => s.stats.unreported
  | .cmd => s.cmd.cmd.setWidth 16
  | .cmdStatus => s.cmdStatusWord
  | .operand i => s.cmd.operands[i]
  | .result i => s.cmd.results[i]
  | .reportCount => s.reportCountWord
  | .reportHead i => s.reportHeadWord i
  | .drainData => s.drainDataWord
  | .drainPos => word s.drain.pos
  | .drainLen => word s.drain.len
  | .portCtrl => q.ctrlWord
  | .portAddr => q.addr.setWidth 16
  | .portRate => q.rate
  | .portQuota => q.quota.setWidth 16
  | .portHeld => word q.held
  | .portGap => q.gap
  | .portRepair => q.repair
  | .portLife => q.life
  | .portReclimit => q.reclimit.setWidth 16
  | .portState => q.stateWord
  | .counter c => s.counter s.host.portSelect c
  | .portLimits => q.limits.setWidth 16

/-- What a host read at a byte offset returns: 0 while RESET# is asserted (R185) and where no register is selected
(R178). Reads other than DRAIN_DATA change no state (R176), so they are this function and no command (log 21). -/
def readRegister (offset : Byte) (s : State) : Word :=
  if s.host.phase = .resetAsserted then 0#16
  else match regAt offset with
    | some r => readReg r s
    | none => 0#16

/-! ### The rows -/

/-- PORT_ENABLE (R19, R22). -/
def execPortEnable (v : Word) (s : State) : Host.Outcome State Fault Refusal := .next (hostWrite .portCtrl v s)

/-- PORT_DISABLE (R20, R22). -/
def execPortDisable (v : Word) (s : State) : Host.Outcome State Fault Refusal := .next (hostWrite .portCtrl v s)

/-- PORT_CTRL_WRITE (R22). -/
def execPortCtrlWrite (v : Word) (s : State) : Host.Outcome State Fault Refusal := .next (hostWrite .portCtrl v s)

/-- PORT_ADDR_WRITE (R23). -/
def execPortAddrWrite (v : Word) (s : State) : Host.Outcome State Fault Refusal := .next (hostWrite .portAddr v s)

/-- PORT_RATE_WRITE (R3, R23). -/
def execPortRateWrite (v : Word) (s : State) : Host.Outcome State Fault Refusal := .next (hostWrite .portRate v s)

/-- TICK_WRITE (R89, R90). -/
def execTickWrite (v : Word) (s : State) : Host.Outcome State Fault Refusal := .next (hostWrite .tick v s)

/-- COUNTER_CLEAR (R167): the written value is not stored. -/
def execCounterClear (c : Counter) (v : Word) (s : State) : Host.Outcome State Fault Refusal :=
  .next (hostWrite (.counter c) v s)

/-- PORT_LIMITS_WRITE (R168). -/
def execPortLimitsWrite (v : Word) (s : State) : Host.Outcome State Fault Refusal := .next (hostWrite .portLimits v s)

/-- UNREPORTED_CLEAR (R170): a write to UNREPORTED, or to STATUS. -/
def execUnreportedClear (route : UnreportedRoute) (v : Word) (s : State) : Host.Outcome State Fault Refusal :=
  match route with
  | .counter => .next (hostWrite .unreported v s)
  | .status => .next (hostWrite .status v s)

/-- EVENTS_WRITE (R172). -/
def execEventsWrite (v : Word) (s : State) : Host.Outcome State Fault Refusal := .next (hostWrite .events v s)

/-- EVENT_ENABLE_WRITE (R173). -/
def execEventEnableWrite (v : Word) (s : State) : Host.Outcome State Fault Refusal := .next (hostWrite .eventEnable v s)

/-- REGISTER_WRITE (R178). -/
def execRegisterWrite (offset : Byte) (v : Word) (s : State) : Host.Outcome State Fault Refusal :=
  .next (writeRegister offset v s)

end Sys2Proof.Machine
end

