-- ==== Sys2Proof/Machine/Timers.lean ====
section
/-! DEFINITION. The timer unit and the expiry claims (chapter 5). -/

namespace Sys2Proof.Machine

/-- A tick (R89, R92): the divider is loaded again from TICK as it stands, every running countdown is reduced by one, those
at 1 become absent with their marks set, and an expiry claim is presented if a mark is set (R95). -/
def tickState (s : State) : State :=
  presentExpiry { s with timer := { s.timer with
    divider := dividerLoad s.timer.tick
    slots := s.timer.slots.map SlotTimers.ticked } }

/-- TICK (R89): no tick occurs while the timebase is stopped (R90). -/
def execTick (s : State) : Host.Outcome State Fault Refusal :=
  match s.timer.divider with
  | some _ => .next (tickState s)
  | none => .next s

/-- COUNTDOWN_EXPIRY (R92, R95): the countdown, if it runs and stands at 1, becomes absent and sets its mark, and an expiry
claim is presented. It is one countdown's part of a tick (log 16), so none occurs while the timebase is stopped (R90). -/
def execCountdownExpiry (i : Slot) (kind : CountdownKind) (s : State) : Host.Outcome State Fault Refusal :=
  .next (if s.timer.divider.isSome ∧ (s.timers i).value kind = some 1 then
    presentExpiry (s.setTimers i ((s.timers i).expire kind))
  else s)

/-- The presented expiry claim is taken (R95, R96): it is withdrawn, the scan position moves past it, and the timer unit
presents its next claim. With the mark set, the mark is cleared and the action made; with the mark clear the claim is
void. It must be the timer unit's turn (R45) and the claim of the given kind, or this event does not occur (log 1). -/
def takeExpiry (kind : CountdownKind) (act : Slot → State → State) (s : State) : State :=
  match s.nextClaimant, s.timer.claim with
  | some .timer, some c =>
    if c.kind = kind then
      let marked := (s.timers c.slot).mark kind
      let s := s.setLastServed .timer
      let s := { s with timer := { s.timer with claim := none, scan := positionAfter c } }
      let s := s.setTimers c.slot ((s.timers c.slot).clearMark kind)
      let s := presentExpiry s
      if marked then act c.slot s else s
    else s
  | _, _ => s

/-- The repair step of R98 on a context with attempts left: REPEAT offered, an attempt spent, REPAIRING, the repair
countdown reloaded. -/
def spendAttempt (i : Slot) (k : Key) (s : State) : State :=
  let c := s.ctx i
  let s := offerReply k.port (repeatReply k c) s
  let s := s.setCtx i
    { c with attemptsLeft := c.attemptsLeft - 1, attemptsUsed := c.attemptsUsed + 1, state := .repairing }
  loadRepair i (repairLoad (s.port k.port).repair) s

/-- The repair step (R98, R100). A set mark is found on a COLLECTING or REPAIRING context only (R96). -/
def repairStep (i : Slot) (s : State) : State :=
  let c := s.ctx i
  match c.key with
  | some k =>
    if c.gathering then
      if c.attemptsLeft = 0 then failContext i .timedOut s else spendAttempt i k s
    else s
  | none => s

/-- The life failure (R102). -/
def lifeFailure (i : Slot) (s : State) : State :=
  if (s.ctx i).gathering then failContext i .expired s else s

/-- REPAIR_EXPIRY (R96, R98, R100). -/
def execRepairExpiry (s : State) : Host.Outcome State Fault Refusal := .next (takeExpiry .repair repairStep s)

/-- LIFE_EXPIRY (R96, R102). -/
def execLifeExpiry (s : State) : Host.Outcome State Fault Refusal := .next (takeExpiry .life lifeFailure s)

end Sys2Proof.Machine
end

