-- ==== Sys2Proof/Machine/Dispatch.lean ====
section
/-! DEFINITION. The dispatch: one arm per command, each one direct call of its meaning. -/

namespace Sys2Proof.Machine

def exec (i : Instr) (s : State) : Host.Outcome State Fault Refusal :=
  match i with
  | .powerUp resetHigh => Sys2Proof.Machine.execPowerUp resetHigh s
  | .hardwareReset => Sys2Proof.Machine.execHardwareReset s
  | .resetDeasserted => Sys2Proof.Machine.execResetDeasserted s
  | .softReset value => Sys2Proof.Machine.execSoftReset value s
  | .walkStep => Sys2Proof.Machine.execWalkStep s
  | .syncReceived port => Sys2Proof.Machine.execSyncReceived port s
  | .badLen port value => Sys2Proof.Machine.execBadLen port value s
  | .framingError port => Sys2Proof.Machine.execFramingError port s
  | .characterTimeout port => Sys2Proof.Machine.execCharacterTimeout port s
  | .frameCompletion port crcHigh => Sys2Proof.Machine.execFrameCompletion port crcHigh s
  | .frag => Sys2Proof.Machine.execFrag s
  | .abort => Sys2Proof.Machine.execAbort s
  | .query => Sys2Proof.Machine.execQuery s
  | .tick => Sys2Proof.Machine.execTick s
  | .countdownExpiry slot kind => Sys2Proof.Machine.execCountdownExpiry slot kind s
  | .repairExpiry => Sys2Proof.Machine.execRepairExpiry s
  | .lifeExpiry => Sys2Proof.Machine.execLifeExpiry s
  | .replyStart port => Sys2Proof.Machine.execReplyStart port s
  | .replyEnd port => Sys2Proof.Machine.execReplyEnd port s
  | .guardEnd port => Sys2Proof.Machine.execGuardEnd port s
  | .returnMove => Sys2Proof.Machine.execReturnMove s
  | .drainDataRead => Sys2Proof.Machine.execDrainDataRead s
  | .drainReadGrant => Sys2Proof.Machine.execDrainReadGrant s
  | .heldReadEnded => Sys2Proof.Machine.execHeldReadEnded s
  | .drainPosWrite value => Sys2Proof.Machine.execDrainPosWrite value s
  | .portEnable value => Sys2Proof.Machine.execPortEnable value s
  | .portDisable value => Sys2Proof.Machine.execPortDisable value s
  | .portAddrWrite value => Sys2Proof.Machine.execPortAddrWrite value s
  | .portRateWrite value => Sys2Proof.Machine.execPortRateWrite value s
  | .tickWrite value => Sys2Proof.Machine.execTickWrite value s
  | .counterClear counter value => Sys2Proof.Machine.execCounterClear counter value s
  | .portLimitsWrite value => Sys2Proof.Machine.execPortLimitsWrite value s
  | .unreportedClear route value => Sys2Proof.Machine.execUnreportedClear route value s
  | .eventsWrite value => Sys2Proof.Machine.execEventsWrite value s
  | .eventEnableWrite value => Sys2Proof.Machine.execEventEnableWrite value s
  | .registerWrite offset value => Sys2Proof.Machine.execRegisterWrite offset value s
  | .take upper => Sys2Proof.Machine.execTake upper s
  | .release upper => Sys2Proof.Machine.execRelease upper s
  | .lookup upper => Sys2Proof.Machine.execLookup upper s
  | .next upper => Sys2Proof.Machine.execNext upper s
  | .reserve upper => Sys2Proof.Machine.execReserve upper s
  | .pin upper => Sys2Proof.Machine.execPin upper s
  | .unpin upper => Sys2Proof.Machine.execUnpin upper s
  | .cancel upper => Sys2Proof.Machine.execCancel upper s
  | .purge upper => Sys2Proof.Machine.execPurge upper s
  | .forget upper => Sys2Proof.Machine.execForget upper s
  | .badCommand value => Sys2Proof.Machine.execBadCommand value s
  | .commandClaim => Sys2Proof.Machine.execCommandClaim s
  | .walkVisit => Sys2Proof.Machine.execWalkVisit s
  | .startEdge line => Sys2Proof.Machine.execStartEdge line s
  | .startCheck port level => Sys2Proof.Machine.execStartCheck port level s
  | .goodCharacter port value => Sys2Proof.Machine.execGoodCharacter port value s
  | .characterSkipped port character => Sys2Proof.Machine.execCharacterSkipped port character s
  | .portCtrlWrite value => Sys2Proof.Machine.execPortCtrlWrite value s
  | .fillSegmentEnd => Sys2Proof.Machine.execFillSegmentEnd s

end Sys2Proof.Machine
end

