-- ==== Sys2Proof/Safety.lean ====
section
/-! DEFINITION. What a safe run keeps: the laws the spec states of the device's state, as predicates of one state. The
obligations say that every step keeps them. A law that leans on another says so. -/

namespace Sys2Proof.Safety

open Sys2Proof.Machine

/-! ### Counters (R165, R170) -/

/-- A counter stands at 65535 exactly when its limit flag is set; so too for UNREPORTED (R165, R170). -/
structure CounterLaw (s : State) : Prop where
  ports : ∀ p c, s.counter p c = 0xFFFF#16 ↔ s.limitFlag p c = true
  unreported : s.stats.unreported = 0xFFFF#16 ↔ s.stats.unreportedLimit = true

/-! ### Link ports (R15, R20 to R22, R109, R110) -/

/-- Two staging buffers at most, each occupied once, and at most one of them, the older, IN SERVICE (R15). -/
def stagingOk (l : List StagedFrame) : Prop :=
  l.length ≤ 2 ∧ (l.map (·.bufferB)).Nodup ∧ ∀ f ∈ l.drop 1, f.inService = false

/-- ENABLE reads 1 exactly in HUNT and RECEIVING; a receiver in OFF has an empty reply queue and no character in progress; the
timer runs only in a frame; the queue holds at most 8 entries (R2, R8, R19 to R22, R109). -/
structure PortLaw (q : Port) : Prop where
  enable : q.enable = true ↔ q.rx.state = .hunt ∨ q.rx.state = .receiving
  offQueue : q.rx.state = .off → q.replies = []
  offChar : q.rx.state = .off → q.rx.char = .between none
  timer : q.rx.state = .off ∨ q.rx.state = .hunt → q.rx.timer = .stopped
  queue : q.replies.length ≤ 8
  staging : stagingOk q.staging

/-- Every port keeps its law. -/
def PortsLaw (s : State) : Prop := ∀ p, PortLaw (s.port p)

/-! ### Frames (R4, R10, R11, R14) -/

/-- The assembly of a frame in flight: LEN is 5 to 101 once received, the body is short of LEN at a body byte and whole at
the CRC (R10, R11). -/
def assemblyOk (r : Receiver) : Prop :=
  r.state = .receiving ∨ r.state = .stopping →
    match r.position with
    | .awaitingLen => r.body = []
    | .bodyByte => 5 ≤ r.len ∧ r.len ≤ 101 ∧ r.body.length < r.len
    | .crcLow => 5 ≤ r.len ∧ r.len ≤ 101 ∧ r.body.length = r.len
    | .crcHigh => 5 ≤ r.len ∧ r.len ≤ 101 ∧ r.body.length = r.len

/-- A staged frame: its body is LEN bytes, 5 to 101, its source is a station address, its kind is inbound, bit 6 of its index
byte is clear, and a FRAG has a payload (R4, R14). -/
def stagedOk (f : StagedFrame) : Prop :=
  f.body.length = f.len ∧ 5 ≤ f.len ∧ f.len ≤ 101 ∧ validStation (bodyByte f.body 1) = true ∧
    (f.kind = kindFrag ∨ f.kind = kindAbort ∨ f.kind = kindQuery) ∧ f.indexByte.getLsbD 6 = false ∧
    (f.kind = kindFrag → 6 ≤ f.len)

/-- Every port assembles and stages frames of the right form. -/
def FrameLaw (s : State) : Prop :=
  ∀ p, assemblyOk (s.port p).rx ∧ ∀ f ∈ (s.port p).staging, stagedOk f

/-! ### Segments, contexts, reports and the drain port (R30, R75, R80, R124, R133) -/

/-- The segments the contexts hold, by slot, and those of the claim in service (R75). -/
def heldSegments (s : State) : List Seg :=
  s.table.contexts.toList.flatMap contextSegs ++
    (match s.table.service with | some st => st.segs | none => [])

/-- The segments the contexts of port `p` hold, with those of a claim in service on it (R80). -/
def heldOn (s : State) (p : PortId) : Nat :=
  ((List.finRange 64).map fun i =>
    match (s.ctx i).key with
    | some k => if k.port = p then (s.ctx i).heldSegs else 0
    | none => 0).sum +
  (match s.table.service with
    | some st => if st.port = p then st.segs.length else 0
    | none => 0)

/-- The slots the success entries name, in queue order (R124). -/
def successSlots (l : List ReportEntry) : List Slot := l.filterMap (·.slot)

/-- Where every segment is (R75, R86): outside the walk, in exactly one of the free list, the backlog and the fragment lists
(with the claim in service); during the walk, the free list holds those walked, in order, and nothing else holds any. -/
def placesOk (s : State) : Prop :=
  match s.host.phase with
  | .ready => (s.pool.freeList ++ s.pool.backlog ++ heldSegments s).Perm (List.finRange 1024)
  | .walking k => s.pool.freeList = (List.finRange 1024).take k.val ∧ s.pool.backlog = [] ∧ heldSegments s = []
  | .resetAsserted => s.pool.freeList = [] ∧ s.pool.backlog = [] ∧ heldSegments s = []

/-- The claim in service works on a context of its port, which it found in `prior` (R44, R60). -/
def serviceOk (s : State) (st : StoreClaim) : Prop :=
  (∃ k, (s.ctx st.slot).key = some k ∧ k.port = st.port) ∧
    ((st.prior = .free ∧ (s.ctx st.slot).state = .collecting) ∨
      (st.prior = (s.ctx st.slot).state ∧ (s.ctx st.slot).unfinished = true))

/-- While the device is INITIALISING nothing can present a claim (R48, R181). -/
structure Quiet (s : State) : Prop where
  receivers : ∀ p, (s.port p).rx.state = .off ∧ (s.port p).staging = []
  timers : ∀ i, s.timers i = SlotTimers.cleared
  timerClaim : s.timer.claim = none
  command : s.cmd.inFlight = none
  service : s.table.service = none

/-- The laws that tie contexts, segments, reports and the drain port together. -/
structure TableLaw (s : State) : Prop where
  free : ∀ i, (s.ctx i).state = .free → s.ctx i = Context.freed
  key : ∀ i, (s.ctx i).state ≠ .free → (s.ctx i).key ≠ none
  sums : ∀ i, (s.ctx i).heldSegs = (contextSegs (s.ctx i)).length
  held : ∀ p, (s.port p).held = heldOn s p
  places : placesOk s
  service : ∀ st, s.table.service = some st → serviceOk s st
  reportSlots : (successSlots s.reports).Nodup
  reports : ∀ i, (s.ctx i).state = .done ↔ i ∈ successSlots s.reports
  reportKinds : ∀ e ∈ s.reports, e.slot.isSome = e.isSuccess
  drain : ∀ i, (s.ctx i).state = .draining ↔ s.drain.bound = some i
  quiet : s.initialising = true → Quiet s

/-! ### Laws beside it -/

/-- Each set's open-order list holds exactly its non-FREE ways, each once (R38). -/
def OrderLaw (s : State) : Prop :=
  ∀ t, (s.order t).Nodup ∧ ∀ w, w ∈ s.order t ↔ (s.ctx (slotOf t w)).state ≠ .free

/-- No two non-FREE contexts have the same key, and a key's context stands in the key's set (R28, R29). -/
structure KeyLaw (s : State) : Prop where
  inSet : ∀ i k, (s.ctx i).state ≠ .free → (s.ctx i).key = some k → setOf k = setOfSlot i
  unique : ∀ i j, (s.ctx i).state ≠ .free → (s.ctx j).state ≠ .free → (s.ctx i).key = (s.ctx j).key → i = j

/-- Countdowns run and marks are set on COLLECTING and REPAIRING contexts only; a marked countdown is absent; a running one
is 1 to 65535 (R33, R91); and while a mark is set, a claim is presented (R95). -/
structure TimerLaw (s : State) : Prop where
  states : ∀ i, (s.ctx i).gathering = false → s.timers i = SlotTimers.cleared
  marked : ∀ i k, (s.timers i).mark k = true → (s.timers i).value k = none
  range : ∀ i k v, (s.timers i).value k = some v → 1 ≤ v ∧ v ≤ 65535
  presented : ∀ i k, (s.timers i).mark k = true → s.timer.claim ≠ none

/-- A recent-completion list holds at most 8 entries with distinct keys, none of them the key of a non-FREE context of the
port (R118). -/
structure RecentLaw (s : State) : Prop where
  length : ∀ p, (s.port p).recent.length ≤ 8
  distinct : ∀ p, ((s.port p).recent.map fun e => (e.station, e.tag)).Nodup
  apart : ∀ i k, (s.ctx i).state ≠ .free → (s.ctx i).key = some k → s.recentEntry k = none

/-- At most 16 failure entries, and at most 64 success entries (R124). -/
def QueueLaw (s : State) : Prop := failureCount s.reports ≤ 16 ∧ successCount s.reports ≤ 64

/-! ### Registers (R3, R25, R81, R82, R89, R90, R144, R146) -/

/-- The registers with a range stay in it; outside an asserted RESET# the timebase is stopped exactly when TICK is 0, and a
loaded period is 1 to 16776960; a command in flight has its operands in range. -/
structure RegisterLaw (s : State) : Prop where
  rate : ∀ p, 16 ≤ (s.port p).rate.toNat
  quota : ∀ p, (s.port p).quota.toNat ≤ 1024
  reclimit : ∀ p, (s.port p).reclimit.toNat ≤ 6144
  low : s.pool.low.toNat ≤ 1024
  timebase : s.host.phase ≠ .resetAsserted → (s.timer.divider = none ↔ s.timer.tick = 0#16)
  period : ∀ d, s.timer.divider = some d → 1 ≤ d ∧ d ≤ 16776960
  command : ∀ f, s.cmd.inFlight = some f → operandsOk f.code f.operands = true

/-! ### Context records (R30 to R32, R34) -/

/-- The fragment list is strictly increasing in index, each entry holds ceil(length / 32) segments, stored bytes and highest
follow from the list, no index stands at or above a known count, the attempts are at most 7 together, and the context is
DONE or DRAINING exactly when its list holds count entries (R30 to R32, R34, R101). -/
structure ContextLaw (c : Context) : Prop where
  increasing : (c.frags.map (·.index)).Pairwise (· < ·)
  entries : ∀ e ∈ c.frags, 1 ≤ e.length ∧ e.length ≤ 96 ∧ e.segs.length = segsNeeded e.length
  bytes : c.storedBytes = (c.frags.map (·.length)).sum
  highest : c.highest = (c.frags.map (·.index)).getLast?
  count : ∀ n, c.count = some n → 1 ≤ n ∧ n ≤ 64 ∧ ∀ e ∈ c.frags, e.index.val < n
  known : c.frags = [] → c.count = none ∧ c.attemptsLeft = 0 ∧ c.attemptsUsed = 0
  attempts : c.attemptsLeft + c.attemptsUsed ≤ 7
  complete : c.state = .done ∨ c.state = .draining ↔ c.count = some c.frags.length

/-- The entry of the claim in service fits the context it will be inserted into: the index is not stored yet, it is consistent
(R53, R54), and the segments taken are those its payload needs (R57). -/
structure StoreLaw (s : State) (st : StoreClaim) : Prop where
  fresh : (s.ctx st.slot).hasIndex st.index = false
  consistent : (s.ctx st.slot).inconsistent st.index st.last = false
  last : st.index = 63 → st.last = true
  payload : 1 ≤ st.payload.length ∧ st.payload.length ≤ 96
  segs : st.segs.length = segsNeeded st.payload.length
  current : st.current < st.segs.length

/-- Every context record has the form of R30 to R34. A context holds no fragments exactly when it is FREE or EXPECTING, but for
the one that the claim in service has opened (R34). -/
structure RecordLaw (s : State) : Prop where
  contexts : ∀ i, ContextLaw (s.ctx i)
  empty : ∀ i, (s.ctx i).frags = [] ↔
    (s.ctx i).state = .free ∨ (s.ctx i).state = .expecting ∨
      ∃ st, s.table.service = some st ∧ st.slot = i ∧ st.prior = .free
  store : ∀ st, s.table.service = some st → StoreLaw s st

/-! ### The drain port and buffer memory (R74, R125, R131, R133) -/

/-- All 32 bytes of a segment have been written. -/
def written (m : Memory) (g : Seg) : Prop := ∀ o, o < 32 → readByte m (segAddr g o) ≠ none

/-- Every segment of a fragment list was written whole, as were those the claim in service has passed (R74); the drain port's
length is that of the bound record, and a success entry carries the length of its record (R125, R131); the position is even, and
0 when the port is not bound (R133). -/
structure DrainLaw (s : State) : Prop where
  stored : ∀ i, ∀ g ∈ contextSegs (s.ctx i), written s.mem g
  passed : ∀ st, s.table.service = some st → ∀ g ∈ st.segs.take st.current, written s.mem g
  length : ∀ i, s.drain.bound = some i → s.drain.len = (s.ctx i).storedBytes
  entries : ∀ e ∈ s.reports, ∀ i, e.slot = some i → e.length = some (s.ctx i).storedBytes
  unbound : s.drain.bound = none → s.drain.len = 0 ∧ s.drain.pos = 0
  even : s.drain.pos % 2 = 0
  heldEven : ∀ h, s.drain.held = some h → h.pos % 2 = 0

/-! ### The vocabulary of the statements -/

/-- A flag of EVENTS is set (R171). -/
def flagSet (s : State) (e : Event) : Bool := s.stats.events.getLsbD e.bit

/-- `n` increments take a counter at `v` to 65535 (R165). -/
def reaches (v : Word) (n : Nat) : Prop := v.toNat < 65535 ∧ 65535 ≤ v.toNat + n

/-- From `s` to `t` exactly the increments of `l` were made, UNREPORTED was incremented `lost` times, and the events of `ev` were
raised, with STAT_LIMIT beside them when a counter came to 65535 (R165, R170, R171); nothing else of the statistics and event
block changed. -/
structure Accounts (s t : State) (l : List (PortId × Counter)) (lost : Nat) (ev : List Event) : Prop where
  counters : ∀ p c, (t.counter p c).toNat = min 65535 ((s.counter p c).toNat + l.count (p, c))
  limits : ∀ p c, t.limitFlag p c = true ↔ s.limitFlag p c = true ∨ reaches (s.counter p c) (l.count (p, c))
  unreported : t.stats.unreported.toNat = min 65535 (s.stats.unreported.toNat + lost)
  unreportedLimit : t.stats.unreportedLimit = true ↔ s.stats.unreportedLimit = true ∨ reaches s.stats.unreported lost
  events : ∀ e, flagSet t e = true ↔ flagSet s e = true ∨ e ∈ ev ∨
    (e = .statLimit ∧ ((∃ p c, reaches (s.counter p c) (l.count (p, c))) ∨ reaches s.stats.unreported lost))
  enable : t.stats.enable = s.stats.enable

/-- A port without its counters and limit flags, which `Accounts` describes. -/
def uncounted (q : Port) : Port := { q with counters := Vector.replicate 10 0#16, limits := 0#10 }

/-- From `s` to `t`, port `p` became `f` of what it was, counters and limit flags apart, and the other ports changed in
these alone. -/
def PortBecomes (s t : State) (p : PortId) (f : Port → Port) : Prop :=
  uncounted (t.port p) = uncounted (f (s.port p)) ∧ ∀ q, q ≠ p → uncounted (t.port q) = uncounted (s.port q)

/-- The reply queue of a port after an offer, and what a dropped offer counts (R110). -/
def offered (q : Port) (r : Reply) : List Reply :=
  if q.rx.state ≠ .off ∧ q.replies.length < 8 then q.replies ++ [r] else q.replies

/-- REPLIES_DROPPED is counted for an offer that is not admitted (R110). -/
def offerCounts (p : PortId) (q : Port) : List (PortId × Counter) :=
  if q.rx.state ≠ .off ∧ q.replies.length < 8 then [] else [(p, .repliesDropped)]

/-- The six reasons for which a frame is ignored, in the order of R14. -/
def ignored (addr : BitVec 7) (len : Nat) (body : List Byte) : Prop :=
  bodyByte body 0 ≠ addr.setWidth 8 ∨
  (bodyByte body 1).toNat < 1 ∨ 126 < (bodyByte body 1).toNat ∨ bodyByte body 1 = addr.setWidth 8 ∨
  (bodyByte body 2 ≠ 0x01#8 ∧ bodyByte body 2 ≠ 0x02#8 ∧ bodyByte body 2 ≠ 0x03#8) ∨
  (bodyByte body 4).getLsbD 6 = true ∨
  (bodyByte body 2 = 0x01#8 ∧ len = 5) ∨
  ((bodyByte body 2 = 0x02#8 ∨ bodyByte body 2 = 0x03#8) ∧ len ≠ 5)

/-- What a register reads right after hardware reset: the values of R25, R82 and R89, and 0 in every other. -/
def resetWord : Reg → Word
  | .tick => 94#16
  | .poolLow => 64#16
  | .portCtrl => 0x0030#16
  | .portRate => 208#16
  | .portQuota => 1024#16
  | .portGap => 50#16
  | .portRepair => 100#16
  | .portLife => 2000#16
  | .portReclimit => 6144#16
  | _ => 0#16

/-- The rows of a completed character, good with the value `v` or with a framing error (R9 to R13). -/
def characterRows (p : PortId) (v : Byte) : List Instr :=
  [.syncReceived p, .goodCharacter p v, .badLen p v, .frameCompletion p v, .framingError p, .characterSkipped p (.good v),
    .characterSkipped p .framingError]

/-- The three rows of one character on a port: RXDn falls from high, the start check is low, and the character completes (R2). -/
def arrival (p : PortId) (row : Instr) : List Instr := [.startEdge ⟨p, [true, false]⟩, .startCheck p false, row]

/-- The rows by which the characters of a frame arrive on a port: SYNC, the good characters up to the CRC low byte, and the CRC high
byte (R4, R9 to R13). -/
def frameRows (p : PortId) (inner : List Byte) (last : Byte) : List Instr :=
  (Instr.syncReceived p :: inner.map (Instr.goodCharacter p) ++ [Instr.frameCompletion p last]).flatMap (arrival p)

/-- The rows by which a frame with this body and CRC arrives on a port (R4). -/
def frameCommands (p : PortId) (body : List Byte) (crc : Word) : List Instr :=
  frameRows p (BitVec.ofNat 8 body.length :: body ++ [crc.extractLsb' 0 8]) (crc.extractLsb' 8 8)

/-- The state with these commands waiting. -/
def waiting (s : State) (l : List Instr) : State := { s with pending := l }

/-- The claimants between the one served last and `c` in the rotation, `c` included: 1 to 6 (R45). -/
def turnsTo (s : State) (c : Claimant) : Nat := (rotationAfter s.table.lastServed).idxOf c + 1

/-- A frame claim of port `p` is next, and its buffer holds `f`, with `rest` behind it (R15, R45). -/
def FrameNext (s : State) (p : PortId) (f : StagedFrame) (rest : List StagedFrame) : Prop :=
  s.nextClaimant = some (.receiver p) ∧ (s.port p).staging = f :: rest

/-- The command unit's claim for `f` is next (R45, R46). -/
def CommandNext (s : State) (f : InFlight) : Prop :=
  s.nextClaimant = some .command ∧ s.cmd.inFlight = some f

/-- The expiry claim `c` is next (R45, R95). -/
def ExpiryNext (s : State) (c : ExpiryClaim) : Prop :=
  s.nextClaimant = some .timer ∧ s.timer.claim = some c

/-- The context of a slot is freed (R36): what every other part of the table, the pool, the timer unit and the drain port
becomes. -/
structure Freed (s t : State) (i : Slot) : Prop where
  ctx : t.ctx i = Context.freed
  others : ∀ j, j ≠ i → t.ctx j = s.ctx j
  order : ∀ u, t.order u = if u = setOfSlot i then (s.order u).filter (· ≠ wayOfSlot i) else s.order u
  pool : t.pool = { s.pool with backlog := s.pool.backlog ++ contextSegs (s.ctx i) }
  timers : ∀ j, t.timers j = if j = i then SlotTimers.cleared else s.timers j
  timer : t.timer = { s.timer with slots := t.timer.slots }
  drain : t.drain = if (s.ctx i).state = .draining then { s.drain with bound := none, pos := 0, len := 0 } else s.drain

/-- The context of a slot fails (R37): its failure entry is appended, or lost to the cap of 16 (R127), RECORDS_FAILED is counted on
its port, and it is freed. Outside the ports, the table, the pool, the timer unit, the queue, the drain port and the statistics
nothing changes. -/
structure FailsWith (s t : State) (i : Slot) (k : Key) (st : ReportStatus) (more : List Event) : Prop where
  freed : Freed s t i
  reports : t.reports =
    if failureCount s.reports < 16 then
      s.reports ++ [{ status := st, slot := none, key := k, length := none, count := (s.ctx i).count
                      fragments := some (s.ctx i).frags.length, highest := (s.ctx i).highest
                      attemptsUsed := (s.ctx i).attemptsUsed }]
    else s.reports
  accounts : Accounts s t [(k.port, .recordsFailed)] (if failureCount s.reports < 16 then 0 else 1)
    ((if failureCount s.reports < 16 then [.reportAdded] else [.reportLost]) ++ more)
  rest : t = { s with ports := t.ports, table := t.table, pool := t.pool, timer := t.timer, reports := t.reports
                      drain := t.drain, stats := t.stats }

/-- The end of a frame in flight with these counts (R10, R12, R13): the receiver goes to HUNT from RECEIVING; from STOPPING it goes
to OFF, where the queued replies are discarded and counted, and PORT_OFF is raised if the transmitter is IDLE (R21). -/
structure FrameEnds (s t : State) (p : PortId) (l : List (PortId × Counter)) (ch : CharPhase)
    (staging : List StagedFrame) : Prop where
  accounts : Accounts s t
    (l ++ if (s.port p).rx.state = .stopping then List.replicate (s.port p).replies.length (p, .repliesDropped) else [])
    0 (if (s.port p).rx.state = .stopping ∧ (s.port p).tx = none then [.portOff] else [])
  port : PortBecomes s t p fun q =>
    if q.rx.state = .stopping then { q with rx := Receiver.noFrame .off (.between none), replies := [], staging := staging }
    else { q with rx := Receiver.noFrame .hunt ch, staging := staging }
  rest : t = { s with ports := t.ports, stats := t.stats, free := t.free }

/-- The three ways in which a fragment disagrees with its context (R54). -/
def Disagrees (c : Context) (i : Fin 64) (last : Bool) : Prop :=
  (last = true ∧ ∃ n, c.count = some n ∧ i.val + 1 ≠ n) ∨
  (last = true ∧ ∃ h, c.highest = some h ∧ i < h) ∨
  (last = false ∧ ∃ n, c.count = some n ∧ n ≤ i.val)

/-- An index is missing for a repair: it is not stored, and below the count when that is known, or else at or below highest
(R99). -/
def Missing (c : Context) (j : Fin 64) : Prop :=
  c.hasIndex j = false ∧ match c.count with
    | some n => j.val < n
    | none => ∃ h, c.highest = some h ∧ j ≤ h

/-- There is room on port `p` for a payload of `length` bytes (R56). -/
def Room (s : State) (p : PortId) (length : Nat) : Prop :=
  segsNeeded length ≤ s.pool.freeList.length ∧ (s.port p).held + segsNeeded length ≤ (s.port p).quota.toNat

/-- A FRAG for a context that gathers fragments passes the duplicate, consistency and size checks (R52 to R55). -/
def FitsContext (s : State) (p : PortId) (i : Slot) (f : StagedFrame) : Prop :=
  (s.ctx i).unfinished = true ∧ (s.ctx i).hasIndex f.index = false ∧ ¬ Disagrees (s.ctx i) f.index f.last ∧
    (s.ctx i).storedBytes + f.payload.length ≤ (s.port p).reclimit.toNat

/-- A FRAG whose key has no context and no recent entry, and which passes the size check (R62, R63). -/
def FitsFirst (s : State) (p : PortId) (f : StagedFrame) : Prop :=
  s.lookup (f.key p) = none ∧ s.recentEntry (f.key p) = none ∧ f.payload.length ≤ (s.port p).reclimit.toNat

/-- The claim in service after a store has begun (R57, R58, R84). -/
def storeBegun (s : State) (p : PortId) (i : Slot) (prior : CtxState) (f : StagedFrame) : StoreClaim where
  port := p
  slot := i
  index := f.index
  last := f.last
  prior := prior
  payload := f.payload
  segs := s.pool.freeList.take (segsNeeded f.payload.length)
  current := 0
  waiting := match s.pool.freeList.take (segsNeeded f.payload.length) with
    | g :: _ => s.readNeeds.contains (bankOf g)
    | [] => false

/-- POOL_LOW is raised by the allocation of `n` segments (R82). -/
def lowRaised (s : State) (n : Nat) : List Event :=
  if s.pool.low.toNat ≤ s.pool.freeList.length ∧ s.pool.freeList.length - n < s.pool.low.toNat then [.poolLow] else []

/-- The timer unit and the rotation once the expiry claim `c` has been taken, before the table controller acts (R95, R96): the
mark is cleared, the scan position moves past it, and the first marked position from there on is presented. -/
def expiryTaken (s : State) (c : ExpiryClaim) : State :=
  let u := (s.setLastServed .timer).setTimers c.slot ((s.timers c.slot).clearMark c.kind)
  let v := { u with timer := { u.timer with scan := positionOf c + 1, claim := none } }
  { v with timer := { v.timer with claim := v.firstMarked.map claimAt } }

/-- The context after the insertion of a stored fragment and the loads (R59, R60). -/
def storedContext (s : State) (st : StoreClaim) : Context :=
  { s.ctx st.slot with
    frags := (s.ctx st.slot).frags.takeWhile (fun e => decide (e.index ≤ st.index)) ++
      { index := st.index, length := st.payload.length, segs := st.segs } ::
      (s.ctx st.slot).frags.dropWhile (fun e => decide (e.index ≤ st.index))
    storedBytes := (s.ctx st.slot).storedBytes + st.payload.length
    heldSegs := (s.ctx st.slot).heldSegs + st.segs.length
    highest := some (match (s.ctx st.slot).highest with | some h => max h st.index | none => st.index)
    count := if st.last then some (st.index.val + 1) else (s.ctx st.slot).count
    state := if st.prior = .collecting ∨ st.prior = .repairing then (s.ctx st.slot).state else .collecting
    attemptsLeft := if st.prior = .collecting ∨ st.prior = .repairing then (s.ctx st.slot).attemptsLeft
      else (s.port st.port).attempts.toNat
    attemptsUsed := if st.prior = .collecting ∨ st.prior = .repairing then (s.ctx st.slot).attemptsUsed else 0 }

/-- The rows that are host writes to a register (R178). -/
def isHostWrite : Instr → Bool
  | .softReset _ => true
  | .drainPosWrite _ => true
  | .portEnable _ => true
  | .portDisable _ => true
  | .portCtrlWrite _ => true
  | .portAddrWrite _ => true
  | .portRateWrite _ => true
  | .tickWrite _ => true
  | .counterClear _ _ => true
  | .portLimitsWrite _ => true
  | .unreportedClear _ _ => true
  | .eventsWrite _ => true
  | .eventEnableWrite _ => true
  | .registerWrite _ _ => true
  | .take _ => true
  | .release _ => true
  | .lookup _ => true
  | .next _ => true
  | .reserve _ => true
  | .pin _ => true
  | .unpin _ => true
  | .cancel _ => true
  | .purge _ => true
  | .forget _ => true
  | .badCommand _ => true
  | _ => false

/-- The three resets (R184, R185). -/
def isReset : Instr → Bool
  | .powerUp _ => true
  | .hardwareReset => true
  | .softReset _ => true
  | _ => false

/-- The rows that can clear a per-port counter (R165): the resets, and the writes of R167 and R168. -/
def clearsCounters : Instr → Bool
  | .counterClear _ _ => true
  | .portLimitsWrite _ => true
  | c => isReset c

/-- The rows that can clear a flag of EVENTS: the resets, and the write of R172. -/
def clearsEvents : Instr → Bool
  | .eventsWrite _ => true
  | c => isReset c

/-- The row of a command code, with the ignored upper byte (Table 10-4). -/
def codeRow (u : Byte) : CommandCode → Instr
  | .take => .take u
  | .release => .release u
  | .lookup => .lookup u
  | .next => .next u
  | .reserve => .reserve u
  | .pin => .pin u
  | .unpin => .unpin u
  | .cancel => .cancel u
  | .purge => .purge u
  | .forget => .forget u

/-- The code of a command (Table 10-4). -/
def codeOf : CommandCode → Byte
  | .take => 1#8
  | .release => 2#8
  | .lookup => 3#8
  | .next => 4#8
  | .reserve => 5#8
  | .pin => 6#8
  | .unpin => 7#8
  | .cancel => 8#8
  | .purge => 9#8
  | .forget => 10#8

/-- Every operand field that the command uses is in range, with the fields at their places in Table 10-5 (R146). -/
def InRange (c : CommandCode) (o : Vector Word 4) : Prop :=
  match c with
  | .take => True
  | .release => True
  | .next => o[3].toNat % 256 ≤ 63
  | .purge => o[0].toNat % 8 ≤ 3
  | .forget => o[0].toNat % 8 ≤ 3 ∧
      (o[0].getLsbD 10 = true ∨ (1 ≤ o[1].toNat % 128 ∧ o[1].toNat % 128 ≤ 126))
  | _ => o[0].toNat % 8 ≤ 3 ∧ 1 ≤ o[1].toNat % 128 ∧ o[1].toNat % 128 ≤ 126

/-- The operands name the key `k` (Table 10-5). -/
def Names (o : Vector Word 4) (k : Key) : Prop :=
  k.port.val = o[0].toNat % 8 ∧ k.station.toNat = o[1].toNat % 128 ∧ k.tag.toNat = o[2].toNat % 256

/-- A command decided in the command unit (R144, R147): the code read back, the status, ten results of 0, BUSY clear, CMD_DONE. -/
def decidedAtOnce (s : State) (code : Byte) (status : BitVec 4) : State :=
  { s with
    cmd := { s.cmd with cmd := code, status := status, results := Vector.replicate 10 0#16, inFlight := none }
    stats := { s.stats with events := s.stats.events ||| 0x002#9 } }

/-- A command completed at the end of its claim (R147): the status, the results with 0 where none is given, BUSY clear, CMD_DONE;
the command unit is the claimant served last (R45). -/
def answered (s : State) (status : BitVec 4) (l : List Word) : State :=
  { s with
    table := { s.table with lastServed := .command }
    cmd := { s.cmd with status := status, results := Vector.ofFn fun j => l.getD j.val 0#16, inFlight := none }
    stats := { s.stats with events := s.stats.events ||| 0x002#9 } }

/-- The results of LOOKUP and NEXT at their places in Table 10-6 (R151). -/
def shownContext (i : Slot) (c : Context) (k : Key) : List Word :=
  [ BitVec.ofNat 16 i.val,
    BitVec.ofNat 16 (c.state.code + (if c.pinned then 16 else 0) + 256 * c.attemptsLeft),
    BitVec.ofNat 16 (k.port.val + 256 * k.station.toNat),
    BitVec.ofNat 16 k.tag.toNat,
    BitVec.ofNat 16 ((match c.count with | some n => n | none => 0) +
      256 * (match c.highest with | some h => h.val | none => 0xFF)),
    BitVec.ofNat 16 c.storedBytes,
    (receivedBitmap c.frags).extractLsb' 0 16, (receivedBitmap c.frags).extractLsb' 16 16,
    (receivedBitmap c.frags).extractLsb' 32 16, (receivedBitmap c.frags).extractLsb' 48 16 ]

/-- State code and pinned at their places in Table 10-6. -/
def shownState (c : Context) : Word := BitVec.ofNat 16 (c.state.code + if c.pinned then 16 else 0)

/-- A claim that frees the context of a slot and answers its command, with no report, reply or count (R36, R140, R157). -/
structure FreesAndAnswers (s t : State) (i : Slot) (l : List Word) : Prop where
  freed : Freed s t i
  cmd : t.cmd = (answered s 0#4 l).cmd
  accounts : Accounts s t [] 0 [.cmdDone]
  served : t.table.lastServed = .command ∧ t.table.service = s.table.service
  rest : t = { s with ports := t.ports, table := t.table, pool := t.pool, timer := t.timer, drain := t.drain
                      cmd := t.cmd, stats := t.stats }

/-- The claim for the next slot of a walk, with the running totals (R47). -/
def visited (s : State) (f : InFlight) (freed segments : Nat) : State :=
  { s with
    table := { s.table with lastServed := .command }
    cmd := { s.cmd with inFlight := some { f with slot := f.slot + 1, freed := freed, segments := segments } } }

end Sys2Proof.Safety
end

