-- ==== Sys2Proof/Certificates/Slice0/Obligations.lean ====
section
/-! DEFINITION. The statements about the model, for the provers. Each docstring names the rules of spec/ it states, and the
log entries it rests on where it rests on a choice of the model. -/

open Sys2Proof Sys2Proof.Machine Sys2Proof.Safety

/-! ### The queue and the reset state -/

/-- A step takes the command at the front of the queue and runs it on the state with the queue's rest; on an empty queue the block
idles, which is the model's choice (log 2). -/
def Obligations.StepRunsTheFrontCommand : Prop :=
  (∀ (c : Instr) (s : State) (rest : List Instr),
    step { s with pending := c :: rest } = exec c { s with pending := rest }) ∧
  ∀ s : State, s.pending = [] → step s = .next s

/-- Every law of a safe run holds right after reset. -/
def Obligations.LawsHoldAtReset : Prop :=
  CounterLaw State.reset ∧ RegisterLaw State.reset ∧ PortsLaw State.reset ∧ FrameLaw State.reset ∧
  Memory.wf State.reset.mem = true ∧ TableLaw State.reset ∧ OrderLaw State.reset ∧ KeyLaw State.reset ∧
  TimerLaw State.reset ∧ RecentLaw State.reset ∧ QueueLaw State.reset ∧ RecordLaw State.reset ∧ DrainLaw State.reset

/-- What the host reads in each of the 57 registers right after hardware reset, PORT_SELECT among them with 0, and in the per-port
registers whichever port PORT_SELECT is then given (R25, R82, R86, R89, R94, R128, R133, R143, R171, R173, R175, R179). That the
state right after hardware reset is the moment of the deassertion of RESET# is log 3's. -/
def Obligations.RegistersAfterReset : Prop :=
  (∀ x ∈ registerMap, readRegister x.1 State.reset = resetWord x.2) ∧
  ∀ p : PortId, ∀ x ∈ registerMap,
    readRegister x.1 { State.reset with host := { State.reset.host with portSelect := p } } =
      if x.2 = .portSelect then BitVec.ofNat 16 p.val else resetWord x.2

/-! ### Resets and the walk (R86, R181, R184, R185) -/

/-- Hardware reset empties every block from any state and keeps buffer memory (R74, R185); its deassertion loads the
divider and begins the walk (R86, R89); power-up does both when RESET# is already high, with no byte of memory written (log
6). While it is asserted IRQ# and every TXENn are deasserted, every TXDn is high and WAIT# is released (R185). The values that
the spec does not give while RESET# is asserted are the model's (log 4), and a deassertion of a RESET# that is not asserted does
nothing (log 1). -/
def Obligations.HardwareResetAndPowerUp : Prop :=
  (∀ s : State, ∀ c ∈ [Instr.hardwareReset, .powerUp false], ∃ t, exec c s = .next t ∧ t.irq = false ∧ t.wait = false ∧
    ∀ p, t.txen p = false ∧ ∀ bit, t.txd p bit = true) ∧
  (∀ s : State, exec .hardwareReset s = .next { State.held with mem := s.mem, free := s.free, pending := s.pending }) ∧
  (∀ s : State, s.host.phase = .resetAsserted → exec .resetDeasserted s = .next { s with
    timer := { s.timer with divider := if s.timer.tick = 0#16 then none else some (s.timer.tick.toNat * 256) }
    host := { s.host with phase := .walking 0 } }) ∧
  (∀ s : State, s.host.phase ≠ .resetAsserted → exec .resetDeasserted s = .next s) ∧
  (∀ s : State, exec (.powerUp false) s = .next { State.held with free := s.free, pending := s.pending }) ∧
  ∀ s : State, exec (.powerUp true) s = .next { State.reset with free := s.free, pending := s.pending }

/-- A write of 1 to SOFT_RESET empties every block in one event, keeps the port configuration, TICK, POOL_LOW, EVENT_ENABLE,
PORT_SELECT and buffer memory, and begins the walk with CTRL reading 1 (R26, R49, R88, R143, R175, R183, R184); a write with 0
there does nothing (R183). -/
def Obligations.SoftReset : Prop :=
  (∀ (v : Word) (s : State), s.busFree = true → v.getLsbD 0 = true → ∃ t, exec (.softReset v) s = .next t ∧
    (∀ p, t.port p = { Port.reset with
      reclaim := (s.port p).reclaim, attempts := (s.port p).attempts, addr := (s.port p).addr, rate := (s.port p).rate
      quota := (s.port p).quota, gap := (s.port p).gap, repair := (s.port p).repair, life := (s.port p).life
      reclimit := (s.port p).reclimit }) ∧
    (∀ i, t.ctx i = Context.freed ∧ t.timers i = SlotTimers.cleared) ∧ (∀ u, t.order u = []) ∧
    t.table.lastServed = .command ∧ t.table.service = none ∧
    t.pool = { freeList := [], backlog := [], low := s.pool.low } ∧ t.mem = s.mem ∧
    t.timer.tick = s.timer.tick ∧
    t.timer.divider = (if s.timer.tick = 0#16 then none else some (s.timer.tick.toNat * 256)) ∧
    t.timer.scan = 0 ∧ t.timer.claim = none ∧ t.reports = [] ∧
    t.drain = { DrainPort.reset with readData := s.drain.readData } ∧ t.cmd = CommandUnit.reset ∧
    t.stats = { events := 0#9, enable := s.stats.enable, unreported := 0#16, unreportedLimit := false } ∧
    t.host = { phase := .walking 0, softReset := true, portSelect := s.host.portSelect } ∧
    readRegister 0x00#8 t = 1#16 ∧ t.free = s.free ∧ t.pending = s.pending) ∧
  ∀ (v : Word) (s : State), v.getLsbD 0 = false → exec (.softReset v) s = .next s

/-- A step of the walk puts its segment at the free-list tail; step 1023 ends it with READY, INIT_DONE and SOFT_RESET 0;
outside the walk none occurs; and the 1024 steps from step 0 leave segments 0 to 1023 in order (R86, R181, R183). That a
step outside the walk does nothing is log 1's. -/
def Obligations.InitializationWalk : Prop :=
  (∀ (s : State) (k : Fin 1024), s.host.phase = .walking k → exec .walkStep s = .next
    (if k = 1023 then
      { s with
        pool := { s.pool with freeList := s.pool.freeList ++ [k] }
        host := { s.host with phase := .ready, softReset := false }
        stats := { s.stats with events := s.stats.events ||| 0x020#9 } }
    else
      { s with
        pool := { s.pool with freeList := s.pool.freeList ++ [k] }
        host := { s.host with phase := .walking (k + 1) } })) ∧
  (∀ s : State, s.host.phase = .ready ∨ s.host.phase = .resetAsserted → exec .walkStep s = .next s) ∧
  ∀ s : State, s.host.phase = .walking 0 → s.pool.freeList = [] →
    Host.Core.run core 1024 (waiting s (List.replicate 1024 .walkStep)) = .next
      { s with
        pool := { s.pool with freeList := List.finRange 1024 }
        host := { s.host with phase := .ready, softReset := false }
        stats := { s.stats with events := s.stats.events ||| 0x020#9 }
        pending := [] }

/-! ### Receivers (R2, R8 to R15, R21) -/

/-- Outside OFF and not inside a character, a START_EDGE begins a character exactly when a high sample is next before a low one, the
level held from before among the samples; else the last sample is held (R2). The samples a row carries are log 12's. A high
start check is a false start; a low one confirms the character (R2), and forestalls a running character timer, which is the
model's reading of R12 (log 27). Then in HUNT a good 0xC3 starts a frame, and any other character is skipped with no count (R9);
inside a frame a LEN of 5 to 101, each body byte and the CRC low byte are taken in, with the running CRC over LEN and body and the
character timer started again (R10, R11). A good character leaves RXDn high, one with a framing error low (R2). No character
completes whose start bit was not confirmed (R2; the row does nothing, log 1), and in OFF nothing on the line changes anything
(R8). That one row is one completed character is the model's (log 13). -/
def Obligations.CharactersTaken : Prop :=
  (∀ (p : PortId) (s : State) (level : Option Bool) (samples : List Bool), (s.port p).rx.state ≠ .off →
    (s.port p).rx.char = .between level →
    ((∃ before after, level.toList ++ samples = before ++ true :: false :: after) → exec (.startEdge ⟨p, samples⟩) s =
      .next (s.modifyPort p fun q => { q with rx := { q.rx with char := .edgeSeen } })) ∧
    ((¬ ∃ before after, level.toList ++ samples = before ++ true :: false :: after) → exec (.startEdge ⟨p, samples⟩) s =
      .next (s.modifyPort p fun q => { q with rx := { q.rx with char := .between (level.toList ++ samples).getLast? } }))) ∧
  (∀ (p : PortId) (s : State), (s.port p).rx.state ≠ .off → (s.port p).rx.char = .edgeSeen →
    exec (.startCheck p true) s =
      .next (s.modifyPort p fun q => { q with rx := { q.rx with char := .between (some true) } }) ∧
    exec (.startCheck p false) s = .next (s.modifyPort p fun q => { q with rx := { q.rx with
      char := .startConfirmed
      timer := if q.rx.timer = .running then .forestalled else q.rx.timer } })) ∧
  (∀ (p : PortId) (s : State), (s.port p).rx.state = .hunt → (s.port p).rx.char = .startConfirmed →
    exec (.syncReceived p) s = .next (s.modifyPort p fun q => { q with rx :=
      { state := .receiving, char := .between (some true), position := .awaitingLen, len := 0, body := [], crc := 0xFFFF#16
        crcLow := 0#8, timer := .running } }) ∧
    (∀ v : Byte, v ≠ 0xC3#8 → exec (.characterSkipped p (.good v)) s =
      .next (s.modifyPort p fun q => { q with rx := { q.rx with char := .between (some true) } })) ∧
    exec (.characterSkipped p .framingError) s =
      .next (s.modifyPort p fun q => { q with rx := { q.rx with char := .between (some false) } })) ∧
  (∀ (p : PortId) (s : State) (v : Byte), (s.port p).rx.state = .receiving ∨ (s.port p).rx.state = .stopping →
    (s.port p).rx.char = .startConfirmed →
    ((s.port p).rx.position = .awaitingLen → 5 ≤ v.toNat → v.toNat ≤ 101 →
      exec (.goodCharacter p v) s = .next (s.modifyPort p fun q => { q with rx := { q.rx with
        len := v.toNat, position := .bodyByte, crc := crcByte q.rx.crc v, timer := .running
        char := .between (some true) } })) ∧
    ((s.port p).rx.position = .bodyByte →
      exec (.goodCharacter p v) s = .next (s.modifyPort p fun q => { q with rx := { q.rx with
        body := q.rx.body ++ [v]
        position := if q.rx.body.length + 1 = q.rx.len then .crcLow else .bodyByte
        crc := crcByte q.rx.crc v, timer := .running, char := .between (some true) } })) ∧
    ((s.port p).rx.position = .crcLow →
      exec (.goodCharacter p v) s = .next (s.modifyPort p fun q => { q with rx := { q.rx with
        crcLow := v, position := .crcHigh, timer := .running, char := .between (some true) } }))) ∧
  (∀ (p : PortId) (s : State) (v : Byte), (s.port p).rx.char ≠ .startConfirmed → ∀ c ∈ characterRows p v,
    exec c s = .next s) ∧
  ∀ (p : PortId) (s : State) (v : Byte) (samples : List Bool) (level : Bool), (s.port p).rx.state = .off →
    ∀ c ∈ .startEdge ⟨p, samples⟩ :: .startCheck p level :: .characterTimeout p :: characterRows p v, exec c s = .next s

/-- A LEN outside 5 to 101, a framing error inside a frame and the character timeout each drop the frame in flight and count
FRAMES_BAD (R10, R12). A confirmed start bit forestalls the timer, which is the model's reading of R12 (log 27); a row that
names the timeout of a timer that does not run does nothing (log 1). -/
def Obligations.FrameDropped : Prop :=
  ∀ (p : PortId) (s : State), (s.port p).rx.state = .receiving ∨ (s.port p).rx.state = .stopping →
    (∀ v : Byte, (s.port p).rx.char = .startConfirmed → (s.port p).rx.position = .awaitingLen →
      v.toNat < 5 ∨ 101 < v.toNat → ∃ t, exec (.badLen p v) s = .next t ∧
        FrameEnds s t p [(p, .framesBad)] (.between (some true)) (s.port p).staging) ∧
    ((s.port p).rx.char = .startConfirmed → ∃ t, exec (.framingError p) s = .next t ∧
      FrameEnds s t p [(p, .framesBad)] (.between (some false)) (s.port p).staging) ∧
    ((s.port p).rx.timer = .running → ∃ t, exec (.characterTimeout p) s = .next t ∧
      FrameEnds s t p [(p, .framesBad)] (s.port p).rx.char (s.port p).staging) ∧
    ((s.port p).rx.timer ≠ .running → exec (.characterTimeout p) s = .next s)

/-- At the CRC high byte the CRC is compared, then the staging buffers are looked at (R13), then the six address and form checks are
made (R14), and a frame that passes all of them is staged WAITING behind the one before it (R15). Every outcome counts as Table
1-3 says. Which of two FREE buffers takes the frame is left free (log 7). -/
def Obligations.FrameCompletion : Prop :=
  ∀ (p : PortId) (v : Byte) (s : State), (s.port p).rx.state = .receiving ∨ (s.port p).rx.state = .stopping →
    (s.port p).rx.char = .startConfirmed → (s.port p).rx.position = .crcHigh →
    ∃ t, exec (.frameCompletion p v) s = .next t ∧
      (v ++ (s.port p).rx.crcLow ≠ (s.port p).rx.crc →
        FrameEnds s t p [(p, .framesBad)] (.between (some true)) (s.port p).staging) ∧
      (v ++ (s.port p).rx.crcLow = (s.port p).rx.crc → 2 ≤ (s.port p).staging.length →
        FrameEnds s t p [(p, .framesGood), (p, .framesBad)] (.between (some true)) (s.port p).staging) ∧
      (v ++ (s.port p).rx.crcLow = (s.port p).rx.crc → (s.port p).staging.length < 2 →
        ignored (s.port p).addr (s.port p).rx.len (s.port p).rx.body →
        FrameEnds s t p [(p, .framesGood), (p, .framesIgnored)] (.between (some true)) (s.port p).staging) ∧
      (v ++ (s.port p).rx.crcLow = (s.port p).rx.crc → (s.port p).staging.length < 2 →
        ¬ ignored (s.port p).addr (s.port p).rx.len (s.port p).rx.body →
        ∃ b, (∀ f ∈ (s.port p).staging, f.bufferB ≠ b) ∧
          FrameEnds s t p [(p, .framesGood)] (.between (some true)) ((s.port p).staging ++
            [{ bufferB := b, inService := false, len := (s.port p).rx.len, body := (s.port p).rx.body }]))

/-- A whole frame, character by character, into a receiver in HUNT: with the CRC of R5 and passing the checks of R14 it is
staged with FRAMES_GOOD counted; with any other CRC it is dropped with FRAMES_BAD counted; and the receiver is in HUNT
again (R2, R4, R5, R9 to R15). Each character comes with the rows of its start bit, before which RXDn was sampled high (log 12).
Which of two FREE buffers takes the frame is left free (log 7). -/
def Obligations.WholeFrameReceived : Prop :=
  ∀ (p : PortId) (s : State) (level : Option Bool) (body : List Byte) (crc : Word), (s.port p).rx.state = .hunt →
    (s.port p).rx.char = .between level → 5 ≤ body.length → body.length ≤ 101 → (s.port p).staging.length < 2 →
    ∃ t, Host.Core.run core (3 * (body.length + 4)) (waiting s (frameCommands p body crc)) = .next t ∧
      t = { s with ports := t.ports, stats := t.stats, free := t.free, pending := [] } ∧
      (crc ≠ crcOf (BitVec.ofNat 8 body.length :: body) →
        Accounts s t [(p, .framesBad)] 0 [] ∧
        PortBecomes s t p fun q => { q with rx := Receiver.noFrame .hunt (.between (some true)) }) ∧
      (crc = crcOf (BitVec.ofNat 8 body.length :: body) → ¬ ignored (s.port p).addr body.length body →
        Accounts s t [(p, .framesGood)] 0 [] ∧ ∃ b, (∀ f ∈ (s.port p).staging, f.bufferB ≠ b) ∧
        PortBecomes s t p fun q => { q with
          rx := Receiver.noFrame .hunt (.between (some true))
          staging := q.staging ++ [{ bufferB := b, inService := false, len := body.length, body := body }] })

/-- What a transmitter builds, a receiver takes as a frame: the characters of an outbound frame (R6), fed to a receiver in HUNT,
complete a frame whose CRC is good; it is then ignored, because its kind is an outbound one (R5, R13, R14). Each character comes with
the rows of its start bit (log 12). What the CRC itself is, ReplyStart says. -/
def Obligations.TransmittedFrameHasGoodCrc : Prop :=
  ∀ (r : Reply) (addr : BitVec 7) (p : PortId) (s : State) (level : Option Bool), (s.port p).rx.state = .hunt →
    (s.port p).rx.char = .between level → (s.port p).staging.length < 2 →
    (replyFrame r addr).head? = some 0xC3#8 ∧
    ∃ t, Host.Core.run core (3 * (replyFrame r addr).length) (waiting s
        (frameRows p ((replyFrame r addr).drop 1).dropLast ((replyFrame r addr).getLastD 0#8))) = .next t ∧
      t = { s with ports := t.ports, stats := t.stats, free := t.free, pending := [] } ∧
      Accounts s t [(p, .framesGood), (p, .framesIgnored)] 0 [] ∧
      PortBecomes s t p fun q => { q with rx := Receiver.noFrame .hunt (.between (some true)) }

/-! ### Transmitters (R6, R18, R21) -/

/-- An IDLE transmitter takes the head reply, reads PORT_RATE and PORT_ADDR, and sends the frame of R6: SYNC, LEN, the five
header bytes, the eight bitmap bytes of a REPEAT or STATUS, and the CRC low byte first (R4 to R7, R18); otherwise no reply
starts. Out of its turn the row does nothing (log 1). The CRC register starts at 0xFFFF and takes each byte with bit 7 first, and
the check value of R5 is 0x29B1. -/
def Obligations.ReplyStart : Prop :=
  (crcOf [] = 0xFFFF#16 ∧ (∀ l b, crcOf (l ++ [b]) = crcByte (crcOf l) b) ∧
    (∀ (c : Word) (b : Byte), crcByte c b = [7, 6, 5, 4, 3, 2, 1, 0].foldl (fun (c : Word) k =>
      if c.getLsbD 15 = b.getLsbD k then c <<< 1 else (c <<< 1) ^^^ 0x1021#16) c) ∧
    crcOf [0x31#8, 0x32#8, 0x33#8, 0x34#8, 0x35#8, 0x36#8, 0x37#8, 0x38#8, 0x39#8] = 0x29B1#16) ∧
  (∀ (p : PortId) (s : State) (r : Reply) (rest : List Reply), (s.port p).tx = none → (s.port p).replies = r :: rest →
    exec (.replyStart p) s = .next (s.modifyPort p fun q => { q with
      replies := rest
      tx := some { reply := r, rate := q.rate, addr := q.addr, frame := replyFrame r q.addr, inGuard := false } })) ∧
  (∀ (p : PortId) (s : State), (s.port p).tx ≠ none ∨ (s.port p).replies = [] → exec (.replyStart p) s = .next s) ∧
  ∀ (r : Reply) (addr : BitVec 7), ∃ body : List Byte, ∃ crc : Word,
    body = [r.station, addr.setWidth 8, r.kind.code, r.tag, r.index] ++ (match r.bitmap with
      | some b => [b.extractLsb' 0 8, b.extractLsb' 8 8, b.extractLsb' 16 8, b.extractLsb' 24 8, b.extractLsb' 32 8,
          b.extractLsb' 40 8, b.extractLsb' 48 8, b.extractLsb' 56 8]
      | none => []) ∧
    crc = crcOf (BitVec.ofNat 8 body.length :: body) ∧
    replyFrame r addr = [0xC3#8, BitVec.ofNat 8 body.length] ++ body ++ [crc.extractLsb' 0 8, crc.extractLsb' 8 8] ∧
    (replyFrame r addr).length = if r.bitmap = none then 9 else 17

/-- The end of the frame counts REPLIES_SENT, releases TXENn and begins the guard; the end of the guard begins the next reply, or
leaves the transmitter IDLE, with PORT_OFF raised when the receiver is OFF (R18, R21); out of their turn neither occurs (log 1).
While a frame is sent TXENn is asserted and TXDn carries its characters back to back, ten bit times each: a low start bit, the data
bits with bit 0 first, a high stop bit; in the guard and in IDLE TXDn is high and TXENn deasserted (R1, R18). The bit time is
counted from the frame's beginning and is no part of the state (logs 2, 20). -/
def Obligations.ReplyEndAndGuard : Prop :=
  (∀ (p : PortId) (s : State) (x : Transmission), (s.port p).tx = some x → x.inGuard = false → s.txen p = true ∧
    ∀ (j : Nat) (v : Byte), x.frame[j]? = some v → s.txd p (10 * j) = false ∧
      (∀ k, k < 8 → s.txd p (10 * j + 1 + k) = v.getLsbD k) ∧ s.txd p (10 * j + 9) = true) ∧
  (∀ (p : PortId) (s : State), (∀ x, (s.port p).tx = some x → x.inGuard = true) →
    s.txen p = false ∧ ∀ bit, s.txd p bit = true) ∧
  (∀ (p : PortId) (s : State) (x : Transmission), (s.port p).tx = some x → x.inGuard = false →
    (∃ t, exec (.replyEnd p) s = .next t ∧ Accounts s t [(p, .repliesSent)] 0 [] ∧
      PortBecomes s t p (fun q => { q with tx := some { x with inGuard := true } }) ∧
      t = { s with ports := t.ports, stats := t.stats } ∧ s.txen p = true ∧ t.txen p = false) ∧
    exec (.guardEnd p) s = .next s) ∧
  (∀ (p : PortId) (s : State) (x : Transmission), (s.port p).tx = some x → x.inGuard = true →
    exec (.replyEnd p) s = .next s ∧
    ((s.port p).replies = [] → ∃ t, exec (.guardEnd p) s = .next t ∧
      Accounts s t [] 0 (if (s.port p).rx.state = .off then [.portOff] else []) ∧
      PortBecomes s t p (fun q => { q with tx := none }) ∧ t = { s with ports := t.ports, stats := t.stats }) ∧
    ∀ r rest, (s.port p).replies = r :: rest → exec (.guardEnd p) s = .next (s.modifyPort p fun q => { q with
      replies := rest
      tx := some { reply := r, rate := q.rate, addr := q.addr, frame := replyFrame r q.addr, inGuard := false } })) ∧
  ∀ (p : PortId) (s : State), (s.port p).tx = none → exec (.replyEnd p) s = .next s ∧ exec (.guardEnd p) s = .next s

/-! ### Shared operations (R28, R36, R37, R45, R165) -/

/-- An increment adds 1 below 65535; the one that reaches 65535 sets the limit flag and raises STAT_LIMIT; at 65535 nothing changes;
several increments are made one after another; the law that a counter at 65535 has its flag set is kept; and a counter at 65535 stays
there until the host clears it or a reset does (R165). -/
def Obligations.CounterIncrement : Prop :=
  ∀ (s : State) (p : PortId) (c : Counter),
    ((s.counter p c).toNat ≤ 65533 → ((count p c s).counter p c).toNat = (s.counter p c).toNat + 1 ∧
      (count p c s).limitFlag p c = s.limitFlag p c ∧ (count p c s).stats = s.stats) ∧
    ((s.counter p c).toNat = 65534 → (count p c s).counter p c = 65535#16 ∧ (count p c s).limitFlag p c = true ∧
      ∀ e, flagSet (count p c s) e = (flagSet s e || decide (e = .statLimit))) ∧
    ((s.counter p c).toNat = 65535 → count p c s = s) ∧
    (∀ q d, (q, d) ≠ (p, c) → (count p c s).counter q d = s.counter q d ∧
      (count p c s).limitFlag q d = s.limitFlag q d) ∧
    (∀ q, uncounted ((count p c s).port q) = uncounted (s.port q)) ∧
    count p c s = { s with ports := (count p c s).ports, stats := (count p c s).stats } ∧
    (∀ n, countMany p c 0 s = s ∧ countMany p c (n + 1) s = countMany p c n (count p c s)) ∧
    ((s.counter p c).toNat = 65530 → (countMany p c 8 s).counter p c = 65535#16 ∧
      (countMany p c 8 s).limitFlag p c = true ∧ flagSet (countMany p c 8 s) .statLimit = true) ∧
    (CounterLaw s → CounterLaw (count p c s)) ∧
    (∀ (i : Instr) (t : State), i.wellFormed = true → clearsCounters i = false → exec i s = .next t →
      s.counter p c = 65535#16 → t.counter p c = 65535#16) ∧
    ∃ t, exec .hardwareReset s = .next t ∧ t.counter p c = 0#16 ∧ t.limitFlag p c = false

/-- A context that fails has its failure entry appended, or lost to the cap of 16 with UNREPORTED and REPORT_LOST, RECORDS_FAILED
counted on its port, and is freed: segments to the backlog tail, PORT_HELD lowered, countdowns and marks cleared, its way out of
the open-order list, the drain port unbound if it was DRAINING (R36, R37, R127). -/
def Obligations.ContextFailure : Prop :=
  ∀ (s : State) (i : Slot) (k : Key) (st : ReportStatus), (s.ctx i).key = some k →
    FailsWith s (failContext i st s) i k st [] ∧
    PortBecomes s (failContext i st s) k.port (fun q => { q with held := q.held - (s.ctx i).heldSegs }) ∧
    (failContext i st s).table.service = s.table.service ∧
    (failContext i st s).table.lastServed = s.table.lastServed

/-- The table controller takes nothing while a claim is in service (R44), and otherwise the claim of the first presenting claimant
after the one served last; a claimant passed over comes nearer with every claim served, so at most five others go before it
(R45). -/
def Obligations.RotationChoice : Prop :=
  ∀ s : State,
    (s.table.service ≠ none → s.nextClaimant = none) ∧
    (s.table.service = none → ∀ c, s.nextClaimant = some c ↔
      s.presents c = true ∧ ∀ d, s.presents d = true → turnsTo s c ≤ turnsTo s d) ∧
    (s.table.service = none → (s.nextClaimant = none ↔ ∀ c, s.presents c = false)) ∧
    (∀ c, 1 ≤ turnsTo s c ∧ turnsTo s c ≤ 6) ∧
    ∀ (t : State) (c d : Claimant), s.nextClaimant = some c → s.presents d = true → d ≠ c →
      t.table.lastServed = c → turnsTo t d < turnsTo s d

/-- A lookup finds the context that bears the key, and no other (R28), in a table that keeps the key law (R28, R29). -/
def Obligations.LookupFindsTheKey : Prop :=
  ∀ (s : State) (k : Key), KeyLaw s →
    (∀ i, s.lookup k = some i ↔ (s.ctx i).state ≠ .free ∧ (s.ctx i).key = some k) ∧
    (s.lookup k = none ↔ ∀ i, (s.ctx i).state ≠ .free → (s.ctx i).key ≠ some k)

/-! ### Frame claims (chapter 3) -/

/-- A QUERY is answered with a STATUS in every case: code and bitmap by the context's state, or by the recent-completion list
(R51, R72); its staging buffer is FREE again (R16), and nothing else changes. -/
def Obligations.QueryAnswered : Prop :=
  ∀ (s : State) (p : PortId) (f : StagedFrame) (rest : List StagedFrame) (code : Byte) (bitmap : BitVec 64),
    FrameNext s p f rest → f.kind = 0x03#8 →
    (code, bitmap) = (match s.lookup (f.key p) with
      | some i => (match (s.ctx i).state with
        | .free => (0#8, 0#64)
        | .expecting => (1#8, 0#64)
        | .collecting => (2#8, receivedBitmap (s.ctx i).frags)
        | .repairing => (2#8, receivedBitmap (s.ctx i).frags)
        | .done => (3#8, 0#64)
        | .draining => (3#8, 0#64))
      | none => if s.recentEntry (f.key p) = none then (0#8, 0#64) else (3#8, 0#64)) →
    ∃ t, exec .query s = .next t ∧ Accounts s t (offerCounts p (s.port p)) 0 [] ∧
      PortBecomes s t p (fun q => { q with
        staging := rest
        replies := offered q { kind := .status, station := (f.key p).station, tag := (f.key p).tag, index := code
                               bitmap := some bitmap } }) ∧
      t = { s with ports := t.ports, stats := t.stats, table := { s.table with lastServed := .receiver p } }

/-- An ABORT fails a COLLECTING or REPAIRING context with ABORTED (R69); on a DONE or DRAINING context or a recent key it is a late
abort, counted in FRAGS_DUPLICATE; otherwise it does nothing (R70). -/
def Obligations.AbortOutcomes : Prop :=
  ∀ (s : State) (p : PortId) (f : StagedFrame) (rest : List StagedFrame), FrameNext s p f rest → f.kind = 0x02#8 →
    (∀ i, s.lookup (f.key p) = some i → (s.ctx i).gathering = true → ∃ t, exec .abort s = .next t ∧
      FailsWith s t i (f.key p) .aborted [] ∧
      PortBecomes s t p (fun q => { q with staging := rest, held := q.held - (s.ctx i).heldSegs }) ∧
      t.table.lastServed = .receiver p ∧ t.table.service = none) ∧
    ((∃ i, s.lookup (f.key p) = some i ∧ ((s.ctx i).state = .done ∨ (s.ctx i).state = .draining)) ∨
      (s.lookup (f.key p) = none ∧ s.recentEntry (f.key p) ≠ none) → ∃ t, exec .abort s = .next t ∧
      Accounts s t [(p, .fragsDuplicate)] 0 [] ∧ PortBecomes s t p (fun q => { q with staging := rest }) ∧
      t = { s with ports := t.ports, stats := t.stats, table := { s.table with lastServed := .receiver p } }) ∧
    ((∃ i, s.lookup (f.key p) = some i ∧ (s.ctx i).state = .expecting) ∨
      (s.lookup (f.key p) = none ∧ s.recentEntry (f.key p) = none) → ∃ t, exec .abort s = .next t ∧
      Accounts s t [] 0 [] ∧ PortBecomes s t p (fun q => { q with staging := rest }) ∧
      t = { s with ports := t.ports, stats := t.stats, table := { s.table with lastServed := .receiver p } })

/-- A FRAG that stores nothing and is no failure: a duplicate index is counted and not answered (R53); a late fragment on a DONE or
DRAINING context (R68) and a fragment of a recent key (R62) are counted and answered with ACCEPT, whose count is the context's or
the entry's. -/
def Obligations.FragDiscarded : Prop :=
  ∀ (s : State) (p : PortId) (f : StagedFrame) (rest : List StagedFrame), FrameNext s p f rest → f.kind = 0x01#8 →
    (∀ i, s.lookup (f.key p) = some i → (s.ctx i).unfinished = true → (s.ctx i).hasIndex f.index = true →
      ∃ t, exec .frag s = .next t ∧ Accounts s t [(p, .fragsDuplicate)] 0 [] ∧
        PortBecomes s t p (fun q => { q with staging := rest }) ∧
        t = { s with ports := t.ports, stats := t.stats, table := { s.table with lastServed := .receiver p } }) ∧
    (∀ n, (∃ i, s.lookup (f.key p) = some i ∧ ((s.ctx i).state = .done ∨ (s.ctx i).state = .draining) ∧
        (s.ctx i).count = some n) ∨
        (s.lookup (f.key p) = none ∧ ∃ e, s.recentEntry (f.key p) = some e ∧ e.count = n) →
      1 ≤ n → n ≤ 64 → ∃ t, exec .frag s = .next t ∧
        Accounts s t ((p, .fragsDuplicate) :: offerCounts p (s.port p)) 0 [] ∧
        PortBecomes s t p (fun q => { q with
          staging := rest
          replies := offered q { kind := .accept, station := (f.key p).station, tag := (f.key p).tag
                                 index := BitVec.ofNat 8 (0x80 + (n - 1)), bitmap := none } }) ∧
        t = { s with ports := t.ports, stats := t.stats, table := { s.table with lastServed := .receiver p } })

/-- A FRAG that disagrees with its context fails it with INCONSISTENT (R54), one that takes it above PORT_RECLIMIT with OVERSIZE (R55),
in that order (R52); a first fragment above PORT_RECLIMIT leaves an OVERSIZE entry and no context (R63). No reply is queued. -/
def Obligations.FragFails : Prop :=
  ∀ (s : State) (p : PortId) (f : StagedFrame) (rest : List StagedFrame), FrameNext s p f rest → f.kind = 0x01#8 →
    (∀ i, s.lookup (f.key p) = some i → (s.ctx i).unfinished = true → (s.ctx i).hasIndex f.index = false →
      (Disagrees (s.ctx i) f.index f.last → ∃ t, exec .frag s = .next t ∧
        FailsWith s t i (f.key p) .inconsistent [] ∧
        PortBecomes s t p (fun q => { q with staging := rest, held := q.held - (s.ctx i).heldSegs }) ∧
        t.table.lastServed = .receiver p ∧ t.table.service = none) ∧
      (¬ Disagrees (s.ctx i) f.index f.last →
        (s.port p).reclimit.toNat < (s.ctx i).storedBytes + f.payload.length → ∃ t, exec .frag s = .next t ∧
        FailsWith s t i (f.key p) .oversize [] ∧
        PortBecomes s t p (fun q => { q with staging := rest, held := q.held - (s.ctx i).heldSegs }) ∧
        t.table.lastServed = .receiver p ∧ t.table.service = none)) ∧
    (s.lookup (f.key p) = none → s.recentEntry (f.key p) = none →
      (s.port p).reclimit.toNat < f.payload.length → ∃ t, exec .frag s = .next t ∧
      t.reports = (if failureCount s.reports < 16 then
        s.reports ++ [{ status := .oversize, slot := none, key := f.key p, length := none, count := none
                        fragments := some 0, highest := none, attemptsUsed := 0 }] else s.reports) ∧
      Accounts s t [(p, .recordsFailed)] (if failureCount s.reports < 16 then 0 else 1)
        (if failureCount s.reports < 16 then [.reportAdded] else [.reportLost]) ∧
      PortBecomes s t p (fun q => { q with staging := rest }) ∧
      t = { s with ports := t.ports, stats := t.stats, reports := t.reports
                   table := { s.table with lastServed := .receiver p } })

/-- A FRAG with no room, and a first fragment that finds no FREE way and may displace none, are refused: HOLD with a copy of the index
byte, FRAGS_HELD counted, and nothing else changes (R40, R51, R56, R64). -/
def Obligations.FragRefusedWithHold : Prop :=
  ∀ (s : State) (p : PortId) (f : StagedFrame) (rest : List StagedFrame), FrameNext s p f rest → f.kind = 0x01#8 →
    (∃ i, s.lookup (f.key p) = some i ∧ FitsContext s p i f ∧ ¬ Room s p f.payload.length) ∨
      (FitsFirst s p f ∧ ¬ Room s p f.payload.length) ∨
      (FitsFirst s p f ∧ Room s p f.payload.length ∧
        (∀ i, setOfSlot i = setOf (f.key p) → (s.ctx i).state ≠ .free) ∧
        ((s.port p).reclaim = false ∨
          ∀ w ∈ s.order (setOf (f.key p)), (s.ctx (slotOf (setOf (f.key p)) w)).eligible = false)) →
    ∃ t, exec .frag s = .next t ∧ Accounts s t ((p, .fragsHeld) :: offerCounts p (s.port p)) 0 [] ∧
      PortBecomes s t p (fun q => { q with
        staging := rest
        replies := offered q { kind := .hold, station := (f.key p).station, tag := (f.key p).tag
                               index := f.indexByte, bitmap := none } }) ∧
      t = { s with ports := t.ports, stats := t.stats, table := { s.table with lastServed := .receiver p } }

/-- A FRAG that passes every check begins its store: its segments leave the free-list head in order, PORT_HELD rises, POOL_LOW is
raised at the crossing, and the claim stays in service while the fill engine writes (R57, R58, R82). A first fragment opens the
FREE way with the lowest number, COLLECTING, not pinned, at the tail of the open-order list (R35, R39, R64, R65). That the
insertion comes at the end of the copy is the model's reading (log 10). -/
def Obligations.FragStoreBegins : Prop :=
  ∀ (s : State) (p : PortId) (f : StagedFrame) (rest : List StagedFrame) (i : Slot), FrameNext s p f rest →
    f.kind = 0x01#8 → Room s p f.payload.length →
    (s.lookup (f.key p) = some i ∧ FitsContext s p i f) ∨
      (FitsFirst s p f ∧ setOfSlot i = setOf (f.key p) ∧ (s.ctx i).state = .free ∧
        ∀ j, setOfSlot j = setOf (f.key p) → (s.ctx j).state = .free → i ≤ j) →
    ∃ t, exec .frag s = .next t ∧
      t.table.service = some (storeBegun s p i (s.ctx i).state f) ∧ t.table.lastServed = .receiver p ∧
      (∀ j, j ≠ i → t.ctx j = s.ctx j) ∧
      t.ctx i = (if (s.ctx i).state = .free then
        { Context.freed with state := .collecting, key := some (f.key p), pinned := false } else s.ctx i) ∧
      (∀ u, t.order u = if (s.ctx i).state = .free ∧ u = setOf (f.key p) then s.order u ++ [wayOfSlot i]
        else s.order u) ∧
      t.pool = { s.pool with freeList := s.pool.freeList.drop (segsNeeded f.payload.length) } ∧
      Accounts s t [] 0 (lowRaised s (segsNeeded f.payload.length)) ∧
      PortBecomes s t p (fun q => { q with
        staging := { f with inService := true } :: rest
        held := q.held + segsNeeded f.payload.length }) ∧
      t = { s with ports := t.ports, table := t.table, pool := t.pool, stats := t.stats }

/-- A first fragment that finds no FREE way, on a port with RECLAIM set, displaces the eligible context earliest in the set's
open-order list: it fails with DISPLACED on its own port, its way is opened again for the arriving key at the tail of the list,
and the store begins from the free list as it stood (R36, R39 to R41, R57, R64). That the claim stays in service, with the way opened
COLLECTING and its list empty, is the model's reading (log 10). -/
def Obligations.Displacement : Prop :=
  ∀ (s : State) (p : PortId) (f : StagedFrame) (rest : List StagedFrame) (i : Slot) (k : Key) (before after : List Way),
    FrameNext s p f rest → f.kind = 0x01#8 → FitsFirst s p f → Room s p f.payload.length →
    (∀ j, setOfSlot j = setOf (f.key p) → (s.ctx j).state ≠ .free) → (s.port p).reclaim = true →
    s.order (setOf (f.key p)) = before ++ wayOfSlot i :: after → setOfSlot i = setOf (f.key p) →
    (∀ w ∈ before, (s.ctx (slotOf (setOf (f.key p)) w)).eligible = false) → (s.ctx i).eligible = true →
    (s.ctx i).key = some k → wayOfSlot i ∉ before → wayOfSlot i ∉ after →
    ∃ t, exec .frag s = .next t ∧
      t.table.service = some (storeBegun s p i .free f) ∧ t.table.lastServed = .receiver p ∧
      (∀ j, j ≠ i → t.ctx j = s.ctx j) ∧
      t.ctx i = { Context.freed with state := .collecting, key := some (f.key p), pinned := false } ∧
      (∀ u, t.order u = if u = setOf (f.key p) then before ++ after ++ [wayOfSlot i] else s.order u) ∧
      t.reports = (if failureCount s.reports < 16 then
        s.reports ++ [{ status := .displaced, slot := none, key := k, length := none, count := (s.ctx i).count
                        fragments := some (s.ctx i).frags.length, highest := (s.ctx i).highest
                        attemptsUsed := (s.ctx i).attemptsUsed }] else s.reports) ∧
      t.pool = { s.pool with
        freeList := s.pool.freeList.drop (segsNeeded f.payload.length)
        backlog := s.pool.backlog ++ contextSegs (s.ctx i) } ∧
      (∀ j, t.timers j = if j = i then SlotTimers.cleared else s.timers j) ∧
      Accounts s t [(k.port, .recordsFailed)] (if failureCount s.reports < 16 then 0 else 1)
        ((if failureCount s.reports < 16 then [.reportAdded] else [.reportLost]) ++
          lowRaised s (segsNeeded f.payload.length)) ∧
      (∀ q, uncounted (t.port q) = uncounted { s.port q with
        staging := if q = p then { f with inService := true } :: rest else (s.port q).staging
        held := ((s.port q).held - if q = k.port then (s.ctx i).heldSegs else 0) +
          if q = p then segsNeeded f.payload.length else 0 }) ∧
      t = { s with ports := t.ports, table := t.table, pool := t.pool, timer := { s.timer with slots := t.timer.slots }
                   reports := t.reports, stats := t.stats }

/-- The end of a segment that is not the last writes its sixteen words and goes on to the next segment, or waits for a read
that needs its bank (R58, R83, R84); while the engine waits, or stores nothing, no segment ends. That the sixteen words
land together at the segment's end is the model's (log 11), as is a row out of its turn (log 1). -/
def Obligations.SegmentEnds : Prop :=
  (∀ (s : State) (st : StoreClaim) (g g' : Seg), s.table.service = some st → st.waiting = false →
    st.segs[st.current]? = some g → st.segs[st.current + 1]? = some g' →
    exec .fillSegmentEnd s = .next { s with
      mem := writeSegment st.payload st.current g s.mem
      table := { s.table with service := some { st with
        current := st.current + 1, waiting := s.readNeeds.contains (bankOf g') } } }) ∧
  (∀ (s : State) (st : StoreClaim), s.table.service = some st → st.waiting = true →
    exec .fillSegmentEnd s = .next s) ∧
  ∀ s : State, s.table.service = none → exec .fillSegmentEnd s = .next s

/-- The end of the last segment inserts the entry at its place in index order, counts FRAGS_STORED and loads the countdowns
by the state the claim found (R59, R60); when the list then holds count entries the record is complete: DONE, countdowns
cleared, success entry, RECORDS_COMPLETE and ACCEPT (R61). The claim is over and its staging buffer FREE (R16). That the
insertion comes at the end of the copy is the model's reading (log 10), and that the segment's words land together at this row its
choice (log 11). -/
def Obligations.StoreEnds : Prop :=
  ∀ (s : State) (st : StoreClaim) (g : Seg) (k : Key), s.table.service = some st → st.waiting = false →
    st.segs[st.current]? = some g → st.segs[st.current + 1]? = none → (s.ctx st.slot).key = some k →
    ((storedContext s st).count ≠ some (storedContext s st).frags.length → ∃ t, exec .fillSegmentEnd s = .next t ∧
      t.ctx st.slot = storedContext s st ∧
      t.timers st.slot = (match st.prior with
        | .repairing => { s.timers st.slot with
            repair := some (max (s.port st.port).repair.toNat 1), repairMark := false }
        | .collecting => { s.timers st.slot with
            repair := if (s.port st.port).gap = 0#16 then none else some (s.port st.port).gap.toNat
            repairMark := false }
        | _ => { repair := if (s.port st.port).gap = 0#16 then none else some (s.port st.port).gap.toNat
                 repairMark := false
                 life := if (s.port st.port).life = 0#16 then none else some (s.port st.port).life.toNat
                 lifeMark := false }) ∧
      t.reports = s.reports ∧ Accounts s t [(st.port, .fragsStored)] 0 [] ∧
      PortBecomes s t st.port (fun q => { q with staging := q.staging.filter fun f => !f.inService }) ∧
      (∀ j, j ≠ st.slot → t.ctx j = s.ctx j ∧ t.timers j = s.timers j) ∧
      t = { s with
        ports := t.ports, mem := writeSegment st.payload st.current g s.mem, stats := t.stats
        table := { s.table with contexts := t.table.contexts, service := none }
        timer := { s.timer with slots := t.timer.slots } }) ∧
    ((storedContext s st).count = some (storedContext s st).frags.length → ∃ t, exec .fillSegmentEnd s = .next t ∧
      t.ctx st.slot = { storedContext s st with state := .done } ∧ t.timers st.slot = SlotTimers.cleared ∧
      t.reports = s.reports ++ [{ status := .complete, slot := some st.slot, key := k
                                  length := some (storedContext s st).storedBytes, count := (storedContext s st).count
                                  fragments := none, highest := none
                                  attemptsUsed := (storedContext s st).attemptsUsed }] ∧
      Accounts s t ([(st.port, .fragsStored), (st.port, .recordsComplete)] ++ offerCounts st.port (s.port st.port)) 0
        [.reportAdded] ∧
      PortBecomes s t st.port (fun q => { q with
        staging := q.staging.filter fun f => !f.inService
        replies := offered q { kind := .accept, station := k.station, tag := k.tag
                               index := 0x80#8 ||| BitVec.ofNat 8 (((storedContext s st).frags.length - 1) % 64)
                               bitmap := none } }) ∧
      (∀ j, j ≠ st.slot → t.ctx j = s.ctx j ∧ t.timers j = s.timers j) ∧
      t = { s with
        ports := t.ports, mem := writeSegment st.payload st.current g s.mem, stats := t.stats, reports := t.reports
        table := { s.table with contexts := t.table.contexts, service := none }
        timer := { s.timer with slots := t.timer.slots } })

/-- The fill copy puts payload byte k at offset k mod 32 of segment floor(k / 32) of the list, fills the last segment with
0, and writes no other byte; after one FILL_SEGMENT_END per segment the claim is over (R56, R58, R83). That a segment's
words land together is the model's (log 11). -/
def Obligations.StoredPayloadReadsBack : Prop :=
  ∀ (s : State) (st : StoreClaim), s.table.service = some st → st.current = 0 → st.waiting = false →
    s.drain.held = none → st.segs.Nodup → 1 ≤ st.payload.length →
    st.segs.length = (st.payload.length + 31) / 32 →
    ∃ t, Host.Core.run core st.segs.length (waiting s (List.replicate st.segs.length .fillSegmentEnd)) = .next t ∧
      t.table.service = none ∧ t.pending = [] ∧
      (∀ k g, st.segs[k / 32]? = some g → readByte t.mem (g.val * 32 + k % 32) = some (st.payload.getD k 0#8)) ∧
      ∀ x, (∀ g ∈ st.segs, x < g.val * 32 ∨ g.val * 32 + 32 ≤ x) → readByte t.mem x = readByte s.mem x

/-! ### The timer unit (chapter 5) -/

/-- A tick loads the divider from TICK, reduces every running countdown by one, makes those at 1 absent with their marks set, leaves
the absent ones, and presents a claim when none is presented (R89, R92, R95); with the timebase stopped no tick occurs (R90).
COUNTDOWN_EXPIRY is one countdown's part of it (log 16). A countdown loaded with v reaches zero at the v-th tick: after n ticks below v it stands at v - n, and at the v-th it is absent
with its mark set (R92, R93). -/
def Obligations.TickAndExpiry : Prop :=
  (∀ s : State, s.timer.divider ≠ none → ∃ t, exec .tick s = .next t ∧ t = { s with timer := t.timer } ∧
    (∀ i kind, ((s.timers i).value kind = none →
        (t.timers i).value kind = none ∧ (t.timers i).mark kind = (s.timers i).mark kind) ∧
      (∀ v, (s.timers i).value kind = some v → 2 ≤ v →
        (t.timers i).value kind = some (v - 1) ∧ (t.timers i).mark kind = (s.timers i).mark kind) ∧
      ((s.timers i).value kind = some 1 → (t.timers i).value kind = none ∧ (t.timers i).mark kind = true)) ∧
    t.timer.divider = (if s.timer.tick = 0#16 then none else some (s.timer.tick.toNat * 256)) ∧
    t.timer.tick = s.timer.tick ∧ t.timer.scan = s.timer.scan ∧
    t.timer.claim = s.timer.claim.or (t.firstMarked.map claimAt)) ∧
  (∀ s : State, s.timer.divider = none → exec .tick s = .next s) ∧
  (∀ (s : State) (i : Slot) (kind : CountdownKind), s.timer.divider ≠ none → (s.timers i).value kind = some 1 →
    ∃ t, exec (.countdownExpiry i kind) s = .next t ∧ t = { s with timer := t.timer } ∧
      t.timers i = (match kind with
        | .repair => { s.timers i with repair := none, repairMark := true }
        | .life => { s.timers i with life := none, lifeMark := true }) ∧
      (∀ j, j ≠ i → t.timers j = s.timers j) ∧ t.timer.divider = s.timer.divider ∧ t.timer.tick = s.timer.tick ∧
      t.timer.scan = s.timer.scan ∧ t.timer.claim = s.timer.claim.or (t.firstMarked.map claimAt)) ∧
  (∀ (s : State) (i : Slot) (kind : CountdownKind), s.timer.divider = none ∨ (s.timers i).value kind ≠ some 1 →
    exec (.countdownExpiry i kind) s = .next s) ∧
  ∀ (s : State) (i : Slot) (kind : CountdownKind) (v n : Nat), s.timer.divider ≠ none → s.timer.tick ≠ 0#16 →
    (s.timers i).value kind = some v → 1 ≤ v → n ≤ v →
    ∃ t, Host.Core.run core n (waiting s (List.replicate n .tick)) = .next t ∧
      (n < v → (t.timers i).value kind = some (v - n) ∧ (t.timers i).mark kind = (s.timers i).mark kind) ∧
      (n = v → (t.timers i).value kind = none ∧ (t.timers i).mark kind = true)

/-- A repair step on a context with attempts left: REPEAT offered with highest, TAIL and the missing bitmap, one attempt
spent, REPAIRING, the repair countdown loaded from PORT_REPAIR with 0 as 1; the steps after the offer are made whether it
is admitted or not (R98, R99). The state of the timer unit after the taking rests on log 17. -/
def Obligations.RepairStep : Prop :=
  ∀ (s : State) (i : Slot) (k : Key) (r : Reply) (b : BitVec 64),
    ExpiryNext s { slot := i, kind := .repair } → (s.timers i).repairMark = true →
    (s.ctx i).gathering = true → (s.ctx i).key = some k → 1 ≤ (s.ctx i).attemptsLeft →
    (∀ j : Fin 64, b.getLsbD j.val = true ↔ Missing (s.ctx i) j) →
    r = { kind := .repeat, station := k.station, tag := k.tag, bitmap := some b
          index := BitVec.ofNat 8 ((match (s.ctx i).highest with | some h => h.val | none => 0) +
            (if (s.ctx i).count = none then 64 else 0)) } →
    ∃ t, exec .repairExpiry s = .next t ∧
      t.ctx i = { s.ctx i with
        attemptsLeft := (s.ctx i).attemptsLeft - 1, attemptsUsed := (s.ctx i).attemptsUsed + 1, state := .repairing } ∧
      (∀ j, j ≠ i → t.ctx j = s.ctx j ∧ t.timers j = s.timers j) ∧
      t.timers i = { s.timers i with repair := some (max (s.port k.port).repair.toNat 1), repairMark := false } ∧
      Accounts s t (offerCounts k.port (s.port k.port)) 0 [] ∧
      PortBecomes s t k.port (fun q => { q with replies := offered q r }) ∧
      t = { s with
        ports := t.ports, stats := t.stats
        table := { s.table with contexts := t.table.contexts, lastServed := .timer }
        timer := { (expiryTaken s { slot := i, kind := .repair }).timer with slots := t.timer.slots } }

/-- An expiry claim whose mark is clear is void: it is withdrawn and nothing acts (R95 to R97). With the mark set, a repair
expiry with no attempts left fails the context with TIMED_OUT (R100), and a life expiry fails it with EXPIRED (R102). That
the next claim is presented at the taking, the mark cleared first, is the model's (log 17). -/
def Obligations.ExpiryOutcomes : Prop :=
  (∀ (s : State) (c : ExpiryClaim), ExpiryNext s c → (s.timers c.slot).mark c.kind = false →
    exec (match c.kind with | .repair => .repairExpiry | .life => .lifeExpiry) s = .next (expiryTaken s c)) ∧
  (∀ (s : State) (i : Slot) (k : Key), ExpiryNext s { slot := i, kind := .repair } → (s.timers i).repairMark = true →
    (s.ctx i).gathering = true → (s.ctx i).key = some k → (s.ctx i).attemptsLeft = 0 →
    ∃ t, exec .repairExpiry s = .next t ∧
      FailsWith (expiryTaken s { slot := i, kind := .repair }) t i k .timedOut [] ∧
      PortBecomes s t k.port (fun q => { q with held := q.held - (s.ctx i).heldSegs }) ∧
      t.table.lastServed = .timer ∧ t.table.service = none) ∧
  (∀ (s : State) (i : Slot) (k : Key), ExpiryNext s { slot := i, kind := .life } → (s.timers i).lifeMark = true →
    (s.ctx i).gathering = true → (s.ctx i).key = some k →
    ∃ t, exec .lifeExpiry s = .next t ∧
      FailsWith (expiryTaken s { slot := i, kind := .life }) t i k .expired [] ∧
      PortBecomes s t k.port (fun q => { q with held := q.held - (s.ctx i).heldSegs }) ∧
      t.table.lastServed = .timer ∧ t.table.service = none) ∧
  ∀ (s : State) (c : ExpiryClaim), ((expiryTaken s c).timers c.slot).mark c.kind = false ∧
    (∀ i kind, ((expiryTaken s c).timers i).value kind = (s.timers i).value kind) ∧
    (∀ i kind, ({ slot := i, kind := kind } : ExpiryClaim) ≠ c →
      ((expiryTaken s c).timers i).mark kind = (s.timers i).mark kind) ∧
    (expiryTaken s c).timer.scan.val = (2 * c.slot.val + (if c.kind = .repair then 0 else 1) + 1) % 128 ∧
    (∀ d, (expiryTaken s c).timer.claim = some d ↔ (s.timers d.slot).mark d.kind = true ∧ d ≠ c ∧
      ∀ e : ExpiryClaim, (s.timers e.slot).mark e.kind = true → e ≠ c →
        positionOf d - (expiryTaken s c).timer.scan ≤ positionOf e - (expiryTaken s c).timer.scan)

/-! ### The segment pool (chapter 4) -/

/-- At the end of a return-engine move the backlog head joins the free-list tail in one step, and nothing else changes; with an empty
backlog the engine is IDLE (R79). In READY with no claim in service, POOL_FREE plus POOL_BACKLOG plus the PORT_HELD of the four ports is 1024 (R75). -/
def Obligations.ReturnMoveAndConservation : Prop :=
  (∀ (s : State) (g : Seg) (rest : List Seg), s.pool.backlog = g :: rest → exec .returnMove s = .next { s with
    pool := { freeList := s.pool.freeList ++ [g], backlog := rest, low := s.pool.low } }) ∧
  (∀ s : State, s.pool.backlog = [] → exec .returnMove s = .next s) ∧
  ∀ s : State, TableLaw s → s.host.phase = .ready → s.table.service = none →
    s.poolFree + s.poolBacklog + ((s.port 0).held + (s.port 1).held + (s.port 2).held + (s.port 3).held) = 1024

/-! ### The drain port (chapter 7) -/

/-- Record byte b + k, where b is the length of the entries before entry e and k is below its length, lies in segment floor(k / 32) of
the entry at offset k mod 32 (R134); a byte at or above the record's length lies in no entry. -/
def Obligations.RecordBytePlace : Prop :=
  ∀ (s : State) (i : Slot),
    (∀ (before after : List FragEntry) (e : FragEntry) (k : Nat) (g : Seg),
      (s.ctx i).frags = before ++ e :: after → k < e.length → e.segs[k / 32]? = some g →
      s.recordByte i ((before.map (·.length)).sum + k) =
        (readByte s.mem (g.val * 32 + k % 32)).map fun b => (g, b)) ∧
    ∀ p, ((s.ctx i).frags.map (·.length)).sum ≤ p → s.recordByte i p = none

/-- A DRAIN_DATA read below the length returns record bytes p and p + 1, or 0 above the last byte, and advances the position by 2; it
asks for the bank of byte p's segment first, then for that of byte p + 1's when it is another segment. If the fill engine holds a
bank it still needs, WAIT# holds it and the data comes with the grant (R84, R85, R135, R138). While a read is held no other one
begins (log 18), and its word is captured when it asks for its banks (log 19). -/
def Obligations.DrainRead : Prop :=
  ∀ (s : State) (i : Slot) (g : Seg) (low : Byte), s.host.phase = .ready → s.drain.bound = some i →
    s.drain.pos < s.drain.len → s.recordByte i s.drain.pos = some (g, low) →
    (s.drain.held ≠ none → exec .drainDataRead s = .next s) ∧
    (s.drain.held = none → s.drain.pos + 1 = s.drain.len →
      (s.fillBank ≠ some (bankOf g) → exec .drainDataRead s = .next { s with
        drain := { s.drain with pos := s.drain.pos + 2, readData := 0#8 ++ low } }) ∧
      (s.fillBank = some (bankOf g) → exec .drainDataRead s = .next { s with
        drain := { s.drain with held := some { pos := s.drain.pos, data := 0#8 ++ low, needs := [bankOf g] } } })) ∧
    ∀ (g' : Seg) (high : Byte), s.drain.held = none → s.drain.pos + 1 < s.drain.len →
      s.recordByte i (s.drain.pos + 1) = some (g', high) →
      (s.fillBank ≠ some (bankOf g) → s.fillBank ≠ some (bankOf g') → exec .drainDataRead s = .next { s with
        drain := { s.drain with pos := s.drain.pos + 2, readData := high ++ low } }) ∧
      (s.fillBank = some (bankOf g) → exec .drainDataRead s = .next { s with
        drain := { s.drain with held := some { pos := s.drain.pos, data := high ++ low, needs :=
          if g' = g then [bankOf g] else [bankOf g, bankOf g'] } } }) ∧
      (s.fillBank ≠ some (bankOf g) → s.fillBank = some (bankOf g') → exec .drainDataRead s = .next { s with
        drain := { s.drain with held := some { pos := s.drain.pos, data := high ++ low, needs := [bankOf g'] } } })

/-- A DRAIN_DATA read at or above the length, or with the port not bound, returns 0, leaves the position, the binding, the context and
buffer memory, asks for no bank, asserts no WAIT#, and raises DRAIN_FAULT, again at each such read; during INITIALISING it
returns 0 with no event (R136). The flag stands until the host clears it or a reset does. That the read finds no read held is R176's
one access at a time. -/
def Obligations.DrainReadRefused : Prop :=
  (∀ s : State, s.host.phase = .ready → s.drain.held = none →
    s.drain.bound = none ∨ (s.drain.bound ≠ none ∧ s.drain.len ≤ s.drain.pos) →
    ∃ t, exec .drainDataRead s = .next t ∧
      t = { s with drain := { s.drain with readData := 0#16 }, stats := t.stats } ∧
      t.wait = false ∧ t.drain.pos = s.drain.pos ∧ t.drain.bound = s.drain.bound ∧
      Accounts s t [] 0 [.drainFault] ∧ flagSet t .drainFault = true) ∧
  (∀ s : State, s.initialising = true → s.drain.held = none → exec .drainDataRead s = .next { s with
    drain := { s.drain with readData := 0#16 } }) ∧
  (∀ s : State, DrainLaw s → (s.drain.bound = none → s.drain.pos = 0) ∧
    (TableLaw s → RecordLaw s → s.initialising = true → s.drain.bound = none ∧ s.drain.pos = 0)) ∧
  ∀ (c : Instr) (s t : State), c.wellFormed = true → clearsEvents c = false → exec c s = .next t →
    flagSet s .drainFault = true → flagSet t .drainFault = true

/-- A held read is granted its banks when the fill engine does not hold them: its data is driven, WAIT# released, the
position goes on by 2 unless a RELEASE has unbound the port, and the fill engine goes on (R84, R85, R141). A held read that
the host ends is counted as no read: no advance, the bank requests withdrawn, and the word read is any word (R177, log 8).
The word captured at the ask, and the advance only while the port is bound, are log 19's; rows out of their turn are log
1's. -/
def Obligations.HeldReadGrantedOrEnded : Prop :=
  (∀ (s : State) (h : HeldRead), s.drain.held = some h → (∀ b, s.fillBank = some b → b ∉ h.needs) →
    ∃ t, exec .drainReadGrant s = .next t ∧ t.wait = false ∧ t.drain.readData = h.data ∧
      t.drain.pos = (if s.drain.bound = none then s.drain.pos else h.pos + 2) ∧
      t.table.service = s.table.service.map (fun st => { st with waiting := false }) ∧
      t = { s with
        table := { s.table with service := t.table.service }
        drain := { s.drain with held := none, pos := t.drain.pos, readData := h.data } }) ∧
  (∀ (s : State) (h : HeldRead) (b : Bank), s.drain.held = some h → s.fillBank = some b → b ∈ h.needs →
    s.wait = true ∧ exec .drainReadGrant s = .next s) ∧
  (∀ (s : State) (h : HeldRead), s.drain.held = some h →
    ∃ t, exec .heldReadEnded s = .next t ∧ t.wait = false ∧ t.readNeeds = [] ∧
      t.table.service = s.table.service.map (fun st => { st with waiting := false }) ∧
      t = { s with
        table := { s.table with service := t.table.service }
        drain := { s.drain with held := none, readData := t.drain.readData }
        free := t.free }) ∧
  ∀ s : State, s.drain.held = none → exec .drainReadGrant s = .next s ∧ exec .heldReadEnded s = .next s

/-- A write of v to DRAIN_POS below the length of the bound record sets the position to v with bit 0 cleared; at or above the length, or
with the port not bound, it is ignored with DRAIN_FAULT; during INITIALISING it is ignored with no fault. Nothing else changes
(R137). All sixteen bits of v are compared (log 15). -/
def Obligations.DrainPosWrite : Prop :=
  ∀ (s : State) (v : Word), s.busFree = true →
    (s.host.phase = .ready → s.drain.bound ≠ none → v.toNat < s.drain.len → ∃ t, exec (.drainPosWrite v) s = .next t ∧
      t = { s with drain := { s.drain with pos := t.drain.pos } } ∧
      (v.toNat % 2 = 0 → t.drain.pos = v.toNat) ∧ (v.toNat % 2 = 1 → t.drain.pos = v.toNat - 1)) ∧
    (s.host.phase = .ready → s.drain.bound = none ∨ s.drain.len ≤ v.toNat →
      ∃ t, exec (.drainPosWrite v) s = .next t ∧ t = { s with stats := t.stats } ∧
      Accounts s t [] 0 [.drainFault]) ∧
    (s.initialising = true → exec (.drainPosWrite v) s = .next s)

/-- From position 0 of a bound record, ceil(length / 2) reads deliver it whole: the n-th returns bytes 2n and 2n + 1, with 0 above an odd
end; only the drain port changes; and the read after them returns 0 with DRAIN_FAULT (R134 to R136). -/
def Obligations.WholeRecordRead : Prop :=
  ∀ (s : State) (i : Slot) (bytes : List Byte), s.host.phase = .ready → s.drain.bound = some i →
    s.drain.held = none → s.drain.pos = 0 → s.drain.len = bytes.length → s.table.service = none →
    (∀ p b, bytes[p]? = some b → ∃ g, s.recordByte i p = some (g, b)) →
    (∀ n, n < (bytes.length + 1) / 2 →
      ∃ t, Host.Core.run core (n + 1) (waiting s (List.replicate (n + 1) .drainDataRead)) = .next t ∧
        t = { s with drain := { s.drain with pos := 2 * (n + 1), readData := t.drain.readData }, pending := [] } ∧
        t.drain.readData = bytes.getD (2 * n + 1) 0#8 ++ bytes.getD (2 * n) 0#8) ∧
    ∃ t, Host.Core.run core ((bytes.length + 1) / 2 + 1)
        (waiting s (List.replicate ((bytes.length + 1) / 2 + 1) .drainDataRead)) = .next t ∧
      t.drain.readData = 0#16 ∧ flagSet t .drainFault = true

/-! ### Registers (chapters 1, 5, 9 and 10) -/

/-- A host write changes nothing while RESET# is asserted (R185), nor while a held read has the bus (R176, log 18). -/
def Obligations.HostWritesNeedTheBus : Prop :=
  ∀ (c : Instr) (s : State), isHostWrite c = true → s.host.phase = .resetAsserted ∨ s.drain.held ≠ none →
    exec c s = .next s

/-- A PORT_CTRL write stores RECLAIM and ATTEMPTS in every case (R22). With ENABLE set and the receiver OFF it is an enable request,
accepted with PORT_ADDR 1 to 126 and otherwise refused with CONFIG_FAULT (R19); with ENABLE clear in HUNT or RECEIVING it is a disable,
which discards and counts the queued replies (R20) and raises PORT_OFF if it brings the port to OFF (R21). Otherwise ENABLE has no
effect. The port is the one PORT_SELECT names (R179). -/
def Obligations.PortEnableAndDisable : Prop :=
  ∀ (s : State) (v : Word) (p : PortId), s.busFree = true → p = s.host.portSelect →
    (v.getLsbD 0 = true → (s.port p).rx.state = .off → s.host.phase = .ready →
      (1 ≤ (s.port p).addr.toNat ∧ (s.port p).addr.toNat ≤ 126 →
        exec (.portEnable v) s = .next (s.modifyPort p fun q => { q with
          reclaim := v.getLsbD 1, attempts := v.extractLsb' 4 3, rx := Receiver.noFrame .hunt (.between none)
          configFault := false, enable := true })) ∧
      ((s.port p).addr.toNat = 0 ∨ (s.port p).addr.toNat = 127 →
        exec (.portEnable v) s = .next (s.modifyPort p fun q => { q with
          reclaim := v.getLsbD 1, attempts := v.extractLsb' 4 3, configFault := true, enable := false }))) ∧
    (v.getLsbD 0 = false → (s.port p).rx.state = .hunt → ∃ t, exec (.portDisable v) s = .next t ∧
      Accounts s t (List.replicate (s.port p).replies.length (p, .repliesDropped)) 0
        (if (s.port p).tx = none then [.portOff] else []) ∧
      PortBecomes s t p (fun q => { q with
        reclaim := v.getLsbD 1, attempts := v.extractLsb' 4 3, enable := false, rx := Receiver.noFrame .off (.between none)
        replies := [] }) ∧
      t = { s with ports := t.ports, stats := t.stats }) ∧
    (v.getLsbD 0 = false → (s.port p).rx.state = .receiving → ∃ t, exec (.portDisable v) s = .next t ∧
      Accounts s t (List.replicate (s.port p).replies.length (p, .repliesDropped)) 0 [] ∧
      PortBecomes s t p (fun q => { q with
        reclaim := v.getLsbD 1, attempts := v.extractLsb' 4 3, enable := false
        rx := { q.rx with state := .stopping }, replies := [] }) ∧
      t = { s with ports := t.ports, stats := t.stats }) ∧
    ((v.getLsbD 0 = true ∧ ((s.port p).rx.state ≠ .off ∨ s.initialising = true)) ∨
        (v.getLsbD 0 = false ∧ ((s.port p).rx.state = .off ∨ (s.port p).rx.state = .stopping)) →
      ((s.port p).rx.state = .off ∨ s.initialising = false) →
      ∀ c ∈ [Instr.portCtrlWrite v, .portEnable v, .portDisable v],
        exec c s = .next (s.modifyPort p fun q => { q with
          reclaim := v.getLsbD 1, attempts := v.extractLsb' 4 3 }))

/-- PORT_ADDR and PORT_RATE are written while the receiver is OFF, PORT_RATE with 0 to 15 stored as 16, and ignored otherwise (R3,
R23). A TICK write stores its value: 0 stops the timebase, a non-zero value starts a stopped one and leaves a running count (R89,
R90). -/
def Obligations.ConfigurationRows : Prop :=
  ∀ (s : State) (v : Word) (p : PortId), s.busFree = true → p = s.host.portSelect →
    ((s.port p).rx.state = .off →
      exec (.portAddrWrite v) s = .next (s.modifyPort p fun q => { q with addr := v.extractLsb' 0 7 }) ∧
      (16 ≤ v.toNat → exec (.portRateWrite v) s = .next (s.modifyPort p fun q => { q with rate := v })) ∧
      (v.toNat < 16 → exec (.portRateWrite v) s = .next (s.modifyPort p fun q => { q with rate := 16#16 }))) ∧
    ((s.port p).rx.state ≠ .off →
      exec (.portAddrWrite v) s = .next s ∧ exec (.portRateWrite v) s = .next s) ∧
    (v = 0#16 → exec (.tickWrite v) s = .next { s with timer := { s.timer with tick := 0#16, divider := none } }) ∧
    (v ≠ 0#16 → s.timer.divider = none → exec (.tickWrite v) s = .next { s with
      timer := { s.timer with tick := v, divider := some (v.toNat * 256) } }) ∧
    (v ≠ 0#16 → s.timer.divider ≠ none → exec (.tickWrite v) s = .next { s with
      timer := { s.timer with tick := v } })

/-- A host write of any value to a counter clears that counter of the selected port and its limit flag, stores nothing, raises no event
and withdraws none; the other counters and ports stand (R167). It does so in every state in which the bus is free. -/
def Obligations.CounterClear : Prop :=
  ∀ (s : State) (c : Counter) (v : Word), s.busFree = true → ∃ t, exec (.counterClear c v) s = .next t ∧
    t.counter s.host.portSelect c = 0#16 ∧ t.limitFlag s.host.portSelect c = false ∧
    (∀ d, d ≠ c → t.counter s.host.portSelect d = s.counter s.host.portSelect d ∧
      t.limitFlag s.host.portSelect d = s.limitFlag s.host.portSelect d) ∧
    (∀ q, q ≠ s.host.portSelect → t.port q = s.port q) ∧ (∀ q, uncounted (t.port q) = uncounted (s.port q)) ∧
    t = { s with ports := t.ports } ∧
    (s.counter s.host.portSelect c = 0#16 → s.limitFlag s.host.portSelect c = false → t = s)

/-- PORT_LIMITS reads the ten limit flags at their places, with 0 elsewhere. A write clears each counter and flag whose position holds 1
and leaves those whose position holds 0; positions that name no counter are ignored (R168). -/
def Obligations.PortLimitsWrite : Prop :=
  ∀ (s : State) (v : Word), s.busFree = true →
    (∀ c : Counter, (readRegister 0x78#8 s).getLsbD (counterIdx c).val = s.limitFlag s.host.portSelect c) ∧
    (∀ j, 10 ≤ j → (readRegister 0x78#8 s).getLsbD j = false) ∧
    ∃ t, exec (.portLimitsWrite v) s = .next t ∧
      (∀ c : Counter, v.getLsbD (counterIdx c).val = true →
        t.counter s.host.portSelect c = 0#16 ∧ t.limitFlag s.host.portSelect c = false) ∧
      (∀ c : Counter, v.getLsbD (counterIdx c).val = false →
        t.counter s.host.portSelect c = s.counter s.host.portSelect c ∧
        t.limitFlag s.host.portSelect c = s.limitFlag s.host.portSelect c) ∧
      (∀ q, q ≠ s.host.portSelect → t.port q = s.port q) ∧ (∀ q, uncounted (t.port q) = uncounted (s.port q)) ∧
      t = { s with ports := t.ports }

/-- UNREPORTED counts like a per-port counter, up to 65535 with its flag and STAT_LIMIT; a failure entry that finds 16 in the queue
increments it and raises REPORT_LOST, each time; a write to it, or to STATUS with 1 in bit 8, clears it with its flag; whichever of a
clear and an increment is taken first, each acts whole (R127, R169, R170). -/
def Obligations.UnreportedCounter : Prop :=
  (∀ (s : State) (e : ReportEntry), 16 ≤ failureCount s.reports →
    Accounts s (appendFailure e s) [] 1 [.reportLost] ∧
    appendFailure e s = { s with stats := (appendFailure e s).stats }) ∧
  (∀ (s : State) (e : ReportEntry), failureCount s.reports < 16 →
    Accounts s (appendFailure e s) [] 0 [.reportAdded] ∧
    appendFailure e s = { s with stats := (appendFailure e s).stats, reports := s.reports ++ [e] }) ∧
  (∀ (s : State) (v : Word), s.busFree = true →
    exec (.unreportedClear .counter v) s = .next { s with
      stats := { s.stats with unreported := 0#16, unreportedLimit := false } } ∧
    (v.getLsbD 8 = true → exec (.unreportedClear .status v) s = .next { s with
      stats := { s.stats with unreported := 0#16, unreportedLimit := false } })) ∧
  ∀ s : State, (countUnreported (clearUnreported s)).stats.unreported = 1#16 ∧
    (countUnreported (clearUnreported s)).stats.unreportedLimit = false ∧
    (clearUnreported (countUnreported s)).stats.unreported = 0#16 ∧
    (clearUnreported (countUnreported s)).stats.unreportedLimit = false

/-- A write to EVENTS clears each flag whose position holds 1, together, and leaves the others; positions that name no flag are ignored;
no other block changes. Of a raise and a clear of one flag the later stands; of different flags they are independent (R172). -/
def Obligations.EventsWrite : Prop :=
  ∀ (s : State) (v : Word), s.busFree = true → ∃ t, exec (.eventsWrite v) s = .next t ∧
    (∀ e : Event, flagSet t e = (flagSet s e && !v.getLsbD e.bit)) ∧
    t = { s with stats := { s.stats with events := t.stats.events } } ∧
    (∀ e : Event, v.getLsbD e.bit = true →
      (∃ u, exec (.eventsWrite v) (raise e s) = .next u ∧ flagSet u e = false) ∧ flagSet (raise e t) e = true) ∧
    (∀ e : Event, v.getLsbD e.bit = false → exec (.eventsWrite v) (raise e s) = .next (raise e t)) ∧
    ∀ w : Word, (∀ j, j < 9 → w.getLsbD j = v.getLsbD j) → exec (.eventsWrite w) s = .next t

/-- EVENT_ENABLE reads the nine enables with 0 elsewhere; a write stores the nine and ignores the rest, changes no flag, and takes effect
at once on IRQ#, which is asserted while an enabled flag is set. It is 0 after hardware reset and kept through soft reset (R173,
R174). -/
def Obligations.EventEnableWrite : Prop :=
  (∀ (s : State) (v : Word), s.busFree = true → ∃ t, exec (.eventEnableWrite v) s = .next t ∧
    (∀ j, j < 9 → t.stats.enable.getLsbD j = v.getLsbD j) ∧
    t = { s with stats := { s.stats with enable := t.stats.enable } } ∧
    (t.irq = true ↔ ∃ e : Event, flagSet s e = true ∧ v.getLsbD e.bit = true) ∧
    (∀ j, j < 9 → (readRegister 0x06#8 t).getLsbD j = v.getLsbD j) ∧
    ∀ j, 9 ≤ j → (readRegister 0x06#8 t).getLsbD j = false) ∧
  (∀ s : State, (s.irq = true ↔ ∃ e : Event, flagSet s e = true ∧ s.stats.enable.getLsbD e.bit = true) ∧
    (s.host.phase ≠ .resetAsserted → ∀ j, (readRegister 0x06#8 s).getLsbD j = s.stats.enable.getLsbD j)) ∧
  (∀ s : State, ∃ t, exec .hardwareReset s = .next t ∧ t.stats.enable = 0#9 ∧ t.irq = false) ∧
  ∀ (s : State) (v : Word), s.busFree = true → v.getLsbD 0 = true →
    ∃ t, exec (.softReset v) s = .next t ∧ t.stats.enable = s.stats.enable

/-- REGISTER_WRITE: PORT_SELECT, POOL_LOW, the operands and the five port settings store their fields, with the maximum stored for a
larger PORT_QUOTA, POOL_LOW or PORT_RECLIMIT; every other register without a row is read-only or has nothing to do with the value, and an
offset that selects no register ignores the write (R23, R81, R82, R143, R178, R179). -/
def Obligations.RegisterWrite : Prop :=
  ∀ (s : State) (offset : Byte) (v : Word), (Instr.registerWrite offset v).wellFormed = true → s.busFree = true →
    exec (.registerWrite offset v) s = .next (
      if offset = 0x08#8 then { s with host := { s.host with portSelect := Fin.ofNat 4 v.toNat } }
      else if offset = 0x10#8 then { s with pool := { s.pool with low := BitVec.ofNat 11 (min v.toNat 1024) } }
      else if offset = 0x18#8 then { s with cmd := { s.cmd with operands := s.cmd.operands.set 0 v } }
      else if offset = 0x1A#8 then { s with cmd := { s.cmd with operands := s.cmd.operands.set 1 v } }
      else if offset = 0x1C#8 then { s with cmd := { s.cmd with operands := s.cmd.operands.set 2 v } }
      else if offset = 0x1E#8 then { s with cmd := { s.cmd with operands := s.cmd.operands.set 3 v } }
      else if offset = 0x56#8 then
        s.modifyPort s.host.portSelect fun q => { q with quota := BitVec.ofNat 11 (min v.toNat 1024) }
      else if offset = 0x5A#8 then s.modifyPort s.host.portSelect fun q => { q with gap := v }
      else if offset = 0x5C#8 then s.modifyPort s.host.portSelect fun q => { q with repair := v }
      else if offset = 0x5E#8 then s.modifyPort s.host.portSelect fun q => { q with life := v }
      else if offset = 0x60#8 then
        s.modifyPort s.host.portSelect fun q => { q with reclimit := BitVec.ofNat 13 (min v.toNat 6144) }
      else s) ∧
    (∀ t, exec (.registerWrite offset v) s = .next t → readRegister offset t =
      if offset = 0x08#8 then BitVec.ofNat 16 (v.toNat % 4)
      else if offset = 0x10#8 ∨ offset = 0x56#8 then BitVec.ofNat 16 (min v.toNat 1024)
      else if offset = 0x60#8 then BitVec.ofNat 16 (min v.toNat 6144)
      else if offset ∈ [0x18#8, 0x1A#8, 0x1C#8, 0x1E#8, 0x5A#8, 0x5C#8, 0x5E#8] then v
      else readRegister offset s)

/-- What the host reads in each register, at its offset of Table 10-1 and with the fields at the positions of Tables 10-2 to 10-8:
the registers of the command unit (R143), the report queue with its head entry (R125, R128), the drain port's position and length
(R133), the pool (R75, R78), the flags (R171, R173, R182), and, of the port that PORT_SELECT names (R179), configuration, PORT_STATE
(R22, R24), the ten counters and their limit flags (R164, R168). While RESET# is asserted every read returns 0 (R185), as does an
offset that selects no register (R178); odd offsets and those from 0x80 on are log 14's, and a read as a function is log 21's.
DRAIN_DATA, whose read is a row, is left to DrainRead and DrainReadRefused. -/
def Obligations.RegisterReads : Prop :=
  (∀ (o : Byte) (s : State), s.host.phase = .resetAsserted ∨ (∀ x ∈ registerMap, x.1 ≠ o) → readRegister o s = 0#16) ∧
  ∀ (s : State) (q : Port), s.host.phase ≠ .resetAsserted → q = s.port s.host.portSelect →
    ((readRegister 0x00#8 s).toNat = s.host.softReset.toNat ∧
      (readRegister 0x02#8 s).toNat = (if s.host.phase = .ready then 1 else 0) + 256 * s.stats.unreportedLimit.toNat ∧
      (readRegister 0x04#8 s).toNat = s.stats.events.toNat ∧ (readRegister 0x06#8 s).toNat = s.stats.enable.toNat ∧
      (readRegister 0x08#8 s).toNat = s.host.portSelect.val ∧ readRegister 0x0A#8 s = s.timer.tick ∧
      readRegister 0x0C#8 s = BitVec.ofNat 16 s.pool.freeList.length ∧
      readRegister 0x0E#8 s = BitVec.ofNat 16 s.pool.backlog.length ∧
      (readRegister 0x10#8 s).toNat = s.pool.low.toNat ∧ readRegister 0x12#8 s = s.stats.unreported) ∧
    ((readRegister 0x14#8 s).toNat = s.cmd.cmd.toNat ∧
      (readRegister 0x16#8 s).toNat = s.cmd.status.toNat + 32768 * s.cmd.inFlight.isSome.toNat ∧
      (∀ i : Fin 4, readRegister (BitVec.ofNat 8 (0x18 + 2 * i.val)) s = s.cmd.operands[i]) ∧
      ∀ i : Fin 10, readRegister (BitVec.ofNat 8 (0x20 + 2 * i.val)) s = s.cmd.results[i]) ∧
    (readRegister 0x34#8 s = BitVec.ofNat 16 (successCount s.reports + 256 * failureCount s.reports) ∧
      (s.reports = [] → ∀ i : Fin 6, readRegister (BitVec.ofNat 8 (0x36 + 2 * i.val)) s = 0#16) ∧
      ∀ e rest, s.reports = e :: rest →
        readRegister 0x36#8 s =
          BitVec.ofNat 16 (e.status.code + 256 * (match e.slot with | some i => i.val | none => 0xFF)) ∧
        readRegister 0x38#8 s = BitVec.ofNat 16 (e.key.port.val + 256 * e.key.station.toNat) ∧
        readRegister 0x3A#8 s = BitVec.ofNat 16 (e.key.tag.toNat + 256 * e.attemptsUsed) ∧
        readRegister 0x3C#8 s = BitVec.ofNat 16 (match e.length with | some n => n | none => 0) ∧
        readRegister 0x3E#8 s = BitVec.ofNat 16 ((match e.count with | some n => n | none => 0) +
          256 * (match e.highest with | some h => h.val | none => 0xFF)) ∧
        readRegister 0x40#8 s = BitVec.ofNat 16 (match e.fragments with | some n => n | none => 0)) ∧
    (readRegister 0x44#8 s = BitVec.ofNat 16 s.drain.pos ∧ readRegister 0x46#8 s = BitVec.ofNat 16 s.drain.len) ∧
    ((readRegister 0x50#8 s).toNat = q.enable.toNat + 2 * q.reclaim.toNat + 16 * q.attempts.toNat ∧
      (readRegister 0x52#8 s).toNat = q.addr.toNat ∧ readRegister 0x54#8 s = q.rate ∧
      (readRegister 0x56#8 s).toNat = q.quota.toNat ∧ readRegister 0x58#8 s = BitVec.ofNat 16 q.held ∧
      readRegister 0x5A#8 s = q.gap ∧ readRegister 0x5C#8 s = q.repair ∧ readRegister 0x5E#8 s = q.life ∧
      (readRegister 0x60#8 s).toNat = q.reclimit.toNat ∧
      (PortLaw q → (readRegister 0x62#8 s).toNat =
        (match q.rx.state with | .off => 0 | .hunt => 1 | .receiving => 2 | .stopping => 3) +
          (if q.tx = none then 0 else 4) + 8 * q.configFault.toNat + 16 * q.staging.length + 256 * q.replies.length)) ∧
    (∀ c, readRegister (BitVec.ofNat 8 (0x64 + 2 * (counterIdx c).val)) s = s.counter s.host.portSelect c) ∧
    ∀ c, (readRegister 0x78#8 s).toNat < 1024 ∧
      (readRegister 0x78#8 s).getLsbD (counterIdx c).val = s.limitFlag s.host.portSelect c

/-! ### Table commands (chapter 8) -/

/-- A CMD write is decided in the order of R144: NOT_READY while INITIALISING; an overrun while BUSY, which changes nothing but the
CMD_OVERRUN flag (R145); BAD_COMMAND for an unknown code; BAD_OPERAND for a field out of range (R146); and otherwise the code is stored, the
operands are captured and the claim is presented. -/
def Obligations.CommandDecision : Prop :=
  (∀ (s : State) (c : CommandCode) (u : Byte), s.busFree = true →
    (s.initialising = true → exec (codeRow u c) s = .next (decidedAtOnce s (codeOf c) 9#4)) ∧
    (s.initialising = false → s.cmd.inFlight ≠ none → exec (codeRow u c) s = .next { s with
      stats := { s.stats with events := s.stats.events ||| 0x040#9 } }) ∧
    (s.initialising = false → s.cmd.inFlight = none → ¬ InRange c s.cmd.operands →
      exec (codeRow u c) s = .next (decidedAtOnce s (codeOf c) 8#4)) ∧
    (s.initialising = false → s.cmd.inFlight = none → InRange c s.cmd.operands →
      ∃ f : InFlight, exec (codeRow u c) s = .next { s with
          cmd := { s.cmd with cmd := codeOf c, inFlight := some f } } ∧
        f.code = c ∧ f.operands = s.cmd.operands ∧ f.freed = 0 ∧ f.segments = 0 ∧
        (c = .next → f.slot.val = s.cmd.operands[3].toNat % 256) ∧ (c = .purge → f.slot = 0))) ∧
  ∀ (s : State) (v : Word), s.busFree = true → v.toNat % 256 = 0 ∨ 10 < v.toNat % 256 →
    (s.initialising = true → exec (.badCommand v) s = .next (decidedAtOnce s (v.setWidth 8) 9#4)) ∧
    (s.initialising = false → s.cmd.inFlight ≠ none → exec (.badCommand v) s = .next { s with
      stats := { s.stats with events := s.stats.events ||| 0x040#9 } }) ∧
    (s.initialising = false → s.cmd.inFlight = none →
      exec (.badCommand v) s = .next (decidedAtOnce s (v.setWidth 8) 10#4))

/-- LOOKUP answers with the fields of the context it finds, or NOT_FOUND, and changes nothing else (R150, R151). RESERVE answers EXISTS or
SET_FULL, or opens the lowest FREE way EXPECTING and takes the key out of the recent-completion list (R35, R39, R154). The received
bitmap has the bits of the stored indexes (R32). -/
def Obligations.LookupAndReserve : Prop :=
  (∀ (s : State) (f : InFlight) (k : Key), CommandNext s f → Names f.operands k →
    (f.code = .lookup →
      (∀ i, s.lookup k = some i →
        exec .commandClaim s = .next (answered s 0#4 (shownContext i (s.ctx i) k))) ∧
      (s.lookup k = none → exec .commandClaim s = .next (answered s 1#4 []))) ∧
    (f.code = .reserve →
      (∀ i, s.lookup k = some i → exec .commandClaim s =
        .next (answered s 2#4 [BitVec.ofNat 16 i.val, BitVec.ofNat 16 (s.ctx i).state.code])) ∧
      (s.lookup k = none → (∀ i, setOfSlot i = setOf k → (s.ctx i).state ≠ .free) →
        exec .commandClaim s = .next (answered s 3#4 [])) ∧
      ∀ i, s.lookup k = none → setOfSlot i = setOf k → (s.ctx i).state = .free →
        (∀ j, setOfSlot j = setOf k → (s.ctx j).state = .free → i ≤ j) →
        exec .commandClaim s = .next (answered
          (((s.setCtx i { Context.freed with
              state := .expecting, key := some k, pinned := f.operands[0].getLsbD 8 }).setOrder (setOf k)
              (s.order (setOf k) ++ [wayOfSlot i])).modifyPort k.port fun q => { q with
                recent := q.recent.filter fun e => ¬ (e.station = k.station ∧ e.tag = k.tag) })
          0#4 [BitVec.ofNat 16 i.val]))) ∧
  ∀ (l : List FragEntry) (i : Fin 64), (receivedBitmap l).getLsbD i.val = true ↔ ∃ e ∈ l, e.index = i

/-- PIN, UNPIN and CANCEL act on an EXPECTING, COLLECTING or REPAIRING context: the pinned field is set, with its value before and after
shown, or the context is freed with no report, reply or count; WRONG_STATE on DONE and DRAINING, NOT_FOUND on no context
(R36, R156, R157). -/
def Obligations.PinAndCancel : Prop :=
  ∀ (s : State) (f : InFlight) (k : Key), CommandNext s f → Names f.operands k →
    (f.code = .pin ∨ f.code = .unpin ∨ f.code = .cancel →
      (s.lookup k = none → exec .commandClaim s = .next (answered s 1#4 [])) ∧
      ∀ i, s.lookup k = some i → (s.ctx i).state = .done ∨ (s.ctx i).state = .draining →
        exec .commandClaim s = .next (answered s 4#4 [BitVec.ofNat 16 i.val, shownState (s.ctx i)])) ∧
    (∀ i v, s.lookup k = some i → (s.ctx i).unfinished = true →
      (f.code = .pin ∧ v = true) ∨ (f.code = .unpin ∧ v = false) →
      exec .commandClaim s = .next (answered (s.setCtx i { s.ctx i with pinned := v }) 0#4
        [BitVec.ofNat 16 i.val, shownState { s.ctx i with pinned := v },
          if (s.ctx i).pinned then 1#16 else 0#16])) ∧
    ∀ i, s.lookup k = some i → (s.ctx i).unfinished = true → f.code = .cancel →
      ∃ t, exec .commandClaim s = .next t ∧
        FreesAndAnswers s t i
          [BitVec.ofNat 16 i.val, BitVec.ofNat 16 (s.ctx i).heldSegs, BitVec.ofNat 16 (s.ctx i).storedBytes] ∧
        t.drain = s.drain ∧
        ∀ k', (s.ctx i).key = some k' → PortBecomes s t k'.port (fun q => { q with held := q.held - (s.ctx i).heldSegs })

/-- FORGET with the all option empties the list of its port and answers with the number removed; without it, the entry of (station, tag) is
removed, the others keeping their order, and its count answered, or NOT_FOUND (R162). It does not look at the table. -/
def Obligations.ForgetEntries : Prop :=
  ∀ (s : State) (f : InFlight) (k : Key), CommandNext s f → f.code = .forget →
    k.port.val = f.operands[0].toNat % 8 →
    (f.operands[0].getLsbD 10 = true → exec .commandClaim s =
      .next (answered (s.modifyPort k.port fun q => { q with recent := [] }) 0#4
        [BitVec.ofNat 16 (s.port k.port).recent.length])) ∧
    (f.operands[0].getLsbD 10 = false → Names f.operands k →
      (∀ before e after, (s.port k.port).recent = before ++ e :: after → e.station = k.station → e.tag = k.tag →
        (∀ x ∈ before ++ after, ¬ (x.station = k.station ∧ x.tag = k.tag)) →
        exec .commandClaim s = .next (answered (s.modifyPort k.port fun q => { q with recent := before ++ after }) 0#4
          [BitVec.ofNat 16 e.count])) ∧
      ((∀ x ∈ (s.port k.port).recent, ¬ (x.station = k.station ∧ x.tag = k.tag)) →
        exec .commandClaim s = .next (answered s 1#4 [])))

/-- TAKE acts on the head of the report queue: NO_REPORT on an empty queue, DRAIN_BUSY on a success entry with the port bound, and otherwise
the entry is removed, its fields standing in RESULT0 to RESULT5 as REPORT_HEAD0 to REPORT_HEAD5 showed them; a success entry binds the
drain port to its context, which becomes DRAINING, at position 0 with the entry's length (R128, R130, R131). -/
def Obligations.TakeReport : Prop :=
  ∀ (s : State) (f : InFlight), CommandNext s f → f.code = .take →
    (s.reports = [] → exec .commandClaim s = .next (answered s 6#4 [])) ∧
    ∀ e rest, s.reports = e :: rest →
      (∀ i, e.slot = some i → s.drain.bound ≠ none → exec .commandClaim s = .next (answered s 5#4 [])) ∧
      (∀ i n, e.slot = some i → e.length = some n → s.drain.bound = none → exec .commandClaim s =
        .next (answered { s.setCtx i { s.ctx i with state := .draining } with
          reports := rest, drain := { s.drain with bound := some i, pos := 0, len := n } } 0#4 (reportWords e))) ∧
      (e.slot = none → exec .commandClaim s = .next (answered { s with reports := rest } 0#4 (reportWords e))) ∧
      (∀ j : Fin 6, readReg (.reportHead j) s = (reportWords e).getD j.val 0#16) ∧
      reportWords e =
        [BitVec.ofNat 16 (e.status.code + 256 * (match e.slot with | some i => i.val | none => 0xFF)),
         BitVec.ofNat 16 (e.key.port.val + 256 * e.key.station.toNat),
         BitVec.ofNat 16 (e.key.tag.toNat + 256 * e.attemptsUsed),
         BitVec.ofNat 16 (match e.length with | some n => n | none => 0),
         BitVec.ofNat 16 ((match e.count with | some n => n | none => 0) +
           256 * (match e.highest with | some h => h.val | none => 0xFF)),
         BitVec.ofNat 16 (match e.fragments with | some n => n | none => 0)]

/-- RELEASE with no context DRAINING answers NOT_DRAINING; otherwise the key and its count become the newest entry of its port's
recent-completion list, the oldest of eight going, the context is freed, and the drain port is unbound; slot, segments and length
are answered (R36, R119, R140). A held read's bank requests stand (R141). -/
def Obligations.ReleaseRecord : Prop :=
  ∀ (s : State) (f : InFlight), CommandNext s f → f.code = .release →
    (s.drain.bound = none → exec .commandClaim s = .next (answered s 7#4 [])) ∧
    ∀ i k n, s.drain.bound = some i → (s.ctx i).state = .draining → (s.ctx i).key = some k →
      (s.ctx i).count = some n → ∃ t, exec .commandClaim s = .next t ∧
      FreesAndAnswers s t i
        [BitVec.ofNat 16 i.val, BitVec.ofNat 16 (s.ctx i).heldSegs, BitVec.ofNat 16 (s.ctx i).storedBytes] ∧
      t.drain = { s.drain with bound := none, pos := 0, len := 0 } ∧
      PortBecomes s t k.port (fun q => { q with
        held := q.held - (s.ctx i).heldSegs
        recent := (if q.recent.length < 8 then q.recent else q.recent.drop 1) ++
          [{ station := k.station, tag := k.tag, count := n }] })

/-- A visit of NEXT answers with the context of its slot when that is not FREE, goes on to the next slot, or answers NOT_FOUND at slot 63
(R47, R152). A visit of PURGE frees the context of its slot when it is of the port, EXPECTING, COLLECTING or REPAIRING, and not pinned or
the option set; it adds to the totals and goes on, and at slot 63 it answers with them (R159, R160). -/
def Obligations.WalkVisits : Prop :=
  (∀ (s : State) (f : InFlight), CommandNext s f → f.code = .next →
    (∀ k, (s.ctx f.slot).state ≠ .free → (s.ctx f.slot).key = some k →
      exec .walkVisit s = .next (answered s 0#4 (shownContext f.slot (s.ctx f.slot) k))) ∧
    ((s.ctx f.slot).state = .free → f.slot ≠ 63 → exec .walkVisit s = .next (visited s f 0 0)) ∧
    ((s.ctx f.slot).state = .free → f.slot = 63 → exec .walkVisit s = .next (answered s 1#4 []))) ∧
  ∀ (s : State) (f : InFlight), CommandNext s f → f.code = .purge → f.operands[0].toNat % 8 ≤ 3 →
    ((¬ ∃ k, (s.ctx f.slot).key = some k ∧ k.port.val = f.operands[0].toNat % 8 ∧
        (s.ctx f.slot).unfinished = true ∧ ((s.ctx f.slot).pinned = false ∨ f.operands[0].getLsbD 9 = true)) →
      (f.slot ≠ 63 → exec .walkVisit s = .next (visited s f f.freed f.segments)) ∧
      (f.slot = 63 → exec .walkVisit s =
        .next (answered s 0#4 [BitVec.ofNat 16 f.freed, BitVec.ofNat 16 f.segments]))) ∧
    ∀ k, (s.ctx f.slot).key = some k → k.port.val = f.operands[0].toNat % 8 → (s.ctx f.slot).unfinished = true →
      (s.ctx f.slot).pinned = false ∨ f.operands[0].getLsbD 9 = true →
      (f.slot = 63 → ∃ t, exec .walkVisit s = .next t ∧
        FreesAndAnswers s t f.slot
          [BitVec.ofNat 16 (f.freed + 1), BitVec.ofNat 16 (f.segments + (s.ctx f.slot).heldSegs)] ∧
        PortBecomes s t k.port (fun q => { q with held := q.held - (s.ctx f.slot).heldSegs })) ∧
      (f.slot ≠ 63 → ∃ t, exec .walkVisit s = .next t ∧ Freed s t f.slot ∧
        t.cmd = (visited s f (f.freed + 1) (f.segments + (s.ctx f.slot).heldSegs)).cmd ∧
        Accounts s t [] 0 [] ∧ t.table.lastServed = .command ∧ t.table.service = none ∧
        PortBecomes s t k.port (fun q => { q with held := q.held - (s.ctx f.slot).heldSegs }) ∧
        t = { s with ports := t.ports, table := t.table, pool := t.pool, timer := t.timer, drain := t.drain
                     cmd := t.cmd })

/-! ### What every step keeps -/

/-- Every step keeps the counter law (R165, R170), the register law (R3, R81, R82, R89, R90, R146) and the canonical form of buffer memory,
each from any state (R74). -/
def Obligations.CountersRegistersAndMemoryKept : Prop :=
  ∀ s t : State, step s = .next t →
    (CounterLaw s → CounterLaw t) ∧ (RegisterLaw s → RegisterLaw t) ∧
    (Memory.wf s.mem = true → Memory.wf t.mem = true)

/-- Every step keeps the law of the ports (R2, R8, R15, R19 to R22, R109) and that of the frames they assemble and stage (R4, R10, R11,
R14), each from any state. -/
def Obligations.PortsAndFramesKept : Prop :=
  ∀ s t : State, step s = .next t → (PortsLaw s → PortsLaw t) ∧ (FrameLaw s → FrameLaw t)

/-- Every step keeps the table law: each segment in one place (R75), PORT_HELD the sum of the contexts' segments (R80), a DONE context for
each success entry (R124), the bound slot DRAINING (R133), nothing at work while INITIALISING (R48). -/
def Obligations.TableKept : Prop :=
  ∀ s t : State, step s = .next t → TableLaw s → TableLaw t

/-- Beside the table law, every step keeps the open-order lists (R38), the uniqueness of keys (R28, R29), the recent-completion lists
(R118), the caps of the report queue (R124), and the law of countdowns and marks (R33, R91, R95). -/
def Obligations.ListsKeysAndTimersKept : Prop :=
  ∀ s t : State, step s = .next t → TableLaw s →
    (OrderLaw s → OrderLaw t) ∧ (KeyLaw s → KeyLaw t) ∧ (KeyLaw s → RecentLaw s → RecentLaw t) ∧
    (QueueLaw s → QueueLaw t) ∧ (TimerLaw s → TimerLaw t)

/-- Beside the table and frame laws, every step keeps the form of the context records and of the claim in service (R30 to R34, R53, R54,
R57). Beside the table and record laws it keeps the drain law: what a fragment list holds was written, and the lengths are those of
the records (R74, R125, R131, R133). -/
def Obligations.RecordsAndDrainKept : Prop :=
  ∀ s t : State, step s = .next t → TableLaw s →
    (FrameLaw s → RecordLaw s → RecordLaw t) ∧ (RecordLaw s → DrainLaw s → DrainLaw t)

/-- In a state that keeps the table, record and drain laws no command stops: every step answers a next state, so no drain read meets a byte
that nothing has written (R74, R134; the fault is log 5's). -/
def Obligations.NoStepStops : Prop :=
  ∀ s : State, TableLaw s → RecordLaw s → DrainLaw s → ∃ t, step s = .next t
end

