-- ==== Sys2Proof/Laws/State.lean ====
section
/-! SUPPORT. One lemma per part of the state for each accessor's update: what was written is read back, and every other part
stands. Later proofs do not unfold the updates. -/

namespace Sys2Proof.Machine

variable (s : State)

/-! ### `State.modifyPort` -/

@[simp] theorem modifyPort_ctx (p : PortId) (f : Port → Port) (j : Slot) :
    (s.modifyPort p f).ctx j = s.ctx j := rfl
@[simp] theorem modifyPort_order (p : PortId) (f : Port → Port) (t : SetId) :
    (s.modifyPort p f).order t = s.order t := rfl
@[simp] theorem modifyPort_timers (p : PortId) (f : Port → Port) (j : Slot) :
    (s.modifyPort p f).timers j = s.timers j := rfl
@[simp] theorem modifyPort_service (p : PortId) (f : Port → Port) :
    (s.modifyPort p f).table.service = s.table.service := rfl
@[simp] theorem modifyPort_lastServed (p : PortId) (f : Port → Port) :
    (s.modifyPort p f).table.lastServed = s.table.lastServed := rfl
@[simp] theorem modifyPort_drain (p : PortId) (f : Port → Port) :
    (s.modifyPort p f).drain = s.drain := rfl
@[simp] theorem modifyPort_table (p : PortId) (f : Port → Port) :
    (s.modifyPort p f).table = s.table := rfl
@[simp] theorem modifyPort_timer (p : PortId) (f : Port → Port) :
    (s.modifyPort p f).timer = s.timer := rfl
@[simp] theorem modifyPort_pool (p : PortId) (f : Port → Port) :
    (s.modifyPort p f).pool = s.pool := rfl
@[simp] theorem modifyPort_mem (p : PortId) (f : Port → Port) :
    (s.modifyPort p f).mem = s.mem := rfl
@[simp] theorem modifyPort_tick (p : PortId) (f : Port → Port) :
    (s.modifyPort p f).timer.tick = s.timer.tick := rfl
@[simp] theorem modifyPort_divider (p : PortId) (f : Port → Port) :
    (s.modifyPort p f).timer.divider = s.timer.divider := rfl
@[simp] theorem modifyPort_scan (p : PortId) (f : Port → Port) :
    (s.modifyPort p f).timer.scan = s.timer.scan := rfl
@[simp] theorem modifyPort_claim (p : PortId) (f : Port → Port) :
    (s.modifyPort p f).timer.claim = s.timer.claim := rfl
@[simp] theorem modifyPort_reports (p : PortId) (f : Port → Port) :
    (s.modifyPort p f).reports = s.reports := rfl
@[simp] theorem modifyPort_cmd (p : PortId) (f : Port → Port) :
    (s.modifyPort p f).cmd = s.cmd := rfl
@[simp] theorem modifyPort_stats (p : PortId) (f : Port → Port) :
    (s.modifyPort p f).stats = s.stats := rfl
@[simp] theorem modifyPort_host (p : PortId) (f : Port → Port) :
    (s.modifyPort p f).host = s.host := rfl
@[simp] theorem modifyPort_free (p : PortId) (f : Port → Port) :
    (s.modifyPort p f).free = s.free := rfl
@[simp] theorem modifyPort_pending (p : PortId) (f : Port → Port) :
    (s.modifyPort p f).pending = s.pending := rfl

/-! ### `State.setCtx` -/

@[simp] theorem setCtx_port (i : Slot) (c : Context) (q : PortId) :
    (s.setCtx i c).port q = s.port q := rfl
@[simp] theorem setCtx_order (i : Slot) (c : Context) (t : SetId) :
    (s.setCtx i c).order t = s.order t := rfl
@[simp] theorem setCtx_timers (i : Slot) (c : Context) (j : Slot) :
    (s.setCtx i c).timers j = s.timers j := rfl
@[simp] theorem setCtx_service (i : Slot) (c : Context) :
    (s.setCtx i c).table.service = s.table.service := rfl
@[simp] theorem setCtx_lastServed (i : Slot) (c : Context) :
    (s.setCtx i c).table.lastServed = s.table.lastServed := rfl
@[simp] theorem setCtx_drain (i : Slot) (c : Context) :
    (s.setCtx i c).drain = s.drain := rfl
@[simp] theorem setCtx_timer (i : Slot) (c : Context) :
    (s.setCtx i c).timer = s.timer := rfl
@[simp] theorem setCtx_pool (i : Slot) (c : Context) :
    (s.setCtx i c).pool = s.pool := rfl
@[simp] theorem setCtx_mem (i : Slot) (c : Context) :
    (s.setCtx i c).mem = s.mem := rfl
@[simp] theorem setCtx_tick (i : Slot) (c : Context) :
    (s.setCtx i c).timer.tick = s.timer.tick := rfl
@[simp] theorem setCtx_divider (i : Slot) (c : Context) :
    (s.setCtx i c).timer.divider = s.timer.divider := rfl
@[simp] theorem setCtx_scan (i : Slot) (c : Context) :
    (s.setCtx i c).timer.scan = s.timer.scan := rfl
@[simp] theorem setCtx_claim (i : Slot) (c : Context) :
    (s.setCtx i c).timer.claim = s.timer.claim := rfl
@[simp] theorem setCtx_reports (i : Slot) (c : Context) :
    (s.setCtx i c).reports = s.reports := rfl
@[simp] theorem setCtx_cmd (i : Slot) (c : Context) :
    (s.setCtx i c).cmd = s.cmd := rfl
@[simp] theorem setCtx_stats (i : Slot) (c : Context) :
    (s.setCtx i c).stats = s.stats := rfl
@[simp] theorem setCtx_host (i : Slot) (c : Context) :
    (s.setCtx i c).host = s.host := rfl
@[simp] theorem setCtx_free (i : Slot) (c : Context) :
    (s.setCtx i c).free = s.free := rfl
@[simp] theorem setCtx_pending (i : Slot) (c : Context) :
    (s.setCtx i c).pending = s.pending := rfl

/-! ### `State.setOrder` -/

@[simp] theorem setOrder_port (u : SetId) (l : List Way) (q : PortId) :
    (s.setOrder u l).port q = s.port q := rfl
@[simp] theorem setOrder_ctx (u : SetId) (l : List Way) (j : Slot) :
    (s.setOrder u l).ctx j = s.ctx j := rfl
@[simp] theorem setOrder_timers (u : SetId) (l : List Way) (j : Slot) :
    (s.setOrder u l).timers j = s.timers j := rfl
@[simp] theorem setOrder_service (u : SetId) (l : List Way) :
    (s.setOrder u l).table.service = s.table.service := rfl
@[simp] theorem setOrder_lastServed (u : SetId) (l : List Way) :
    (s.setOrder u l).table.lastServed = s.table.lastServed := rfl
@[simp] theorem setOrder_drain (u : SetId) (l : List Way) :
    (s.setOrder u l).drain = s.drain := rfl
@[simp] theorem setOrder_timer (u : SetId) (l : List Way) :
    (s.setOrder u l).timer = s.timer := rfl
@[simp] theorem setOrder_pool (u : SetId) (l : List Way) :
    (s.setOrder u l).pool = s.pool := rfl
@[simp] theorem setOrder_mem (u : SetId) (l : List Way) :
    (s.setOrder u l).mem = s.mem := rfl
@[simp] theorem setOrder_tick (u : SetId) (l : List Way) :
    (s.setOrder u l).timer.tick = s.timer.tick := rfl
@[simp] theorem setOrder_divider (u : SetId) (l : List Way) :
    (s.setOrder u l).timer.divider = s.timer.divider := rfl
@[simp] theorem setOrder_scan (u : SetId) (l : List Way) :
    (s.setOrder u l).timer.scan = s.timer.scan := rfl
@[simp] theorem setOrder_claim (u : SetId) (l : List Way) :
    (s.setOrder u l).timer.claim = s.timer.claim := rfl
@[simp] theorem setOrder_reports (u : SetId) (l : List Way) :
    (s.setOrder u l).reports = s.reports := rfl
@[simp] theorem setOrder_cmd (u : SetId) (l : List Way) :
    (s.setOrder u l).cmd = s.cmd := rfl
@[simp] theorem setOrder_stats (u : SetId) (l : List Way) :
    (s.setOrder u l).stats = s.stats := rfl
@[simp] theorem setOrder_host (u : SetId) (l : List Way) :
    (s.setOrder u l).host = s.host := rfl
@[simp] theorem setOrder_free (u : SetId) (l : List Way) :
    (s.setOrder u l).free = s.free := rfl
@[simp] theorem setOrder_pending (u : SetId) (l : List Way) :
    (s.setOrder u l).pending = s.pending := rfl

/-! ### `State.setTimers` -/

@[simp] theorem setTimers_port (i : Slot) (v : SlotTimers) (q : PortId) :
    (s.setTimers i v).port q = s.port q := rfl
@[simp] theorem setTimers_ctx (i : Slot) (v : SlotTimers) (j : Slot) :
    (s.setTimers i v).ctx j = s.ctx j := rfl
@[simp] theorem setTimers_order (i : Slot) (v : SlotTimers) (t : SetId) :
    (s.setTimers i v).order t = s.order t := rfl
@[simp] theorem setTimers_service (i : Slot) (v : SlotTimers) :
    (s.setTimers i v).table.service = s.table.service := rfl
@[simp] theorem setTimers_lastServed (i : Slot) (v : SlotTimers) :
    (s.setTimers i v).table.lastServed = s.table.lastServed := rfl
@[simp] theorem setTimers_drain (i : Slot) (v : SlotTimers) :
    (s.setTimers i v).drain = s.drain := rfl
@[simp] theorem setTimers_table (i : Slot) (v : SlotTimers) :
    (s.setTimers i v).table = s.table := rfl
@[simp] theorem setTimers_pool (i : Slot) (v : SlotTimers) :
    (s.setTimers i v).pool = s.pool := rfl
@[simp] theorem setTimers_mem (i : Slot) (v : SlotTimers) :
    (s.setTimers i v).mem = s.mem := rfl
@[simp] theorem setTimers_tick (i : Slot) (v : SlotTimers) :
    (s.setTimers i v).timer.tick = s.timer.tick := rfl
@[simp] theorem setTimers_divider (i : Slot) (v : SlotTimers) :
    (s.setTimers i v).timer.divider = s.timer.divider := rfl
@[simp] theorem setTimers_scan (i : Slot) (v : SlotTimers) :
    (s.setTimers i v).timer.scan = s.timer.scan := rfl
@[simp] theorem setTimers_claim (i : Slot) (v : SlotTimers) :
    (s.setTimers i v).timer.claim = s.timer.claim := rfl
@[simp] theorem setTimers_reports (i : Slot) (v : SlotTimers) :
    (s.setTimers i v).reports = s.reports := rfl
@[simp] theorem setTimers_cmd (i : Slot) (v : SlotTimers) :
    (s.setTimers i v).cmd = s.cmd := rfl
@[simp] theorem setTimers_stats (i : Slot) (v : SlotTimers) :
    (s.setTimers i v).stats = s.stats := rfl
@[simp] theorem setTimers_host (i : Slot) (v : SlotTimers) :
    (s.setTimers i v).host = s.host := rfl
@[simp] theorem setTimers_free (i : Slot) (v : SlotTimers) :
    (s.setTimers i v).free = s.free := rfl
@[simp] theorem setTimers_pending (i : Slot) (v : SlotTimers) :
    (s.setTimers i v).pending = s.pending := rfl

/-! ### `State.setService` -/

@[simp] theorem setService_port (c : Option StoreClaim) (q : PortId) :
    (s.setService c).port q = s.port q := rfl
@[simp] theorem setService_ctx (c : Option StoreClaim) (j : Slot) :
    (s.setService c).ctx j = s.ctx j := rfl
@[simp] theorem setService_order (c : Option StoreClaim) (t : SetId) :
    (s.setService c).order t = s.order t := rfl
@[simp] theorem setService_timers (c : Option StoreClaim) (j : Slot) :
    (s.setService c).timers j = s.timers j := rfl
@[simp] theorem setService_lastServed (c : Option StoreClaim) :
    (s.setService c).table.lastServed = s.table.lastServed := rfl
@[simp] theorem setService_drain (c : Option StoreClaim) :
    (s.setService c).drain = s.drain := rfl
@[simp] theorem setService_timer (c : Option StoreClaim) :
    (s.setService c).timer = s.timer := rfl
@[simp] theorem setService_pool (c : Option StoreClaim) :
    (s.setService c).pool = s.pool := rfl
@[simp] theorem setService_mem (c : Option StoreClaim) :
    (s.setService c).mem = s.mem := rfl
@[simp] theorem setService_tick (c : Option StoreClaim) :
    (s.setService c).timer.tick = s.timer.tick := rfl
@[simp] theorem setService_divider (c : Option StoreClaim) :
    (s.setService c).timer.divider = s.timer.divider := rfl
@[simp] theorem setService_scan (c : Option StoreClaim) :
    (s.setService c).timer.scan = s.timer.scan := rfl
@[simp] theorem setService_claim (c : Option StoreClaim) :
    (s.setService c).timer.claim = s.timer.claim := rfl
@[simp] theorem setService_reports (c : Option StoreClaim) :
    (s.setService c).reports = s.reports := rfl
@[simp] theorem setService_cmd (c : Option StoreClaim) :
    (s.setService c).cmd = s.cmd := rfl
@[simp] theorem setService_stats (c : Option StoreClaim) :
    (s.setService c).stats = s.stats := rfl
@[simp] theorem setService_host (c : Option StoreClaim) :
    (s.setService c).host = s.host := rfl
@[simp] theorem setService_free (c : Option StoreClaim) :
    (s.setService c).free = s.free := rfl
@[simp] theorem setService_pending (c : Option StoreClaim) :
    (s.setService c).pending = s.pending := rfl

/-! ### `State.setLastServed` -/

@[simp] theorem setLastServed_port (c : Claimant) (q : PortId) :
    (s.setLastServed c).port q = s.port q := rfl
@[simp] theorem setLastServed_ctx (c : Claimant) (j : Slot) :
    (s.setLastServed c).ctx j = s.ctx j := rfl
@[simp] theorem setLastServed_order (c : Claimant) (t : SetId) :
    (s.setLastServed c).order t = s.order t := rfl
@[simp] theorem setLastServed_timers (c : Claimant) (j : Slot) :
    (s.setLastServed c).timers j = s.timers j := rfl
@[simp] theorem setLastServed_service (c : Claimant) :
    (s.setLastServed c).table.service = s.table.service := rfl
@[simp] theorem setLastServed_drain (c : Claimant) :
    (s.setLastServed c).drain = s.drain := rfl
@[simp] theorem setLastServed_timer (c : Claimant) :
    (s.setLastServed c).timer = s.timer := rfl
@[simp] theorem setLastServed_pool (c : Claimant) :
    (s.setLastServed c).pool = s.pool := rfl
@[simp] theorem setLastServed_mem (c : Claimant) :
    (s.setLastServed c).mem = s.mem := rfl
@[simp] theorem setLastServed_tick (c : Claimant) :
    (s.setLastServed c).timer.tick = s.timer.tick := rfl
@[simp] theorem setLastServed_divider (c : Claimant) :
    (s.setLastServed c).timer.divider = s.timer.divider := rfl
@[simp] theorem setLastServed_scan (c : Claimant) :
    (s.setLastServed c).timer.scan = s.timer.scan := rfl
@[simp] theorem setLastServed_claim (c : Claimant) :
    (s.setLastServed c).timer.claim = s.timer.claim := rfl
@[simp] theorem setLastServed_reports (c : Claimant) :
    (s.setLastServed c).reports = s.reports := rfl
@[simp] theorem setLastServed_cmd (c : Claimant) :
    (s.setLastServed c).cmd = s.cmd := rfl
@[simp] theorem setLastServed_stats (c : Claimant) :
    (s.setLastServed c).stats = s.stats := rfl
@[simp] theorem setLastServed_host (c : Claimant) :
    (s.setLastServed c).host = s.host := rfl
@[simp] theorem setLastServed_free (c : Claimant) :
    (s.setLastServed c).free = s.free := rfl
@[simp] theorem setLastServed_pending (c : Claimant) :
    (s.setLastServed c).pending = s.pending := rfl

/-! ### `State.setDrain` -/

@[simp] theorem setDrain_port (d : DrainPort) (q : PortId) :
    (s.setDrain d).port q = s.port q := rfl
@[simp] theorem setDrain_ctx (d : DrainPort) (j : Slot) :
    (s.setDrain d).ctx j = s.ctx j := rfl
@[simp] theorem setDrain_order (d : DrainPort) (t : SetId) :
    (s.setDrain d).order t = s.order t := rfl
@[simp] theorem setDrain_timers (d : DrainPort) (j : Slot) :
    (s.setDrain d).timers j = s.timers j := rfl
@[simp] theorem setDrain_service (d : DrainPort) :
    (s.setDrain d).table.service = s.table.service := rfl
@[simp] theorem setDrain_lastServed (d : DrainPort) :
    (s.setDrain d).table.lastServed = s.table.lastServed := rfl
@[simp] theorem setDrain_table (d : DrainPort) :
    (s.setDrain d).table = s.table := rfl
@[simp] theorem setDrain_timer (d : DrainPort) :
    (s.setDrain d).timer = s.timer := rfl
@[simp] theorem setDrain_pool (d : DrainPort) :
    (s.setDrain d).pool = s.pool := rfl
@[simp] theorem setDrain_mem (d : DrainPort) :
    (s.setDrain d).mem = s.mem := rfl
@[simp] theorem setDrain_tick (d : DrainPort) :
    (s.setDrain d).timer.tick = s.timer.tick := rfl
@[simp] theorem setDrain_divider (d : DrainPort) :
    (s.setDrain d).timer.divider = s.timer.divider := rfl
@[simp] theorem setDrain_scan (d : DrainPort) :
    (s.setDrain d).timer.scan = s.timer.scan := rfl
@[simp] theorem setDrain_claim (d : DrainPort) :
    (s.setDrain d).timer.claim = s.timer.claim := rfl
@[simp] theorem setDrain_reports (d : DrainPort) :
    (s.setDrain d).reports = s.reports := rfl
@[simp] theorem setDrain_cmd (d : DrainPort) :
    (s.setDrain d).cmd = s.cmd := rfl
@[simp] theorem setDrain_stats (d : DrainPort) :
    (s.setDrain d).stats = s.stats := rfl
@[simp] theorem setDrain_host (d : DrainPort) :
    (s.setDrain d).host = s.host := rfl
@[simp] theorem setDrain_free (d : DrainPort) :
    (s.setDrain d).free = s.free := rfl
@[simp] theorem setDrain_pending (d : DrainPort) :
    (s.setDrain d).pending = s.pending := rfl

/-! ### What was written is read back -/

@[simp] theorem modifyPort_port_same (p : PortId) (f : Port → Port) : (s.modifyPort p f).port p = f (s.port p) := by
  simp [State.port, State.modifyPort]

theorem modifyPort_port_ne (p q : PortId) (f : Port → Port) (h : q ≠ p) : (s.modifyPort p f).port q = s.port q := by
  have h' : p.val ≠ q.val := fun e => h (Fin.ext e.symm)
  simp [State.port, State.modifyPort, h']

theorem modifyPort_port (p q : PortId) (f : Port → Port) :
    (s.modifyPort p f).port q = if q = p then f (s.port p) else s.port q := by
  split
  · next h => subst h; simp
  · next h => exact modifyPort_port_ne s p q f h

@[simp] theorem setCtx_ctx_same (i : Slot) (c : Context) : (s.setCtx i c).ctx i = c := by
  simp [State.ctx, State.setCtx]

theorem setCtx_ctx_ne (i j : Slot) (c : Context) (h : j ≠ i) : (s.setCtx i c).ctx j = s.ctx j := by
  have h' : i.val ≠ j.val := fun e => h (Fin.ext e.symm)
  simp [State.ctx, State.setCtx, h']

theorem setCtx_ctx (i j : Slot) (c : Context) : (s.setCtx i c).ctx j = if j = i then c else s.ctx j := by
  split
  · next h => subst h; simp
  · next h => exact setCtx_ctx_ne s i j c h

@[simp] theorem setOrder_order_same (u : SetId) (l : List Way) : (s.setOrder u l).order u = l := by
  simp [State.order, State.setOrder]

theorem setOrder_order_ne (u t : SetId) (l : List Way) (h : t ≠ u) : (s.setOrder u l).order t = s.order t := by
  have h' : u.val ≠ t.val := fun e => h (Fin.ext e.symm)
  simp [State.order, State.setOrder, h']

theorem setOrder_order (u t : SetId) (l : List Way) : (s.setOrder u l).order t = if t = u then l else s.order t := by
  split
  · next h => subst h; simp
  · next h => exact setOrder_order_ne s u t l h

@[simp] theorem setTimers_timers_same (i : Slot) (v : SlotTimers) : (s.setTimers i v).timers i = v := by
  simp [State.timers, State.setTimers]

theorem setTimers_timers_ne (i j : Slot) (v : SlotTimers) (h : j ≠ i) : (s.setTimers i v).timers j = s.timers j := by
  have h' : i.val ≠ j.val := fun e => h (Fin.ext e.symm)
  simp [State.timers, State.setTimers, h']

theorem setTimers_timers (i j : Slot) (v : SlotTimers) :
    (s.setTimers i v).timers j = if j = i then v else s.timers j := by
  split
  · next h => subst h; simp
  · next h => exact setTimers_timers_ne s i j v h

@[simp] theorem setService_service (c : Option StoreClaim) : (s.setService c).table.service = c := rfl

@[simp] theorem setLastServed_lastServed (c : Claimant) : (s.setLastServed c).table.lastServed = c := rfl

@[simp] theorem setDrain_drain (d : DrainPort) : (s.setDrain d).drain = d := rfl

/-- A part of a port that `f` does not change stands in every port. -/
theorem modifyPort_part {α : Type} (g : Port → α) (p q : PortId) (f : Port → Port) (h : ∀ x, g (f x) = g x) :
    g ((s.modifyPort p f).port q) = g (s.port q) := by
  rw [modifyPort_port]
  split
  · next e => rw [e, h]
  · rfl

/-! ### Reading the parts of a state that is written out -/

@[simp] theorem ports_getElem (p : PortId) : s.ports[p.val] = s.port p := rfl

@[simp] theorem contexts_getElem (i : Slot) : s.table.contexts[i.val] = s.ctx i := rfl

@[simp] theorem openOrder_getElem (t : SetId) : s.table.openOrder[t.val] = s.order t := rfl

@[simp] theorem slots_getElem (i : Slot) : s.timer.slots[i.val] = s.timers i := rfl

section
variable (P : Vector Port 4) (T : Table) (O : Pool) (M : Memory) (U : TimerUnit) (R : List ReportEntry) (D : DrainPort)
  (C : CommandUnit) (E : Stats) (H : HostPort) (F : Nat) (Q : List Instr)

@[simp] theorem port_mk (p : PortId) : State.port ⟨P, T, O, M, U, R, D, C, E, H, F, Q⟩ p = P[p.val] := rfl

@[simp] theorem ctx_mk (i : Slot) : State.ctx ⟨P, T, O, M, U, R, D, C, E, H, F, Q⟩ i = T.contexts[i.val] := rfl

@[simp] theorem order_mk (t : SetId) : State.order ⟨P, T, O, M, U, R, D, C, E, H, F, Q⟩ t = T.openOrder[t.val] := rfl

@[simp] theorem timers_mk (i : Slot) : State.timers ⟨P, T, O, M, U, R, D, C, E, H, F, Q⟩ i = U.slots[i.val] := rfl

end

/-! ### Two states are equal when their parts are -/

/-- Two port files are equal when each port is. -/
theorem ports_ext {s t : State} (h : ∀ p, s.port p = t.port p) : s.ports = t.ports := by
  apply Vector.ext
  intro i hi
  exact h ⟨i, hi⟩

/-- Two sets of context records are equal when each record is. -/
theorem contexts_ext {s t : State} (h : ∀ i, s.ctx i = t.ctx i) : s.table.contexts = t.table.contexts := by
  apply Vector.ext
  intro i hi
  exact h ⟨i, hi⟩

end Sys2Proof.Machine
end

