-- ==== Sys2Proof/Laws/Flags.lean ====
section
/-! SUPPORT. What the counters, the limit flags and the events do: one lemma for the parts each operation leaves alone, one for
what it changes, and `Accounts` for sequences of increments and raised events. -/

namespace Sys2Proof.Machine

open Sys2Proof.Safety

variable (s : State)

/-! ### Events -/

@[simp] theorem raise_frame (e : Event) :
    (∀ q : PortId, (raise e s).port q = s.port q) ∧ (∀ j : Slot, (raise e s).ctx j = s.ctx j) ∧
    (∀ u : SetId, (raise e s).order u = s.order u) ∧ (∀ j : Slot, (raise e s).timers j = s.timers j) ∧
    (raise e s).table = s.table ∧ (raise e s).pool = s.pool ∧ (raise e s).mem = s.mem ∧ (raise e s).timer = s.timer ∧
    (raise e s).reports = s.reports ∧ (raise e s).drain = s.drain ∧ (raise e s).cmd = s.cmd ∧
    (raise e s).host = s.host ∧ (raise e s).free = s.free ∧ (raise e s).pending = s.pending := by
  and_intros <;> intros <;> rfl

@[simp] theorem raise_stats_rest (e : Event) : (raise e s).stats.enable = s.stats.enable ∧
    (raise e s).stats.unreported = s.stats.unreported ∧ (raise e s).stats.unreportedLimit = s.stats.unreportedLimit :=
  ⟨rfl, rfl, rfl⟩

/-- A raised event sets its flag and leaves the others (R171). -/
theorem flagSet_raise (e e' : Event) : flagSet (raise e s) e' = (flagSet s e' || decide (e' = e)) := by
  cases e <;> cases e' <;> simp [flagSet, raise, Event.bit]

/-! ### Counters -/

@[simp] theorem count_frame (p : PortId) (c : Counter) :
    (∀ j : Slot, (count p c s).ctx j = s.ctx j) ∧ (∀ u : SetId, (count p c s).order u = s.order u) ∧
    (∀ j : Slot, (count p c s).timers j = s.timers j) ∧ (count p c s).table = s.table ∧ (count p c s).pool = s.pool ∧
    (count p c s).mem = s.mem ∧ (count p c s).timer = s.timer ∧ (count p c s).reports = s.reports ∧
    (count p c s).drain = s.drain ∧ (count p c s).cmd = s.cmd ∧ (count p c s).host = s.host ∧
    (count p c s).free = s.free ∧ (count p c s).pending = s.pending := by
  unfold count; dsimp only; split <;> [skip; split] <;> and_intros <;> intros <;> rfl
/-- An increment changes the counters and limit flags of a port alone (R165). -/
theorem count_port (p : PortId) (c : Counter) (q : PortId) :
    ∃ cs ls, (count p c s).port q = { s.port q with counters := cs, limits := ls } := by
  unfold count; dsimp only
  split
  · exact ⟨_, _, rfl⟩
  · split
    · rw [(raise_frame _ _).1, modifyPort_port]
      split
      · next h => subst h; exact ⟨_, _, rfl⟩
      · exact ⟨_, _, rfl⟩
    · rw [modifyPort_port]
      split
      · next h => subst h; exact ⟨_, _, rfl⟩
      · exact ⟨_, _, rfl⟩

@[simp] theorem count_port_frame (p : PortId) (c : Counter) (q : PortId) :
    ((count p c s).port q).rx = (s.port q).rx ∧ ((count p c s).port q).staging = (s.port q).staging ∧
    ((count p c s).port q).tx = (s.port q).tx ∧ ((count p c s).port q).replies = (s.port q).replies ∧
    ((count p c s).port q).configFault = (s.port q).configFault ∧ ((count p c s).port q).enable = (s.port q).enable ∧
    ((count p c s).port q).reclaim = (s.port q).reclaim ∧ ((count p c s).port q).attempts = (s.port q).attempts ∧
    ((count p c s).port q).addr = (s.port q).addr ∧ ((count p c s).port q).rate = (s.port q).rate ∧
    ((count p c s).port q).quota = (s.port q).quota ∧ ((count p c s).port q).gap = (s.port q).gap ∧
    ((count p c s).port q).repair = (s.port q).repair ∧ ((count p c s).port q).life = (s.port q).life ∧
    ((count p c s).port q).reclimit = (s.port q).reclimit ∧ ((count p c s).port q).held = (s.port q).held ∧
    ((count p c s).port q).recent = (s.port q).recent := by
  obtain ⟨_, _, h⟩ := count_port s p c q
  simp [h]

@[simp] theorem countMany_frame (p : PortId) (c : Counter) (n : Nat) :
    (∀ j : Slot, (countMany p c n s).ctx j = s.ctx j) ∧ (∀ u : SetId, (countMany p c n s).order u = s.order u) ∧
    (∀ j : Slot, (countMany p c n s).timers j = s.timers j) ∧ (countMany p c n s).table = s.table ∧
    (countMany p c n s).pool = s.pool ∧ (countMany p c n s).mem = s.mem ∧ (countMany p c n s).timer = s.timer ∧
    (countMany p c n s).reports = s.reports ∧ (countMany p c n s).drain = s.drain ∧ (countMany p c n s).cmd = s.cmd ∧
    (countMany p c n s).host = s.host ∧ (countMany p c n s).free = s.free ∧ (countMany p c n s).pending = s.pending := by
  induction n generalizing s with
  | zero => simp [countMany]
  | succ n ih => simp [countMany, ih]

@[simp] theorem countMany_port_frame (p : PortId) (c : Counter) (n : Nat) (q : PortId) :
    ((countMany p c n s).port q).rx = (s.port q).rx ∧ ((countMany p c n s).port q).staging = (s.port q).staging ∧
    ((countMany p c n s).port q).tx = (s.port q).tx ∧ ((countMany p c n s).port q).replies = (s.port q).replies ∧
    ((countMany p c n s).port q).configFault = (s.port q).configFault ∧
    ((countMany p c n s).port q).enable = (s.port q).enable ∧
    ((countMany p c n s).port q).reclaim = (s.port q).reclaim ∧
    ((countMany p c n s).port q).attempts = (s.port q).attempts ∧
    ((countMany p c n s).port q).addr = (s.port q).addr ∧ ((countMany p c n s).port q).rate = (s.port q).rate ∧
    ((countMany p c n s).port q).quota = (s.port q).quota ∧ ((countMany p c n s).port q).gap = (s.port q).gap ∧
    ((countMany p c n s).port q).repair = (s.port q).repair ∧ ((countMany p c n s).port q).life = (s.port q).life ∧
    ((countMany p c n s).port q).reclimit = (s.port q).reclimit ∧
    ((countMany p c n s).port q).held = (s.port q).held ∧ ((countMany p c n s).port q).recent = (s.port q).recent := by
  induction n generalizing s with
  | zero => simp [countMany]
  | succ n ih => simp [countMany, ih]

@[simp] theorem clearCounter_frame (p : PortId) (c : Counter) :
    (∀ j : Slot, (clearCounter p c s).ctx j = s.ctx j) ∧ (∀ u : SetId, (clearCounter p c s).order u = s.order u) ∧
    (∀ j : Slot, (clearCounter p c s).timers j = s.timers j) ∧ (clearCounter p c s).table = s.table ∧
    (clearCounter p c s).pool = s.pool ∧ (clearCounter p c s).mem = s.mem ∧ (clearCounter p c s).timer = s.timer ∧
    (clearCounter p c s).reports = s.reports ∧ (clearCounter p c s).drain = s.drain ∧
    (clearCounter p c s).cmd = s.cmd ∧ (clearCounter p c s).stats = s.stats ∧ (clearCounter p c s).host = s.host ∧
    (clearCounter p c s).free = s.free ∧ (clearCounter p c s).pending = s.pending := by
  and_intros <;> intros <;> rfl

@[simp] theorem countUnreported_frame :
    (∀ q : PortId, (countUnreported s).port q = s.port q) ∧ (∀ j : Slot, (countUnreported s).ctx j = s.ctx j) ∧
    (∀ u : SetId, (countUnreported s).order u = s.order u) ∧
    (∀ j : Slot, (countUnreported s).timers j = s.timers j) ∧ (countUnreported s).table = s.table ∧
    (countUnreported s).pool = s.pool ∧ (countUnreported s).mem = s.mem ∧ (countUnreported s).timer = s.timer ∧
    (countUnreported s).reports = s.reports ∧ (countUnreported s).drain = s.drain ∧ (countUnreported s).cmd = s.cmd ∧
    (countUnreported s).host = s.host ∧ (countUnreported s).free = s.free ∧ (countUnreported s).pending = s.pending := by
  unfold countUnreported; split <;> [skip; split] <;> and_intros <;> intros <;> rfl

/-! ### Values -/

theorem counterIdx_inj {c d : Counter} (h : counterIdx c = counterIdx d) : c = d := by
  cases c <;> cases d <;> first | rfl | exact absurd h (by decide)

@[simp] theorem counter_raise (e : Event) (p : PortId) (c : Counter) : (raise e s).counter p c = s.counter p c := rfl

@[simp] theorem limitFlag_raise (e : Event) (p : PortId) (c : Counter) : (raise e s).limitFlag p c = s.limitFlag p c := rfl

@[simp] theorem counter_countUnreported (p : PortId) (c : Counter) :
    (countUnreported s).counter p c = s.counter p c := by simp [State.counter]

@[simp] theorem limitFlag_countUnreported (p : PortId) (c : Counter) :
    (countUnreported s).limitFlag p c = s.limitFlag p c := by simp [State.limitFlag]

/-- The counters after a change that sets one counter of a port. -/
theorem counter_modifyPort_set (p q : PortId) (c d : Counter) (v : Word) (f : Port → Port)
    (hf : ∀ x, (f x).counters = x.counters.set (counterIdx c) v) :
    (s.modifyPort p f).counter q d = if q = p ∧ d = c then v else s.counter q d := by
  unfold State.counter
  by_cases hq : q = p
  · subst hq
    by_cases hd : d = c
    · subst hd; simp [hf]
    · have : (counterIdx c).val ≠ (counterIdx d).val := fun e => hd (counterIdx_inj (Fin.ext e.symm))
      simp [hf, hd, this]
  · simp [hq, modifyPort_port_ne _ _ _ _ hq]

/-- An increment adds 1 below 65535 and nothing at 65535, to its counter alone (R165). -/
theorem counter_count (p q : PortId) (c d : Counter) :
    ((count p c s).counter q d).toNat =
      min 65535 ((s.counter q d).toNat + if q = p ∧ d = c then 1 else 0) := by
  have hlt := (s.counter q d).isLt
  unfold count; dsimp only
  split
  · next h =>
    split
    · next h' => obtain ⟨rfl, rfl⟩ := h'; rw [h]; decide
    · omega
  · next h =>
    split
    · next h2 =>
      rw [counter_raise, counter_modifyPort_set s p q c d _ _ fun _ => rfl]
      split
      · next h' => obtain ⟨rfl, rfl⟩ := h'; rw [h2]; decide
      · omega
    · next h2 =>
      rw [counter_modifyPort_set s p q c d _ _ fun _ => rfl]
      split
      · next h' =>
        obtain ⟨rfl, rfl⟩ := h'
        have n1 : (s.counter q d).toNat ≠ 65535 := fun e => h (BitVec.eq_of_toNat_eq e)
        rw [BitVec.toNat_add]
        simp
        omega
      · omega

theorem counter_eq_iff (v : Word) (n : Nat) (h : n < 65536) : v = BitVec.ofNat 16 n ↔ v.toNat = n := by
  constructor
  · intro e; rw [e]; simp; omega
  · intro e; apply BitVec.eq_of_toNat_eq; simp; omega

/-- The limit flag is set by the increment that takes the counter to 65535, and no other changes (R165). -/
theorem limitFlag_count (p q : PortId) (c d : Counter) :
    (count p c s).limitFlag q d = (s.limitFlag q d || decide ((q = p ∧ d = c) ∧ s.counter p c = 0xFFFE#16)) := by
  unfold count; dsimp only
  split
  · next h => simp [h]
  · split
    · next h2 =>
      simp only [State.limitFlag, raise_frame, modifyPort_port]
      by_cases hq : q = p
      · subst hq
        simp only [h2]
        cases c <;> cases d <;> simp [counterIdx]
      · simp [hq]
    · next h2 =>
      simp only [State.limitFlag, modifyPort_port, h2]
      by_cases hq : q = p
      · subst hq; simp
      · simp [hq]

/-- STAT_LIMIT is raised by the increment that takes the counter to 65535, and no other flag changes (R165). -/
theorem flagSet_count (p : PortId) (c : Counter) (e : Event) :
    flagSet (count p c s) e = (flagSet s e || decide (e = .statLimit ∧ s.counter p c = 0xFFFE#16)) := by
  unfold count; dsimp only
  split
  · next h => simp [h]
  · split
    · next h2 => rw [flagSet_raise]; simp [h2, flagSet]
    · next h2 => simp [h2, flagSet]

@[simp] theorem count_stats_rest (p : PortId) (c : Counter) : (count p c s).stats.enable = s.stats.enable ∧
    (count p c s).stats.unreported = s.stats.unreported ∧
    (count p c s).stats.unreportedLimit = s.stats.unreportedLimit := by
  unfold count; dsimp only; split <;> [skip; split] <;> exact ⟨rfl, rfl, rfl⟩

/-- UNREPORTED counts, saturates and flags as a per-port counter does (R170). -/
theorem countUnreported_values :
    (countUnreported s).stats.unreported.toNat = min 65535 (s.stats.unreported.toNat + 1) ∧
    (countUnreported s).stats.unreportedLimit =
      (s.stats.unreportedLimit || decide (s.stats.unreported = 0xFFFE#16)) ∧
    (countUnreported s).stats.enable = s.stats.enable ∧
    ∀ e, flagSet (countUnreported s) e =
      (flagSet s e || decide (e = .statLimit ∧ s.stats.unreported = 0xFFFE#16)) := by
  have hlt := s.stats.unreported.isLt
  unfold countUnreported
  split
  · next h => simp [h]
  · next h =>
    split
    · next h2 =>
      refine ⟨by simp [h2, raise], by simp [h2, raise], rfl, fun e => ?_⟩
      rw [flagSet_raise]; simp [h2, flagSet]
    · next h2 =>
      have n1 : s.stats.unreported.toNat ≠ 65535 := fun e => h (BitVec.eq_of_toNat_eq e)
      refine ⟨?_, by simp [h2], rfl, fun e => by simp [flagSet, h2]⟩
      rw [BitVec.toNat_add]; simp; omega

/-! ### Sequences of increments and raised events -/

theorem reaches_one (v : Word) : reaches v 1 ↔ v = 0xFFFE#16 := by
  rw [counter_eq_iff v 65534 (by omega)]; unfold reaches; omega

theorem reaches_zero (v : Word) : ¬ reaches v 0 := by unfold reaches; omega

theorem reaches_add (v w : Word) (m n : Nat) (h : w.toNat = min 65535 (v.toNat + m)) :
    reaches v m ∨ reaches w n ↔ reaches v (m + n) := by
  unfold reaches; omega

end Sys2Proof.Machine

namespace Sys2Proof.Safety

open Sys2Proof.Machine

variable (s : State)

/-- Nothing counted and nothing raised. -/
theorem Accounts.same {s t : State} (hp : ∀ p, (t.port p).counters = (s.port p).counters ∧ (t.port p).limits = (s.port p).limits)
    (hs : t.stats = s.stats) : Accounts s t [] 0 [] where
  counters p c := by
    have := (s.counter p c).isLt
    simp only [State.counter, hp, List.count_nil] at this ⊢; omega
  limits p c := by simp [State.limitFlag, hp, reaches_zero]
  unreported := by have := s.stats.unreported.isLt; rw [hs]; omega
  unreportedLimit := by simp [hs, reaches_zero]
  events e := by simp [flagSet, hs, reaches_zero]
  enable := by rw [hs]

theorem Accounts.refl (s : State) : Accounts s s [] 0 [] := .same (fun _ => ⟨rfl, rfl⟩) rfl

/-- Accounts of two parts of a run are the account of the whole. -/
theorem Accounts.trans {s t u : State} {l l' : List (PortId × Counter)} {n n' : Nat} {ev ev' : List Event}
    (h : Accounts s t l n ev) (h' : Accounts t u l' n' ev') : Accounts s u (l ++ l') (n + n') (ev ++ ev') where
  counters p c := by rw [h'.counters, h.counters, List.count_append]; omega
  limits p c := by
    rw [h'.limits, h.limits, List.count_append, or_assoc, reaches_add _ _ _ _ (h.counters p c)]
  unreported := by rw [h'.unreported, h.unreported]; omega
  unreportedLimit := by rw [h'.unreportedLimit, h.unreportedLimit, or_assoc, reaches_add _ _ _ _ h.unreported]
  events e := by
    have hc : (∃ p c, reaches (s.counter p c) ((l ++ l').count (p, c))) ↔
        (∃ p c, reaches (s.counter p c) (l.count (p, c))) ∨ ∃ p c, reaches (t.counter p c) (l'.count (p, c)) := by
      constructor
      · rintro ⟨p, c, r⟩
        rw [List.count_append, ← reaches_add _ _ _ _ (h.counters p c)] at r
        exact r.imp (fun r => ⟨p, c, r⟩) fun r => ⟨p, c, r⟩
      · rintro (⟨p, c, r⟩ | ⟨p, c, r⟩) <;> refine ⟨p, c, ?_⟩ <;>
          rw [List.count_append, ← reaches_add _ _ _ _ (h.counters p c)]
        · exact .inl r
        · exact .inr r
    rw [hc, ← reaches_add _ _ _ _ h.unreported, h'.events, h.events, List.mem_append]
    generalize (∃ p c, reaches (s.counter p c) (l.count (p, c))) = A
    generalize (∃ p c, reaches (t.counter p c) (l'.count (p, c))) = B
    generalize reaches s.stats.unreported n = C
    generalize reaches t.stats.unreported n' = D
    tauto
  enable := by rw [h'.enable, h.enable]

theorem accounts_count (p : PortId) (c : Counter) : Accounts s (count p c s) [(p, c)] 0 [] where
  counters q d := by
    rw [counter_count]
    congr 2
    by_cases h : q = p ∧ d = c
    · obtain ⟨rfl, rfl⟩ := h; simp
    · have : ((p, c) == (q, d)) = false := by simp; exact fun e e' => h ⟨e.symm, e'.symm⟩
      simp [h, List.count_cons, this]
  limits q d := by
    rw [limitFlag_count]
    by_cases h : q = p ∧ d = c
    · obtain ⟨rfl, rfl⟩ := h; simp [reaches_one]
    · have : ((p, c) == (q, d)) = false := by simp; exact fun e e' => h ⟨e.symm, e'.symm⟩
      simp [h, List.count_cons, this, reaches_zero]
  unreported := by have := s.stats.unreported.isLt; simp; omega
  unreportedLimit := by simp [reaches_zero]
  events e := by
    rw [flagSet_count]
    have : (∃ q d, reaches (s.counter q d) (List.count (q, d) [(p, c)])) ↔ s.counter p c = 0xFFFE#16 := by
      constructor
      · rintro ⟨q, d, h⟩
        by_cases e : (p, c) = (q, d)
        · injection e with e1 e2; subst e1; subst e2
          simpa [reaches_one] using h
        · have : ((p, c) == (q, d)) = false := by simpa using e
          simp [List.count_cons, this, reaches_zero] at h
      · intro h; exact ⟨p, c, by simpa [reaches_one] using h⟩
    simp [this, reaches_zero]
  enable := by simp

theorem accounts_countMany (p : PortId) (c : Counter) (n : Nat) :
    Accounts s (countMany p c n s) (List.replicate n (p, c)) 0 [] := by
  induction n generalizing s with
  | zero => exact .refl s
  | succ n ih => exact (accounts_count s p c).trans (ih _)

theorem accounts_raise (e : Event) : Accounts s (raise e s) [] 0 [e] where
  counters p c := by have := (s.counter p c).isLt; simp; omega
  limits p c := by simp [reaches_zero]
  unreported := by have := s.stats.unreported.isLt; simp; omega
  unreportedLimit := by simp [reaches_zero]
  events e' := by simp [flagSet_raise, reaches_zero]
  enable := by simp

theorem accounts_countUnreported : Accounts s (countUnreported s) [] 1 [] where
  counters p c := by have := (s.counter p c).isLt; simp; omega
  limits p c := by simp [reaches_zero]
  unreported := (countUnreported_values s).1
  unreportedLimit := by simp [(countUnreported_values s).2.1, reaches_one]
  events e := by simp [(countUnreported_values s).2.2.2, reaches_one, reaches_zero]
  enable := (countUnreported_values s).2.2.1

end Sys2Proof.Safety
end

