-- ==== Sys2Proof/Laws/Ops.lean ====
section
/-! SUPPORT. What each shared operation leaves alone, and what it does to the rest: cited by later proofs in place of unfolding
the operation. -/

namespace Sys2Proof.Machine

open Sys2Proof.Safety

variable (s : State)

/-! ### Counters and the rest of a port -/

@[simp] theorem uncounted_count (p q : PortId) (c : Counter) :
    uncounted ((count p c s).port q) = uncounted (s.port q) := by
  obtain ⟨_, _, h⟩ := count_port s p c q
  simp [h, uncounted]

@[simp] theorem uncounted_countMany (p q : PortId) (c : Counter) (n : Nat) :
    uncounted ((countMany p c n s).port q) = uncounted (s.port q) := by
  induction n generalizing s with
  | zero => rfl
  | succ n ih => simp [countMany, ih]

/-! ### Countdowns -/

@[simp] theorem loadRepair_frame (i : Slot) (v : Option Nat) :
    (∀ q : PortId, (loadRepair i v s).port q = s.port q) ∧ (∀ j : Slot, (loadRepair i v s).ctx j = s.ctx j) ∧
    (∀ u : SetId, (loadRepair i v s).order u = s.order u) ∧ (loadRepair i v s).table = s.table ∧
    (loadRepair i v s).pool = s.pool ∧ (loadRepair i v s).mem = s.mem ∧
    (loadRepair i v s).timer.tick = s.timer.tick ∧ (loadRepair i v s).timer.divider = s.timer.divider ∧
    (loadRepair i v s).timer.scan = s.timer.scan ∧ (loadRepair i v s).timer.claim = s.timer.claim ∧
    (loadRepair i v s).reports = s.reports ∧ (loadRepair i v s).drain = s.drain ∧ (loadRepair i v s).cmd = s.cmd ∧
    (loadRepair i v s).stats = s.stats ∧ (loadRepair i v s).host = s.host ∧ (loadRepair i v s).free = s.free ∧
    (loadRepair i v s).pending = s.pending := by
  and_intros <;> intros <;> rfl

@[simp] theorem loadLife_frame (i : Slot) (v : Option Nat) :
    (∀ q : PortId, (loadLife i v s).port q = s.port q) ∧ (∀ j : Slot, (loadLife i v s).ctx j = s.ctx j) ∧
    (∀ u : SetId, (loadLife i v s).order u = s.order u) ∧ (loadLife i v s).table = s.table ∧
    (loadLife i v s).pool = s.pool ∧ (loadLife i v s).mem = s.mem ∧ (loadLife i v s).timer.tick = s.timer.tick ∧
    (loadLife i v s).timer.divider = s.timer.divider ∧ (loadLife i v s).timer.scan = s.timer.scan ∧
    (loadLife i v s).timer.claim = s.timer.claim ∧ (loadLife i v s).reports = s.reports ∧
    (loadLife i v s).drain = s.drain ∧ (loadLife i v s).cmd = s.cmd ∧ (loadLife i v s).stats = s.stats ∧
    (loadLife i v s).host = s.host ∧ (loadLife i v s).free = s.free ∧ (loadLife i v s).pending = s.pending := by
  and_intros <;> intros <;> rfl

@[simp] theorem clearCountdowns_frame (i : Slot) :
    (∀ q : PortId, (clearCountdowns i s).port q = s.port q) ∧ (∀ j : Slot, (clearCountdowns i s).ctx j = s.ctx j) ∧
    (∀ u : SetId, (clearCountdowns i s).order u = s.order u) ∧ (clearCountdowns i s).table = s.table ∧
    (clearCountdowns i s).pool = s.pool ∧ (clearCountdowns i s).mem = s.mem ∧
    (clearCountdowns i s).timer.tick = s.timer.tick ∧ (clearCountdowns i s).timer.divider = s.timer.divider ∧
    (clearCountdowns i s).timer.scan = s.timer.scan ∧ (clearCountdowns i s).timer.claim = s.timer.claim ∧
    (clearCountdowns i s).reports = s.reports ∧ (clearCountdowns i s).drain = s.drain ∧
    (clearCountdowns i s).cmd = s.cmd ∧ (clearCountdowns i s).stats = s.stats ∧ (clearCountdowns i s).host = s.host ∧
    (clearCountdowns i s).free = s.free ∧ (clearCountdowns i s).pending = s.pending := by
  and_intros <;> intros <;> rfl

@[simp] theorem presentExpiry_frame :
    (∀ q : PortId, (presentExpiry s).port q = s.port q) ∧ (∀ j : Slot, (presentExpiry s).ctx j = s.ctx j) ∧
    (∀ u : SetId, (presentExpiry s).order u = s.order u) ∧ (∀ j : Slot, (presentExpiry s).timers j = s.timers j) ∧
    (presentExpiry s).table = s.table ∧ (presentExpiry s).pool = s.pool ∧ (presentExpiry s).mem = s.mem ∧
    (presentExpiry s).timer.tick = s.timer.tick ∧ (presentExpiry s).timer.divider = s.timer.divider ∧
    (presentExpiry s).timer.scan = s.timer.scan ∧ (presentExpiry s).reports = s.reports ∧
    (presentExpiry s).drain = s.drain ∧ (presentExpiry s).cmd = s.cmd ∧ (presentExpiry s).stats = s.stats ∧
    (presentExpiry s).host = s.host ∧ (presentExpiry s).free = s.free ∧ (presentExpiry s).pending = s.pending := by
  unfold presentExpiry; split <;> and_intros <;> intros <;> rfl

/-- Loading the repair countdown clears its mark and leaves the life countdown (R93). -/
@[simp] theorem loadRepair_timers (i j : Slot) (v : Option Nat) : (loadRepair i v s).timers j =
    if j = i then { s.timers i with repair := v, repairMark := false } else s.timers j := setTimers_timers ..

/-- Loading the life countdown clears its mark and leaves the repair countdown (R93). -/
@[simp] theorem loadLife_timers (i j : Slot) (v : Option Nat) : (loadLife i v s).timers j =
    if j = i then { s.timers i with life := v, lifeMark := false } else s.timers j := setTimers_timers ..

/-- Clearing makes both countdowns absent with their marks clear (R33). -/
@[simp] theorem clearCountdowns_timers (i j : Slot) : (clearCountdowns i s).timers j =
    if j = i then SlotTimers.cleared else s.timers j := setTimers_timers ..

/-- The timer unit presents the first marked position when it presents nothing, and keeps what it presents (R95). -/
@[simp] theorem presentExpiry_claim :
    (presentExpiry s).timer.claim = s.timer.claim.or (s.firstMarked.map claimAt) := by
  unfold presentExpiry
  split
  · next h => simp [h]
  · next h => simp [h]

@[simp] theorem presentExpiry_slots : (presentExpiry s).timer.slots = s.timer.slots := by
  unfold presentExpiry; split <;> rfl

/-! ### Reports -/

@[simp] theorem appendEntry_frame (e : ReportEntry) :
    (∀ q : PortId, (appendEntry e s).port q = s.port q) ∧ (∀ j : Slot, (appendEntry e s).ctx j = s.ctx j) ∧
    (∀ u : SetId, (appendEntry e s).order u = s.order u) ∧ (∀ j : Slot, (appendEntry e s).timers j = s.timers j) ∧
    (appendEntry e s).table = s.table ∧ (appendEntry e s).pool = s.pool ∧ (appendEntry e s).mem = s.mem ∧
    (appendEntry e s).timer = s.timer ∧ (appendEntry e s).drain = s.drain ∧ (appendEntry e s).cmd = s.cmd ∧
    (appendEntry e s).host = s.host ∧ (appendEntry e s).free = s.free ∧ (appendEntry e s).pending = s.pending := by
  and_intros <;> intros <;> rfl

@[simp] theorem appendEntry_reports (e : ReportEntry) : (appendEntry e s).reports = s.reports ++ [e] := rfl

@[simp] theorem appendFailure_frame (e : ReportEntry) :
    (∀ q : PortId, (appendFailure e s).port q = s.port q) ∧ (∀ j : Slot, (appendFailure e s).ctx j = s.ctx j) ∧
    (∀ u : SetId, (appendFailure e s).order u = s.order u) ∧
    (∀ j : Slot, (appendFailure e s).timers j = s.timers j) ∧ (appendFailure e s).table = s.table ∧
    (appendFailure e s).pool = s.pool ∧ (appendFailure e s).mem = s.mem ∧ (appendFailure e s).timer = s.timer ∧
    (appendFailure e s).drain = s.drain ∧ (appendFailure e s).cmd = s.cmd ∧ (appendFailure e s).host = s.host ∧
    (appendFailure e s).free = s.free ∧ (appendFailure e s).pending = s.pending := by
  unfold appendFailure; split <;> simp

/-- A failure entry is appended unless 16 stand in the queue (R127). -/
@[simp] theorem appendFailure_reports (e : ReportEntry) : (appendFailure e s).reports =
    if failureCount s.reports < 16 then s.reports ++ [e] else s.reports := by
  unfold appendFailure; split <;> simp

theorem accounts_appendEntry (e : ReportEntry) : Accounts s (appendEntry e s) [] 0 [.reportAdded] :=
  (Accounts.same (s := s) (t := { s with reports := s.reports ++ [e] }) (fun _ => ⟨rfl, rfl⟩) rfl).trans (accounts_raise _ _)

/-- A lost failure entry is counted in UNREPORTED and raises REPORT_LOST; a kept one raises REPORT_ADDED (R126, R127). -/
theorem accounts_appendFailure (e : ReportEntry) : Accounts s (appendFailure e s) []
    (if failureCount s.reports < 16 then 0 else 1)
    (if failureCount s.reports < 16 then [.reportAdded] else [.reportLost]) := by
  unfold appendFailure
  split
  · exact accounts_appendEntry s e
  · exact (accounts_countUnreported s).trans (accounts_raise _ _)

/-! ### Replies -/

@[simp] theorem offerReply_frame (p : PortId) (r : Reply) :
    (∀ j : Slot, (offerReply p r s).ctx j = s.ctx j) ∧ (∀ u : SetId, (offerReply p r s).order u = s.order u) ∧
    (∀ j : Slot, (offerReply p r s).timers j = s.timers j) ∧ (offerReply p r s).table = s.table ∧
    (offerReply p r s).pool = s.pool ∧ (offerReply p r s).mem = s.mem ∧ (offerReply p r s).timer = s.timer ∧
    (offerReply p r s).reports = s.reports ∧ (offerReply p r s).drain = s.drain ∧ (offerReply p r s).cmd = s.cmd ∧
    (offerReply p r s).host = s.host ∧ (offerReply p r s).free = s.free ∧ (offerReply p r s).pending = s.pending := by
  unfold offerReply; split <;> simp

/-- An offer changes the queue, or counts REPLIES_DROPPED, on its port alone (R110). -/
theorem uncounted_offerReply (p q : PortId) (r : Reply) : uncounted ((offerReply p r s).port q) =
    uncounted (if q = p then { s.port p with replies := offered (s.port p) r } else s.port q) := by
  unfold offerReply offered
  split
  · rw [modifyPort_port]
  · by_cases h : q = p
    · subst h; simp
    · simp [h]

theorem accounts_offerReply (p : PortId) (r : Reply) :
    Accounts s (offerReply p r s) (offerCounts p (s.port p)) 0 [] := by
  unfold offerReply offerCounts
  split
  · refine .same (fun q => ?_) rfl
    rw [modifyPort_port]; split
    · next h => subst h; exact ⟨rfl, rfl⟩
    · exact ⟨rfl, rfl⟩
  · exact accounts_count s p _

@[simp] theorem discardReplies_frame (p : PortId) :
    (∀ j : Slot, (discardReplies p s).ctx j = s.ctx j) ∧ (∀ u : SetId, (discardReplies p s).order u = s.order u) ∧
    (∀ j : Slot, (discardReplies p s).timers j = s.timers j) ∧ (discardReplies p s).table = s.table ∧
    (discardReplies p s).pool = s.pool ∧ (discardReplies p s).mem = s.mem ∧ (discardReplies p s).timer = s.timer ∧
    (discardReplies p s).reports = s.reports ∧ (discardReplies p s).drain = s.drain ∧
    (discardReplies p s).cmd = s.cmd ∧ (discardReplies p s).host = s.host ∧ (discardReplies p s).free = s.free ∧
    (discardReplies p s).pending = s.pending := by
  simp [discardReplies]

/-- Every queued reply is discarded (R20, R21). -/
theorem uncounted_discardReplies (p q : PortId) : uncounted ((discardReplies p s).port q) =
    uncounted (if q = p then { s.port p with replies := [] } else s.port q) := by
  simp [discardReplies, modifyPort_port]

theorem accounts_discardReplies (p : PortId) : Accounts s (discardReplies p s)
    (List.replicate (s.port p).replies.length (p, .repliesDropped)) 0 [] := by
  refine (Accounts.same (s := s) (t := s.modifyPort p fun q => { q with replies := [] }) (fun q => ?_) rfl).trans
    (accounts_countMany _ _ _ _)
  rw [modifyPort_port]; split
  · next h => subst h; exact ⟨rfl, rfl⟩
  · exact ⟨rfl, rfl⟩

/-! ### Contexts -/

@[simp] theorem unbindDrain_frame :
    (∀ q : PortId, (unbindDrain s).port q = s.port q) ∧ (∀ j : Slot, (unbindDrain s).ctx j = s.ctx j) ∧
    (∀ u : SetId, (unbindDrain s).order u = s.order u) ∧ (∀ j : Slot, (unbindDrain s).timers j = s.timers j) ∧
    (unbindDrain s).table = s.table ∧ (unbindDrain s).pool = s.pool ∧ (unbindDrain s).mem = s.mem ∧
    (unbindDrain s).timer = s.timer ∧ (unbindDrain s).reports = s.reports ∧ (unbindDrain s).cmd = s.cmd ∧
    (unbindDrain s).stats = s.stats ∧ (unbindDrain s).host = s.host ∧ (unbindDrain s).free = s.free ∧
    (unbindDrain s).pending = s.pending := by
  and_intros <;> intros <;> rfl

@[simp] theorem unbindDrain_drain :
    (unbindDrain s).drain = { s.drain with bound := none, pos := 0, len := 0 } := rfl

@[simp] theorem lowerHeld_frame (c : Context) :
    (∀ j : Slot, (lowerHeld c s).ctx j = s.ctx j) ∧ (∀ u : SetId, (lowerHeld c s).order u = s.order u) ∧
    (∀ j : Slot, (lowerHeld c s).timers j = s.timers j) ∧ (lowerHeld c s).table = s.table ∧
    (lowerHeld c s).pool = s.pool ∧ (lowerHeld c s).mem = s.mem ∧ (lowerHeld c s).timer = s.timer ∧
    (lowerHeld c s).reports = s.reports ∧ (lowerHeld c s).drain = s.drain ∧ (lowerHeld c s).cmd = s.cmd ∧
    (lowerHeld c s).stats = s.stats ∧ (lowerHeld c s).host = s.host ∧ (lowerHeld c s).free = s.free ∧
    (lowerHeld c s).pending = s.pending := by
  unfold lowerHeld; split <;> and_intros <;> intros <;> rfl

/-- PORT_HELD of a context's port falls by what the context holds (R36). -/
theorem lowerHeld_port (c : Context) (q : PortId) : (lowerHeld c s).port q =
    { s.port q with held := (s.port q).held - if c.key.map (·.port) = some q then c.heldSegs else 0 } := by
  unfold lowerHeld
  cases h : c.key with
  | none => simp
  | some k =>
    simp only [Option.map_some, Option.some.injEq, modifyPort_port]
    by_cases e : q = k.port
    · subst e; simp
    · have : k.port ≠ q := fun e' => e e'.symm
      simp [e, this]

@[simp] theorem freeContext_frame (i : Slot) :
    (freeContext i s).table.service = s.table.service ∧ (freeContext i s).table.lastServed = s.table.lastServed ∧
    (freeContext i s).mem = s.mem ∧ (freeContext i s).timer.tick = s.timer.tick ∧
    (freeContext i s).timer.divider = s.timer.divider ∧ (freeContext i s).timer.scan = s.timer.scan ∧
    (freeContext i s).timer.claim = s.timer.claim ∧ (freeContext i s).reports = s.reports ∧
    (freeContext i s).cmd = s.cmd ∧ (freeContext i s).stats = s.stats ∧ (freeContext i s).host = s.host ∧
    (freeContext i s).free = s.free ∧ (freeContext i s).pending = s.pending := by
  unfold freeContext; dsimp only; split <;> simp

@[simp] theorem freeContext_low (i : Slot) : (freeContext i s).pool.low = s.pool.low ∧
    (freeContext i s).pool.freeList = s.pool.freeList := by
  unfold freeContext; dsimp only; split <;> simp

/-- Freeing a context changes PORT_HELD of its port, and nothing else of any port (R36). -/
theorem freeContext_port (i : Slot) (q : PortId) : (freeContext i s).port q =
    { s.port q with held := (s.port q).held - if (s.ctx i).key.map (·.port) = some q then (s.ctx i).heldSegs else 0 } := by
  unfold freeContext; dsimp only
  split <;> simp [lowerHeld_port]

theorem timer_slots {a b : TimerUnit} (h1 : a.tick = b.tick) (h2 : a.divider = b.divider) (h3 : a.scan = b.scan)
    (h4 : a.claim = b.claim) : a = { b with slots := a.slots } := by
  cases a; cases b; simp_all

/-- Freeing a context: the record, its way in the open-order list, its segments, its countdowns and the drain port (R36). -/
theorem freeContext_freed (i : Slot) : Freed s (freeContext i s) i where
  ctx := by unfold freeContext; simp
  others j h := by unfold freeContext; dsimp only; rw [setCtx_ctx_ne _ _ _ _ h]; split <;> simp
  order u := by
    unfold freeContext; dsimp only
    split <;> (simp [setOrder_order]; try (split <;> [(next h => subst h; rfl); rfl]))
  pool := by unfold freeContext; dsimp only; split <;> simp
  timers j := by
    unfold freeContext; dsimp only
    split <;> simp
  timer := timer_slots (by simp) (by simp) (by simp) (by simp)
  drain := by unfold freeContext; dsimp only; split <;> simp [*]

theorem accounts_freeContext (i : Slot) : Accounts s (freeContext i s) [] 0 [] :=
  .same (fun q => by simp [freeContext_port]) (by simp)

@[simp] theorem failContext_frame (i : Slot) (st : ReportStatus) :
    (failContext i st s).table.service = s.table.service ∧
    (failContext i st s).table.lastServed = s.table.lastServed ∧ (failContext i st s).mem = s.mem ∧
    (failContext i st s).timer.tick = s.timer.tick ∧ (failContext i st s).timer.divider = s.timer.divider ∧
    (failContext i st s).timer.scan = s.timer.scan ∧ (failContext i st s).timer.claim = s.timer.claim ∧
    (failContext i st s).cmd = s.cmd ∧ (failContext i st s).host = s.host ∧ (failContext i st s).free = s.free ∧
    (failContext i st s).pending = s.pending := by
  unfold failContext; split <;> simp

@[simp] theorem openContext_frame (i : Slot) (k : Key) (st : CtxState) (pinned : Bool) :
    (∀ q : PortId, (openContext i k st pinned s).port q = s.port q) ∧
    (∀ j : Slot, (openContext i k st pinned s).timers j = s.timers j) ∧
    (openContext i k st pinned s).table.service = s.table.service ∧
    (openContext i k st pinned s).table.lastServed = s.table.lastServed ∧
    (openContext i k st pinned s).pool = s.pool ∧ (openContext i k st pinned s).mem = s.mem ∧
    (openContext i k st pinned s).timer = s.timer ∧ (openContext i k st pinned s).reports = s.reports ∧
    (openContext i k st pinned s).drain = s.drain ∧ (openContext i k st pinned s).cmd = s.cmd ∧
    (openContext i k st pinned s).stats = s.stats ∧ (openContext i k st pinned s).host = s.host ∧
    (openContext i k st pinned s).free = s.free ∧ (openContext i k st pinned s).pending = s.pending := by
  and_intros <;> intros <;> rfl

/-- Opening a context (R35): the record, and the way at the tail of the open-order list. -/
theorem openContext_table (i : Slot) (k : Key) (st : CtxState) (pinned : Bool) :
    (∀ j, (openContext i k st pinned s).ctx j =
      if j = i then { Context.freed with state := st, key := some k, pinned := pinned } else s.ctx j) ∧
    ∀ u, (openContext i k st pinned s).order u =
      if u = setOfSlot i then s.order (setOfSlot i) ++ [wayOfSlot i] else s.order u :=
  ⟨fun j => by simp [openContext, setCtx_ctx], fun u => by simp [openContext, setOrder_order]⟩

/-! ### Recent-completion lists, staging buffers, the pool, the fill engine, the command unit -/

@[simp] theorem forgetKey_frame (k : Key) :
    (∀ j : Slot, (forgetKey k s).ctx j = s.ctx j) ∧ (∀ u : SetId, (forgetKey k s).order u = s.order u) ∧
    (∀ j : Slot, (forgetKey k s).timers j = s.timers j) ∧ (forgetKey k s).table = s.table ∧
    (forgetKey k s).pool = s.pool ∧ (forgetKey k s).mem = s.mem ∧ (forgetKey k s).timer = s.timer ∧
    (forgetKey k s).reports = s.reports ∧ (forgetKey k s).drain = s.drain ∧ (forgetKey k s).cmd = s.cmd ∧
    (forgetKey k s).stats = s.stats ∧ (forgetKey k s).host = s.host ∧ (forgetKey k s).free = s.free ∧
    (forgetKey k s).pending = s.pending := by
  and_intros <;> intros <;> rfl

@[simp] theorem rememberKey_frame (k : Key) (n : Nat) :
    (∀ j : Slot, (rememberKey k n s).ctx j = s.ctx j) ∧ (∀ u : SetId, (rememberKey k n s).order u = s.order u) ∧
    (∀ j : Slot, (rememberKey k n s).timers j = s.timers j) ∧ (rememberKey k n s).table = s.table ∧
    (rememberKey k n s).pool = s.pool ∧ (rememberKey k n s).mem = s.mem ∧ (rememberKey k n s).timer = s.timer ∧
    (rememberKey k n s).reports = s.reports ∧ (rememberKey k n s).drain = s.drain ∧ (rememberKey k n s).cmd = s.cmd ∧
    (rememberKey k n s).stats = s.stats ∧ (rememberKey k n s).host = s.host ∧ (rememberKey k n s).free = s.free ∧
    (rememberKey k n s).pending = s.pending := by
  and_intros <;> intros <;> rfl

@[simp] theorem serveFrame_frame (p : PortId) :
    (∀ j : Slot, (serveFrame p s).ctx j = s.ctx j) ∧ (∀ u : SetId, (serveFrame p s).order u = s.order u) ∧
    (∀ j : Slot, (serveFrame p s).timers j = s.timers j) ∧ (serveFrame p s).table = s.table ∧
    (serveFrame p s).pool = s.pool ∧ (serveFrame p s).mem = s.mem ∧ (serveFrame p s).timer = s.timer ∧
    (serveFrame p s).reports = s.reports ∧ (serveFrame p s).drain = s.drain ∧ (serveFrame p s).cmd = s.cmd ∧
    (serveFrame p s).stats = s.stats ∧ (serveFrame p s).host = s.host ∧ (serveFrame p s).free = s.free ∧
    (serveFrame p s).pending = s.pending := by
  and_intros <;> intros <;> rfl

@[simp] theorem releaseFrame_frame (p : PortId) :
    (∀ j : Slot, (releaseFrame p s).ctx j = s.ctx j) ∧ (∀ u : SetId, (releaseFrame p s).order u = s.order u) ∧
    (∀ j : Slot, (releaseFrame p s).timers j = s.timers j) ∧ (releaseFrame p s).table = s.table ∧
    (releaseFrame p s).pool = s.pool ∧ (releaseFrame p s).mem = s.mem ∧ (releaseFrame p s).timer = s.timer ∧
    (releaseFrame p s).reports = s.reports ∧ (releaseFrame p s).drain = s.drain ∧ (releaseFrame p s).cmd = s.cmd ∧
    (releaseFrame p s).stats = s.stats ∧ (releaseFrame p s).host = s.host ∧ (releaseFrame p s).free = s.free ∧
    (releaseFrame p s).pending = s.pending := by
  and_intros <;> intros <;> rfl

theorem forgetKey_port (k : Key) (q : PortId) :
    ∃ l, (forgetKey k s).port q = { s.port q with recent := l } := by
  unfold forgetKey
  rw [modifyPort_port]
  split
  · next h => subst h; exact ⟨_, rfl⟩
  · exact ⟨_, rfl⟩

@[simp] theorem forgetKey_port_frame (k : Key) (q : PortId) :
    ((forgetKey k s).port q).rx = (s.port q).rx ∧ ((forgetKey k s).port q).staging = (s.port q).staging ∧
    ((forgetKey k s).port q).tx = (s.port q).tx ∧ ((forgetKey k s).port q).replies = (s.port q).replies ∧
    ((forgetKey k s).port q).configFault = (s.port q).configFault ∧
    ((forgetKey k s).port q).enable = (s.port q).enable ∧ ((forgetKey k s).port q).reclaim = (s.port q).reclaim ∧
    ((forgetKey k s).port q).attempts = (s.port q).attempts ∧ ((forgetKey k s).port q).addr = (s.port q).addr ∧
    ((forgetKey k s).port q).rate = (s.port q).rate ∧ ((forgetKey k s).port q).quota = (s.port q).quota ∧
    ((forgetKey k s).port q).gap = (s.port q).gap ∧ ((forgetKey k s).port q).repair = (s.port q).repair ∧
    ((forgetKey k s).port q).life = (s.port q).life ∧ ((forgetKey k s).port q).reclimit = (s.port q).reclimit ∧
    ((forgetKey k s).port q).held = (s.port q).held ∧ ((forgetKey k s).port q).counters = (s.port q).counters ∧
    ((forgetKey k s).port q).limits = (s.port q).limits := by
  obtain ⟨_, h⟩ := forgetKey_port s k q
  simp [h]

theorem rememberKey_port (k : Key) (n : Nat) (q : PortId) :
    ∃ l, (rememberKey k n s).port q = { s.port q with recent := l } := by
  unfold rememberKey
  rw [modifyPort_port]
  split
  · next h => subst h; exact ⟨_, rfl⟩
  · exact ⟨_, rfl⟩

@[simp] theorem rememberKey_port_frame (k : Key) (n : Nat) (q : PortId) :
    ((rememberKey k n s).port q).rx = (s.port q).rx ∧ ((rememberKey k n s).port q).staging = (s.port q).staging ∧
    ((rememberKey k n s).port q).tx = (s.port q).tx ∧ ((rememberKey k n s).port q).replies = (s.port q).replies ∧
    ((rememberKey k n s).port q).configFault = (s.port q).configFault ∧
    ((rememberKey k n s).port q).enable = (s.port q).enable ∧
    ((rememberKey k n s).port q).reclaim = (s.port q).reclaim ∧
    ((rememberKey k n s).port q).attempts = (s.port q).attempts ∧
    ((rememberKey k n s).port q).addr = (s.port q).addr ∧ ((rememberKey k n s).port q).rate = (s.port q).rate ∧
    ((rememberKey k n s).port q).quota = (s.port q).quota ∧ ((rememberKey k n s).port q).gap = (s.port q).gap ∧
    ((rememberKey k n s).port q).repair = (s.port q).repair ∧ ((rememberKey k n s).port q).life = (s.port q).life ∧
    ((rememberKey k n s).port q).reclimit = (s.port q).reclimit ∧
    ((rememberKey k n s).port q).held = (s.port q).held ∧
    ((rememberKey k n s).port q).counters = (s.port q).counters ∧
    ((rememberKey k n s).port q).limits = (s.port q).limits := by
  obtain ⟨_, h⟩ := rememberKey_port s k n q
  simp [h]

theorem serveFrame_port (p : PortId) (q : PortId) :
    ∃ l, (serveFrame p s).port q = { s.port q with staging := l } := by
  unfold serveFrame
  rw [modifyPort_port]
  split
  · next h => subst h; exact ⟨_, rfl⟩
  · exact ⟨_, rfl⟩

@[simp] theorem serveFrame_port_frame (p : PortId) (q : PortId) :
    ((serveFrame p s).port q).rx = (s.port q).rx ∧ ((serveFrame p s).port q).tx = (s.port q).tx ∧
    ((serveFrame p s).port q).replies = (s.port q).replies ∧
    ((serveFrame p s).port q).configFault = (s.port q).configFault ∧
    ((serveFrame p s).port q).enable = (s.port q).enable ∧ ((serveFrame p s).port q).reclaim = (s.port q).reclaim ∧
    ((serveFrame p s).port q).attempts = (s.port q).attempts ∧ ((serveFrame p s).port q).addr = (s.port q).addr ∧
    ((serveFrame p s).port q).rate = (s.port q).rate ∧ ((serveFrame p s).port q).quota = (s.port q).quota ∧
    ((serveFrame p s).port q).gap = (s.port q).gap ∧ ((serveFrame p s).port q).repair = (s.port q).repair ∧
    ((serveFrame p s).port q).life = (s.port q).life ∧ ((serveFrame p s).port q).reclimit = (s.port q).reclimit ∧
    ((serveFrame p s).port q).held = (s.port q).held ∧ ((serveFrame p s).port q).counters = (s.port q).counters ∧
    ((serveFrame p s).port q).limits = (s.port q).limits ∧ ((serveFrame p s).port q).recent = (s.port q).recent := by
  obtain ⟨_, h⟩ := serveFrame_port s p q
  simp [h]

theorem releaseFrame_port (p : PortId) (q : PortId) :
    ∃ l, (releaseFrame p s).port q = { s.port q with staging := l } := by
  unfold releaseFrame
  rw [modifyPort_port]
  split
  · next h => subst h; exact ⟨_, rfl⟩
  · exact ⟨_, rfl⟩

@[simp] theorem releaseFrame_port_frame (p : PortId) (q : PortId) :
    ((releaseFrame p s).port q).rx = (s.port q).rx ∧ ((releaseFrame p s).port q).tx = (s.port q).tx ∧
    ((releaseFrame p s).port q).replies = (s.port q).replies ∧
    ((releaseFrame p s).port q).configFault = (s.port q).configFault ∧
    ((releaseFrame p s).port q).enable = (s.port q).enable ∧
    ((releaseFrame p s).port q).reclaim = (s.port q).reclaim ∧
    ((releaseFrame p s).port q).attempts = (s.port q).attempts ∧ ((releaseFrame p s).port q).addr = (s.port q).addr ∧
    ((releaseFrame p s).port q).rate = (s.port q).rate ∧ ((releaseFrame p s).port q).quota = (s.port q).quota ∧
    ((releaseFrame p s).port q).gap = (s.port q).gap ∧ ((releaseFrame p s).port q).repair = (s.port q).repair ∧
    ((releaseFrame p s).port q).life = (s.port q).life ∧ ((releaseFrame p s).port q).reclimit = (s.port q).reclimit ∧
    ((releaseFrame p s).port q).held = (s.port q).held ∧ ((releaseFrame p s).port q).counters = (s.port q).counters ∧
    ((releaseFrame p s).port q).limits = (s.port q).limits ∧ ((releaseFrame p s).port q).recent = (s.port q).recent := by
  obtain ⟨_, h⟩ := releaseFrame_port s p q
  simp [h]

/-- The head of the port's staging buffers becomes IN SERVICE (R15). -/
theorem serveFrame_staging (p : PortId) (f : StagedFrame) (rest : List StagedFrame)
    (h : (s.port p).staging = f :: rest) :
    ((serveFrame p s).port p).staging = { f with inService := true } :: rest := by
  simp [serveFrame, h]

/-- The buffers in service return to FREE (R16). -/
@[simp] theorem releaseFrame_staging (p : PortId) :
    ((releaseFrame p s).port p).staging = (s.port p).staging.filter fun f => !f.inService := by
  simp [releaseFrame]

@[simp] theorem allocate_frame (p : PortId) (n : Nat) :
    (∀ j : Slot, (allocate p n s).ctx j = s.ctx j) ∧ (∀ u : SetId, (allocate p n s).order u = s.order u) ∧
    (∀ j : Slot, (allocate p n s).timers j = s.timers j) ∧ (allocate p n s).table = s.table ∧
    (allocate p n s).mem = s.mem ∧ (allocate p n s).timer = s.timer ∧ (allocate p n s).reports = s.reports ∧
    (allocate p n s).drain = s.drain ∧ (allocate p n s).cmd = s.cmd ∧ (allocate p n s).host = s.host ∧
    (allocate p n s).free = s.free ∧ (allocate p n s).pending = s.pending := by
  unfold allocate; dsimp only; split <;> and_intros <;> intros <;> rfl

/-- Allocation takes segments from the free-list head and raises PORT_HELD (R57, R77). -/
theorem allocate_pool (p : PortId) (n : Nat) :
    (allocate p n s).pool = { s.pool with freeList := s.pool.freeList.drop n } ∧
    ∀ q, (allocate p n s).port q = if q = p then { s.port p with held := (s.port p).held + n } else s.port q := by
  unfold allocate; dsimp only
  split <;> refine ⟨rfl, fun q => ?_⟩
  · rw [(raise_frame _ _).1, modifyPort_port]; rfl
  · rw [modifyPort_port]; rfl

/-- Allocation raises POOL_LOW when POOL_FREE goes below the threshold (R82). -/
theorem accounts_allocate (p : PortId) (n : Nat) : Accounts s (allocate p n s) [] 0
    (if s.pool.low.toNat ≤ s.pool.freeList.length ∧ s.pool.freeList.length - n < s.pool.low.toNat then [.poolLow]
      else []) := by
  have h : Accounts s
      (({ s with pool := { s.pool with freeList := s.pool.freeList.drop n } } : State).modifyPort p
        fun q => { q with held := q.held + n }) [] 0 [] := by
    refine .same (fun q => ?_) rfl
    rw [modifyPort_port]; split
    · next e => subst e; exact ⟨rfl, rfl⟩
    · exact ⟨rfl, rfl⟩
  unfold allocate; dsimp only [State.poolFree]
  simp only [modifyPort_pool, List.length_drop]
  split
  · exact h.trans (accounts_raise _ _)
  · exact h

@[simp] theorem resumeFill_frame :
    (∀ q : PortId, (resumeFill s).port q = s.port q) ∧ (∀ j : Slot, (resumeFill s).ctx j = s.ctx j) ∧
    (∀ u : SetId, (resumeFill s).order u = s.order u) ∧ (∀ j : Slot, (resumeFill s).timers j = s.timers j) ∧
    (resumeFill s).table.lastServed = s.table.lastServed ∧ (resumeFill s).pool = s.pool ∧
    (resumeFill s).mem = s.mem ∧ (resumeFill s).timer = s.timer ∧ (resumeFill s).reports = s.reports ∧
    (resumeFill s).drain = s.drain ∧ (resumeFill s).cmd = s.cmd ∧ (resumeFill s).stats = s.stats ∧
    (resumeFill s).host = s.host ∧ (resumeFill s).free = s.free ∧ (resumeFill s).pending = s.pending := by
  and_intros <;> intros <;> rfl

@[simp] theorem completeCommand_frame (st : CommandStatus) (l : List Word) :
    (∀ q : PortId, (completeCommand st l s).port q = s.port q) ∧
    (∀ j : Slot, (completeCommand st l s).ctx j = s.ctx j) ∧
    (∀ u : SetId, (completeCommand st l s).order u = s.order u) ∧
    (∀ j : Slot, (completeCommand st l s).timers j = s.timers j) ∧ (completeCommand st l s).table = s.table ∧
    (completeCommand st l s).pool = s.pool ∧ (completeCommand st l s).mem = s.mem ∧
    (completeCommand st l s).timer = s.timer ∧ (completeCommand st l s).reports = s.reports ∧
    (completeCommand st l s).drain = s.drain ∧ (completeCommand st l s).host = s.host ∧
    (completeCommand st l s).free = s.free ∧ (completeCommand st l s).pending = s.pending := by
  and_intros <;> intros <;> rfl

/-- The completion of a command: the status, the ten results, BUSY clear and CMD_DONE (R147). -/
theorem completeCommand_cmd (st : CommandStatus) (l : List Word) :
    (completeCommand st l s).cmd = { s.cmd with status := st.code, results := resultWords l, inFlight := none } ∧
    Accounts s (completeCommand st l s) [] 0 [.cmdDone] :=
  ⟨rfl, (Accounts.same (s := s) (t := { s with cmd := { s.cmd with
    status := st.code, results := resultWords l, inFlight := none } }) (fun _ => ⟨rfl, rfl⟩) rfl).trans
    (accounts_raise _ _)⟩

end Sys2Proof.Machine
end

