-- ==== Sys2Proof/Laws/Memory.lean ====
section
/-! SUPPORT. Buffer memory: reading after a write, and that every write keeps the canonical form (R58, R74). -/

namespace Sys2Proof.Machine

/-- A byte written is read back, and every other byte stands. -/
theorem readByte_writeByte (a x : Nat) (b : Byte) (m : Memory) :
    readByte (writeByte a b m) x = if x = a then some b else readByte m x := by
  induction m with
  | nil =>
    by_cases h : x = a
    · subst h; simp [readByte, writeByte]
    · have : (x == a) = false := by simpa using h
      simp [readByte, writeByte, List.lookup, h, this]
  | cons c rest ih =>
    obtain ⟨k, y⟩ := c
    simp only [readByte] at ih
    by_cases h : x = a
    · subst h
      rcases Nat.lt_trichotomy x k with h1 | h1 | h1
      · simp [readByte, writeByte, h1]
      · subst h1; simp [readByte, writeByte]
      · have e : (x == k) = false := by simp; omega
        have n1 : ¬ x < k := by omega
        have n2 : ¬ x = k := by omega
        simpa [readByte, writeByte, n1, n2, List.lookup, e] using ih
    · have hx : (x == a) = false := by simpa using h
      simp only [h, if_false] at ih ⊢
      rcases Nat.lt_trichotomy a k with h1 | h1 | h1
      · simp [readByte, writeByte, h1, List.lookup, hx]
      · subst h1; simp [readByte, writeByte, List.lookup, hx]
      · have n1 : ¬ a < k := by omega
        have n2 : ¬ a = k := by omega
        simp only [readByte, writeByte, n1, n2, if_false, List.lookup]
        split <;> [rfl; exact ih]

/-- A word write is two byte writes, the low half at the even offset (R58). -/
theorem readByte_writeWord (a x : Nat) (w : Word) (m : Memory) : readByte (writeWord a w m) x =
    if x = a + 1 then some (w.extractLsb' 8 8) else if x = a then some (w.extractLsb' 0 8) else readByte m x := by
  simp only [writeWord, readByte_writeByte]

theorem fillWord_low (payload : List Byte) (k j : Nat) :
    (fillWord payload k j).extractLsb' 0 8 = payload.getD (32 * k + 2 * j) 0#8 := by
  simp only [fillWord]; exact BitVec.extractLsb'_append_eq_right

theorem fillWord_high (payload : List Byte) (k j : Nat) :
    (fillWord payload k j).extractLsb' 8 8 = payload.getD (32 * k + 2 * j + 1) 0#8 := by
  simp only [fillWord]; exact BitVec.extractLsb'_append_eq_left

/-- After the first `n` words of a segment, its first `2 * n` bytes are those of the payload, and every byte outside stands. -/
theorem readByte_writeWords (payload : List Byte) (k : Nat) (g : Seg) (m : Memory) (n x : Nat) :
    readByte ((List.range n).foldl (fun m j => writeWord (segAddr g (2 * j)) (fillWord payload k j) m) m) x =
      if g.val * 32 ≤ x ∧ x < g.val * 32 + 2 * n then some (payload.getD (32 * k + (x - g.val * 32)) 0#8)
      else readByte m x := by
  induction n with
  | zero => rw [if_neg (by omega)]; rfl
  | succ n ih =>
    rw [List.range_succ, List.foldl_append, List.foldl_cons, List.foldl_nil, readByte_writeWord, ih]
    simp only [segAddr, fillWord_low, fillWord_high]
    by_cases h1 : x = g.val * 32 + 2 * n + 1
    · subst h1
      rw [if_pos rfl, if_pos (by omega)]
      congr 2; omega
    · by_cases h2 : x = g.val * 32 + 2 * n
      · subst h2
        rw [if_neg (by omega), if_pos rfl, if_pos (by omega)]
        congr 2; omega
      · rw [if_neg h1, if_neg h2]
        by_cases h3 : g.val * 32 ≤ x ∧ x < g.val * 32 + 2 * n
        · rw [if_pos h3, if_pos (by omega)]
        · rw [if_neg h3, if_neg (by omega)]

/-- A whole segment written: its 32 bytes are those of the payload's part, 0 beyond its end, and every byte outside stands
(R58). -/
theorem readByte_writeSegment (payload : List Byte) (k : Nat) (g : Seg) (m : Memory) (x : Nat) :
    readByte (writeSegment payload k g m) x =
      if g.val * 32 ≤ x ∧ x < g.val * 32 + 32 then some (payload.getD (32 * k + (x - g.val * 32)) 0#8)
      else readByte m x := readByte_writeWords payload k g m 16 x

/-! ### The canonical form -/

theorem Memory.wf_iff (m : Memory) : Memory.wf m = true ↔
    List.Pairwise (· < ·) (m.map Prod.fst) ∧ ∀ c ∈ m, c.1 < 32768 := by
  simp [Memory.wf]

theorem writeByte_keys (a : Nat) (b : Byte) (m : Memory) : ∀ c ∈ writeByte a b m, c.1 = a ∨ c ∈ m := by
  induction m with
  | nil => simp [writeByte]
  | cons c rest ih =>
    obtain ⟨k, y⟩ := c
    intro d hd
    unfold writeByte at hd
    split at hd
    · rcases List.mem_cons.mp hd with rfl | hd
      · exact .inl rfl
      · exact .inr hd
    · split at hd
      · rcases List.mem_cons.mp hd with rfl | hd
        · exact .inl rfl
        · exact .inr (List.mem_cons_of_mem _ hd)
      · rcases List.mem_cons.mp hd with rfl | hd
        · exact .inr List.mem_cons_self
        · exact (ih d hd).imp id (List.mem_cons_of_mem _)

/-- A byte write within the 32768 bytes keeps the canonical form. -/
theorem wf_writeByte (a : Nat) (b : Byte) (m : Memory) (ha : a < 32768) (h : Memory.wf m = true) :
    Memory.wf (writeByte a b m) = true := by
  rw [Memory.wf_iff] at h ⊢
  refine ⟨?_, fun c hc => (writeByte_keys a b m c hc).elim (fun e => e ▸ ha) (h.2 c)⟩
  replace h := h.1
  induction m with
  | nil => simp [writeByte]
  | cons c rest ih =>
    obtain ⟨k, y⟩ := c
    simp only [List.map_cons, List.pairwise_cons] at h
    unfold writeByte
    split
    · next h1 =>
      simp only [List.map_cons, List.pairwise_cons]
      refine ⟨fun x hx => ?_, h.1, h.2⟩
      rcases List.mem_cons.mp hx with rfl | hx
      · exact h1
      · exact Nat.lt_trans h1 (h.1 x hx)
    · split
      · next h1 h2 => subst h2; simp only [List.map_cons, List.pairwise_cons]; exact h
      · next h1 h2 =>
        simp only [List.map_cons, List.pairwise_cons]
        refine ⟨fun x hx => ?_, ih h.2⟩
        obtain ⟨c, hc, rfl⟩ := List.mem_map.mp hx
        rcases writeByte_keys a b rest c hc with e | hc
        · omega
        · exact h.1 _ (List.mem_map_of_mem hc)

/-- The sixteen word writes of a segment keep the canonical form. -/
theorem wf_writeSegment (payload : List Byte) (k : Nat) (g : Seg) (m : Memory) (h : Memory.wf m = true) :
    Memory.wf (writeSegment payload k g m) = true := by
  have key : ∀ n, n ≤ 16 → Memory.wf
      ((List.range n).foldl (fun m j => writeWord (segAddr g (2 * j)) (fillWord payload k j) m) m) = true := by
    intro n
    induction n with
    | zero => intro _; exact h
    | succ n ih =>
      intro hn
      have hg := g.isLt
      rw [List.range_succ, List.foldl_append, List.foldl_cons, List.foldl_nil]
      refine wf_writeByte _ _ _ ?_ (wf_writeByte _ _ _ ?_ (ih (by omega))) <;> simp only [segAddr] <;> omega
  exact key 16 (Nat.le_refl _)

/-- Buffer memory has the canonical form at reset. -/
theorem wf_reset : Memory.wf State.reset.mem = true := rfl

end Sys2Proof.Machine
end

