-- ==== Sys2Proof/Laws/Receiver.lean ====
section
/-! SUPPORT. Characters on a line (R1, R2), and what the end of a frame in flight does, once for every way in which it ends (R10,
R12, R13, R21). -/

namespace Sys2Proof.Machine

open Sys2Proof.Safety

variable (s : State)

/-! ### Characters -/

@[simp] theorem charLevels_length (v : Byte) : (charLevels v).length = 10 := by simp [charLevels]

@[simp] theorem charLevels_start (v : Byte) : (charLevels v).getD 0 true = false := rfl

@[simp] theorem charLevels_data (v : Byte) (k : Nat) (h : k < 8) : (charLevels v).getD (k + 1) true = v.getLsbD k := by
  have : k = 0 ∨ k = 1 ∨ k = 2 ∨ k = 3 ∨ k = 4 ∨ k = 5 ∨ k = 6 ∨ k = 7 := by omega
  rcases this with h | h | h | h | h | h | h | h <;> subst h <;> rfl

@[simp] theorem charLevels_stop (v : Byte) : (charLevels v).getD 9 true = true := rfl

/-- Bit time 10 j + k of characters sent back to back is bit k of character j (R1). -/
theorem flatMap_charLevels_getD (l : List Byte) (j k : Nat) (v : Byte) (h : l[j]? = some v) (hk : k < 10) :
    (l.flatMap charLevels).getD (10 * j + k) true = (charLevels v).getD k true := by
  induction l generalizing j with
  | nil => simp at h
  | cons x rest ih =>
    rw [List.flatMap_cons]
    cases j with
    | zero =>
      obtain rfl : x = v := by simpa using h
      rw [Nat.mul_zero, Nat.zero_add]
      simp [List.getD, List.getElem?_append_left, hk]
    | succ j =>
      have e : 10 * (j + 1) + k = (charLevels x).length + (10 * j + k) := by rw [charLevels_length]; omega
      have := ih j (by simpa using h)
      rw [e]
      simpa [List.getD, List.getElem?_append_right] using this

/-- A start edge is found exactly where a high sample is next before a low one (R2). -/
theorem findEdge_edge (level : Option Bool) (samples : List Bool)
    (h : ∃ before after, level.toList ++ samples = before ++ true :: false :: after) : findEdge level samples = .edgeSeen := by
  induction samples generalizing level with
  | nil =>
    obtain ⟨before, after, h⟩ := h
    have := congrArg List.length h
    cases level <;> simp at this
    omega
  | cons x rest ih =>
    rw [findEdge]
    split
    · rfl
    · next hx =>
      refine ih _ ?_
      obtain ⟨before, after, h⟩ := h
      cases level with
      | none => exact ⟨before, after, by simpa using h⟩
      | some y =>
        cases before with
        | nil => simp at h; exact absurd ⟨congrArg some h.1, h.2.1⟩ hx
        | cons b before => exact ⟨before, after, by simpa using (List.cons.inj h).2⟩

/-- Where there is no start edge the last sample is held (R2). -/
theorem findEdge_between (level : Option Bool) (samples : List Bool)
    (h : ¬ ∃ before after, level.toList ++ samples = before ++ true :: false :: after) :
    findEdge level samples = .between (level.toList ++ samples).getLast? := by
  induction samples generalizing level with
  | nil => cases level <;> rfl
  | cons x rest ih =>
    rw [findEdge]
    split
    · next hx => obtain ⟨rfl, rfl⟩ := hx; exact absurd ⟨[], rest, rfl⟩ h
    · rw [ih]
      · cases level <;> simp
      · rintro ⟨before, after, e⟩
        refine h ?_
        cases level with
        | none => exact ⟨before, after, by simpa using e⟩
        | some y => exact ⟨y :: before, after, by simpa using e⟩

/-- A good character completes after a confirmed start bit (R2). -/
theorem takeCharacter_good {s : State} {p : PortId} (v : Byte) (h : (s.port p).rx.char = .startConfirmed) :
    takeCharacter p (.good v) s = takeGood p v s := by simp [takeCharacter, h]

/-- A character with a framing error completes after a confirmed start bit (R2). -/
theorem takeCharacter_bad {s : State} {p : PortId} (h : (s.port p).rx.char = .startConfirmed) :
    takeCharacter p .framingError s = takeBad p s := by simp [takeCharacter, h]

/-- Without a confirmed start bit no character completes (R2). -/
theorem takeCharacter_none {s : State} {p : PortId} (c : Character) (h : (s.port p).rx.char ≠ .startConfirmed) :
    takeCharacter p c s = s := by
  unfold takeCharacter
  split
  · next h' => exact absurd h' h
  · next h' => exact absurd h' h
  · rfl

/-- A receiver that is not OFF and stands between two characters looks for an edge in the samples (R2). -/
theorem sampleLine_between {s : State} {p : PortId} {level : Option Bool} (samples : List Bool)
    (h : (s.port p).rx.state ≠ .off) (h' : (s.port p).rx.char = .between level) :
    sampleLine p samples s = setRx p { (s.port p).rx with char := findEdge level samples } s := by
  cases hs : (s.port p).rx.state with
  | off => exact absurd hs h
  | _ => simp only [sampleLine, hs, h']

/-! ### The end of a frame -/

/-- Two states that agree outside the ports, the statistics and the free values. -/
theorem same_rest {s t : State} (h1 : t.table = s.table) (h2 : t.pool = s.pool) (h3 : t.mem = s.mem) (h4 : t.timer = s.timer)
    (h5 : t.reports = s.reports) (h6 : t.drain = s.drain) (h7 : t.cmd = s.cmd) (h8 : t.host = s.host)
    (h9 : t.pending = s.pending) : t = { s with ports := t.ports, stats := t.stats, free := t.free } := by
  cases s; cases t; simp_all

/-- A change of a port that leaves its counters and limit flags counts nothing. -/
theorem accounts_modifyPort (p : PortId) (f : Port → Port) (h : (f (s.port p)).counters = (s.port p).counters)
    (h' : (f (s.port p)).limits = (s.port p).limits) : Accounts s (s.modifyPort p f) [] 0 [] := by
  refine .same (fun q => ?_) rfl
  rw [modifyPort_port]; split
  · next e => subst e; exact ⟨h, h'⟩
  · exact ⟨rfl, rfl⟩

/-- The receiver's entry into OFF (R20, R21). -/
theorem enterOff_spec (p : PortId) :
    Accounts s (enterOff p s) (List.replicate (s.port p).replies.length (p, .repliesDropped)) 0
      (if (s.port p).tx = none then [.portOff] else []) ∧
    PortBecomes s (enterOff p s) p (fun q => { q with rx := Receiver.noFrame .off (.between none), replies := [] }) ∧
    enterOff p s = { s with ports := (enterOff p s).ports, stats := (enterOff p s).stats, free := (enterOff p s).free } := by
  have h0 := accounts_modifyPort s p (fun q => { q with rx := Receiver.noFrame .off (.between none) }) rfl rfl
  have hA : Accounts s (discardReplies p (setRx p (Receiver.noFrame .off (.between none)) s))
      (List.replicate (s.port p).replies.length (p, .repliesDropped)) 0 [] := by
    simpa [setRx] using h0.trans (accounts_discardReplies (s := setRx p (Receiver.noFrame .off (.between none)) s) p)
  have hP : ∀ q, uncounted ((discardReplies p (setRx p (Receiver.noFrame .off (.between none)) s)).port q) =
      if q = p then uncounted { s.port p with rx := Receiver.noFrame .off (.between none), replies := [] }
      else uncounted (s.port q) := by
    intro q
    rw [uncounted_discardReplies, setRx]; split
    · next h => subst h; simp [uncounted]
    · next h => rw [modifyPort_port_ne _ _ _ _ h]
  have htx : ((discardReplies p (setRx p (Receiver.noFrame .off (.between none)) s)).port p).tx = (s.port p).tx := by
    have h := hP p; simp [uncounted] at h; exact h.2.2.1
  have hR : ∀ e : Option Event, (match e with
      | some e => raise e (discardReplies p (setRx p (Receiver.noFrame .off (.between none)) s))
      | none => discardReplies p (setRx p (Receiver.noFrame .off (.between none)) s)) =
      enterOff p s → enterOff p s =
        { s with ports := (enterOff p s).ports, stats := (enterOff p s).stats, free := (enterOff p s).free } := by
    intro e h; rw [← h]; cases e <;> exact same_rest (by simp [setRx]) (by simp [setRx]) (by simp [setRx]) (by simp [setRx])
      (by simp [setRx]) (by simp [setRx]) (by simp [setRx]) (by simp [setRx]) (by simp [setRx])
  cases htx' : (s.port p).tx with
  | none =>
    have e : enterOff p s = raise .portOff (discardReplies p (setRx p (Receiver.noFrame .off (.between none)) s)) := by
      unfold enterOff; dsimp only; rw [htx, htx']
    refine ⟨?_, ⟨?_, fun q hq => ?_⟩, hR (some .portOff) e.symm⟩
    · rw [e]; simpa using hA.trans (accounts_raise (s := discardReplies p (setRx p (Receiver.noFrame .off (.between none)) s)) .portOff)
    · rw [e]; show uncounted ((discardReplies p _).port p) = _; rw [hP]; simp
    · rw [e]; show uncounted ((discardReplies p _).port q) = _; rw [hP]; simp [hq]
  | some x =>
    have e : enterOff p s = discardReplies p (setRx p (Receiver.noFrame .off (.between none)) s) := by
      unfold enterOff; dsimp only; rw [htx, htx']
    refine ⟨?_, ⟨?_, fun q hq => ?_⟩, hR none e.symm⟩
    · rw [e]; simpa using hA
    · rw [e, hP]; simp
    · rw [e, hP]; simp [hq]

/-- The end of a frame in flight, with no count of its own (R10, R12, R13, R21). -/
theorem endFrame_frameEnds (p : PortId) (ch : CharPhase) : FrameEnds s (endFrame p ch s) p [] ch (s.port p).staging := by
  by_cases h : (s.port p).rx.state = .stopping
  · have e : endFrame p ch s = enterOff p s := by unfold endFrame; rw [if_pos h]
    obtain ⟨h1, ⟨h2, h3⟩, h4⟩ := enterOff_spec s p
    refine ⟨by rw [e]; simpa [h] using h1, ⟨by rw [e, h2]; simp only [h, if_true], by rw [e]; exact h3⟩, by rw [e]; exact h4⟩
  · have e : endFrame p ch s = setRx p (Receiver.noFrame .hunt ch) s := by unfold endFrame; rw [if_neg h]
    refine ⟨?_, ⟨?_, fun q hq => ?_⟩, ?_⟩
    · rw [e, if_neg h, if_neg fun h' => h h'.1]
      exact accounts_modifyPort s p (fun q => { q with rx := Receiver.noFrame .hunt ch }) rfl rfl
    · rw [e]; simp [setRx, h]
    · rw [e, setRx, modifyPort_port_ne _ _ _ _ hq]
    · rw [e]; rfl

/-- Counts made before the end of a frame add to its own. -/
theorem frameEnds_after {s u t : State} {p : PortId} {l : List (PortId × Counter)} {ch : CharPhase}
    (ha : Accounts s u l 0 []) (hp : ∀ q, uncounted (u.port q) = uncounted (s.port q))
    (hr : u = { s with ports := u.ports, stats := u.stats, free := u.free })
    (h : FrameEnds u t p [] ch (u.port p).staging) : FrameEnds s t p l ch (s.port p).staging := by
  have hs : (u.port p).rx = (s.port p).rx ∧ (u.port p).staging = (s.port p).staging ∧ (u.port p).tx = (s.port p).tx ∧
      (u.port p).replies = (s.port p).replies := by
    have := hp p; simp only [uncounted, Port.mk.injEq] at this; exact ⟨this.1, this.2.1, this.2.2.1, this.2.2.2.1⟩
  refine ⟨?_, ⟨?_, fun q hq => (h.port.2 q hq).trans (hp q)⟩, ?_⟩
  · simpa [hs.1, hs.2.2.1, hs.2.2.2] using ha.trans h.accounts
  · have hq := hp p
    rw [h.port.1]
    dsimp only
    rw [hs.1, hs.2.1]
    split <;> (simp only [uncounted, Port.mk.injEq] at hq ⊢; simp [hq])
  · refine h.rest.trans ?_
    rw [hr]

end Sys2Proof.Machine
end

