-- ==== Sys2Proof/Laws/Vocabulary.lean ====
section
/-! SUPPORT. The words of the statements beside the model's own tests: each states the same thing as a Bool of the model. -/

namespace Sys2Proof.Machine

open Sys2Proof.Safety

/-- The three disagreements of R54, as the model tests them. -/
theorem disagrees_iff (c : Context) (i : Fin 64) (last : Bool) : Disagrees c i last ↔ c.inconsistent i last = true := by
  unfold Disagrees Context.inconsistent
  rcases c with ⟨_, _, _, _, count, highest, _, _, _, _⟩
  cases last <;> cases count <;> cases highest <;> simp

/-- The index is missing exactly when its bit of the missing bitmap is asked for (R99). -/
theorem missing_iff (c : Context) (j : Fin 64) : Missing c j ↔ c.hasIndex j = false ∧ j.val < missingBound c := by
  unfold Missing missingBound
  cases c.count with
  | some n => rfl
  | none => cases c.highest with
    | none => simp
    | some h =>
      refine and_congr_right fun _ => ⟨?_, fun h' => ⟨h, rfl, Nat.le_of_lt_succ h'⟩⟩
      rintro ⟨x, hx, h'⟩
      cases hx
      exact Nat.lt_succ_of_le h'

/-- The checks of R56, as the model makes them. -/
theorem room_iff (s : State) (p : PortId) (n : Nat) : Room s p n ↔ s.hasRoom p (segsNeeded n) = true := by
  unfold Room State.hasRoom State.poolFree
  rw [Bool.and_eq_true, decide_eq_true_iff, decide_eq_true_iff]

/-- A fragment that passes the duplicate, consistency and size checks (R52 to R55). -/
theorem fitsContext_iff (s : State) (p : PortId) (i : Slot) (f : StagedFrame) : FitsContext s p i f ↔
    (s.ctx i).unfinished = true ∧ (s.ctx i).hasIndex f.index = false ∧ (s.ctx i).inconsistent f.index f.last = false ∧
      (s.ctx i).storedBytes + f.payload.length ≤ (s.port p).reclimit.toNat := by
  unfold FitsContext
  rw [disagrees_iff, Bool.not_eq_true]

/-- The six reasons of R14 are the failure of the model's form check. -/
theorem ignored_iff (addr : BitVec 7) (len : Nat) (body : List Byte) : ignored addr len body ↔ formOk addr len body = false := by
  unfold ignored formOk validStation kindFrag kindAbort kindQuery
  generalize bodyByte body 0 = a; generalize bodyByte body 1 = b; generalize bodyByte body 2 = k
  generalize (bodyByte body 4).getLsbD 6 = x
  by_cases h0 : a = addr.setWidth 8 <;> by_cases h1 : b = addr.setWidth 8 <;> by_cases hk : k = 1#8 <;>
    by_cases hk2 : k = 2#8 <;> by_cases hk3 : k = 3#8 <;> cases x <;> simp [h0, h1, hk, hk2, hk3] <;> omega

/-- The operand ranges of R146, as the command unit tests them. -/
theorem inRange_iff (c : CommandCode) (o : Vector Word 4) : InRange c o ↔ operandsOk c o = true := by
  unfold InRange operandsOk portOk stationOk slotOk opPort opStation opSlot opAll
  cases c <;> simp [BitVec.extractLsb'_toNat]

end Sys2Proof.Machine
end

