-- ==== Sys2Proof/Tests/Slice0.lean ====
section
/-! SUPPORT. The tests: the well-formedness smoke, values worked out from the spec, and at most two one-step tests per command.
The expected values are the spec's. -/

namespace Sys2Proof.Tests

-- One theorem at a time: each kernel evaluation has a thread of its own, and many at once exceed the memory limit.
set_option Elab.async false

open Sys2Proof Sys2Proof.Machine Sys2Proof.Safety

/-! ### Small states -/

/-- READY, with six free segments and nothing else going on. -/
def ready : State :=
  { State.reset with
    pool := { State.reset.pool with freeList := [0, 1, 2, 3, 4, 5] }
    host := { State.reset.host with phase := .ready } }

/-- Port 1 enabled with address 7 and its receiver as given; PORT_SELECT names it. -/
def withRx (r : Receiver) : State :=
  { ready.modifyPort 1 (fun q => { q with addr := 7#7, enable := true, rx := r }) with
    host := { ready.host with portSelect := 1 } }

/-- Port 1 in HUNT. -/
def hunting : State := withRx (Receiver.noFrame .hunt (.between (some true)))

/-- Port 1 in HUNT, in a character whose start bit is confirmed. -/
def started : State := withRx (Receiver.noFrame .hunt .startConfirmed)

/-- Port 1 in a frame, between two characters, at the given position. -/
def inFrame (st : RxState) (pos : FramePosition) (body : List Byte) (crc : Word) : State :=
  withRx { Receiver.noFrame st (.between (some true)) with
    position := pos, len := body.length, body := body, crc := crc, timer := .running }

/-- Port 1 in a frame, in a character whose start bit is confirmed, at the given position. -/
def inChar (st : RxState) (pos : FramePosition) (body : List Byte) (crc : Word) : State :=
  withRx { Receiver.noFrame st .startConfirmed with
    position := pos, len := body.length, body := body, crc := crc, timer := .forestalled }

/-- The key of the tests, in set (9 + 4 + 5 x 1) mod 16 = 2, whose slots are 8 to 11 (R27, R28). -/
def key : Key := { port := 1, station := 9#8, tag := 4#8 }

/-- A FRAG for the key: address 7 from station 9, tag 4. -/
def frag (index : Byte) (payload : List Byte) : List Byte := [7#8, 9#8, 0x01#8, 4#8, index] ++ payload

/-- A body waiting in staging buffer A. -/
def staged (body : List Byte) : StagedFrame :=
  { bufferB := false, inService := false, len := body.length, body := body }

/-- A body waiting on port 1. -/
def waitingFrame (body : List Byte) (s : State) : State := s.modifyPort 1 fun q => { q with staging := [staged body] }

/-- A context for the key with fragment 1 stored in segment 9. -/
def gathered (st : CtxState) : Context :=
  { Context.freed with
    state := st, key := some key, frags := [{ index := 1, length := 3, segs := [9] }], highest := some 1, storedBytes := 3
    heldSegs := 1, attemptsLeft := 3 }

/-- That context in slot 8, with its segment counted in PORT_HELD of port 1. -/
def holding (c : Context) : State :=
  ((hunting.setCtx 8 c).setOrder 2 [0]).modifyPort 1 fun q => { q with held := 1 }

/-- A reply being sent, or in its guard. -/
def sending (guard : Bool) : Transmission :=
  { reply := acceptReply key 3, rate := 208#16, addr := 7#7, frame := [], inGuard := guard }

/-- A command in flight. -/
def commanding (code : CommandCode) (operands : Vector Word 4) (slot : Slot) (s : State) : State :=
  { s with cmd := { s.cmd with inFlight := some { code := code, operands := operands, slot := slot, freed := 2, segments := 7 } } }

/-- Operands that name the key. -/
def keyOperands : Vector Word 4 := #v[1#16, 9#16, 4#16, 0#16]

/-- A presented expiry claim on slot 8, with its mark as given. -/
def expiring (kind : CountdownKind) (mark : Bool) (s : State) : State :=
  { s.setTimers 8 { repair := none, repairMark := mark, life := none, lifeMark := mark } with
    timer := { (s.setTimers 8 { repair := none, repairMark := mark, life := none, lifeMark := mark }).timer with
      claim := some { slot := 8, kind := kind } } }

/-- A store of one segment in service on slot 8. -/
def storing (prior : CtxState) (last : Bool) (s : State) : State :=
  s.setService (some
    { port := 1, slot := 8, index := 2, last := last, prior := prior, payload := [1#8, 2#8], segs := [3], current := 0
      waiting := false })

/-- The key's record of three bytes being drained from segment 9. -/
def draining : State :=
  let s := holding { gathered .draining with count := some 1, frags := [{ index := 0, length := 3, segs := [9] }] }
  { s with
    mem := writeSegment [0xAA#8, 0xBB#8, 0xCC#8] 0 9 []
    drain := { s.drain with bound := some 8, len := 3 } }

/-- What holds of the next state, and false where there is none. -/
def next (o : Host.Outcome State Fault Refusal) (f : State → Bool) : Bool :=
  match o with
  | .next t => f t
  | .fault _ => false
  | .refused _ => false

/-! ### Well-formedness (an ill-formed term for each check) -/

theorem test_softReset_needs_bit0 : (Instr.softReset 2#16).wellFormed = false := by decide
theorem test_badLen_refuses_5 : (Instr.badLen 0 5#8).wellFormed = false := by decide
theorem test_skipped_refuses_sync : (Instr.characterSkipped 0 (.good 0xC3#8)).wellFormed = false := by decide
theorem test_startEdge_ends_low : (Instr.startEdge ⟨0, [false, true]⟩).wellFormed = false := by decide
theorem test_startEdge_one_edge : (Instr.startEdge ⟨0, [true, false, false]⟩).wellFormed = false := by decide
theorem test_startEdge_takes : (Instr.startEdge ⟨0, [false, true, false]⟩).wellFormed = true := by decide
theorem test_enable_needs_bit0 : (Instr.portEnable 2#16).wellFormed = false := by decide
theorem test_disable_refuses_bit0 : (Instr.portDisable 1#16).wellFormed = false := by decide
theorem test_statusClear_needs_bit8 : (Instr.unreportedClear .status 1#16).wellFormed = false := by decide
theorem test_badCommand_refuses_10 : (Instr.badCommand 0xFF0A#16).wellFormed = false := by decide
theorem test_registerWrite_refuses_odd : (Instr.registerWrite 0x09#8 0#16).wellFormed = false := by decide
theorem test_registerWrite_refuses_0x80 : (Instr.registerWrite 0x80#8 0#16).wellFormed = false := by decide
theorem test_registerWrite_refuses_rows : (Instr.registerWrite 0x0A#8 0#16).wellFormed = false := by decide
theorem test_registerWrite_refuses_reset : (Instr.registerWrite 0x00#8 1#16).wellFormed = false := by decide
theorem test_registerWrite_refuses_clear : (Instr.registerWrite 0x02#8 0x100#16).wellFormed = false := by decide
theorem test_registerWrite_takes_unmapped : (Instr.registerWrite 0x48#8 1#16).wellFormed = true := by decide

/-! ### Values of the spec -/

/-- The check value of the CRC over the nine characters 1 to 9 (R5). -/
theorem test_crc_check_value :
    crcOf [0x31#8, 0x32#8, 0x33#8, 0x34#8, 0x35#8, 0x36#8, 0x37#8, 0x38#8, 0x39#8] = 0x29B1#16 := by decide +kernel

/-- 0xB1, the first CRC character of R5's check value, on the line: start bit low, bit 0 first, stop bit high (R1, R5). -/
theorem test_charLevels : charLevels 0xB1#8 = [false, true, false, false, false, true, true, false, true, true] := by decide

/-- Table 10-1 has 57 registers at distinct even offsets below 0x80 (R178). -/
theorem test_register_map : registerMap.length = 57 ∧ (registerMap.map Prod.fst).Nodup ∧
    ∀ x ∈ registerMap, x.1.toNat % 2 = 0 ∧ x.1.toNat < 0x80 := by decide +kernel

/-- Slot, set and way (R27), and the set of a key (R28). -/
theorem test_slots : slotOf 2 0 = 8 ∧ setOfSlot 11 = 2 ∧ wayOfSlot 11 = 3 ∧ setOf key = 2 := by decide

/-- The word that spells no command leaves the state (the table gives no bits). -/
theorem test_no_word : decodeTableWord 16 0 = none ∧ (State.reset.withFetchWord 16 0).pending = [] := by decide +kernel

/-! ### One step of each command -/

theorem test_powerUp : next (exec (.powerUp true) ready) (fun t => t.host.phase == .walking 0 && t.timer.divider == some 24064) := by
  decide +kernel
theorem test_hardwareReset : next (exec .hardwareReset draining) (fun t =>
    t.host.phase == .resetAsserted && readByte t.mem 288 == some 0xAA#8 && t.drain.bound == none) := by decide +kernel
theorem test_resetDeasserted : next (exec .resetDeasserted State.held) (fun t => t.host.phase == .walking 0) := by decide +kernel
theorem test_softReset_keeps_addr : next (exec (.softReset 1#16) hunting) (fun t =>
    (t.port 1).addr == 7#7 && (t.port 1).rx.state == .off && t.host.portSelect == 1 && readRegister 0x00#8 t == 1#16) := by
  decide +kernel
theorem test_walk_ends : next (exec .walkStep { State.held with host := { State.held.host with phase := .walking 1023, softReset := true } })
    (fun t => t.host.phase == .ready && t.pool.freeList == [1023] && t.stats.events == 0x020#9 && !t.host.softReset) := by
  decide +kernel
theorem test_sync : next (exec (.syncReceived 1) started) (fun t => (t.port 1).rx.state == .receiving &&
    (t.port 1).rx.crc == 0xFFFF#16 && (t.port 1).rx.timer == .running) := by decide +kernel
theorem test_good_len : next (exec (.goodCharacter 1 101#8) (inChar .receiving .awaitingLen [] 0xFFFF#16)) (fun t =>
    (t.port 1).rx.position == .bodyByte && (t.port 1).rx.len == 101) := by decide +kernel
theorem test_badLen_102 : next (exec (.badLen 1 102#8) (inChar .receiving .awaitingLen [] 0xFFFF#16)) (fun t =>
    (t.port 1).rx.state == .hunt && t.counter 1 .framesBad == 1#16) := by decide +kernel
theorem test_framingError_stopping : next (exec (.framingError 1) (inChar .stopping .awaitingLen [] 0xFFFF#16)) (fun t =>
    (t.port 1).rx.state == .off && flagSet t .portOff) := by decide +kernel
theorem test_timeout : next (exec (.characterTimeout 1) (inFrame .receiving .awaitingLen [] 0xFFFF#16)) (fun t =>
    (t.port 1).rx.state == .hunt && t.counter 1 .framesBad == 1#16) := by decide +kernel
theorem test_frame_staged : next (exec (.frameCompletion 1 0x12#8)
    (withRx { Receiver.noFrame .receiving .startConfirmed with
      position := .crcHigh, len := 6, body := frag 0x80#8 [0x55#8], crc := 0x1234#16, crcLow := 0x34#8 })) (fun t =>
    (t.port 1).staging.length == 1 && t.counter 1 .framesGood == 1#16 && (t.port 1).rx.state == .hunt) := by decide +kernel
theorem test_frame_for_another : next (exec (.frameCompletion 1 0x12#8)
    (withRx { Receiver.noFrame .receiving .startConfirmed with
      position := .crcHigh, len := 6, body := [8#8, 9#8, 1#8, 4#8, 0x80#8, 0x55#8], crc := 0x1234#16, crcLow := 0x34#8 })) (fun t =>
    (t.port 1).staging.isEmpty && t.counter 1 .framesIgnored == 1#16) := by decide +kernel
theorem test_startEdge : next (exec (.startEdge ⟨1, [false]⟩) hunting) (fun t => (t.port 1).rx.char == .edgeSeen) := by
  decide +kernel
theorem test_startEdge_low_at_enable : next (exec (.startEdge ⟨1, [false, false]⟩) (withRx (Receiver.noFrame .hunt (.between none))))
    (fun t => (t.port 1).rx.char == .between (some false)) := by decide +kernel
theorem test_false_start : next (exec (.startCheck 1 true) (withRx (Receiver.noFrame .hunt .edgeSeen)))
    (fun t => (t.port 1).rx.char == .between (some true)) := by decide +kernel
theorem test_skipped : next (exec (.characterSkipped 1 (.good 0x00#8)) started) (fun t =>
    (t.port 1).rx == Receiver.noFrame .hunt (.between (some true)) && t.counter 1 .framesBad == 0#16) := by decide +kernel
theorem test_frag_opens : next (exec .frag (waitingFrame (frag 0x00#8 [1#8]) hunting)) (fun t =>
    (t.ctx 8).state == .collecting && (t.port 1).held == 1 && t.pool.freeList == [1, 2, 3, 4, 5]) := by decide +kernel
theorem test_frag_duplicate : next (exec .frag (waitingFrame (frag 0x01#8 [1#8]) (holding (gathered .collecting)))) (fun t =>
    t.counter 1 .fragsDuplicate == 1#16 && (t.port 1).replies.isEmpty && (t.port 1).staging.isEmpty) := by decide +kernel
theorem test_abort : next (exec .abort (waitingFrame [7#8, 9#8, 2#8, 4#8, 0#8] (holding (gathered .repairing)))) (fun t =>
    t.ctx 8 == Context.freed && t.pool.backlog == [9] && t.counter 1 .recordsFailed == 1#16) := by decide +kernel
theorem test_query : next (exec .query (waitingFrame [7#8, 9#8, 3#8, 4#8, 0#8] (holding (gathered .collecting)))) (fun t =>
    (t.port 1).replies == [{ kind := .status, station := 9#8, tag := 4#8, index := 2#8, bitmap := some 2#64 }]) := by
  decide +kernel
theorem test_tick : next (exec .tick (ready.setTimers 3 { repair := some 2, repairMark := false, life := some 1, lifeMark := false }))
    (fun t => t.timers 3 == { repair := some 1, repairMark := false, life := none, lifeMark := true } &&
      t.timer.claim == some { slot := 3, kind := .life }) := by decide +kernel
theorem test_countdownExpiry : next (exec (.countdownExpiry 3 .repair)
    (ready.setTimers 3 { repair := some 1, repairMark := false, life := some 1, lifeMark := false })) (fun t =>
    t.timers 3 == { repair := none, repairMark := true, life := some 1, lifeMark := false }) := by decide +kernel
theorem test_repairExpiry : next (exec .repairExpiry (expiring .repair true (holding (gathered .collecting)))) (fun t =>
    (t.ctx 8).attemptsLeft == 2 && (t.ctx 8).state == .repairing && (t.timers 8).repair == some 100 &&
      (t.port 1).replies == [{ kind := .repeat, station := 9#8, tag := 4#8, index := 0x41#8, bitmap := some 1#64 }]) := by
  decide +kernel
theorem test_lifeExpiry : next (exec .lifeExpiry (expiring .life true (holding (gathered .repairing)))) (fun t =>
    t.ctx 8 == Context.freed && (t.reports.map (·.status)) == [.expired]) := by decide +kernel
theorem test_replyStart : next (exec (.replyStart 1) (hunting.modifyPort 1 fun q => { q with replies := [acceptReply key 3] })) (fun t =>
    match (t.port 1).tx with
    | some x => x.frame.take 7 == [0xC3#8, 5#8, 9#8, 7#8, 0x81#8, 4#8, 0x82#8]
    | none => false) := by decide +kernel
theorem test_replyEnd : next (exec (.replyEnd 1) (hunting.modifyPort 1 fun q => { q with tx := some (sending false) })) (fun t =>
    t.counter 1 .repliesSent == 1#16 && !t.txen 1 && t.txd 1 0) := by decide +kernel
theorem test_txd_sends_sync : (List.range 11).map
    ((hunting.modifyPort 1 fun q => { q with tx := some { sending false with frame := replyFrame (acceptReply key 3) 7#7 } }).txd 1) =
    [false, true, true, false, false, false, false, true, true, true, false] := by decide +kernel
theorem test_guardEnd : next (exec (.guardEnd 1) (hunting.modifyPort 1 fun q => { q with tx := some (sending true) })) (fun t =>
    (t.port 1).tx == none) := by decide +kernel
theorem test_returnMove : next (exec .returnMove { ready with pool := { ready.pool with backlog := [9, 8] } }) (fun t =>
    t.pool.freeList == [0, 1, 2, 3, 4, 5, 9] && t.pool.backlog == [8]) := by decide +kernel
theorem test_drain_odd_end : next (exec .drainDataRead { draining with drain := { draining.drain with pos := 2 } }) (fun t =>
    t.drain.readData == 0x00CC#16 && t.drain.pos == 4) := by decide +kernel
theorem test_drain_fault : next (exec .drainDataRead ready) (fun t => flagSet t .drainFault && t.drain.readData == 0#16) := by
  decide +kernel
theorem test_drain_grant : next (exec .drainReadGrant { draining with
    drain := { draining.drain with held := some { pos := 0, data := 0xBBAA#16, needs := [1] } } }) (fun t =>
    t.drain.readData == 0xBBAA#16 && t.drain.pos == 2 && !t.wait) := by decide +kernel
theorem test_held_ended : next (exec .heldReadEnded { draining with
    drain := { draining.drain with held := some { pos := 0, data := 0xBBAA#16, needs := [1] } } }) (fun t =>
    t.drain.pos == 0 && !t.wait) := by decide +kernel
theorem test_drainPos_at_odd_length : next (exec (.drainPosWrite 3#16) draining) (fun t => flagSet t .drainFault && t.drain.pos == 0) := by
  decide +kernel
theorem test_enable_address_127 : next (exec (.portEnable 0x31#16) { ready.modifyPort 1 (fun q => { q with addr := 127#7 }) with
    host := { ready.host with portSelect := 1 } }) (fun t => (t.port 1).configFault && (t.port 1).rx.state == .off) := by
  decide +kernel
theorem test_disable : next (exec (.portDisable 0x02#16) (hunting.modifyPort 1 fun q => { q with replies := [acceptReply key 3] }))
    (fun t => t.counter 1 .repliesDropped == 1#16 && flagSet t .portOff && (t.port 1).reclaim) := by decide +kernel
theorem test_portCtrl_off : next (exec (.portCtrlWrite 0x52#16) ready) (fun t =>
    (t.port 0).reclaim && (t.port 0).attempts == 5#3 && (t.port 0).rx.state == .off) := by decide +kernel
theorem test_portAddr : next (exec (.portAddrWrite 0xFF#16) ready) (fun t => (t.port 0).addr == 127#7) := by decide +kernel
theorem test_portRate_15 : next (exec (.portRateWrite 15#16) ready) (fun t => (t.port 0).rate == 16#16) := by decide +kernel
theorem test_tickWrite_counting : next (exec (.tickWrite 1#16) ready) (fun t =>
    t.timer.tick == 1#16 && t.timer.divider == some 24064) := by decide +kernel
theorem test_counterClear : next (exec (.counterClear .framesBad 0xFFFF#16) (count 0 .framesBad ready)) (fun t =>
    t.counter 0 .framesBad == 0#16) := by decide +kernel
theorem test_portLimits : next (exec (.portLimitsWrite 0x002#16) (count 0 .framesGood (count 0 .framesBad ready))) (fun t =>
    t.counter 0 .framesBad == 0#16 && t.counter 0 .framesGood == 1#16) := by decide +kernel
theorem test_unreportedClear : next (exec (.unreportedClear .status 0x100#16) (countUnreported ready)) (fun t =>
    t.stats.unreported == 0#16) := by decide +kernel
theorem test_eventsWrite : next (exec (.eventsWrite 0x81#16) { ready with stats := { ready.stats with events := 0x083#9 } }) (fun t =>
    t.stats.events == 0x002#9) := by decide +kernel
theorem test_eventEnable : next (exec (.eventEnableWrite 0xFFFF#16) ready) (fun t => readRegister 0x06#8 t == 0x1FF#16) := by
  decide +kernel
theorem test_quota_clamped : next (exec (.registerWrite 0x56#8 2000#16) ready) (fun t => (t.port 0).quota == 1024#11) := by
  decide +kernel
theorem test_command_notReady : next (exec (.lookup 0#8) State.reset) (fun t =>
    readRegister 0x14#8 t == 3#16 && readRegister 0x16#8 t == 9#16 && flagSet t .cmdDone) := by decide +kernel
theorem test_command_busy : next (exec (.take 0xFF#8) ready) (fun t =>
    readRegister 0x14#8 t == 1#16 && readRegister 0x16#8 t == 0x8000#16) := by decide +kernel
theorem test_badOperand : next (exec (.pin 0#8) ready) (fun t => readRegister 0x16#8 t == 8#16) := by decide +kernel
theorem test_badCommand : next (exec (.badCommand 0x0300#16) ready) (fun t => readRegister 0x16#8 t == 10#16) := by decide +kernel
theorem test_overrun : next (exec (.release 0#8) (commanding .take keyOperands 0 ready)) (fun t =>
    flagSet t .cmdOverrun && readRegister 0x14#8 t == 0#16) := by decide +kernel
theorem test_claim_lookup : next (exec .commandClaim (commanding .lookup keyOperands 0 (holding (gathered .repairing)))) (fun t =>
    t.cmd.results.toList == [8#16, 0x0303#16, 0x0901#16, 4#16, 0x0100#16, 3#16, 2#16, 0#16, 0#16, 0#16]) := by decide +kernel
theorem test_claim_release : next (exec .commandClaim (commanding .release keyOperands 0 draining)) (fun t =>
    t.drain.bound == none && t.pool.backlog == [9] && (t.port 1).recent == [{ station := 9#8, tag := 4#8, count := 1 }]) := by
  decide +kernel
theorem test_next_visit : next (exec .walkVisit (commanding .next keyOperands 7 (holding (gathered .collecting)))) (fun t =>
    (t.cmd.inFlight.map (·.slot)) == some 8) := by decide +kernel
theorem test_purge_visit : next (exec .walkVisit (commanding .purge keyOperands 8 (holding (gathered .collecting)))) (fun t =>
    t.ctx 8 == Context.freed && (t.cmd.inFlight.map (·.segments)) == some 8) := by decide +kernel
theorem test_fill_completes : next (exec .fillSegmentEnd (storing .collecting true { holding { gathered .collecting with
      frags := [{ index := 0, length := 3, segs := [9] }, { index := 1, length := 3, segs := [8] }], storedBytes := 6 } with
    mem := [] })) (fun t =>
    (t.ctx 8).state == .done && readByte t.mem 97 == some 2#8 && readByte t.mem 127 == some 0#8 &&
      (t.port 1).replies == [{ kind := .accept, station := 9#8, tag := 4#8, index := 0x82#8, bitmap := none }]) := by
  decide +kernel

/-! ### Witnesses: for each statement with hypotheses, states and operands that meet them, clause by clause -/

theorem witness_StepRunsTheFrontCommand : State.reset.pending = [] := rfl

theorem witness_HardwareResetAndPowerUp :
    State.held.host.phase = .resetAsserted ∧ State.reset.host.phase ≠ .resetAsserted := by decide

theorem witness_SoftReset : ready.busFree = true ∧ (1#16).getLsbD 0 = true ∧ (0xFFFE#16).getLsbD 0 = false := by
  decide +kernel

theorem witness_InitializationWalk : State.reset.host.phase = .walking 0 ∧ State.reset.pool.freeList = [] ∧
    (State.reset.host.phase = .walking 0 ∨ ready.host.phase = .walking 1023) ∧ ready.host.phase = .ready ∧
    State.held.host.phase = .resetAsserted := by decide +kernel

theorem witness_RegistersAfterReset : (0x08#8, Reg.portSelect) ∈ registerMap ∧ (0x54#8, Reg.portRate) ∈ registerMap := by
  decide

theorem witness_CharactersTaken :
    (∀ level ∈ [none, some false, some true], let s := withRx (Receiver.noFrame .hunt (.between level));
      (s.port 1).rx.state ≠ .off ∧ (s.port 1).rx.char = .between level) ∧
    (∃ before after, (some true).toList ++ [false] = before ++ true :: false :: after) ∧
    (¬ ∃ before after, (none : Option Bool).toList ++ [false] = before ++ true :: false :: after) ∧
    (∀ s ∈ [withRx (Receiver.noFrame .hunt .edgeSeen), withRx (Receiver.noFrame .receiving .edgeSeen)],
      (s.port 1).rx.state ≠ .off ∧ (s.port 1).rx.char = .edgeSeen) ∧
    (started.port 1).rx.state = .hunt ∧ (started.port 1).rx.char = .startConfirmed ∧ (0x00#8) ≠ 0xC3#8 ∧
    (ready.port 1).rx.state = .off ∧ (hunting.port 1).rx.char ≠ .startConfirmed ∧
    Instr.goodCharacter 1 0#8 ∈ characterRows 1 0#8 ∧
    (∀ st ∈ [RxState.receiving, .stopping], ∀ pos ∈ [FramePosition.awaitingLen, .bodyByte, .crcLow],
      let s := inChar st pos [] 0xFFFF#16;
      ((s.port 1).rx.state = .receiving ∨ (s.port 1).rx.state = .stopping) ∧ (s.port 1).rx.char = .startConfirmed ∧
        (s.port 1).rx.position = pos) ∧
    ∀ v ∈ [5#8, 101#8], 5 ≤ v.toNat ∧ v.toNat ≤ 101 := by
  refine ⟨by decide +kernel, ⟨[], [], rfl⟩, ?_, by decide +kernel, by decide +kernel, by decide +kernel, by decide, by decide +kernel,
    by decide +kernel, by decide, by decide +kernel, by decide⟩
  rintro ⟨before, after, h⟩
  have := congrArg List.length h
  simp at this
  omega

theorem witness_FrameDropped :
    (∀ st ∈ [RxState.receiving, .stopping],
      let s := inFrame st .awaitingLen [] 0xFFFF#16;
      ((s.port 1).rx.state = .receiving ∨ (s.port 1).rx.state = .stopping) ∧ (s.port 1).rx.timer = .running) ∧
    (∀ st ∈ [RxState.receiving, .stopping],
      let s := inChar st .awaitingLen [] 0xFFFF#16;
      ((s.port 1).rx.state = .receiving ∨ (s.port 1).rx.state = .stopping) ∧ (s.port 1).rx.char = .startConfirmed ∧
        (s.port 1).rx.position = .awaitingLen ∧ (s.port 1).rx.timer ≠ .running) ∧
    ∀ v ∈ [4#8, 102#8], v.toNat < 5 ∨ 101 < v.toNat := by decide +kernel

/-- A frame at its CRC high byte 0x12 with a good CRC. -/
def completing (body : List Byte) (waiting : List StagedFrame) : State :=
  (withRx { Receiver.noFrame .receiving .startConfirmed with
    position := .crcHigh, len := body.length, body := body, crc := 0x1234#16, crcLow := 0x34#8 }).modifyPort 1 fun q =>
      { q with staging := waiting }

theorem witness_FrameCompletion :
    (∀ s ∈ [completing [] [], completing [] [staged [], staged []], completing [8#8, 9#8, 1#8, 4#8, 0#8, 0#8] [staged []],
        completing (frag 0#8 [0#8]) [staged []]],
      ((s.port 1).rx.state = .receiving ∨ (s.port 1).rx.state = .stopping) ∧ (s.port 1).rx.char = .startConfirmed ∧
        (s.port 1).rx.position = .crcHigh) ∧
    0x13#8 ++ ((completing [] []).port 1).rx.crcLow ≠ ((completing [] []).port 1).rx.crc ∧
    (let q := (completing [] [staged [], staged []]).port 1;
      0x12#8 ++ q.rx.crcLow = q.rx.crc ∧ 2 ≤ q.staging.length) ∧
    (let q := (completing [8#8, 9#8, 1#8, 4#8, 0#8, 0#8] [staged []]).port 1;
      0x12#8 ++ q.rx.crcLow = q.rx.crc ∧ q.staging.length < 2 ∧ ignored q.addr q.rx.len q.rx.body) ∧
    (let q := (completing (frag 0#8 [0#8]) [staged []]).port 1;
      0x12#8 ++ q.rx.crcLow = q.rx.crc ∧ q.staging.length < 2 ∧ ¬ ignored q.addr q.rx.len q.rx.body) := by
  simp only [ignored_iff]; decide +kernel

theorem witness_WholeFrameReceived : (hunting.port 1).rx.state = .hunt ∧ (hunting.port 1).rx.char = .between (some true) ∧ (hunting.port 1).staging.length < 2 ∧
    (∀ body ∈ [[7#8, 9#8, 3#8, 4#8, 0#8], frag 0#8 (List.replicate 96 0xC3#8)],
      5 ≤ body.length ∧ body.length ≤ 101 ∧ ¬ ignored (hunting.port 1).addr body.length body) := by
  simp only [ignored_iff]; decide +kernel

theorem witness_TransmittedFrameHasGoodCrc : (hunting.port 1).rx.state = .hunt ∧
    (hunting.port 1).rx.char = .between (some true) ∧ (hunting.port 1).staging.length < 2 := by decide +kernel

theorem witness_ReplyStart :
    (let s := hunting.modifyPort 1 fun q => { q with replies := [acceptReply key 3] };
      (s.port 1).tx = none ∧ (s.port 1).replies = [acceptReply key 3]) ∧
    ((hunting.port 1).tx ≠ none ∨ (hunting.port 1).replies = []) := by decide +kernel

theorem witness_txd : (let x := { sending false with frame := replyFrame (acceptReply key 3) 7#7 };
    x.inGuard = false ∧ x.frame[0]? = some 0xC3#8 ∧ x.frame[8]?.isSome = true) ∧
    ∀ x, (hunting.port 1).tx = some x → x.inGuard = true := by
  refine ⟨by decide +kernel, fun x h => ?_⟩
  have hn : (hunting.port 1).tx = none := by decide +kernel
  rw [hn] at h; cases h

theorem witness_ReplyEndAndGuard : (hunting.port 1).tx = none ∧ (∀ g ∈ [false, true],
    let s := hunting.modifyPort 1 fun q => { q with tx := some (sending g), replies := [acceptReply key 1] };
    (s.port 1).tx = some (sending g) ∧ (sending g).inGuard = g ∧ (s.port 1).replies = [acceptReply key 1]) ∧
    (let s := hunting.modifyPort 1 fun q => { q with tx := some (sending true) };
      (s.port 1).tx = some (sending true) ∧ (s.port 1).replies = []) := by decide +kernel

/-- A counter of port 1 at a value. -/
def counted (v : Word) : State := hunting.modifyPort 1 fun q => { q with counters := q.counters.set 1 v }

theorem witness_CounterIncrement : ((counted 65533#16).counter 1 .framesBad).toNat ≤ 65533 ∧
    ((counted 65534#16).counter 1 .framesBad).toNat = 65534 ∧ ((counted 65535#16).counter 1 .framesBad).toNat = 65535 ∧
    ((counted 65530#16).counter 1 .framesBad).toNat = 65530 ∧ (counted 65535#16).counter 1 .framesBad = 65535#16 ∧
    Instr.tick.wellFormed = true ∧ clearsCounters .tick = false ∧
    next (exec .tick (counted 65535#16)) (fun _ => true) = true := by decide +kernel

theorem witness_ContextFailure : ((holding (gathered .repairing)).ctx 8).key = some key := by decide +kernel

theorem witness_RotationChoice :
    (storing .collecting false hunting).table.service ≠ none ∧ ready.table.service = none ∧
    (let s := commanding .take keyOperands 0 (waitingFrame (frag 0#8 [0#8]) hunting);
      s.table.service = none ∧ s.nextClaimant = some (.receiver 1) ∧ s.presents .command = true ∧
        Claimant.command ≠ .receiver 1 ∧ (s.setLastServed (.receiver 1)).table.lastServed = .receiver 1) := by
  decide +kernel

theorem witness_QueryAnswered :
    (∀ s ∈ [hunting, holding (gathered .expecting), holding (gathered .collecting), holding (gathered .done)],
      let t := waitingFrame [7#8, 9#8, 3#8, 4#8, 0#8] s;
      t.nextClaimant = some (.receiver 1) ∧ (t.port 1).staging = [staged [7#8, 9#8, 3#8, 4#8, 0#8]]) ∧
    (staged [7#8, 9#8, 3#8, 4#8, 0#8]).kind = 0x03#8 := by decide +kernel

/-- The key is in the recent-completion list of its port. -/
def recent : State := hunting.modifyPort 1 fun q => { q with recent := [{ station := 9#8, tag := 4#8, count := 64 }] }

theorem witness_AbortOutcomes :
    (∀ s ∈ [hunting, holding (gathered .expecting), holding (gathered .repairing), holding (gathered .done), recent],
      let t := waitingFrame [7#8, 9#8, 2#8, 4#8, 0#8] s;
      t.nextClaimant = some (.receiver 1) ∧ (t.port 1).staging = [staged [7#8, 9#8, 2#8, 4#8, 0#8]]) ∧
    (staged [7#8, 9#8, 2#8, 4#8, 0#8]).kind = 0x02#8 ∧ (staged [7#8, 9#8, 2#8, 4#8, 0#8]).key 1 = key ∧
    (holding (gathered .repairing)).lookup key = some 8 ∧ ((holding (gathered .repairing)).ctx 8).gathering = true ∧
    (holding (gathered .done)).lookup key = some 8 ∧ ((holding (gathered .done)).ctx 8).state = .done ∧
    recent.lookup key = none ∧ recent.recentEntry key ≠ none ∧
    (holding (gathered .expecting)).lookup key = some 8 ∧ hunting.lookup key = none ∧ hunting.recentEntry key = none := by
  decide +kernel

/-- A FRAG for the key waits on port 1 and is next. -/
def fragNext (index : Byte) (payload : List Byte) (s : State) : Bool :=
  let t := waitingFrame (frag index payload) s;
  t.nextClaimant == some (.receiver 1) && (t.port 1).staging == [staged (frag index payload)] &&
    (staged (frag index payload)).kind == 0x01#8 && (staged (frag index payload)).key 1 == key

theorem witness_FragDiscarded :
    fragNext 1#8 [0#8] (holding (gathered .collecting)) = true ∧
    ((holding (gathered .collecting)).ctx 8).unfinished = true ∧
    ((holding (gathered .collecting)).ctx 8).hasIndex (staged (frag 1#8 [0#8])).index = true ∧
    (∀ n ∈ [1, 64], let s := holding { gathered .done with count := some n };
      fragNext 1#8 [0#8] s = true ∧ s.lookup key = some 8 ∧ (s.ctx 8).state = .done ∧ (s.ctx 8).count = some n ∧
        1 ≤ n ∧ n ≤ 64) ∧
    fragNext 1#8 [0#8] recent = true ∧ recent.lookup key = none ∧ (recent.recentEntry key).map (·.count) = some 64 := by
  decide +kernel

/-- PORT_RECLIMIT of port 1 at three bytes. -/
def limited (s : State) : State := s.modifyPort 1 fun q => { q with reclimit := 3#13 }

theorem witness_FragFails :
    (let s := holding (gathered .collecting);
      fragNext 0x80#8 [0#8] s = true ∧ s.lookup key = some 8 ∧ (s.ctx 8).unfinished = true ∧
        (s.ctx 8).hasIndex 0 = false ∧ (staged (frag 0x80#8 [0#8])).index = 0 ∧ Disagrees (s.ctx 8) 0 true) ∧
    (let s := limited (holding (gathered .collecting));
      fragNext 2#8 [0#8] s = true ∧ s.lookup key = some 8 ∧ (s.ctx 8).unfinished = true ∧ (s.ctx 8).hasIndex 2 = false ∧
        ¬ Disagrees (s.ctx 8) 2 false ∧ (s.port 1).reclimit.toNat < (s.ctx 8).storedBytes + 1) ∧
    (let s := limited hunting;
      fragNext 0#8 [0#8, 0#8, 0#8, 0#8] s = true ∧ s.lookup key = none ∧ s.recentEntry key = none ∧
        (s.port 1).reclimit.toNat < (staged (frag 0#8 [0#8, 0#8, 0#8, 0#8])).payload.length) := by
  simp only [disagrees_iff]; decide +kernel

/-- The four ways of the key's set, none of them the key's, in the given states. -/
def fullSet (st : CtxState) : State :=
  let other (n : Byte) : Context := { gathered st with key := some { key with station := n, tag := 13#8 - n } };
  ((((hunting.setCtx 8 (other 10#8)).setCtx 9 (other 11#8)).setCtx 10 (other 12#8)).setCtx 11 (other 13#8)).setOrder 2
    [1, 0, 2, 3]

/-- No segment is free. -/
def noSegment (s : State) : State := { s with pool := { s.pool with freeList := [] } }

theorem witness_FragRefusedWithHold :
    (let s := noSegment (holding (gathered .collecting));
      fragNext 2#8 [0#8] s = true ∧ s.lookup key = some 8 ∧ FitsContext s 1 8 (staged (frag 2#8 [0#8])) ∧ ¬ Room s 1 1) ∧
    (let s := noSegment hunting;
      fragNext 2#8 [0#8] s = true ∧ FitsFirst s 1 (staged (frag 2#8 [0#8])) ∧ ¬ Room s 1 1) ∧
    (let s := fullSet .expecting;
      fragNext 2#8 [0#8] s = true ∧ FitsFirst s 1 (staged (frag 2#8 [0#8])) ∧ Room s 1 1 ∧
        (∀ i, setOfSlot i = setOf key → (s.ctx i).state ≠ .free) ∧ (s.port 1).reclaim = false ∧
        ∀ w ∈ s.order (setOf key), (s.ctx (slotOf (setOf key) w)).eligible = false) := by
  simp only [fitsContext_iff, room_iff, FitsFirst]; decide +kernel

theorem witness_FragStoreBegins :
    (let s := holding (gathered .collecting);
      fragNext 2#8 [0#8] s = true ∧ s.lookup key = some 8 ∧ FitsContext s 1 8 (staged (frag 2#8 [0#8])) ∧ Room s 1 1) ∧
    (let s := hunting;
      fragNext 2#8 (List.replicate 96 0#8) s = true ∧ FitsFirst s 1 (staged (frag 2#8 (List.replicate 96 0#8))) ∧
        Room s 1 96 ∧ setOfSlot 8 = setOf key ∧ (s.ctx 8).state = .free ∧
        ∀ j, setOfSlot j = setOf key → (s.ctx j).state = .free → 8 ≤ j) := by
  simp only [fitsContext_iff, room_iff, FitsFirst]; decide +kernel

theorem witness_Displacement :
    let s := (fullSet .collecting).modifyPort 1 fun q => { q with reclaim := true };
    fragNext 2#8 [0#8] s = true ∧ FitsFirst s 1 (staged (frag 2#8 [0#8])) ∧ Room s 1 1 ∧
      (∀ j, setOfSlot j = setOf key → (s.ctx j).state ≠ .free) ∧ (s.port 1).reclaim = true ∧
      s.order (setOf key) = [] ++ wayOfSlot 9 :: [0, 2, 3] ∧ setOfSlot 9 = setOf key ∧ (s.ctx 9).eligible = true ∧
      (s.ctx 9).key = some { key with station := 11#8, tag := 2#8 } ∧ wayOfSlot 9 ∉ ([0, 2, 3] : List Way) := by
  simp only [room_iff, FitsFirst]; decide +kernel

theorem witness_SegmentEnds :
    (let st : StoreClaim := { port := 1, slot := 8, index := 2, last := false, prior := .collecting, segs := [3, 4], current := 0
                              payload := List.replicate 33 1#8, waiting := false };
      st.waiting = false ∧ st.segs[st.current]? = some 3 ∧ st.segs[st.current + 1]? = some 4) ∧
    ((storing .collecting false hunting).setService (some
      { port := 1, slot := 8, index := 2, last := false, prior := .collecting, payload := [], segs := [3], current := 0
        waiting := true })).table.service.map (·.waiting) = some true ∧ hunting.table.service = none := by decide +kernel

theorem witness_StoreEnds :
    (let s := storing .collecting false (holding (gathered .collecting));
      match s.table.service with
      | some st => st.waiting = false ∧ st.segs[st.current]? = some 3 ∧ st.segs[st.current + 1]? = none ∧
          (s.ctx st.slot).key = some key ∧ (storedContext s st).count ≠ some (storedContext s st).frags.length
      | none => False) ∧
    (let s := storing .repairing true (holding { gathered .repairing with
        frags := [{ index := 0, length := 3, segs := [9] }, { index := 1, length := 3, segs := [8] }] });
      match s.table.service with
      | some st => st.waiting = false ∧ st.segs[st.current]? = some 3 ∧ st.segs[st.current + 1]? = none ∧
          (s.ctx st.slot).key = some key ∧ (storedContext s st).count = some (storedContext s st).frags.length
      | none => False) := by
  constructor <;> (dsimp only [storing, State.setService]; decide +kernel)

theorem witness_StoredPayloadReadsBack :
    let s := storing .collecting false (holding (gathered .collecting));
    match s.table.service with
    | some st => st.current = 0 ∧ st.waiting = false ∧ s.drain.held = none ∧ st.segs.Nodup ∧ 1 ≤ st.payload.length ∧
        st.segs.length = (st.payload.length + 31) / 32
    | none => False := by
  dsimp only [storing, State.setService]; decide +kernel

theorem witness_TickAndExpiry :
    (let s := ready.setTimers 3 { repair := some 1, repairMark := false, life := some 2, lifeMark := false };
      s.timer.divider ≠ none ∧ s.timer.tick ≠ 0#16 ∧ (s.timers 3).value .repair = some 1 ∧
        (s.timers 3).value .life = some 2 ∧ (s.timers 4).value .life = none) ∧
    { ready with timer := { ready.timer with divider := none } }.timer.divider = none := by decide +kernel

theorem witness_RepairStep :
    let s := expiring .repair true (holding (gathered .collecting));
    ExpiryNext s { slot := 8, kind := .repair } ∧ (s.timers 8).repairMark = true ∧ (s.ctx 8).gathering = true ∧
      (s.ctx 8).key = some key ∧ 1 ≤ (s.ctx 8).attemptsLeft ∧
      ∀ j : Fin 64, (1#64).getLsbD j.val = true ↔ Missing (s.ctx 8) j := by
  simp only [missing_iff, ExpiryNext]; decide +kernel

theorem witness_ExpiryOutcomes :
    (∀ kind ∈ [CountdownKind.repair, .life],
      let s := expiring kind false (holding (gathered .collecting));
      ExpiryNext s { slot := 8, kind := kind } ∧ (s.timers 8).mark kind = false) ∧
    (let s := expiring .repair true (holding { gathered .repairing with attemptsLeft := 0 });
      ExpiryNext s { slot := 8, kind := .repair } ∧ (s.timers 8).repairMark = true ∧ (s.ctx 8).gathering = true ∧
        (s.ctx 8).key = some key ∧ (s.ctx 8).attemptsLeft = 0) ∧
    (let s := expiring .life true (holding (gathered .collecting));
      ExpiryNext s { slot := 8, kind := .life } ∧ (s.timers 8).lifeMark = true ∧ (s.ctx 8).gathering = true ∧
        (s.ctx 8).key = some key) := by
  simp only [ExpiryNext]; decide +kernel

theorem witness_ReturnMoveAndConservation :
    { ready with pool := { ready.pool with backlog := [9, 8] } }.pool.backlog = 9 :: [8] ∧ ready.pool.backlog = [] := by
  decide +kernel

theorem witness_RecordBytePlace : (draining.ctx 8).frags = [] ++ { index := 0, length := 3, segs := [9] } :: [] ∧
    ([9] : List Seg)[2 / 32]? = some 9 ∧ ((draining.ctx 8).frags.map (·.length)).sum ≤ 3 := by decide +kernel

/-- The fill engine writes segment 13, of the same bank as segment 9. -/
def contended : State :=
  draining.setService (some
    { port := 1, slot := 9, index := 2, last := false, prior := .collecting, payload := [1#8], segs := [13], current := 0
      waiting := false })

theorem witness_DrainRead :
    (∀ s ∈ [draining, contended], s.host.phase = .ready ∧ s.drain.bound = some 8 ∧ s.drain.pos < s.drain.len ∧
      s.recordByte 8 0 = some (9, 0xAA#8) ∧ s.recordByte 8 1 = some (9, 0xBB#8) ∧ s.drain.held = none ∧
      s.drain.pos + 1 < s.drain.len) ∧
    draining.fillBank ≠ some (bankOf 9) ∧ contended.fillBank = some (bankOf 9) ∧ draining.recordByte 8 2 = some (9, 0xCC#8) ∧
    (let d := { draining.drain with pos := 2 };
      d.pos < d.len ∧ d.pos + 1 = d.len) := by decide +kernel

theorem witness_DrainReadRefused : ready.host.phase = .ready ∧ ready.drain.held = none ∧ ready.drain.bound = none ∧
    (let d := { draining.drain with pos := 4 };
      d.bound ≠ none ∧ d.len ≤ d.pos) ∧ State.reset.initialising = true ∧ Instr.tick.wellFormed = true ∧
    clearsEvents .tick = false ∧ flagSet (raise .drainFault ready) .drainFault = true := by decide +kernel

theorem witness_HeldReadGrantedOrEnded :
    (let s := { contended with drain := { contended.drain with held := some { pos := 0, data := 7#16, needs := [1] } } };
      s.drain.held = some { pos := 0, data := 7#16, needs := [1] } ∧ s.fillBank = some 1 ∧ (1 : Bank) ∈ [(1 : Bank)]) ∧
    (let s := { draining with drain := { draining.drain with held := some { pos := 0, data := 7#16, needs := [1] } } };
      s.drain.held = some { pos := 0, data := 7#16, needs := [1] } ∧ s.fillBank = none) ∧ ready.drain.held = none := by
  decide +kernel

theorem witness_DrainPosWrite : draining.busFree = true ∧ draining.host.phase = .ready ∧ draining.drain.bound ≠ none ∧
    (2#16).toNat < draining.drain.len ∧ draining.drain.len ≤ (3#16).toNat ∧ ready.drain.bound = none ∧
    ready.busFree = true ∧ State.reset.busFree = true ∧ State.reset.initialising = true := by decide +kernel

theorem witness_WholeRecordRead : draining.host.phase = .ready ∧ draining.drain.bound = some 8 ∧ draining.drain.held = none ∧
    draining.drain.pos = 0 ∧ draining.drain.len = [0xAA#8, 0xBB#8, 0xCC#8].length ∧ draining.table.service = none ∧
    (∀ p b, [0xAA#8, 0xBB#8, 0xCC#8][p]? = some b → ∃ g, draining.recordByte 8 p = some (g, b)) := by
  refine ⟨by decide +kernel, by decide +kernel, by decide +kernel, by decide +kernel, by decide +kernel, by decide +kernel, ?_⟩
  have h : ∀ p : Fin 3, draining.recordByte 8 p.val = ([0xAA#8, 0xBB#8, 0xCC#8][p.val]?).map fun b => (9, b) := by
    decide +kernel
  intro p b hb
  have hp : p < 3 := by by_contra hp; simp [Nat.not_lt.1 hp] at hb
  exact ⟨9, by rw [h ⟨p, hp⟩, hb]; rfl⟩

theorem witness_HostWritesNeedTheBus : isHostWrite (.tickWrite 0#16) = true ∧ State.held.host.phase = .resetAsserted ∧
    { draining.drain with held := some { pos := 0, data := 7#16, needs := [1] } }.held ≠ none := by decide

theorem witness_PortEnableAndDisable :
    (∀ a ∈ [1#7, 126#7, 0#7, 127#7], let s := ready.modifyPort 0 fun q => { q with addr := a };
      s.busFree = true ∧ s.host.portSelect = 0 ∧ (s.port 0).rx.state = .off ∧ s.host.phase = .ready ∧ (s.port 0).addr = a) ∧
    hunting.busFree = true ∧ hunting.host.portSelect = 1 ∧ (hunting.port 1).rx.state = .hunt ∧
    (let s := inFrame .receiving .bodyByte [] 0#16;
      s.busFree = true ∧ (s.port 1).rx.state = .receiving) ∧
    (let s := inFrame .stopping .bodyByte [] 0#16;
      s.busFree = true ∧ (s.port 1).rx.state = .stopping ∧ s.initialising = false) ∧
    State.reset.busFree = true ∧ (State.reset.port 0).rx.state = .off ∧ State.reset.initialising = true := by decide +kernel

theorem witness_ConfigurationRows : ready.busFree = true ∧ (ready.port 0).rx.state = .off ∧ hunting.busFree = true ∧
    (hunting.port hunting.host.portSelect).rx.state ≠ .off ∧ 16 ≤ (16#16).toNat ∧ (15#16).toNat < 16 ∧
    ready.timer.divider ≠ none ∧ (let s := { ready with timer := { ready.timer with divider := none } };
      s.timer.divider = none ∧ s.busFree = true) := by decide +kernel

theorem witness_CounterClear : hunting.busFree = true ∧ hunting.counter 1 .framesBad = 0#16 ∧
    hunting.limitFlag 1 .framesBad = false := by decide +kernel

theorem witness_PortLimitsWrite : (counted 65535#16).busFree = true := by decide +kernel

theorem witness_UnreportedCounter :
    16 ≤ failureCount (List.replicate 16 (refusalEntry key)) ∧ failureCount (List.replicate 15 (refusalEntry key)) < 16 ∧
    ready.busFree = true ∧ (0x100#16).getLsbD 8 = true := by decide +kernel

theorem witness_EventsWrite : ready.busFree = true ∧ (0x81#16).getLsbD (Event.bit .drainFault) = true ∧
    (0x81#16).getLsbD (Event.bit .cmdDone) = false := by decide +kernel

theorem witness_EventEnableWrite : ready.busFree = true ∧ (1#16).getLsbD 0 = true ∧ ready.host.phase ≠ .resetAsserted := by
  decide +kernel

theorem witness_RegisterWrite : ready.busFree = true ∧ ∀ offset ∈ [0x08#8, 0x10#8, 0x18#8, 0x56#8, 0x60#8, 0x0C#8, 0x48#8],
    (Instr.registerWrite offset 0xFFFE#16).wellFormed = true := by decide +kernel

theorem witness_RegisterReads : State.held.host.phase = .resetAsserted ∧ (∀ x ∈ registerMap, x.1 ≠ 0x48#8) ∧
    hunting.host.phase ≠ .resetAsserted ∧ hunting.reports = [] ∧
    { hunting with reports := [refusalEntry key] }.reports = refusalEntry key :: [] ∧ PortLaw (hunting.port 1) := by
  refine ⟨by decide, by decide, by decide +kernel, by decide +kernel, rfl, ⟨by decide +kernel, by decide +kernel, by decide +kernel,
    by decide +kernel, by decide +kernel, ⟨by decide +kernel, by decide +kernel, by decide +kernel⟩⟩⟩

theorem witness_CommandDecision :
    (State.reset.busFree = true ∧ State.reset.initialising = true) ∧
    (ready.busFree = true ∧ ready.initialising = false ∧ ready.cmd.inFlight = none) ∧
    (commanding .take keyOperands 0 ready).busFree = true ∧ (commanding .take keyOperands 0 ready).initialising = false ∧
    (commanding .take keyOperands 0 ready).cmd.inFlight.isSome = true := by decide +kernel

/-- Two unknown codes: 0, with the upper byte ignored, and 11 (R144, R180). -/
theorem witness_unknown_codes : (0x0100#16).toNat % 256 = 0 ∧ 10 < (11#16).toNat % 256 := by decide

/-- The operand ranges at their ends (R146): station 126 and slot 63 are in, station 127, port 4 and slot 64 are out. -/
theorem witness_InRange : InRange .pin #v[3#16, 126#16, 0#16, 0#16] ∧ ¬ InRange .pin #v[3#16, 127#16, 0#16, 0#16] ∧
    ¬ InRange .purge #v[4#16, 0#16, 0#16, 0#16] ∧ InRange .next #v[0#16, 0#16, 0#16, 63#16] ∧
    ¬ InRange .next #v[0#16, 0#16, 0#16, 64#16] ∧ InRange .take ready.cmd.operands := by
  refine ⟨(inRange_iff _ _).2 (by decide +kernel), fun h => ?_, fun h => ?_, (inRange_iff _ _).2 (by decide +kernel),
    fun h => ?_, trivial⟩
  all_goals exact absurd ((inRange_iff _ _).1 h) (by decide +kernel)

/-- The command for the key is next. -/
def commandNext (code : CommandCode) (s : State) : Bool :=
  let t := commanding code keyOperands 0 s;
  t.nextClaimant == some .command && t.cmd.inFlight.isSome

theorem witness_keyOperands : Names keyOperands key ∧ keyOperands[0].toNat % 8 ≤ 3 := by unfold Names; decide +kernel

theorem witness_LookupAndReserve :
    (∀ c ∈ [CommandCode.lookup, .reserve], ∀ s ∈ [hunting, holding (gathered .done), fullSet .done], commandNext c s = true) ∧
    (holding (gathered .done)).lookup key = some 8 ∧ hunting.lookup key = none ∧ (fullSet .done).lookup key = none ∧
    (∀ i, setOfSlot i = setOf key → ((fullSet .done).ctx i).state ≠ .free) ∧
    setOfSlot 8 = setOf key ∧ (hunting.ctx 8).state = .free ∧
    ∀ j, setOfSlot j = setOf key → (hunting.ctx j).state = .free → 8 ≤ j := by decide +kernel

theorem witness_PinAndCancel :
    (∀ c ∈ [CommandCode.pin, .unpin, .cancel],
      ∀ s ∈ [hunting, holding (gathered .collecting), holding (gathered .draining)], commandNext c s = true) ∧
    hunting.lookup key = none ∧ (holding (gathered .draining)).lookup key = some 8 ∧
    ((holding (gathered .draining)).ctx 8).state = .draining ∧ (holding (gathered .collecting)).lookup key = some 8 ∧
    ((holding (gathered .collecting)).ctx 8).unfinished = true ∧
    ((holding (gathered .collecting)).ctx 8).key = some key := by decide +kernel

theorem witness_ForgetEntries : commandNext .forget recent = true ∧ commandNext .forget hunting = true ∧
    key.port.val = keyOperands[0].toNat % 8 ∧ keyOperands[0].getLsbD 10 = false ∧ (0x0401#16).getLsbD 10 = true ∧
    (0x0401#16).toNat % 8 = key.port.val ∧
    (recent.port 1).recent = [] ++ { station := 9#8, tag := 4#8, count := 64 } :: [] ∧
    (∀ x ∈ (hunting.port 1).recent, ¬ (x.station = key.station ∧ x.tag = key.tag)) := by decide +kernel

/-- A success entry for the key's DONE record of three bytes. -/
def reported : State :=
  let s := holding { gathered .done with count := some 1, frags := [{ index := 0, length := 3, segs := [9] }] };
  { s with reports := [successEntry 8 key (s.ctx 8), refusalEntry key] }

theorem witness_TakeReport :
    (∀ s ∈ [hunting, reported, { reported with reports := reported.reports.drop 1 }], commandNext .take s = true) ∧
    hunting.reports = [] ∧ (reported.reports.head?.map (·.slot)) = some (some 8) ∧
    (reported.reports.head?.map (·.length)) = some (some 3) ∧ reported.drain.bound = none ∧
    ((reported.reports.drop 1).head?.map (·.slot)) = some none ∧ draining.drain.bound ≠ none := by decide +kernel

theorem witness_ReleaseRecord : commandNext .release hunting = true ∧ hunting.drain.bound = none ∧
    commandNext .release draining = true ∧ draining.drain.bound = some 8 ∧ (draining.ctx 8).state = .draining ∧
    (draining.ctx 8).key = some key ∧ (draining.ctx 8).count = some 1 := by decide +kernel

theorem witness_WalkVisits :
    (let s := holding (gathered .collecting);
      commandNext .next s = true ∧ commandNext .purge s = true ∧ (s.ctx 8).state ≠ .free ∧ (s.ctx 8).key = some key ∧
        (s.ctx 7).state = .free ∧ (s.ctx 63).state = .free ∧ key.port.val = keyOperands[0].toNat % 8 ∧
        (s.ctx 8).unfinished = true ∧ (s.ctx 8).pinned = false) ∧
    (let s := hunting.setCtx 63 (gathered .expecting);
      commandNext .purge s = true ∧ (s.ctx 63).key = some key ∧ (s.ctx 63).unfinished = true) ∧
    ((holding (gathered .done)).ctx 8).unfinished = false := by decide +kernel

/-! ### A state that keeps every law -/

/-- Port 1 in HUNT with the key's context COLLECTING in slot 8, its segment 9 written, its countdowns running, and another key in
the recent-completion list; a tick waits. -/
def lawful : State :=
  { ((holding (gathered .collecting)).modifyPort 1 fun q =>
      { q with recent := [{ station := 5#8, tag := 5#8, count := 3 }] }).setTimers 8
        { repair := some 50, repairMark := false, life := some 2000, lifeMark := false } with
    pool := { freeList := (List.finRange 1024).take 9 ++ (List.finRange 1024).drop 10, backlog := [], low := 64#11 }
    mem := writeSegment [1#8, 2#8, 3#8] 0 9 []
    pending := [.tick] }

theorem lawful_only (i : Slot) (h : (lawful.ctx i).state ≠ .free) : i = 8 := by
  revert i; decide +kernel

theorem lawful_ctx : lawful.ctx 8 = gathered .collecting := by decide +kernel

theorem lawful_free (i : Slot) (h : i ≠ 8) : lawful.ctx i = Context.freed := by
  revert i; decide +kernel

theorem lawful_service : lawful.table.service = none := by decide +kernel

theorem lawful_counters : CounterLaw lawful where
  ports := fun p c => by revert p; cases c <;> decide +kernel
  unreported := by decide +kernel

theorem lawful_ports : PortsLaw lawful := by
  have h : ∀ p, ((lawful.port p).enable = true ↔ (lawful.port p).rx.state = .hunt ∨ (lawful.port p).rx.state = .receiving) ∧
      ((lawful.port p).rx.state = .off → (lawful.port p).replies = []) ∧
      ((lawful.port p).rx.state = .off → (lawful.port p).rx.char = .between none) ∧
      ((lawful.port p).rx.state = .off ∨ (lawful.port p).rx.state = .hunt → (lawful.port p).rx.timer = .stopped) ∧
      (lawful.port p).replies.length ≤ 8 ∧ (lawful.port p).staging = [] := by decide +kernel
  intro p
  obtain ⟨h1, h2, h3, h4, h5, h6⟩ := h p
  exact ⟨h1, h2, h3, h4, h5, by rw [h6]; exact ⟨by decide, by decide, by simp⟩⟩

theorem lawful_frames : FrameLaw lawful := by
  have h : ∀ p, (lawful.port p).rx.state ≠ .receiving ∧ (lawful.port p).rx.state ≠ .stopping ∧ (lawful.port p).staging = [] := by
    decide +kernel
  intro p
  refine ⟨fun hr => ?_, by simp [(h p).2.2]⟩
  rcases hr with hr | hr
  · exact absurd hr (h p).1
  · exact absurd hr (h p).2.1

theorem lawful_table : TableLaw lawful where
  free := by decide +kernel
  key := by decide +kernel
  sums := by decide +kernel
  held := by decide +kernel
  places := by
    have h : heldSegments lawful = [9] := by decide +kernel
    show (lawful.pool.freeList ++ [] ++ heldSegments lawful).Perm (List.finRange 1024)
    rw [h, List.append_nil]
    have e : List.finRange 1024 = (List.finRange 1024).take 9 ++ ([9] ++ (List.finRange 1024).drop 10) := by decide +kernel
    rw [e]
    show ((List.finRange 1024).take 9 ++ (List.finRange 1024).drop 10 ++ [9]).Perm _
    rw [List.append_assoc]
    exact List.Perm.append_left _ List.perm_append_comm
  service := fun st h => by rw [lawful_service] at h; cases h
  reportSlots := by decide +kernel
  reports := by decide +kernel
  reportKinds := by decide +kernel
  drain := by decide +kernel
  quiet := fun h => absurd h (by decide +kernel)

theorem lawful_order : OrderLaw lawful := by unfold OrderLaw; decide +kernel

theorem lawful_keys : KeyLaw lawful where
  inSet := fun i k h hk => by
    cases lawful_only i h
    rw [lawful_ctx] at hk; cases hk; decide
  unique := fun i j hi hj _ => (lawful_only i hi).trans (lawful_only j hj).symm

theorem lawful_timers : TimerLaw lawful where
  states := by decide +kernel
  marked := fun i k => by cases k <;> revert i <;> decide +kernel
  range := fun i k v h => by
    have hall : ∀ j, ((lawful.timers j).repair.all fun v => decide (1 ≤ v) && decide (v ≤ 65535)) = true ∧
        ((lawful.timers j).life.all fun v => decide (1 ≤ v) && decide (v ≤ 65535)) = true := by decide +kernel
    have hr := (hall i).1
    have hl := (hall i).2
    cases k
    · change (lawful.timers i).repair = some v at h; rw [h] at hr; simpa using hr
    · change (lawful.timers i).life = some v at h; rw [h] at hl; simpa using hl
  presented := fun i k => by cases k <;> revert i <;> decide +kernel

theorem lawful_recent : RecentLaw lawful where
  length := by decide +kernel
  distinct := by decide +kernel
  apart := fun i k h hk => by
    cases lawful_only i h
    rw [lawful_ctx] at hk; cases hk; decide +kernel

theorem lawful_queue : QueueLaw lawful := by unfold QueueLaw; decide +kernel

theorem lawful_registers : RegisterLaw lawful where
  rate := by decide +kernel
  quota := by decide +kernel
  reclimit := by decide +kernel
  low := by decide +kernel
  timebase := by decide +kernel
  period := fun d h => by
    have hd : lawful.timer.divider = some 24064 := by decide +kernel
    rw [hd] at h; cases h; decide
  command := fun f h => by
    have hf : lawful.cmd.inFlight = none := by decide +kernel
    rw [hf] at h; cases h

theorem lawful_record : RecordLaw lawful where
  contexts := fun i => by
    by_cases h : i = 8
    · rw [h, lawful_ctx]
      refine ⟨by decide, by decide, by decide, by decide, fun n h => (by cases h), fun h => (by cases h), by decide, by decide⟩
    · rw [lawful_free i h]
      refine ⟨by decide, by decide, by decide, by decide, fun n h => (by cases h), fun _ => ⟨rfl, rfl, rfl⟩, by decide, by decide⟩
  empty := fun i => by
    by_cases h : i = 8
    · rw [h, lawful_ctx]
      have hs : lawful.table.service = none := by decide +kernel
      simp [gathered, hs]
    · rw [lawful_free i h]; simp [Context.freed]
  store := fun st h => by rw [lawful_service] at h; cases h

theorem lawful_drain : DrainLaw lawful where
  stored := fun i g hg => by
    have hi : i = 8 := by by_contra h; rw [lawful_free i h] at hg; exact absurd hg (by simp [Context.freed, contextSegs])
    rw [hi, lawful_ctx] at hg
    have hg9 : g = 9 := by simpa [gathered, contextSegs] using hg
    rw [hg9]; unfold written; decide +kernel
  passed := fun st h => by rw [lawful_service] at h; cases h
  length := fun i h => by
    have hb : lawful.drain.bound = none := by decide +kernel
    rw [hb] at h; cases h
  entries := fun e he => by
    have hr : lawful.reports = [] := by decide +kernel
    rw [hr] at he; cases he
  unbound := by decide +kernel
  even := by decide +kernel
  heldEven := fun h hh => by
    have hd : lawful.drain.held = none := by decide +kernel
    rw [hd] at hh; cases hh

/-- Every law holds of it together, and its tick is a step. -/
theorem witness_laws : CounterLaw lawful ∧ RegisterLaw lawful ∧ Memory.wf lawful.mem = true ∧ PortsLaw lawful ∧
    FrameLaw lawful ∧ TableLaw lawful ∧ OrderLaw lawful ∧ KeyLaw lawful ∧ RecentLaw lawful ∧ QueueLaw lawful ∧
    TimerLaw lawful ∧ RecordLaw lawful ∧ DrainLaw lawful ∧ next (step lawful) (fun t => (t.timers 8).repair == some 49) = true :=
  ⟨lawful_counters, lawful_registers, by decide +kernel, lawful_ports, lawful_frames, lawful_table, lawful_order, lawful_keys,
    lawful_recent, lawful_queue, lawful_timers, lawful_record, lawful_drain, by decide +kernel⟩

/-- The premises of the conservation of segments and of the lookup hold of it. -/
theorem witness_SegmentsConserved : TableLaw lawful ∧ lawful.host.phase = .ready ∧ lawful.table.service = none ∧
    KeyLaw lawful := ⟨lawful_table, by decide +kernel, by decide +kernel, lawful_keys⟩

/-- The walk with its first step made. -/
def walking : State :=
  { State.reset with
    pool := { State.reset.pool with freeList := [0] }
    host := { State.reset.host with phase := .walking 1 } }

theorem walking_record : RecordLaw walking where
  contexts := fun i => by
    have h : walking.ctx i = Context.freed := by revert i; decide +kernel
    rw [h]
    refine ⟨by decide, by decide, by decide, by decide, fun n h => (by cases h), fun _ => ⟨rfl, rfl, rfl⟩, by decide, by decide⟩
  empty := fun i => by
    have h : walking.ctx i = Context.freed := by revert i; decide +kernel
    rw [h]; simp [Context.freed]
  store := fun st h => by
    have hs : walking.table.service = none := by decide +kernel
    rw [hs] at h; cases h

theorem walking_drain : DrainLaw walking where
  stored := fun i g hg => by
    have h : ∀ j, contextSegs (walking.ctx j) = [] := by decide +kernel
    rw [h] at hg; cases hg
  passed := fun st h => by
    have hs : walking.table.service = none := by decide +kernel
    rw [hs] at h; cases h
  length := fun i h => by
    have hb : walking.drain.bound = none := by decide +kernel
    rw [hb] at h; cases h
  entries := fun e he => by
    have hr : walking.reports = [] := by decide +kernel
    rw [hr] at he; cases he
  unbound := by decide +kernel
  even := by decide +kernel
  heldEven := fun h hh => by
    have hd : walking.drain.held = none := by decide +kernel
    rw [hd] at hh; cases hh

theorem witness_walking : DrainLaw walking ∧ TableLaw walking ∧ RecordLaw walking ∧ walking.initialising = true ∧ walking.drain.held = none := by
  have hs : walking.table.service = none := by decide +kernel
  refine ⟨walking_drain, ⟨by decide +kernel, by decide +kernel, by decide +kernel, by decide +kernel, ?_, fun st h => ?_,
    by decide +kernel, by decide +kernel, by decide +kernel, by decide +kernel, fun _ => ?_⟩, walking_record, by decide +kernel, by decide +kernel⟩
  · show walking.pool.freeList = (List.finRange 1024).take 1 ∧ walking.pool.backlog = [] ∧ heldSegments walking = []
    decide +kernel
  · rw [hs] at h; cases h
  · exact ⟨by decide +kernel, by decide +kernel, by decide +kernel, by decide +kernel, hs⟩

end Sys2Proof.Tests
end

