-- ==== Sys2Proof/Proofs/States.lean ====
section
/-! SUPPORT. Equality of states, repeated changes of one port, and the relation `PortBecomes` for the operations that change
ports. -/

namespace Sys2Proof.Machine

open Sys2Proof.Safety

/-- Two states are equal when their parts are. -/
theorem state_eq {s t : State} (ports : s.ports = t.ports) (table : s.table = t.table) (pool : s.pool = t.pool)
    (mem : s.mem = t.mem) (timer : s.timer = t.timer) (reports : s.reports = t.reports) (drain : s.drain = t.drain)
    (cmd : s.cmd = t.cmd) (stats : s.stats = t.stats) (host : s.host = t.host) (free : s.free = t.free)
    (pending : s.pending = t.pending) : s = t := by
  cases s; cases t; simp_all

/-- Two changes of one port are one change. -/
theorem modifyPort_modifyPort (s : State) (p : PortId) (f g : Port → Port) :
    (s.modifyPort p f).modifyPort p g = s.modifyPort p fun q => g (f q) := by
  simp [State.modifyPort]

theorem portBecomes_modifyPort (s : State) (p : PortId) (f : Port → Port) : PortBecomes s (s.modifyPort p f) p f :=
  ⟨by rw [modifyPort_port_same], fun q hq => by rw [modifyPort_port_ne _ _ _ _ hq]⟩

/-- Counts made after a change of a port leave what it became. -/
theorem portBecomes_counted {s t u : State} {p : PortId} {f : Port → Port} (h : PortBecomes s t p f)
    (hu : ∀ q, uncounted (u.port q) = uncounted (t.port q)) : PortBecomes s u p f :=
  ⟨(hu p).trans h.1, fun q hq => (hu q).trans (h.2 q hq)⟩

/-- What a port became by a chain of changes, where the later one does not look at the counters. -/
theorem portBecomes_trans {s t u : State} {p : PortId} {f g : Port → Port} (h : PortBecomes s t p f)
    (h' : PortBecomes t u p g) (hg : ∀ q q', uncounted q = uncounted q' → uncounted (g q) = uncounted (g q')) :
    PortBecomes s u p fun q => g (f q) :=
  ⟨h'.1.trans (hg _ _ h.1), fun q hq => (h'.2 q hq).trans (h.2 q hq)⟩

end Sys2Proof.Machine
end

