-- ==== Sys2Proof/Proofs/Reset.lean ====
section
/-! SUPPORT. The state right after hardware reset, part by part, with the statements about it (LawsHoldAtReset,
RegistersAfterReset), and the soft reset. -/

namespace Sys2Proof.Machine

open Sys2Proof.Safety

/-! ### The parts of the reset state -/

@[simp] theorem reset_port (p : PortId) : State.reset.port p = Port.reset := by
  simp [State.port, State.reset, State.held]

@[simp] theorem reset_ctx (i : Slot) : State.reset.ctx i = Context.freed := by
  simp [State.ctx, State.reset, State.held, Table.reset]

@[simp] theorem reset_order (u : SetId) : State.reset.order u = [] := by
  simp [State.order, State.reset, State.held, Table.reset]

@[simp] theorem reset_timers (i : Slot) : State.reset.timers i = SlotTimers.cleared := by
  simp [State.timers, State.reset, State.held]

@[simp] theorem reset_service : State.reset.table.service = none := rfl

@[simp] theorem reset_reports : State.reset.reports = [] := rfl

@[simp] theorem reset_bound : State.reset.drain.bound = none := rfl

@[simp] theorem reset_inFlight : State.reset.cmd.inFlight = none := rfl

/-! ### The laws at reset -/

/-- Where no context holds a segment and no claim is in service, no segment is held (R75). -/
theorem heldSegments_eq_nil {s : State} (hc : ∀ i, contextSegs (s.ctx i) = []) (hs : s.table.service = none) :
    heldSegments s = [] := by
  simp only [heldSegments, hs, List.append_nil, List.flatMap_eq_nil_iff, Vector.mem_toList_iff]
  intro c hc'
  obtain ⟨i, hi, rfl⟩ := Vector.getElem_of_mem hc'
  exact hc ⟨i, hi⟩

/-- Where no context holds a segment and no claim is in service, no port holds one (R80). -/
theorem heldOn_eq_zero {s : State} (hc : ∀ i, (s.ctx i).heldSegs = 0) (hs : s.table.service = none) (p : PortId) :
    heldOn s p = 0 := by
  simp only [heldOn, hs, Nat.add_zero]
  refine List.sum_eq_zero fun x hx => ?_
  obtain ⟨i, _, rfl⟩ := List.mem_map.mp hx
  split <;> simp [hc]

theorem counterLaw_reset : CounterLaw State.reset where
  ports p c := by simp [State.counter, State.limitFlag, Port.reset]
  unreported := by decide

theorem registerLaw_reset : RegisterLaw State.reset where
  rate p := by simp [Port.reset]
  quota p := by simp [Port.reset]
  reclimit p := by simp [Port.reset]
  low := by decide
  timebase _ := by decide
  period d h := by cases h; decide
  command f h := by cases h

theorem portLaw_reset : PortLaw Port.reset where
  enable := by decide
  offQueue _ := rfl
  offChar _ := rfl
  timer _ := rfl
  queue := by decide
  staging := ⟨by decide, by decide, by simp [Port.reset]⟩

theorem frameLaw_reset : FrameLaw State.reset := fun p => by
  rw [reset_port]
  exact ⟨by simp [assemblyOk, Port.reset, Receiver.noFrame], by simp [Port.reset]⟩

theorem tableLaw_reset : TableLaw State.reset where
  free i _ := reset_ctx i
  key i h := by simp [Context.freed] at h
  sums i := by simp [Context.freed, contextSegs]
  held p := by rw [reset_port, heldOn_eq_zero (by simp [Context.freed]) rfl]; rfl
  places := ⟨rfl, rfl, heldSegments_eq_nil (by simp [Context.freed, contextSegs]) rfl⟩
  service st h := by cases h
  reportSlots := List.nodup_nil
  reports i := by simp [Context.freed, successSlots]
  reportKinds e h := by cases h
  drain i := by simp [Context.freed]
  quiet _ := ⟨fun p => by rw [reset_port]; exact ⟨rfl, rfl⟩, reset_timers, rfl, rfl, rfl⟩

theorem orderLaw_reset : OrderLaw State.reset := fun u => by simp [Context.freed]

theorem keyLaw_reset : KeyLaw State.reset where
  inSet i k h := by simp [Context.freed] at h
  unique i j h := by simp [Context.freed] at h

theorem timerLaw_reset : TimerLaw State.reset where
  states i _ := reset_timers i
  marked i k h := by cases k <;> simp [SlotTimers.mark, SlotTimers.cleared] at h
  range i k v h := by cases k <;> simp [SlotTimers.value, SlotTimers.cleared] at h
  presented i k h := by cases k <;> simp [SlotTimers.mark, SlotTimers.cleared] at h

theorem recentLaw_reset : RecentLaw State.reset where
  length p := by simp [Port.reset]
  distinct p := by simp [Port.reset]
  apart i k h := by simp [Context.freed] at h

/-- A FREE context keeps the law of context records. -/
theorem contextLaw_freed : ContextLaw Context.freed where
  increasing := .nil
  entries e h := by cases h
  bytes := rfl
  highest := rfl
  count n h := by cases h
  known _ := ⟨rfl, rfl, rfl⟩
  attempts := by decide
  complete := by decide

theorem recordLaw_reset : RecordLaw State.reset where
  contexts i := by rw [reset_ctx]; exact contextLaw_freed
  empty i := by simp [Context.freed]
  store st h := by cases h

theorem drainLaw_reset : DrainLaw State.reset where
  stored i g h := by simp [Context.freed, contextSegs] at h
  passed st h := by cases h
  length i h := by cases h
  entries e h := by cases h
  unbound _ := ⟨rfl, rfl⟩
  even := rfl
  heldEven h hh := by cases hh

/-- Settles O2. -/
theorem lawsHoldAtReset : Obligations.LawsHoldAtReset :=
  ⟨counterLaw_reset, registerLaw_reset, fun p => by rw [reset_port]; exact portLaw_reset, frameLaw_reset, wf_reset,
    tableLaw_reset, orderLaw_reset, keyLaw_reset, timerLaw_reset, recentLaw_reset, ⟨by decide, by decide⟩, recordLaw_reset,
    drainLaw_reset⟩

/-! ### The registers after reset -/

/-- Settles O3: a closed fact, one read for each register of Table 10-1 and each port. -/
theorem registersAfterReset : Obligations.RegistersAfterReset := by
  unfold Obligations.RegistersAfterReset
  constructor <;> decide

/-! ### The soft reset -/

theorem softReset_port (s : State) (p : PortId) : (softResetState s).port p = (s.port p).softReset := by
  show (s.ports.map Port.softReset)[p.val] = _
  rw [Vector.getElem_map, ports_getElem]

/-- A write of 0 to SOFT_RESET has no effect (R183). -/
theorem writeCtrl_zero (v : Word) (s : State) (h : v.getLsbD 0 = false) : writeCtrl v s = s :=
  if_neg (by rw [h]; decide)

/-- Settles O5: every part of the state is read off `softResetState`. -/
theorem softReset : Obligations.SoftReset := by
  refine ⟨fun v s hb hv => ⟨softResetState s, ?_, fun p => softReset_port s p, fun i => ⟨?_, ?_⟩, fun u => ?_,
    rfl, rfl, rfl, rfl, rfl, rfl, rfl, rfl, rfl, rfl, rfl, rfl, rfl, rfl, rfl, rfl⟩, fun v s hv => ?_⟩
  · show Host.Outcome.next (if s.busFree then writeCtrl v s else s) = _
    rw [if_pos hb, writeCtrl, if_pos hv]
  · simp [State.ctx, softResetState, Table.reset]
  · simp [State.timers, softResetState]
  · simp [State.order, softResetState, Table.reset]
  · show Host.Outcome.next (if s.busFree then writeCtrl v s else s) = _
    rw [writeCtrl_zero v s hv, ite_self]

end Sys2Proof.Machine
end

