-- ==== Sys2Proof/Proofs/Receiver.lean ====
section
/-! SUPPORT. The receivers: what a completed character does in each state and position (CharactersTaken), and the three ways
in which a frame is dropped (FrameDropped) or completed (FrameCompletion). -/

namespace Sys2Proof.Machine

open Sys2Proof.Safety

variable {s : State} {p : PortId}

/-! ### A good character, by the receiver's state and position (R9 to R13) -/

theorem takeGood_sync (h : (s.port p).rx.state = .hunt) : takeGood p 0xC3#8 s =
    setRx p { Receiver.noFrame .receiving (.between (some true)) with timer := .running } s := by
  simp only [takeGood, h, if_true]

theorem takeGood_skipped {v : Byte} (h : (s.port p).rx.state = .hunt) (hv : v ≠ 0xC3#8) :
    takeGood p v s = setRx p { (s.port p).rx with char := .between (some true) } s := by
  simp only [takeGood, h, if_neg hv]

/-- A frame is in flight: the receiver is RECEIVING or STOPPING (R9, R20). -/
abbrev Receiver.inFrame (r : Receiver) : Prop := r.state = .receiving ∨ r.state = .stopping

theorem validLen_iff (v : Byte) : validLen v = true ↔ 5 ≤ v.toNat ∧ v.toNat ≤ 101 := by
  rw [validLen, Bool.and_eq_true, decide_eq_true_iff, decide_eq_true_iff]

theorem takeGood_len {v : Byte} (h : (s.port p).rx.inFrame) (hp : (s.port p).rx.position = .awaitingLen)
    (hv : validLen v = true) : takeGood p v s = setRx p { (s.port p).rx with
      len := v.toNat, position := .bodyByte, crc := crcByte (s.port p).rx.crc v, timer := .running
      char := .between (some true) } s := by
  rcases h with h | h <;> simp only [takeGood, h, hp, if_pos hv]

theorem takeGood_badLen {v : Byte} (h : (s.port p).rx.inFrame) (hp : (s.port p).rx.position = .awaitingLen)
    (hv : ¬ validLen v = true) : takeGood p v s = dropFrame p (.between (some true)) s := by
  rcases h with h | h <;> simp only [takeGood, h, hp, if_neg hv]

/-- Where a frame stands once its body holds `body`: at the CRC when the body is whole (R11). -/
def bodyPosition (body : List Byte) (len : Nat) : FramePosition :=
  if body.length = len then .crcLow else .bodyByte

theorem takeGood_body {v : Byte} (h : (s.port p).rx.inFrame) (hp : (s.port p).rx.position = .bodyByte) :
    takeGood p v s = setRx p { (s.port p).rx with
      body := (s.port p).rx.body ++ [v], position := bodyPosition ((s.port p).rx.body ++ [v]) (s.port p).rx.len
      crc := crcByte (s.port p).rx.crc v, timer := .running, char := .between (some true) } s := by
  rcases h with h | h <;> simp only [takeGood, h, hp, bodyPosition]

theorem takeGood_crcLow {v : Byte} (h : (s.port p).rx.inFrame) (hp : (s.port p).rx.position = .crcLow) :
    takeGood p v s = setRx p { (s.port p).rx with
      crcLow := v, position := .crcHigh, timer := .running, char := .between (some true) } s := by
  rcases h with h | h <;> simp only [takeGood, h, hp]

theorem takeGood_crcHigh {v : Byte} (h : (s.port p).rx.inFrame) (hp : (s.port p).rx.position = .crcHigh) :
    takeGood p v s = endFrame p (.between (some true)) (judgeFrame p v s) := by
  rcases h with h | h <;> simp only [takeGood, h, hp]

theorem takeBad_hunt (h : (s.port p).rx.state = .hunt) :
    takeBad p s = setRx p { (s.port p).rx with char := .between (some false) } s := by
  simp only [takeBad, h]

theorem takeBad_inFrame (h : (s.port p).rx.inFrame) : takeBad p s = dropFrame p (.between (some false)) s := by
  rcases h with h | h <;> simp only [takeBad, h]

/-- In OFF no character does anything (R8). -/
theorem takeCharacter_off (c : Character) (h : (s.port p).rx.state = .off) : takeCharacter p c s = s := by
  unfold takeCharacter
  split
  · simp only [takeGood, h]
  · simp only [takeBad, h]
  · rfl

/-- Every row of a completed character is that character (log 13). -/
theorem exec_characterRow {v : Byte} {c : Instr} (h : c ∈ characterRows p v) (s : State) :
    ∃ ch, exec c s = .next (takeCharacter p ch s) := by
  simp only [characterRows, List.mem_cons, List.not_mem_nil, or_false] at h
  rcases h with rfl | rfl | rfl | rfl | rfl | rfl | rfl
  all_goals exact ⟨_, rfl⟩

/-! ### Start edges and start checks (R2) -/

theorem exec_startEdge_between {level : Option Bool} (samples : List Bool) (h : (s.port p).rx.state ≠ .off)
    (hc : (s.port p).rx.char = .between level) : exec (.startEdge ⟨p, samples⟩) s =
      .next (setRx p { (s.port p).rx with char := findEdge level samples } s) :=
  congrArg Host.Outcome.next (sampleLine_between samples h hc)

theorem exec_startCheck_edge (level : Bool) (h : (s.port p).rx.state ≠ .off) (hc : (s.port p).rx.char = .edgeSeen) :
    exec (.startCheck p level) s = .next (setRx p (checkStart (s.port p).rx level) s) :=
  congrArg Host.Outcome.next (if_pos ⟨h, hc⟩)

/-- In OFF nothing is sampled, checked or timed (R8). -/
theorem exec_line_off (samples : List Bool) (level : Bool) (h : (s.port p).rx.state = .off) :
    exec (.startEdge ⟨p, samples⟩) s = .next s ∧ exec (.startCheck p level) s = .next s ∧
      exec (.characterTimeout p) s = .next s := by
  refine ⟨congrArg Host.Outcome.next ?_, congrArg Host.Outcome.next (if_neg fun h' => h'.1 h),
    congrArg Host.Outcome.next (if_neg fun h' => ?_)⟩
  · simp only [sampleLine, h]
  · rw [h] at h'
    exact h'.1.elim nofun nofun

/-- Settles O7, clause by clause: the edge, the check, HUNT, the positions of a frame, no confirmed start bit, OFF. -/
theorem charactersTaken : Obligations.CharactersTaken := by
  refine ⟨fun p s level samples h hc => ⟨fun he => ?_, fun he => ?_⟩, fun p s h hc => ⟨?_, ?_⟩,
    fun p s h hc => ⟨?_, fun v hv => ?_, ?_⟩, fun p s v h hc => ⟨fun hp h5 h101 => ?_, fun hp => ?_, fun hp => ?_⟩,
    fun p s v h c hc => ?_, fun p s v samples level h c hc => ?_⟩
  · rw [exec_startEdge_between samples h hc, findEdge_edge level samples he]; rfl
  · rw [exec_startEdge_between samples h hc, findEdge_between level samples he]; rfl
  · rw [exec_startCheck_edge true h hc]; rfl
  · rw [exec_startCheck_edge false h hc]; rfl
  · exact congrArg Host.Outcome.next ((takeCharacter_good _ hc).trans (takeGood_sync h))
  · exact congrArg Host.Outcome.next ((takeCharacter_good v hc).trans (takeGood_skipped h hv))
  · exact congrArg Host.Outcome.next ((takeCharacter_bad hc).trans (takeBad_hunt h))
  · exact congrArg Host.Outcome.next
      ((takeCharacter_good v hc).trans (takeGood_len h hp ((validLen_iff v).2 ⟨h5, h101⟩)))
  · have e := (takeCharacter_good v hc).trans (takeGood_body (v := v) h hp)
    simp only [bodyPosition, List.length_append, List.length_singleton] at e
    exact congrArg Host.Outcome.next e
  · exact congrArg Host.Outcome.next ((takeCharacter_good v hc).trans (takeGood_crcLow h hp))
  · obtain ⟨ch, e⟩ := exec_characterRow hc s
    rw [e, takeCharacter_none ch h]
  · obtain ⟨hedge, hcheck, htimeout⟩ := exec_line_off samples level h
    simp only [List.mem_cons] at hc
    rcases hc with rfl | rfl | rfl | hc
    · exact hedge
    · exact hcheck
    · exact htimeout
    · obtain ⟨ch, e⟩ := exec_characterRow hc s
      rw [e, takeCharacter_off ch h]

/-! ### Frames dropped (R10, R12) -/

/-- The frame ends, with these counts before its end and nothing staged. -/
theorem frameEnds_counted {u : State} {l : List (PortId × Counter)} (ha : Accounts s u l 0 [])
    (hp : ∀ q, uncounted (u.port q) = uncounted (s.port q))
    (hr : u = { s with ports := u.ports, stats := u.stats, free := u.free }) (ch : CharPhase) :
    FrameEnds s (endFrame p ch u) p l ch (s.port p).staging :=
  frameEnds_after ha hp hr (endFrame_frameEnds u p ch)

theorem dropFrame_frameEnds (s : State) (p : PortId) (ch : CharPhase) :
    FrameEnds s (dropFrame p ch s) p [(p, .framesBad)] ch (s.port p).staging :=
  frameEnds_counted (accounts_count s p .framesBad) (by simp) (by apply same_rest <;> simp) ch

/-- Settles O8: each of the three is `dropFrame`. -/
theorem frameDropped : Obligations.FrameDropped := by
  refine fun p s h => ⟨fun v hc hp hv => ⟨_, rfl, ?_⟩, fun hc => ⟨_, rfl, ?_⟩, fun ht => ⟨_, rfl, ?_⟩, fun ht => ?_⟩
  · have hbad : ¬ validLen v = true := by rw [validLen_iff]; omega
    rw [takeCharacter_good v hc, takeGood_badLen h hp hbad]
    exact dropFrame_frameEnds s p _
  · rw [takeCharacter_bad hc, takeBad_inFrame h]
    exact dropFrame_frameEnds s p _
  · rw [if_pos ⟨h, ht⟩]
    exact dropFrame_frameEnds s p _
  · exact congrArg Host.Outcome.next (if_neg fun h' => ht h'.2)

/-! ### Frames completed (R13 to R15) -/

theorem judgeFrame_badCrc {v : Byte} (h : v ++ (s.port p).rx.crcLow ≠ (s.port p).rx.crc) :
    judgeFrame p v s = count p .framesBad s := if_pos h

theorem judgeFrame_overrun {v : Byte} (h : v ++ (s.port p).rx.crcLow = (s.port p).rx.crc)
    (hs : 2 ≤ (s.port p).staging.length) :
    judgeFrame p v s = count p .framesBad (count p .framesGood s) :=
  (if_neg (not_not_intro h)).trans (if_pos hs)

theorem judgeFrame_ignored {v : Byte} (h : v ++ (s.port p).rx.crcLow = (s.port p).rx.crc)
    (hs : (s.port p).staging.length < 2) (hi : ignored (s.port p).addr (s.port p).rx.len (s.port p).rx.body) :
    judgeFrame p v s = count p .framesIgnored (count p .framesGood s) := by
  have hf := (ignored_iff _ _ _).1 hi
  exact (if_neg (not_not_intro h)).trans ((if_neg (by omega)).trans (if_neg (by rw [hf]; decide)))

theorem judgeFrame_staged {v : Byte} (h : v ++ (s.port p).rx.crcLow = (s.port p).rx.crc)
    (hs : (s.port p).staging.length < 2) (hi : ¬ ignored (s.port p).addr (s.port p).rx.len (s.port p).rx.body) :
    judgeFrame p v s = stageFrame p (count p .framesGood s) := by
  rw [ignored_iff, Bool.not_eq_false] at hi
  exact (if_neg (not_not_intro h)).trans ((if_neg (by omega)).trans (if_pos hi))

/-- The buffer that takes a frame is FREE (R15). -/
theorem freeBuffer_free (hs : (s.port p).staging.length < 2) : ∀ f ∈ (s.port p).staging, f.bufferB ≠ s.freeBuffer p := by
  intro f hf
  unfold State.freeBuffer
  match h : (s.port p).staging with
  | [] => simp [h] at hf
  | [g] => simp only [h, List.mem_singleton] at hf; subst hf; simp
  | _ :: _ :: _ => rw [h] at hs; simp only [List.length_cons] at hs; omega

/-- The frame as it is staged, with the buffer that takes it (R15). -/
def assembled (s : State) (p : PortId) : StagedFrame :=
  { bufferB := s.freeBuffer p, inService := false, len := (s.port p).rx.len, body := (s.port p).rx.body }

theorem stageFrame_port (s : State) (p q : PortId) : (stageFrame p s).port q =
    if q = p then { s.port p with staging := (s.port p).staging ++ [assembled s p] } else s.port q :=
  modifyPort_port s p q fun x => { x with staging := x.staging ++ [assembled s p] }

theorem accounts_stageFrame (s : State) (p : PortId) : Accounts s (stageFrame p s) [] 0 [] :=
  .same (fun q => by rw [stageFrame_port]; split <;> simp [*]) rfl

theorem stageFrame_rest (s : State) (p : PortId) :
    stageFrame p s = { s with ports := (stageFrame p s).ports, free := (stageFrame p s).free } := rfl

/-- A frame that ends after counts and a change of its port's staging buffers. -/
theorem frameEnds_staged {s u t : State} {p : PortId} {l : List (PortId × Counter)} {ch : CharPhase}
    {staging : List StagedFrame} (ha : Accounts s u l 0 []) (hp : PortBecomes s u p fun q => { q with staging := staging })
    (hr : u = { s with ports := u.ports, stats := u.stats, free := u.free })
    (h : FrameEnds u t p [] ch (u.port p).staging) : FrameEnds s t p l ch staging := by
  obtain ⟨hpp, hpq⟩ := hp
  have hs : (u.port p).rx = (s.port p).rx ∧ (u.port p).staging = staging ∧ (u.port p).tx = (s.port p).tx ∧
      (u.port p).replies = (s.port p).replies := by
    simp only [uncounted, Port.mk.injEq] at hpp
    obtain ⟨hrx, hst, htx, hre, -⟩ := hpp
    exact ⟨hrx, hst, htx, hre⟩
  obtain ⟨hrx, hst, htx, hre⟩ := hs
  refine ⟨?_, ⟨?_, fun q hq => (h.port.2 q hq).trans (hpq q hq)⟩, ?_⟩
  · simpa [hrx, htx, hre] using ha.trans h.accounts
  · rw [h.port.1]
    dsimp only
    rw [hrx, hst]
    split <;> (simp only [uncounted, Port.mk.injEq] at hpp ⊢; simp [hpp])
  · rw [h.rest, hr]

/-- Settles O9: the four outcomes of `judgeFrame`, each followed by the end of the frame. -/
theorem frameCompletion : Obligations.FrameCompletion := by
  intro p v s h hc hp
  refine ⟨_, rfl, ?_⟩
  rw [takeCharacter_good v hc, takeGood_crcHigh h hp]
  have hgood := accounts_count s p .framesGood
  refine ⟨fun hcrc => ?_, fun hcrc hs => ?_, fun hcrc hs hi => ?_, fun hcrc hs hi => ?_⟩
  · rw [judgeFrame_badCrc hcrc]
    exact dropFrame_frameEnds s p _
  · rw [judgeFrame_overrun hcrc hs]
    exact frameEnds_counted (hgood.trans (accounts_count _ p .framesBad)) (by simp)
      (by apply same_rest <;> simp) _
  · rw [judgeFrame_ignored hcrc hs hi]
    exact frameEnds_counted (hgood.trans (accounts_count _ p .framesIgnored)) (by simp)
      (by apply same_rest <;> simp) _
  · rw [judgeFrame_staged hcrc hs hi]
    have hfree := freeBuffer_free (s := count p .framesGood s) (p := p) (by simpa using hs)
    refine ⟨_, by simpa using hfree, frameEnds_staged (hgood.trans (accounts_stageFrame _ p)) ⟨?_, fun q hq => ?_⟩ ?_
      (endFrame_frameEnds _ p _)⟩
    · have e := uncounted_count s p p .framesGood
      rw [stageFrame_port, if_pos rfl]
      simp only [uncounted, Port.mk.injEq] at e ⊢
      simp [e, assembled]
    · rw [stageFrame_port, if_neg hq, uncounted_count]
    · rw [stageFrame_rest]
      apply same_rest <;> simp

end Sys2Proof.Machine
end

