-- ==== Sys2Proof/Proofs/WholeFrame.lean ====
section
/-! SUPPORT. A whole frame, character by character: what the receiver holds after each of them, and how the frame ends
(WholeFrameReceived, TransmittedFrameHasGoodCrc). -/

namespace Sys2Proof.Machine

open Sys2Proof.Safety

/-! ### Runs of waiting commands -/

theorem core_run_succ (M : Host.Core) {s t : M.State} (n : Nat) (h : M.step s = .next t) : M.run (n + 1) s = M.run n t := by
  rw [Host.Core.run, h]

/-- A run takes the command at the front of the queue and goes on from its next state. -/
theorem run_waiting {s t : State} {c : Instr} {l : List Instr} (n : Nat) (h : exec c (waiting s l) = .next t) :
    Host.Core.run core (n + 1) (waiting s (c :: l)) = Host.Core.run core n t :=
  core_run_succ core n h

/-! ### The state in which only one receiver has moved -/

/-- State `s` with the receiver `r` on port `p` and the commands `l` waiting. -/
def onLine (s : State) (p : PortId) (r : Receiver) (l : List Instr) : State := waiting (setRx p r s) l

section
variable (s : State) (p : PortId) (r r' : Receiver) (l : List Instr)

theorem onLine_port_same : (onLine s p r l).port p = { s.port p with rx := r } :=
  modifyPort_port_same s p fun q => { q with rx := r }

theorem onLine_port_ne (q : PortId) (h : q ≠ p) : (onLine s p r l).port q = s.port q :=
  modifyPort_port_ne s p q (fun q => { q with rx := r }) h

@[simp] theorem onLine_rx : ((onLine s p r l).port p).rx = r := by rw [onLine_port_same]

theorem setRx_onLine : setRx p r' (onLine s p r l) = onLine s p r' l := by
  have hport : (setRx p r s).port p = { s.port p with rx := r } := modifyPort_port_same ..
  show ({ s with ports := (s.ports.set p.val _).set p.val { (setRx p r s).port p with rx := r' }, pending := l } : State) = _
  rw [Vector.set_set, hport]
  rfl

theorem onLine_self : onLine s p (s.port p).rx l = waiting s l := by
  show ({ s with ports := s.ports.set p.val s.ports[p.val], pending := l } : State) = _
  rw [Vector.set_getElem_self]
  rfl

end

/-! ### One character (R2) -/

/-- A receiver whose start bit is confirmed, with its character timer forestalled if it ran (R2, R12). -/
def confirmed (r : Receiver) : Receiver := checkStart { r with char := .edgeSeen } false

/-- The three rows of a character: its start edge, its start check, and the character on the confirmed receiver (R2). -/
theorem run_arrival (s : State) (p : PortId) {r : Receiver} {row : Instr} (l : List Instr) {t : State} {level : Option Bool}
    (n : Nat) (hs : r.state ≠ .off) (hc : r.char = .between level)
    (hrow : exec row (onLine s p (confirmed r) l) = .next t) :
    Host.Core.run core (n + 3) (onLine s p r (arrival p row ++ l)) = Host.Core.run core n t := by
  have hedge : exec (.startEdge ⟨p, [true, false]⟩) (onLine s p r (.startCheck p false :: row :: l)) =
      .next (onLine s p { r with char := .edgeSeen } (.startCheck p false :: row :: l)) := by
    rw [exec_startEdge_between _ (by rwa [onLine_rx]) (by rwa [onLine_rx]), onLine_rx, setRx_onLine,
      findEdge_edge _ _ ⟨level.toList, [], rfl⟩]
  have hcheck : exec (.startCheck p false) (onLine s p { r with char := .edgeSeen } (row :: l)) =
      .next (onLine s p (confirmed r) (row :: l)) := by
    rw [exec_startCheck_edge false (by rwa [onLine_rx]) (by rw [onLine_rx]), onLine_rx, setRx_onLine]
    rfl
  exact (run_waiting _ hedge).trans ((run_waiting _ hcheck).trans (run_waiting _ hrow))

/-! ### The characters of a frame (R9 to R11) -/

/-- A receiver within a frame, between two characters (R9 to R11). -/
def midFrame (position : FramePosition) (len : Nat) (body : List Byte) (crc : Word) (crcLow : Byte) : Receiver :=
  { state := .receiving, char := .between (some true), position := position, len := len, body := body, crc := crc
    crcLow := crcLow, timer := .running }

section
variable (s : State) (p : PortId) (l : List Instr) (n : Nat)

theorem exec_goodCharacter_confirmed (v : Byte) (r : Receiver) : exec (.goodCharacter p v) (onLine s p (confirmed r) l) =
    .next (takeGood p v (onLine s p (confirmed r) l)) :=
  congrArg Host.Outcome.next (takeCharacter_good v (by rw [onLine_rx]; rfl))

/-- The SYNC of a frame, into a receiver in HUNT (R9). -/
theorem run_sync {r : Receiver} {level : Option Bool} (hs : r.state = .hunt) (hc : r.char = .between level) :
    Host.Core.run core (n + 3) (onLine s p r (arrival p (.syncReceived p) ++ l)) =
      Host.Core.run core n (onLine s p (midFrame .awaitingLen 0 [] 0xFFFF#16 0#8) l) := by
  refine run_arrival s p l n (by rw [hs]; decide) hc ?_
  refine (exec_goodCharacter_confirmed s p l 0xC3#8 r).trans (congrArg Host.Outcome.next ?_)
  rw [takeGood_sync (by rw [onLine_rx]; exact hs), setRx_onLine]
  rfl

/-- The LEN of a frame (R10). -/
theorem run_len {v : Byte} (h : 5 ≤ v.toNat ∧ v.toNat ≤ 101) :
    Host.Core.run core (n + 3) (onLine s p (midFrame .awaitingLen 0 [] 0xFFFF#16 0#8) (arrival p (.goodCharacter p v) ++ l)) =
      Host.Core.run core n (onLine s p (midFrame .bodyByte v.toNat [] (crcOf [v]) 0#8) l) := by
  refine run_arrival s p l n (by decide) rfl ((exec_goodCharacter_confirmed ..).trans (congrArg Host.Outcome.next ?_))
  rw [takeGood_len (by rw [onLine_rx]; exact .inl rfl) (by rw [onLine_rx]; rfl) ((validLen_iff v).2 h), setRx_onLine, onLine_rx]
  rfl

/-- The body bytes of a frame, from those already taken (R11). -/
theorem run_body (len : Nat) (rest : List Byte) : ∀ (body : List Byte) (crc : Word), body.length + rest.length = len →
    Host.Core.run core (n + 3 * rest.length)
        (onLine s p (midFrame (bodyPosition body len) len body crc 0#8)
          ((rest.map (Instr.goodCharacter p)).flatMap (arrival p) ++ l)) =
      Host.Core.run core n (onLine s p (midFrame .crcLow len (body ++ rest) (rest.foldl crcByte crc) 0#8) l) := by
  induction rest with
  | nil =>
    intro body crc h
    have hb : bodyPosition body len = .crcLow := if_pos (by simpa using h)
    simp [hb]
  | cons v rest ih =>
    intro body crc h
    rw [List.length_cons] at h
    have hb : bodyPosition body len = .bodyByte := if_neg (by omega)
    have hnext : ∀ l, exec (.goodCharacter p v) (onLine s p (confirmed (midFrame (bodyPosition body len) len body crc 0#8)) l) =
        .next (onLine s p (midFrame (bodyPosition (body ++ [v]) len) len (body ++ [v]) (crcByte crc v) 0#8) l) := by
      intro l
      rw [exec_goodCharacter_confirmed, takeGood_body (by rw [onLine_rx]; exact .inl rfl) (by rw [onLine_rx]; exact hb),
        setRx_onLine, onLine_rx]
      rfl
    simp only [List.map_cons, List.flatMap_cons, List.append_assoc, List.length_cons, Nat.mul_add, Nat.mul_one,
      ← Nat.add_assoc]
    rw [run_arrival s p _ _ (by simp [midFrame]) rfl (hnext _),
      ih _ _ (by simp only [List.length_append, List.length_singleton]; omega)]
    simp

/-- The CRC low byte of a frame (R11). -/
theorem run_crcLow (v : Byte) (len : Nat) (body : List Byte) (crc : Word) :
    Host.Core.run core (n + 3)
        (onLine s p (midFrame .crcLow len body crc 0#8) (arrival p (.goodCharacter p v) ++ l)) =
      Host.Core.run core n (onLine s p (midFrame .crcHigh len body crc v) l) := by
  refine run_arrival s p l n (by simp [midFrame]) rfl ((exec_goodCharacter_confirmed ..).trans (congrArg Host.Outcome.next ?_))
  rw [takeGood_crcLow (by rw [onLine_rx]; exact .inl rfl) (by rw [onLine_rx]; rfl), setRx_onLine, onLine_rx]
  rfl

end

/-! ### A whole frame -/

/-- The receiver with a frame whole but for its CRC high byte, whose start bit is confirmed (R13). -/
def atCompletion (s : State) (p : PortId) (body : List Byte) (crcLow : Byte) : State :=
  onLine s p (confirmed (midFrame .crcHigh body.length body (crcOf (BitVec.ofNat 8 body.length :: body)) crcLow)) []

/-- A frame's characters, fed to a receiver in HUNT, bring it to the completion of that frame (R9 to R13). -/
theorem run_frameCommands {s : State} {p : PortId} {level : Option Bool} {body : List Byte} (crc : Word)
    (hs : (s.port p).rx.state = .hunt) (hc : (s.port p).rx.char = .between level) (h5 : 5 ≤ body.length)
    (h101 : body.length ≤ 101) : ∃ t,
    Host.Core.run core (3 * (body.length + 4)) (waiting s (frameCommands p body crc)) = .next t ∧
    exec (.frameCompletion p (crc.extractLsb' 8 8)) (atCompletion s p body (crc.extractLsb' 0 8)) = .next t := by
  refine ⟨_, ?_, rfl⟩
  have hlen : (BitVec.ofNat 8 body.length).toNat = body.length := by rw [BitVec.toNat_ofNat]; omega
  have hb : bodyPosition [] body.length = .bodyByte := if_neg (by rw [List.length_nil]; omega)
  have hbody := run_body s p (arrival p (.goodCharacter p (crc.extractLsb' 0 8)) ++
      (arrival p (.frameCompletion p (crc.extractLsb' 8 8)) ++ [])) (0 + 3 + 3) body.length body []
      (crcOf [BitVec.ofNat 8 body.length]) (Nat.zero_add _)
  rw [hb] at hbody
  rw [show 3 * (body.length + 4) = 0 + 3 + 3 + 3 * body.length + 3 + 3 by omega, ← onLine_self]
  simp only [frameCommands, frameRows, List.map_cons, List.map_append, List.map_nil, List.cons_append, List.append_assoc,
    List.flatMap_cons, List.flatMap_append, List.flatMap_nil, List.nil_append]
  rw [run_sync _ _ _ _ hs hc, run_len _ _ _ _ (by omega), hlen, hbody, run_crcLow, run_arrival _ _ _ _ (by simp [midFrame]) rfl rfl]
  rfl

theorem crc_bytes (crc : Word) : crc.extractLsb' 8 8 ++ crc.extractLsb' 0 8 = crc := by
  apply BitVec.eq_of_getLsbD_eq
  intro i hi
  simp only [BitVec.getLsbD_append, BitVec.getLsbD_extractLsb', Nat.zero_add]
  split
  · simp [*]
  · rw [show 8 + (i - 8) = i by omega]; simp; omega

/-- A frame came whole from `s` to `t`: these counts were made, the receiver is in HUNT, and the port's staging buffers are
`staging` (R9, R13). -/
structure FrameCame (s t : State) (p : PortId) (l : List (PortId × Counter)) (staging : List StagedFrame) : Prop where
  rest : t = { s with ports := t.ports, stats := t.stats, free := t.free, pending := [] }
  accounts : Accounts s t l 0 []
  port : PortBecomes s t p fun q => { q with rx := Receiver.noFrame .hunt (.between (some true)), staging := staging }

/-- What the end of the frame means for the state in which it began. -/
theorem frameCame_of_frameEnds {s t : State} {p : PortId} {r : Receiver} {l : List (PortId × Counter)}
    {staging : List StagedFrame} (hr : r.state ≠ .stopping)
    (h : FrameEnds (onLine s p r []) t p l (.between (some true)) staging) : FrameCame s t p l staging := by
  have hsame : Accounts s (onLine s p r []) [] 0 [] := .same (fun q =>
    ⟨modifyPort_part s Port.counters p q (fun x => { x with rx := r }) fun _ => rfl,
      modifyPort_part s Port.limits p q (fun x => { x with rx := r }) fun _ => rfl⟩) rfl
  have hns : ¬ ((onLine s p r []).port p).rx.state = .stopping := by rwa [onLine_rx]
  refine ⟨h.rest, ?_, ?_, fun q hq => ?_⟩
  · simpa [hr] using hsame.trans h.accounts
  · rw [h.port.1]
    dsimp only
    rw [if_neg hns, onLine_port_same]
  · rw [h.port.2 q hq, onLine_port_ne s p r [] q hq]

/-- Every outcome of a whole frame, fed to a receiver in HUNT with a FREE staging buffer (R13 to R15). -/
theorem frameCommands_outcomes {s : State} {p : PortId} {level : Option Bool} {body : List Byte} (crc : Word)
    (hs : (s.port p).rx.state = .hunt) (hc : (s.port p).rx.char = .between level) (h5 : 5 ≤ body.length)
    (h101 : body.length ≤ 101) (hst : (s.port p).staging.length < 2) : ∃ t,
    Host.Core.run core (3 * (body.length + 4)) (waiting s (frameCommands p body crc)) = .next t ∧
    (crc ≠ crcOf (BitVec.ofNat 8 body.length :: body) → FrameCame s t p [(p, .framesBad)] (s.port p).staging) ∧
    (crc = crcOf (BitVec.ofNat 8 body.length :: body) → ignored (s.port p).addr body.length body →
      FrameCame s t p [(p, .framesGood), (p, .framesIgnored)] (s.port p).staging) ∧
    (crc = crcOf (BitVec.ofNat 8 body.length :: body) → ¬ ignored (s.port p).addr body.length body →
      ∃ b, (∀ f ∈ (s.port p).staging, f.bufferB ≠ b) ∧ FrameCame s t p [(p, .framesGood)] ((s.port p).staging ++
        [{ bufferB := b, inService := false, len := body.length, body := body }])) := by
  obtain ⟨t, hrun, hexec⟩ := run_frameCommands crc hs hc h5 h101
  obtain ⟨t', hexec', hbad, -, hign, hgood⟩ := frameCompletion p (crc.extractLsb' 8 8)
    (atCompletion s p body (crc.extractLsb' 0 8)) (.inl (by rw [atCompletion, onLine_rx]; rfl))
    (by rw [atCompletion, onLine_rx]; rfl) (by rw [atCompletion, onLine_rx]; rfl)
  obtain rfl : t = t' := by rw [hexec] at hexec'; injection hexec'
  simp only [atCompletion, onLine_port_same] at hbad hign hgood
  have hr : ∀ crcLow, (confirmed (midFrame .crcHigh body.length body (crcOf (BitVec.ofNat 8 body.length :: body)) crcLow)).state
    ≠ .stopping := fun _ => by simp [confirmed, checkStart, midFrame]
  refine ⟨t, hrun, fun hcrc => ?_, fun hcrc hi => ?_, fun hcrc hi => ?_⟩
  · exact frameCame_of_frameEnds (hr _) (hbad fun e => hcrc ((crc_bytes crc).symm.trans e))
  · exact frameCame_of_frameEnds (hr _) (hign ((crc_bytes crc).trans hcrc) hst hi)
  · obtain ⟨b, hb, hends⟩ := hgood ((crc_bytes crc).trans hcrc) hst hi
    exact ⟨b, hb, frameCame_of_frameEnds (hr _) hends⟩

/-- Settles O10. -/
theorem wholeFrameReceived : Obligations.WholeFrameReceived := by
  intro p s level body crc hs hc h5 h101 hst
  obtain ⟨t, hrun, hbad, hign, hgood⟩ := frameCommands_outcomes crc hs hc h5 h101 hst
  refine ⟨t, hrun, ?_, fun hcrc => ⟨(hbad hcrc).accounts, (hbad hcrc).port⟩, fun hcrc hi => ?_⟩
  · by_cases hcrc : crc = crcOf (BitVec.ofNat 8 body.length :: body)
    · by_cases hi : ignored (s.port p).addr body.length body
      · exact (hign hcrc hi).rest
      · obtain ⟨b, -, h⟩ := hgood hcrc hi
        exact h.rest
    · exact (hbad hcrc).rest
  · obtain ⟨b, hb, h⟩ := hgood hcrc hi
    exact ⟨h.accounts, b, hb, h.port⟩

/-! ### An outbound frame, received (R5, R6) -/

theorem replyBody_length (r : Reply) (addr : BitVec 7) :
    (replyBody r addr).length = if r.bitmap = none then 5 else 13 := by
  unfold replyBody
  cases r.bitmap <;> simp [bitmapBytes]

/-- An outbound frame is ignored by a receiver, for its kind is no inbound one (R14, Table 1-2). -/
theorem ignored_replyBody (r : Reply) (addr a : BitVec 7) (len : Nat) : ignored a len (replyBody r addr) := by
  have hk : bodyByte (replyBody r addr) 2 = r.kind.code := rfl
  refine .inr (.inr (.inr (.inr (.inl ?_))))
  rw [hk]
  cases r.kind <;> decide

/-- The characters of an outbound frame arrive as the frame of its body with its CRC (R4, R6). -/
theorem frameRows_replyFrame (p : PortId) (r : Reply) (addr : BitVec 7) :
    frameRows p ((replyFrame r addr).drop 1).dropLast ((replyFrame r addr).getLastD 0#8) =
      frameCommands p (replyBody r addr)
        (crcOf (BitVec.ofNat 8 (replyBody r addr).length :: replyBody r addr)) := by
  generalize hcrc : crcOf (BitVec.ofNat 8 (replyBody r addr).length :: replyBody r addr) = crc
  have h : replyFrame r addr = 0xC3#8 ::
      ((BitVec.ofNat 8 (replyBody r addr).length :: replyBody r addr ++ [crc.extractLsb' 0 8]) ++ [crc.extractLsb' 8 8]) := by
    simp [replyFrame, hcrc]
  rw [h, List.drop_one, List.tail_cons, List.dropLast_concat, ← List.cons_append, List.getLastD_concat]
  rfl

/-- Settles O11: its CRC is good by construction, and its kind makes it ignored. -/
theorem transmittedFrameHasGoodCrc : Obligations.TransmittedFrameHasGoodCrc := by
  intro r addr p s level hs hc hst
  have hlen := replyBody_length r addr
  have hframe : (replyFrame r addr).length = (replyBody r addr).length + 4 := by simp [replyFrame]
  obtain ⟨t, hrun, -, hign, -⟩ := frameCommands_outcomes (body := replyBody r addr)
    (crcOf (BitVec.ofNat 8 (replyBody r addr).length :: replyBody r addr)) hs hc
    (by split at hlen <;> omega) (by split at hlen <;> omega) hst
  have h := hign rfl (ignored_replyBody r addr _ _)
  rw [hframe, frameRows_replyFrame]
  exact ⟨rfl, t, hrun, h.rest, h.accounts, h.port⟩

end Sys2Proof.Machine
end

