-- ==== Sys2Proof/Proofs/Transmitter.lean ====
section
/-! SUPPORT. The transmitters: the CRC and the frame of a reply (ReplyStart), and the levels, the end and the guard of a
transmission (ReplyEndAndGuard). -/

namespace Sys2Proof.Machine

open Sys2Proof.Safety

/-! ### The CRC register and the frame of a reply (R5, R6) -/

/-- The CRC register shifts, and takes in the polynomial when its top bit differs from the bit fed (R5). -/
theorem crcBit_eq (c : Word) (b : Bool) :
    crcBit c b = if c.getLsbD 15 = b then c <<< 1 else (c <<< 1) ^^^ 0x1021#16 := by
  have hmsb : c.msb = c.getLsbD 15 := BitVec.msb_eq_getLsbD_last c
  unfold crcBit
  rw [hmsb]
  cases c.getLsbD 15 <;> cases b <;> rfl

theorem crcByte_eq (c : Word) (b : Byte) : crcByte c b = [7, 6, 5, 4, 3, 2, 1, 0].foldl (fun (c : Word) k =>
    if c.getLsbD 15 = b.getLsbD k then c <<< 1 else (c <<< 1) ^^^ 0x1021#16) c := by
  simp only [crcByte, crcBit_eq]

theorem crcOf_concat (l : List Byte) (b : Byte) : crcOf (l ++ [b]) = crcByte (crcOf l) b := List.foldl_concat ..

/-- The check value of R5: the CRC of the nine characters 1 to 9. -/
theorem crcOf_check : crcOf [0x31#8, 0x32#8, 0x33#8, 0x34#8, 0x35#8, 0x36#8, 0x37#8, 0x38#8, 0x39#8] = 0x29B1#16 := by
  decide +kernel

theorem replyFrame_length (r : Reply) (addr : BitVec 7) :
    (replyFrame r addr).length = if r.bitmap = none then 9 else 17 := by
  have h : (replyFrame r addr).length = (replyBody r addr).length + 4 := by simp [replyFrame]
  rw [h, replyBody_length]
  split <;> rfl

/-! ### A reply begins (R18) -/

theorem startReply_idle {s : State} {p : PortId} {r : Reply} {rest : List Reply} (ht : (s.port p).tx = none)
    (hr : (s.port p).replies = r :: rest) : startReply p s = s.modifyPort p fun q => { q with
      replies := rest
      tx := some { reply := r, rate := q.rate, addr := q.addr, frame := replyFrame r q.addr, inGuard := false } } := by
  simp only [startReply, ht, hr, State.modifyPort, List.drop_one, List.tail_cons]

theorem startReply_none {s : State} {p : PortId} (h : (s.port p).tx ≠ none ∨ (s.port p).replies = []) :
    startReply p s = s := by
  unfold startReply
  split
  · next ht hr => rw [ht, hr] at h; simp at h
  · rfl

/-- Settles O12. -/
theorem replyStart : Obligations.ReplyStart := by
  refine ⟨⟨rfl, crcOf_concat, crcByte_eq, crcOf_check⟩, fun p s r rest ht hr => ?_, fun p s h => ?_, fun r addr => ?_⟩
  · exact congrArg Host.Outcome.next (startReply_idle ht hr)
  · exact congrArg Host.Outcome.next (startReply_none h)
  · refine ⟨replyBody r addr, _, ?_, rfl, rfl, replyFrame_length r addr⟩
    simp only [replyBody]
    cases r.bitmap <;> rfl

/-! ### The levels of a transmission (R1, R18) -/

theorem txd_sending {s : State} {p : PortId} {x : Transmission} (h : (s.port p).tx = some x) (hg : x.inGuard = false)
    (bit : Nat) : s.txd p bit = (x.frame.flatMap charLevels).getD bit true := by
  simp only [State.txd, h, Transmission.level, hg, Bool.false_eq_true, if_false]

theorem txen_sending {s : State} {p : PortId} {x : Transmission} (h : (s.port p).tx = some x) :
    s.txen p = !x.inGuard := by
  simp only [State.txen, h]

/-- In the guard and in IDLE the driver is off and TXDn high (R18). -/
theorem quiet_line {s : State} {p : PortId} (h : ∀ x, (s.port p).tx = some x → x.inGuard = true) :
    s.txen p = false ∧ ∀ bit, s.txd p bit = true := by
  unfold State.txen State.txd Transmission.level
  cases ht : (s.port p).tx with
  | none => exact ⟨rfl, fun _ => rfl⟩
  | some x => simp [h x ht]

/-! ### The end of a reply and of its guard (R18, R21) -/

theorem endReply_spec (s : State) (p : PortId) (x : Transmission) :
    Accounts s (endReply p x s) [(p, .repliesSent)] 0 [] ∧
    PortBecomes s (endReply p x s) p (fun q => { q with tx := some { x with inGuard := true } }) ∧
    endReply p x s = { s with ports := (endReply p x s).ports, stats := (endReply p x s).stats } ∧
    (endReply p x s).txen p = false := by
  have hset := accounts_modifyPort s p (fun q => { q with tx := some { x with inGuard := true } }) rfl rfl
  refine ⟨hset.trans (accounts_count _ p .repliesSent),
    portBecomes_counted (portBecomes_modifyPort ..) fun q => uncounted_count _ p q .repliesSent, ?_, ?_⟩
  · apply state_eq <;> simp [endReply]
  · simp [endReply, State.txen]

theorem endGuard_reply {s : State} {p : PortId} {r : Reply} {rest : List Reply} (hr : (s.port p).replies = r :: rest) :
    endGuard p s = s.modifyPort p fun q => { q with
      replies := rest
      tx := some { reply := r, rate := q.rate, addr := q.addr, frame := replyFrame r q.addr, inGuard := false } } := by
  have hport := modifyPort_port_same s p fun q => { q with tx := none }
  have hr' : ((s.modifyPort p fun q => { q with tx := none }).port p).replies = r :: rest := by rw [hport]; exact hr
  simp only [endGuard, hr']
  rw [startReply_idle (by rw [hport]) hr', modifyPort_modifyPort]

theorem endGuard_last {s : State} {p : PortId} (hr : (s.port p).replies = []) :
    Accounts s (endGuard p s) [] 0 (if (s.port p).rx.state = .off then [.portOff] else []) ∧
    PortBecomes s (endGuard p s) p (fun q => { q with tx := none }) ∧
    endGuard p s = { s with ports := (endGuard p s).ports, stats := (endGuard p s).stats } := by
  have hport := modifyPort_port_same s p fun q => { q with tx := none }
  have hset := accounts_modifyPort s p (fun q => { q with tx := none }) rfl rfl
  have hbec := portBecomes_modifyPort s p fun q => { q with tx := none }
  simp only [endGuard, hport, hr]
  split
  · exact ⟨hset.trans (accounts_raise _ .portOff), hbec, rfl⟩
  · exact ⟨hset, hbec, rfl⟩

/-- Settles O13: the levels, the end of a reply, the end of the guard, and the transmitter in IDLE. -/
theorem replyEndAndGuard : Obligations.ReplyEndAndGuard := by
  refine ⟨fun p s x ht hg => ⟨?_, fun j v hv => ?_⟩, fun p s h => quiet_line h,
    fun p s x ht hg => ⟨⟨endReply p x s, ?_, ?_⟩, ?_⟩, fun p s x ht hg => ⟨?_, fun hr => ⟨endGuard p s, ?_, endGuard_last hr⟩,
      fun r rest hr => ?_⟩, fun p s ht => ⟨?_, ?_⟩⟩
  · rw [txen_sending ht, hg]; rfl
  · have hbit : ∀ k, k < 10 → s.txd p (10 * j + k) = (charLevels v).getD k true := fun k hk => by
      rw [txd_sending ht hg, flatMap_charLevels_getD x.frame j k v hv hk]
    refine ⟨hbit 0 (by omega), fun k hk => ?_, hbit 9 (by omega)⟩
    rw [Nat.add_assoc, Nat.add_comm 1 k, hbit (k + 1) (by omega), charLevels_data v k hk]
  · simp only [exec, execReplyEnd, ht, hg, Bool.false_eq_true, if_false]
  · obtain ⟨hacc, hport, hrest, htxen⟩ := endReply_spec s p x
    exact ⟨hacc, hport, hrest, by rw [txen_sending ht, hg]; rfl, htxen⟩
  · simp only [exec, execGuardEnd, ht, hg, Bool.false_eq_true, if_false]
  · simp only [exec, execReplyEnd, ht, hg, if_true]
  · simp only [exec, execGuardEnd, ht, hg, if_true]
  · simp only [exec, execGuardEnd, ht, hg, if_true, endGuard_reply hr]
  · simp only [exec, execReplyEnd, ht]
  · simp only [exec, execGuardEnd, ht]

end Sys2Proof.Machine
end

