-- ==== Sys2Proof/Proofs/Registers.lean ====
section
/-! SUPPORT. Host writes on a free bus (ConfigurationRows, PortEnableAndDisable, RegisterWrite) and what the host reads in each
register (RegisterReads). -/

namespace Sys2Proof.Machine

open Sys2Proof.Safety

/-! ### Host writes (R176, R178) -/

theorem hostWrite_free {s : State} (h : s.busFree = true) (r : Reg) (v : Word) : hostWrite r v s = writeReg r v s :=
  if_pos h

/-! ### PORT_ADDR, PORT_RATE and TICK -/

theorem writePortAddr_off {s : State} {p : PortId} (v : Word) (h : (s.port p).rx.state = .off) :
    writePortAddr p v s = s.modifyPort p fun q => { q with addr := v.extractLsb' 0 7 } := if_pos h

theorem writePortAddr_on {s : State} {p : PortId} (v : Word) (h : (s.port p).rx.state ≠ .off) : writePortAddr p v s = s :=
  if_neg h

theorem writePortRate_off {s : State} {p : PortId} (v : Word) (h : (s.port p).rx.state = .off) :
    writePortRate p v s = s.modifyPort p fun q => { q with rate := if v.toNat < 16 then 16#16 else v } := if_pos h

theorem writePortRate_on {s : State} {p : PortId} (v : Word) (h : (s.port p).rx.state ≠ .off) : writePortRate p v s = s :=
  if_neg h

/-- Settles O40. -/
theorem configurationRows : Obligations.ConfigurationRows := by
  rintro s v p hb rfl
  have hexec : exec (.portAddrWrite v) s = .next (writePortAddr s.host.portSelect v s) ∧
      exec (.portRateWrite v) s = .next (writePortRate s.host.portSelect v s) ∧
      exec (.tickWrite v) s = .next (writeTick v s) :=
    ⟨congrArg _ (hostWrite_free hb .portAddr v), congrArg _ (hostWrite_free hb .portRate v),
      congrArg _ (hostWrite_free hb .tick v)⟩
  obtain ⟨haddr, hrate, htick⟩ := hexec
  rw [haddr, hrate, htick]
  refine ⟨fun h => ⟨?_, fun hv => ?_, fun hv => ?_⟩, fun h => ⟨?_, ?_⟩, fun hv => ?_, fun hv hd => ?_, fun hv hd => ?_⟩
  · rw [writePortAddr_off v h]
  · rw [writePortRate_off v h, if_neg (by omega)]
  · rw [writePortRate_off v h, if_pos hv]
  · rw [writePortAddr_on v h]
  · rw [writePortRate_on v h]
  · subst hv; rfl
  · simp only [writeTick, if_neg hv, hd, Option.getD_none]
  · obtain ⟨d, hd⟩ := Option.ne_none_iff_exists'.1 hd
    simp only [writeTick, if_neg hv, hd, Option.getD_some]

/-! ### PORT_CTRL (R19 to R22) -/

/-- RECLAIM and ATTEMPTS of a port as a PORT_CTRL write stores them (R22). -/
def storeCtrl (v : Word) (q : Port) : Port := { q with reclaim := v.getLsbD 1, attempts := v.extractLsb' 4 3 }

/-- The three rows of a PORT_CTRL write. -/
theorem exec_portCtrl {s : State} {p : PortId} (v : Word) (hb : s.busFree = true) (hp : p = s.host.portSelect) :
    ∀ c ∈ [Instr.portCtrlWrite v, .portEnable v, .portDisable v],
      exec c s = .next (applyEnable p (v.getLsbD 0) (s.modifyPort p (storeCtrl v))) := by
  subst hp
  have hw : Host.Outcome.next (ρ := Refusal) (φ := Fault) (hostWrite .portCtrl v s) =
      .next (writePortCtrl s.host.portSelect v s) := congrArg _ (hostWrite_free hb .portCtrl v)
  intro c hc
  simp only [List.mem_cons, List.not_mem_nil, or_false] at hc
  rcases hc with rfl | rfl | rfl
  all_goals exact hw

/-- A port whose disable waits for the frame in flight (R20). -/
def stopReceiving (q : Port) : Port := { q with enable := false, rx := { q.rx with state := .stopping } }

theorem enterOff_free (s : State) (p : PortId) : (enterOff p s).free = s.free := by
  unfold enterOff
  dsimp only
  split <;> simp [setRx]

section
variable (s : State) (p : PortId)

theorem disablePort_of_hunt (h : (s.port p).rx.state = .hunt) :
    disablePort p s = enterOff p (s.modifyPort p fun q => { q with enable := false }) :=
  if_pos (by rw [modifyPort_port_same]; exact h)

theorem disablePort_of_receiving (h : (s.port p).rx.state = .receiving) :
    disablePort p s = discardReplies p (s.modifyPort p stopReceiving) := by
  have hport := modifyPort_port_same s p fun q => { q with enable := false }
  refine (if_neg (by rw [hport, h]; decide)).trans ?_
  rw [hport, setRx, modifyPort_modifyPort]
  rfl

/-- A disable in HUNT brings the receiver to OFF at once (R20, R21). -/
theorem disablePort_hunt (h : (s.port p).rx.state = .hunt) :
    Accounts s (disablePort p s) (List.replicate (s.port p).replies.length (p, .repliesDropped)) 0
      (if (s.port p).tx = none then [.portOff] else []) ∧
    PortBecomes s (disablePort p s) p
      (fun q => { q with enable := false, rx := Receiver.noFrame .off (.between none), replies := [] }) ∧
    disablePort p s = { s with ports := (disablePort p s).ports, stats := (disablePort p s).stats } := by
  have hport := modifyPort_port_same s p fun q => { q with enable := false }
  obtain ⟨hacc, hbec, hrest⟩ := enterOff_spec (s.modifyPort p fun q => { q with enable := false }) p
  rw [hport] at hacc
  rw [disablePort_of_hunt s p h]
  refine ⟨(accounts_modifyPort s p _ rfl rfl).trans hacc, ?_, hrest.trans ?_⟩
  · exact portBecomes_trans (portBecomes_modifyPort ..) hbec fun q q' h => by
      simp only [uncounted, Port.mk.injEq] at h ⊢; simp [h]
  · apply state_eq <;> simp [enterOff_free]

/-- A disable in RECEIVING lets the frame in flight end in STOPPING (R20). -/
theorem disablePort_receiving (h : (s.port p).rx.state = .receiving) :
    Accounts s (disablePort p s) (List.replicate (s.port p).replies.length (p, .repliesDropped)) 0 [] ∧
    PortBecomes s (disablePort p s) p
      (fun q => { q with enable := false, rx := { q.rx with state := .stopping }, replies := [] }) ∧
    disablePort p s = { s with ports := (disablePort p s).ports, stats := (disablePort p s).stats } := by
  have hacc := accounts_discardReplies (s.modifyPort p stopReceiving) p
  rw [modifyPort_port_same] at hacc
  rw [disablePort_of_receiving s p h]
  refine ⟨(accounts_modifyPort s p stopReceiving rfl rfl).trans hacc, ⟨?_, fun q hq => ?_⟩, by apply state_eq <;> simp⟩
  · rw [uncounted_discardReplies, if_pos rfl, modifyPort_port_same]
    rfl
  · rw [uncounted_discardReplies, if_neg hq, modifyPort_port_ne _ _ _ _ hq]

end

theorem applyEnable_off {s : State} {p : PortId} (h : (s.port p).rx.state = .off) (en : Bool) :
    applyEnable p en s = if en && !s.initialising then requestEnable p s else s := by
  simp only [applyEnable, h]

theorem applyEnable_none {s : State} {p : PortId} (h : (s.port p).rx.state ≠ .off) : applyEnable p true s = s := by
  cases hs : (s.port p).rx.state with
  | off => exact absurd hs h
  | _ => simp only [applyEnable, hs, if_true]

theorem applyEnable_disable {s : State} {p : PortId} (h : (s.port p).rx.state = .hunt ∨ (s.port p).rx.state = .receiving) :
    applyEnable p false s = disablePort p s := by
  rcases h with h | h <;> simp only [applyEnable, h, Bool.false_eq_true, if_false]

theorem applyEnable_stopping {s : State} {p : PortId} (h : (s.port p).rx.state = .stopping) (en : Bool) :
    applyEnable p en s = s := by
  simp only [applyEnable, h]

/-- The change of a PORT_CTRL write that comes before its disable adds to what the disable does (R20, R22). -/
theorem disable_after_store {s t : State} {p : PortId} (v : Word) {l : List (PortId × Counter)} {ev : List Event}
    {f : Port → Port} (hf : ∀ q q', uncounted q = uncounted q' → uncounted (f q) = uncounted (f q'))
    (h : Accounts (s.modifyPort p (storeCtrl v)) t l 0 ev ∧ PortBecomes (s.modifyPort p (storeCtrl v)) t p f ∧
      t = { s.modifyPort p (storeCtrl v) with ports := t.ports, stats := t.stats }) :
    Accounts s t l 0 ev ∧ PortBecomes s t p (fun q => f (storeCtrl v q)) ∧
      t = { s with ports := t.ports, stats := t.stats } := by
  obtain ⟨hacc, hbec, hrest⟩ := h
  exact ⟨by simpa using (accounts_modifyPort s p (storeCtrl v) rfl rfl).trans hacc,
    portBecomes_trans (portBecomes_modifyPort ..) hbec hf, hrest⟩

/-- Settles O39. -/
theorem portEnableAndDisable : Obligations.PortEnableAndDisable := by
  intro s v p hb hp
  have hexec := exec_portCtrl v hb hp
  have hen : exec (.portEnable v) s = .next (applyEnable p (v.getLsbD 0) (s.modifyPort p (storeCtrl v))) :=
    hexec _ (by simp)
  have hdis : exec (.portDisable v) s = .next (applyEnable p (v.getLsbD 0) (s.modifyPort p (storeCtrl v))) :=
    hexec _ (by simp)
  have hport : (s.modifyPort p (storeCtrl v)).port p = storeCtrl v (s.port p) := modifyPort_port_same ..
  have hrx : ((s.modifyPort p (storeCtrl v)).port p).rx = (s.port p).rx := by rw [hport]; rfl
  have hinit : (s.modifyPort p (storeCtrl v)).initialising = s.initialising := rfl
  refine ⟨fun hv hs hr => ?_, fun hv hs => ⟨_, by rw [hdis, hv], ?_⟩, fun hv hs => ⟨_, by rw [hdis, hv], ?_⟩,
    fun h hoff c hc => ?_⟩
  · have hready : s.initialising = false := by simp [State.initialising, hr]
    have hreq : exec (.portEnable v) s = .next (requestEnable p (s.modifyPort p (storeCtrl v))) := by
      rw [hen, applyEnable_off (by rw [hrx]; exact hs), hinit, hready, hv]
      rfl
    have haddr : ((s.modifyPort p (storeCtrl v)).port p).addr = (s.port p).addr := by rw [hport]; rfl
    rw [hreq]
    refine ⟨fun ha => ?_, fun ha => ?_⟩
    · rw [requestEnable, haddr, if_pos ha, modifyPort_modifyPort]
      rfl
    · rw [requestEnable, haddr, if_neg (by omega), modifyPort_modifyPort]
      rfl
  · have h := disablePort_hunt (s.modifyPort p (storeCtrl v)) p (by rw [hrx]; exact hs)
    rw [applyEnable_disable (.inl (by rw [hrx]; exact hs))]
    rw [hport] at h
    exact disable_after_store v (fun q q' h => by simp only [uncounted, Port.mk.injEq] at h ⊢; simp [h]) h
  · have h := disablePort_receiving (s.modifyPort p (storeCtrl v)) p (by rw [hrx]; exact hs)
    rw [applyEnable_disable (.inr (by rw [hrx]; exact hs))]
    rw [hport] at h
    exact disable_after_store v (fun q q' h => by simp only [uncounted, Port.mk.injEq] at h ⊢; simp [h]) h
  · rw [hexec c hc]
    refine congrArg Host.Outcome.next ?_
    rcases h with ⟨hv, h⟩ | ⟨hv, h⟩ <;> rw [hv]
    · by_cases hs : (s.port p).rx.state = .off
      · have hi : s.initialising = true := h.resolve_left (not_not_intro hs)
        rw [applyEnable_off (by rw [hrx]; exact hs), hinit, hi]
        rfl
      · exact applyEnable_none (by rw [hrx]; exact hs)
    · rcases h with hs | hs
      · rw [applyEnable_off (by rw [hrx]; exact hs)]
        rfl
      · exact applyEnable_stopping (by rw [hrx]; exact hs) false

end Sys2Proof.Machine
end

