-- ==== Sys2Proof/Proofs/RegisterWindow.lean ====
section
/-! SUPPORT. The register window: the registers that REGISTER_WRITE stores (RegisterWrite) and what each register reads
(RegisterReads). -/

namespace Sys2Proof.Machine

open Sys2Proof.Safety

/-! ### Reads and writes at an offset (R176, R178) -/

theorem readRegister_at {s : State} {o : Byte} {r : Reg} (h : s.host.phase ≠ .resetAsserted) (hr : regAt o = some r) :
    readRegister o s = readReg r s := by
  rw [readRegister, if_neg h, hr]

theorem busFree_phase {s : State} (h : s.busFree = true) : s.host.phase ≠ .resetAsserted := by
  intro e
  simp [State.busFree, e] at h

theorem exec_registerWrite_at {s : State} {o : Byte} {r : Reg} (v : Word) (h : s.busFree = true) (hr : regAt o = some r) :
    exec (.registerWrite o v) s = .next (writeReg r v s) := by
  refine congrArg Host.Outcome.next ?_
  rw [writeRegister, hr]
  exact hostWrite_free h r v

/-! ### Writes (R23, R81, R82, R143, R178, R179) -/

/-- The registers that REGISTER_WRITE stores. -/
def storedOffsets : List Byte :=
  [0x08#8, 0x10#8, 0x18#8, 0x1A#8, 0x1C#8, 0x1E#8, 0x56#8, 0x5A#8, 0x5C#8, 0x5E#8, 0x60#8]

/-- A register whose write changes nothing (R178). -/
def Reg.readOnly : Reg → Bool
  | .poolFree | .poolBacklog | .cmdStatus | .result _ | .reportCount | .reportHead _ | .drainData | .drainLen | .portHeld
  | .portState => true
  | _ => false

theorem writeReg_readOnly {r : Reg} (v : Word) (s : State) (h : r.readOnly = true) : writeReg r v s = s := by
  cases r with
  | poolFree | poolBacklog | cmdStatus | result | reportCount | reportHead | drainData | drainLen | portHeld | portState => rfl
  | _ => cases h

/-- The 57 registers: each is stored by REGISTER_WRITE, has a row of its own, is CTRL or STATUS, or is read-only. -/
theorem registerMap_kinds : ∀ x ∈ registerMap,
    x.1 ∈ storedOffsets ∨ x.2.hasRow = true ∨ x.2 = .ctrl ∨ x.2 = .status ∨ x.2.readOnly = true := by
  decide

theorem mem_registerMap {o : Byte} {r : Reg} (h : regAt o = some r) : (o, r) ∈ registerMap := by
  obtain ⟨l, l', e, -⟩ := List.lookup_eq_some_iff.1 h
  rw [e]
  simp

/-- The registers that a well-formed REGISTER_WRITE names. -/
theorem registerWriteOk_reg {o : Byte} {v : Word} {r : Reg} (hw : registerWriteOk o v = true) (hr : regAt o = some r) :
    r = .ctrl ∧ v.getLsbD 0 = false ∨ r = .status ∧ v.getLsbD 8 = false ∨
      r ≠ .ctrl ∧ r ≠ .status ∧ r.hasRow = false := by
  simp only [registerWriteOk, hr, Bool.and_eq_true] at hw
  cases r with
  | ctrl => exact .inl ⟨rfl, by simpa using hw.2⟩
  | status => exact .inr (.inl ⟨rfl, by simpa using hw.2⟩)
  | _ => exact .inr (.inr ⟨nofun, nofun, by simpa using hw.2⟩)

/-- A REGISTER_WRITE at an offset that stores nothing changes nothing. -/
theorem writeRegister_unstored {o : Byte} {v : Word} (hw : registerWriteOk o v = true) (ho : o ∉ storedOffsets) (s : State) :
    writeRegister o v s = s := by
  unfold writeRegister
  cases hr : regAt o with
  | none => rfl
  | some r =>
    have hnone : writeReg r v s = s := by
      rcases registerWriteOk_reg hw hr with ⟨rfl, hv⟩ | ⟨rfl, hv⟩ | ⟨hc, hs, hrow⟩
      · exact writeCtrl_zero v s hv
      · exact if_neg (by rw [hv]; decide)
      · rcases registerMap_kinds _ (mem_registerMap hr) with h | h | h | h | h
        · exact absurd h ho
        · exact absurd (hrow.symm.trans h) (by decide)
        · exact absurd h hc
        · exact absurd h hs
        · exact writeReg_readOnly v s h
    dsimp only [hostWrite]
    rw [hnone, ite_self]

/-- A register that stores the value, with what it then reads. -/
theorem registerWrite_stores {s u : State} {o : Byte} {v w : Word} {r : Reg} (hb : s.busFree = true) (hr : regAt o = some r)
    (hw : writeReg r v s = u) (hphase : u.host.phase = s.host.phase) (hread : readReg r u = w) :
    exec (.registerWrite o v) s = .next u ∧ ∀ t, exec (.registerWrite o v) s = .next t → readRegister o t = w := by
  have hexec := (exec_registerWrite_at v hb hr).trans (congrArg Host.Outcome.next hw)
  refine ⟨hexec, fun t ht => ?_⟩
  obtain rfl : u = t := by rw [hexec] at ht; injection ht
  rw [readRegister_at (by rw [hphase]; exact busFree_phase hb) hr, hread]

/-- A field's maximum-limited value, read back in its register. -/
theorem setWidth_ofNat_min (w n max : Nat) (hm : max < 2 ^ w) :
    (BitVec.ofNat w (min n max)).setWidth 16 = BitVec.ofNat 16 (min n max) := by
  have hn : min n max ≤ max := Nat.min_le_right n max
  apply BitVec.eq_of_toNat_eq
  rw [BitVec.toNat_setWidth, BitVec.toNat_ofNat, BitVec.toNat_ofNat, Nat.mod_eq_of_lt (Nat.lt_of_le_of_lt hn hm)]

/-- A setting of the selected port is stored in it and read back from it (R179). -/
theorem registerWrite_sets {s : State} {o : Byte} {v w : Word} {r : Reg} (f : Port → Port) (g : Port → Word)
    (hb : s.busFree = true) (hr : regAt o = some r) (hw : writeReg r v s = s.modifyPort s.host.portSelect f)
    (hg : ∀ t : State, readReg r t = g (t.port t.host.portSelect)) (hv : g (f (s.port s.host.portSelect)) = w) :
    exec (.registerWrite o v) s = .next (s.modifyPort s.host.portSelect f) ∧
      ∀ t, exec (.registerWrite o v) s = .next t → readRegister o t = w :=
  registerWrite_stores hb hr hw rfl (by rw [hg, modifyPort_host, modifyPort_port_same, hv])

/-- Settles O46: the eleven offsets that store, and every other. -/
theorem registerWrite : Obligations.RegisterWrite := by
  intro s o v hw hb
  by_cases ho : o ∈ storedOffsets
  · simp only [storedOffsets, List.mem_cons, List.not_mem_nil, or_false] at ho
    rcases ho with rfl | rfl | rfl | rfl | rfl | rfl | rfl | rfl | rfl | rfl | rfl
    · exact registerWrite_stores hb rfl rfl rfl rfl
    · exact registerWrite_stores hb rfl rfl rfl (setWidth_ofNat_min 11 v.toNat 1024 (by decide))
    · exact registerWrite_stores hb rfl rfl rfl (Vector.getElem_set_self _)
    · exact registerWrite_stores hb rfl rfl rfl (Vector.getElem_set_self _)
    · exact registerWrite_stores hb rfl rfl rfl (Vector.getElem_set_self _)
    · exact registerWrite_stores hb rfl rfl rfl (Vector.getElem_set_self _)
    · exact registerWrite_sets (fun q => { q with quota := clampTo 11 1024 v }) (fun q => q.quota.setWidth 16) hb rfl rfl
        (fun _ => rfl) (setWidth_ofNat_min 11 v.toNat 1024 (by decide))
    · exact registerWrite_sets (fun q => { q with gap := v }) Port.gap hb rfl rfl (fun _ => rfl) rfl
    · exact registerWrite_sets (fun q => { q with repair := v }) Port.repair hb rfl rfl (fun _ => rfl) rfl
    · exact registerWrite_sets (fun q => { q with life := v }) Port.life hb rfl rfl (fun _ => rfl) rfl
    · exact registerWrite_sets (fun q => { q with reclimit := clampTo 13 6144 v }) (fun q => q.reclimit.setWidth 16) hb rfl rfl
        (fun _ => rfl) (setWidth_ofNat_min 13 v.toNat 6144 (by decide))
  · have hexec : exec (.registerWrite o v) s = .next s :=
      congrArg Host.Outcome.next (writeRegister_unstored hw ho s)
    simp only [storedOffsets, List.mem_cons, List.not_mem_nil, or_false, not_or] at ho
    simp only [ho, if_false, List.mem_cons, List.not_mem_nil, or_false]
    exact ⟨hexec, fun t ht => by rw [hexec] at ht; injection ht with ht; rw [ht]⟩

/-! ### Reads (R176, R178, R180) -/

theorem regAt_none {o : Byte} (h : ∀ x ∈ registerMap, x.1 ≠ o) : regAt o = none :=
  List.lookup_eq_none_iff.2 fun x hx => bne_iff_ne.2 (h x hx).symm

/-- An asserted RESET# and an offset of no register read 0 (R178, R185). -/
theorem readRegister_zero {o : Byte} {s : State} (h : s.host.phase = .resetAsserted ∨ ∀ x ∈ registerMap, x.1 ≠ o) :
    readRegister o s = 0#16 := by
  unfold readRegister
  split
  · rfl
  · next hp => rw [regAt_none (h.resolve_left hp)]

theorem flagAt_toNat (b : Bool) : (flagAt b 0).toNat = b.toNat := by cases b <;> rfl

theorem statusWord_toNat (s : State) : s.statusWord.toNat =
    (if s.host.phase = .ready then 1 else 0) + 256 * s.stats.unreportedLimit.toNat := by
  unfold State.statusWord
  by_cases h : s.host.phase = .ready <;> cases s.stats.unreportedLimit <;> simp [h, flagAt]

theorem cmdStatusWord_toNat (s : State) : s.cmdStatusWord.toNat = s.cmd.status.toNat + 32768 * s.cmd.inFlight.isSome.toNat := by
  have h : ∀ (v : BitVec 4) (b : Bool), (v.setWidth 16 ||| flagAt b 15).toNat = v.toNat + 32768 * b.toNat := by decide
  exact h _ _

theorem ctrlWord_toNat (q : Port) : q.ctrlWord.toNat = q.enable.toNat + 2 * q.reclaim.toNat + 16 * q.attempts.toNat := by
  have h : ∀ (a b : Bool) (v : BitVec 3), (flagAt a 0 ||| flagAt b 1 ||| (v.setWidth 16 <<< 4)).toNat =
      a.toNat + 2 * b.toNat + 16 * v.toNat := by decide
  exact h _ _ _

/-- PORT_STATE of a port that keeps its law, whose staging buffers and replies fit their fields (R24). -/
theorem stateWord_toNat {q : Port} (h : PortLaw q) : q.stateWord.toNat = q.rx.state.code +
    (if q.tx = none then 0 else 4) + 8 * q.configFault.toNat + 16 * q.staging.length + 256 * q.replies.length := by
  have key : ∀ r < 4, ∀ a < 3, ∀ b < 9, ∀ x y : Bool, (word (r + 16 * a + 256 * b) ||| flagAt x 2 ||| flagAt y 3).toNat =
      r + 4 * x.toNat + 8 * y.toNat + 16 * a + 256 * b := by decide +kernel
  have hr : q.rx.state.code < 4 := by cases q.rx.state <;> decide
  have htx : 4 * q.tx.isSome.toNat = if q.tx = none then 0 else 4 := by cases q.tx <;> rfl
  rw [← htx]
  exact key _ hr _ (Nat.lt_succ_of_le h.staging.1) _ (Nat.lt_succ_of_le h.queue) _ _

theorem limits_toNat_lt (v : BitVec 10) : (v.setWidth 16).toNat < 1024 := by
  have := v.isLt
  rw [BitVec.toNat_setWidth]
  omega

theorem limits_getLsbD (v : BitVec 10) (c : Counter) :
    (v.setWidth 16).getLsbD (counterIdx c).val = v.getLsbD (counterIdx c).val := by
  have hc : (counterIdx c).val < 16 := by omega
  rw [BitVec.getLsbD_setWidth, decide_eq_true hc, Bool.true_and]

/-! ### The offsets of the numbered registers (Table 10-1) -/

theorem regAt_operand (i : Fin 4) : regAt (BitVec.ofNat 8 (0x18 + 2 * i.val)) = some (.operand i) := by decide +revert

theorem regAt_result (i : Fin 10) : regAt (BitVec.ofNat 8 (0x20 + 2 * i.val)) = some (.result i) := by decide +revert

theorem regAt_reportHead (i : Fin 6) : regAt (BitVec.ofNat 8 (0x36 + 2 * i.val)) = some (.reportHead i) := by decide +revert

theorem regAt_counter (c : Counter) : regAt (BitVec.ofNat 8 (0x64 + 2 * (counterIdx c).val)) = some (.counter c) := by
  cases c <;> rfl

/-- REPORT_HEAD0 to REPORT_HEAD5 of a queue that is not empty (R125, R128). -/
theorem readRegister_reportHead {s : State} {e : ReportEntry} {rest : List ReportEntry} (h : s.host.phase ≠ .resetAsserted)
    (hr : s.reports = e :: rest) (i : Fin 6) :
    readRegister (BitVec.ofNat 8 (0x36 + 2 * i.val)) s = (reportWords e).getD i.val 0#16 := by
  rw [readRegister_at h (regAt_reportHead i)]
  simp only [readReg, State.reportHeadWord, hr]

/-- Settles O60, by the groups of the statement: global registers, the command unit, the report queue, the drain port, the
port's configuration and state, its counters and limit flags. -/
theorem registerReads : Obligations.RegisterReads := by
  refine ⟨fun o s h => readRegister_zero h, ?_⟩
  rintro s q h rfl
  have at_ : ∀ r {o}, regAt o = some r → readRegister o s = readReg r s := fun r _ hr => readRegister_at h hr
  refine ⟨⟨?_, ?_, ?_, ?_, ?_, at_ .tick rfl, at_ .poolFree rfl, at_ .poolBacklog rfl, ?_, at_ .unreported rfl⟩,
    ⟨?_, ?_, fun i => at_ (.operand i) (regAt_operand i), fun i => at_ (.result i) (regAt_result i)⟩,
    ⟨at_ .reportCount rfl, fun hr i => ?_, fun e rest hr => ?_⟩, ⟨at_ .drainPos rfl, at_ .drainLen rfl⟩,
    ⟨?_, ?_, at_ .portRate rfl, ?_, at_ .portHeld rfl, at_ .portGap rfl, at_ .portRepair rfl, at_ .portLife rfl, ?_,
      fun hl => ?_⟩, fun c => at_ (.counter c) (regAt_counter c), fun c => ⟨?_, ?_⟩⟩
  · rw [at_ _ rfl]; exact flagAt_toNat _
  · rw [at_ _ rfl]; exact statusWord_toNat s
  · rw [at_ _ rfl]; exact BitVec.toNat_setWidth_of_le (by decide)
  · rw [at_ _ rfl]; exact BitVec.toNat_setWidth_of_le (by decide)
  · rw [at_ _ rfl]; exact (BitVec.toNat_ofNat ..).trans (Nat.mod_eq_of_lt (by omega))
  · rw [at_ _ rfl]; exact BitVec.toNat_setWidth_of_le (by decide)
  · rw [at_ _ rfl]; exact BitVec.toNat_setWidth_of_le (by decide)
  · rw [at_ _ rfl]; exact cmdStatusWord_toNat s
  · rw [at_ _ (regAt_reportHead i)]; simp only [readReg, State.reportHeadWord, hr]
  · have hh := readRegister_reportHead h hr
    refine ⟨hh 0, hh 1, hh 2, (hh 3).trans ?_, (hh 4).trans ?_, (hh 5).trans ?_⟩
    · show word (e.length.getD 0) = _
      cases e.length <;> rfl
    · show word (e.count.getD 0 + 256 * highestShown e.highest) = _
      cases e.count <;> rfl
    · show word (e.fragments.getD 0) = _
      cases e.fragments <;> rfl
  · rw [at_ _ rfl]; exact ctrlWord_toNat _
  · rw [at_ _ rfl]; exact BitVec.toNat_setWidth_of_le (by decide)
  · rw [at_ _ rfl]; exact BitVec.toNat_setWidth_of_le (by decide)
  · rw [at_ _ rfl]; exact BitVec.toNat_setWidth_of_le (by decide)
  · rw [at_ _ rfl]; exact stateWord_toNat hl
  · rw [at_ _ rfl]; exact limits_toNat_lt _
  · rw [at_ _ rfl]; exact limits_getLsbD _ c

end Sys2Proof.Machine
end

