-- ==== Sys2Proof/Proofs/Claims.lean ====
section
/-! SUPPORT. A frame claim taken, from the serving of its staging buffer to its release, and the answer to a QUERY
(QueryAnswered). -/

namespace Sys2Proof.Machine

open Sys2Proof.Safety

/-! ### A frame claim taken (R15, R16, R45) -/

/-- The state in which the table controller handles the frame claim of port `p` (R15, R45). -/
def served (s : State) (p : PortId) : State := serveFrame p (s.setLastServed (.receiver p))

theorem takeFrame_next {s : State} {p : PortId} {f : StagedFrame} {rest : List StagedFrame} {kind : Byte}
    (handle : PortId → StagedFrame → State → State) (h : FrameNext s p f rest) (hk : f.kind = kind) :
    takeFrame kind handle s = handle p f (served s p) := by
  obtain ⟨hn, hs⟩ := h
  simp only [takeFrame, hn, hs, if_pos hk]
  rfl

/-- The claimant that is next presents a claim (R45, R46). -/
theorem presents_of_next {s : State} {c : Claimant} (h : s.nextClaimant = some c) : s.presents c = true := by
  unfold State.nextClaimant at h
  split at h
  · cases h
  · exact List.find?_some h

/-- While a port's frame claim is next, none of its buffers is IN SERVICE (R15). -/
theorem frameNext_waiting {s : State} {p : PortId} {f : StagedFrame} {rest : List StagedFrame} (h : FrameNext s p f rest) :
    ∀ g ∈ rest, g.inService = false := by
  obtain ⟨hn, hs⟩ := h
  have hp : s.frameClaim p = true := presents_of_next hn
  simp only [State.frameClaim, hs, Bool.and_eq_true, Bool.not_eq_true', List.any_cons, Bool.or_eq_false_iff,
    List.any_eq_false] at hp
  intro g hg
  simpa using hp.2.2 g hg

@[simp] theorem served_frame (s : State) (p : PortId) :
    (∀ j : Slot, (served s p).ctx j = s.ctx j) ∧ (∀ u : SetId, (served s p).order u = s.order u) ∧
    (∀ j : Slot, (served s p).timers j = s.timers j) ∧
    (served s p).table = { s.table with lastServed := .receiver p } ∧ (served s p).pool = s.pool ∧
    (served s p).mem = s.mem ∧ (served s p).timer = s.timer ∧ (served s p).reports = s.reports ∧
    (served s p).drain = s.drain ∧ (served s p).cmd = s.cmd ∧ (served s p).stats = s.stats ∧
    (served s p).host = s.host ∧ (served s p).free = s.free ∧ (served s p).pending = s.pending := by
  and_intros <;> intros <;> rfl

theorem served_port {s : State} {p : PortId} {f : StagedFrame} {rest : List StagedFrame} (h : (s.port p).staging = f :: rest)
    (q : PortId) : (served s p).port q =
      if q = p then { s.port p with staging := { f with inService := true } :: rest } else s.port q := by
  rw [served, serveFrame, modifyPort_port]
  simp only [setLastServed_port, h]

/-- The other fields of a port stand while its frame is served. -/
@[simp] theorem served_port_frame (s : State) (p q : PortId) :
    ((served s p).port q).rx = (s.port q).rx ∧ ((served s p).port q).replies = (s.port q).replies ∧
    ((served s p).port q).recent = (s.port q).recent ∧ ((served s p).port q).counters = (s.port q).counters ∧
    ((served s p).port q).limits = (s.port q).limits := by
  simp [served]

theorem accounts_served (s : State) (p : PortId) : Accounts s (served s p) [] 0 [] :=
  .same (fun q => by simp) rfl

theorem accounts_releaseFrame (s : State) (p : PortId) : Accounts s (releaseFrame p s) [] 0 [] :=
  .same (fun q => by simp) rfl

/-- The release of a frame frees the buffers in service of its port (R16). -/
theorem portBecomes_releaseFrame {s t : State} {p : PortId} {g : Port → Port} (h : PortBecomes s t p g) :
    PortBecomes s (releaseFrame p t) p fun q => { g q with staging := (g q).staging.filter fun f => !f.inService } :=
  portBecomes_trans h (portBecomes_modifyPort t p fun q => { q with staging := q.staging.filter fun f => !f.inService })
    fun q q' e => by simp only [uncounted, Port.mk.injEq] at e ⊢; simp [e]

/-- A claim taken, handled and released: the buffer of the frame is FREE again, and the port became what the handling made
of it (R15, R16). -/
theorem portBecomes_claim {s t : State} {p : PortId} {f : StagedFrame} {rest : List StagedFrame} {g : Port → Port}
    (h : FrameNext s p f rest) (ht : PortBecomes (served s p) t p g)
    (hg : ∀ q q', uncounted q = uncounted q' → uncounted (g q) = uncounted (g q'))
    (hst : ∀ q l, g { q with staging := l } = { g q with staging := l }) :
    PortBecomes s (releaseFrame p t) p fun q => { g q with staging := rest } := by
  have hrest : (({ f with inService := true } :: rest).filter fun f => !f.inService) = rest := by
    rw [List.filter_cons_of_neg (by simp), List.filter_eq_self.2 fun x hx => by simp [frameNext_waiting h x hx]]
  have hserved : PortBecomes s (served s p) p fun q => { q with staging := { f with inService := true } :: rest } :=
    ⟨by rw [served_port h.2, if_pos rfl], fun q hq => by rw [served_port h.2, if_neg hq]⟩
  have he : ∀ q, { g q with staging := rest } = { g { q with staging := { f with inService := true } :: rest } with
      staging := (g { q with staging := { f with inService := true } :: rest }).staging.filter fun f => !f.inService } :=
    fun q => by rw [hst q ({ f with inService := true } :: rest)]; dsimp only; rw [hrest]
  rw [funext he]
  exact portBecomes_releaseFrame (portBecomes_trans hserved ht hg)

/-! ### What a lookup reads -/

theorem lookup_congr {s t : State} (h : ∀ j, t.ctx j = s.ctx j) (k : Key) : t.lookup k = s.lookup k := by
  have hb : t.bears k = s.bears k := funext fun i => by simp only [State.bears, h]
  rw [State.lookup, hb, State.lookup]

theorem recentEntry_congr {s t : State} {k : Key} (h : (t.port k.port).recent = (s.port k.port).recent) :
    t.recentEntry k = s.recentEntry k := by
  rw [State.recentEntry, h, State.recentEntry]

theorem queryAnswer_congr {s t : State} {k : Key} (hc : ∀ j, t.ctx j = s.ctx j)
    (hr : (t.port k.port).recent = (s.port k.port).recent) : t.queryAnswer k = s.queryAnswer k := by
  simp only [State.queryAnswer, lookup_congr hc, recentEntry_congr hr, hc]

/-! ### QUERY (R51, R72) -/

/-- An offer changes the replies of its port as R110 gives. -/
theorem portBecomes_offerReply (s : State) (p : PortId) (r : Reply) :
    PortBecomes s (offerReply p r s) p fun q => { q with replies := offered q r } :=
  ⟨by rw [uncounted_offerReply, if_pos rfl], fun q hq => by rw [uncounted_offerReply, if_neg hq]⟩

theorem uncounted_offered {q q' : Port} (r : Reply) (h : uncounted q = uncounted q') :
    uncounted { q with replies := offered q r } = uncounted { q' with replies := offered q' r } := by
  simp only [uncounted, Port.mk.injEq] at h ⊢
  simp [h, offered]

theorem offerCounts_congr (p : PortId) {q q' : Port} (h : uncounted q = uncounted q') :
    offerCounts p q = offerCounts p q' := by
  simp only [uncounted, Port.mk.injEq] at h
  simp [h, offerCounts]

/-- Settles O18. -/
theorem queryAnswered : Obligations.QueryAnswered := by
  intro s p f rest code bitmap h hk ha
  have hanswer : (served s p).queryAnswer (f.key p) = (code, bitmap) := by
    rw [queryAnswer_congr (s := s) (by simp) (by simp), ha]
    unfold State.queryAnswer
    cases s.lookup (f.key p) with
    | some i => dsimp only; cases (s.ctx i).state <;> rfl
    | none => dsimp only; cases s.recentEntry (f.key p) <;> rfl
  have hexec : exec .query s = .next (releaseFrame p (offerReply p (statusReply (f.key p) code bitmap) (served s p))) := by
    refine congrArg Host.Outcome.next ((takeFrame_next handleQuery h hk).trans ?_)
    simp only [handleQuery, hanswer]
  refine ⟨_, hexec, ?_, portBecomes_claim h (portBecomes_offerReply ..) (fun q q' => uncounted_offered _) fun q l => rfl, ?_⟩
  · have hc : offerCounts p ((served s p).port p) = offerCounts p (s.port p) := by simp [offerCounts]
    have hacc := ((accounts_served s p).trans (accounts_offerReply _ p (statusReply (f.key p) code bitmap))).trans
      (accounts_releaseFrame _ p)
    simpa [hc] using hacc
  · apply state_eq <;> simp

end Sys2Proof.Machine
end

