-- ==== Sys2Proof/Proofs/Store.lean ====
section
/-! SUPPORT. The end of a fill copy: the insertion, the loads and the completion of a record (StoreEnds). -/

namespace Sys2Proof.Machine

open Sys2Proof.Safety

/-! ### The insertion (R31, R59) -/

/-- An entry goes behind every entry whose index is not above its own (R31). -/
theorem insertFrag_eq (e : FragEntry) (l : List FragEntry) :
    insertFrag e l = l.takeWhile (fun x => decide (x.index ≤ e.index)) ++ e ::
      l.dropWhile fun x => decide (x.index ≤ e.index) := by
  induction l with
  | nil => rfl
  | cons x rest ih =>
    by_cases h : e.index < x.index
    · have hx : ¬ x.index ≤ e.index := not_le.2 h
      simp [insertFrag, h, hx]
    · have hx : x.index ≤ e.index := not_lt.1 h
      simp [insertFrag, h, hx, ih]

/-- The context after a store is the one after its insertion, but for what the loads give it (R59, R60). -/
theorem storedContext_eq (s : State) (st : StoreClaim) : storedContext s st = { (s.ctx st.slot).insert st with
    state := if st.prior = .collecting ∨ st.prior = .repairing then (s.ctx st.slot).state else .collecting
    attemptsLeft := if st.prior = .collecting ∨ st.prior = .repairing then (s.ctx st.slot).attemptsLeft
      else (s.port st.port).attempts.toNat
    attemptsUsed := if st.prior = .collecting ∨ st.prior = .repairing then (s.ctx st.slot).attemptsUsed else 0 } := by
  unfold storedContext Context.insert
  rw [insertFrag_eq]
  cases (s.ctx st.slot).highest <;> rfl

@[simp] theorem setCtx_openOrder (s : State) (i : Slot) (c : Context) :
    (s.setCtx i c).table.openOrder = s.table.openOrder := rfl

theorem insertEntry_ctx (s : State) (st : StoreClaim) (j : Slot) : (insertEntry st s).ctx j =
    if j = st.slot then (s.ctx st.slot).insert st else s.ctx j := by
  simp [insertEntry, setCtx_ctx]

/-! ### The loads (R60) -/

/-- The countdowns of the slot of a store, by the state in which its claim found the context (R60). -/
def storedTimers (s : State) (st : StoreClaim) : SlotTimers :=
  match st.prior with
  | .repairing => { s.timers st.slot with repair := repairLoad (s.port st.port).repair, repairMark := false }
  | .collecting => { s.timers st.slot with repair := gapLoad (s.port st.port).gap, repairMark := false }
  | _ => { repair := gapLoad (s.port st.port).gap, repairMark := false, life := gapLoad (s.port st.port).life
           lifeMark := false }

/-- The state after the insertion and the loads of a store (R59, R60). -/
def stored (s : State) (st : StoreClaim) : State := loadAfterStore st (insertEntry st s)

section
variable (s : State) (st : StoreClaim)

@[simp] theorem insertEntry_frame :
    (∀ j : Slot, (insertEntry st s).timers j = s.timers j) ∧ (insertEntry st s).timer = s.timer ∧
    (insertEntry st s).table.service = s.table.service ∧ (insertEntry st s).table.lastServed = s.table.lastServed ∧
    (insertEntry st s).table.openOrder = s.table.openOrder ∧ (insertEntry st s).pool = s.pool ∧
    (insertEntry st s).mem = s.mem ∧ (insertEntry st s).reports = s.reports ∧ (insertEntry st s).drain = s.drain ∧
    (insertEntry st s).cmd = s.cmd ∧ (insertEntry st s).host = s.host ∧ (insertEntry st s).free = s.free ∧
    (insertEntry st s).pending = s.pending := by
  simp [insertEntry]

/-- What the loads leave alone: every part but a context record and the countdowns. -/
@[simp] theorem loadAfterStore_frame :
    (∀ q : PortId, (loadAfterStore st s).port q = s.port q) ∧ (loadAfterStore st s).table.service = s.table.service ∧
    (loadAfterStore st s).table.lastServed = s.table.lastServed ∧
    (loadAfterStore st s).table.openOrder = s.table.openOrder ∧ (loadAfterStore st s).pool = s.pool ∧
    (loadAfterStore st s).mem = s.mem ∧ (loadAfterStore st s).timer.tick = s.timer.tick ∧
    (loadAfterStore st s).timer.divider = s.timer.divider ∧ (loadAfterStore st s).timer.scan = s.timer.scan ∧
    (loadAfterStore st s).timer.claim = s.timer.claim ∧ (loadAfterStore st s).reports = s.reports ∧
    (loadAfterStore st s).drain = s.drain ∧ (loadAfterStore st s).cmd = s.cmd ∧ (loadAfterStore st s).stats = s.stats ∧
    (loadAfterStore st s).host = s.host ∧ (loadAfterStore st s).free = s.free ∧
    (loadAfterStore st s).pending = s.pending := by
  unfold loadAfterStore
  cases st.prior <;> simp

theorem stored_timers (j : Slot) : (stored s st).timers j = if j = st.slot then storedTimers s st else s.timers j := by
  unfold stored loadAfterStore storedTimers
  cases st.prior <;> simp [insertEntry] <;> split <;> simp [*]

theorem stored_ctx (j : Slot) : (stored s st).ctx j = if j = st.slot then storedContext s st else s.ctx j := by
  rw [storedContext_eq]
  unfold stored loadAfterStore
  cases hp : st.prior with
  | collecting | repairing => simp [insertEntry_ctx, Context.insert]
  | _ => by_cases hj : j = st.slot <;> simp [insertEntry, setCtx_ctx, hj]

@[simp] theorem stored_frame :
    (stored s st).table.service = s.table.service ∧ (stored s st).table.lastServed = s.table.lastServed ∧
    (stored s st).table.openOrder = s.table.openOrder ∧ (stored s st).pool = s.pool ∧
    (stored s st).mem = s.mem ∧ (stored s st).timer.tick = s.timer.tick ∧
    (stored s st).timer.divider = s.timer.divider ∧ (stored s st).timer.scan = s.timer.scan ∧
    (stored s st).timer.claim = s.timer.claim ∧ (stored s st).reports = s.reports ∧
    (stored s st).drain = s.drain ∧ (stored s st).cmd = s.cmd ∧ (stored s st).host = s.host ∧
    (stored s st).free = s.free ∧ (stored s st).pending = s.pending := by
  simp [stored]

theorem accounts_stored : Accounts s (stored s st) [(st.port, .fragsStored)] 0 [] :=
  ((Accounts.same (s := s) (t := s.setCtx st.slot ((s.ctx st.slot).insert st)) (fun _ => ⟨rfl, rfl⟩) rfl).trans
    (accounts_count _ st.port .fragsStored)).trans
      (.same (t := stored s st) (fun q => by simp [stored, insertEntry]) (by simp [stored, insertEntry]))

theorem uncounted_stored (q : PortId) : uncounted ((stored s st).port q) = uncounted (s.port q) := by
  simp [stored, insertEntry]

/-! ### The completion (R61) -/

theorem completeRecord_ctx (p : PortId) (i j : Slot) (k : Key) :
    (completeRecord p i k s).ctx j = if j = i then { s.ctx i with state := .done } else s.ctx j := by
  simp [completeRecord, setCtx_ctx]

theorem completeRecord_timers (p : PortId) (i j : Slot) (k : Key) :
    (completeRecord p i k s).timers j = if j = i then SlotTimers.cleared else s.timers j := by
  simp [completeRecord]

@[simp] theorem completeRecord_frame (p : PortId) (i : Slot) (k : Key) :
    (completeRecord p i k s).table.service = s.table.service ∧
    (completeRecord p i k s).table.lastServed = s.table.lastServed ∧
    (completeRecord p i k s).table.openOrder = s.table.openOrder ∧ (completeRecord p i k s).pool = s.pool ∧
    (completeRecord p i k s).mem = s.mem ∧ (completeRecord p i k s).timer.tick = s.timer.tick ∧
    (completeRecord p i k s).timer.divider = s.timer.divider ∧ (completeRecord p i k s).timer.scan = s.timer.scan ∧
    (completeRecord p i k s).timer.claim = s.timer.claim ∧
    (completeRecord p i k s).reports = s.reports ++ [successEntry i k (s.ctx i)] ∧
    (completeRecord p i k s).drain = s.drain ∧ (completeRecord p i k s).cmd = s.cmd ∧
    (completeRecord p i k s).host = s.host ∧ (completeRecord p i k s).free = s.free ∧
    (completeRecord p i k s).pending = s.pending := by
  simp [completeRecord]

/-- A completed record before its ACCEPT is offered (R61). -/
def recorded (p : PortId) (i : Slot) (k : Key) : State :=
  count p .recordsComplete (appendEntry (successEntry i k (s.ctx i))
    (clearCountdowns i (s.setCtx i { s.ctx i with state := .done })))

theorem completeRecord_eq (p : PortId) (i : Slot) (k : Key) :
    completeRecord p i k s = offerReply p (acceptReply k ((s.ctx i).count.getD 0)) (recorded s p i k) := rfl

/-- A completion counts RECORDS_COMPLETE, raises REPORT_ADDED and offers its ACCEPT (R61). -/
theorem accounts_completeRecord (p : PortId) (i : Slot) (k : Key) : Accounts s (completeRecord p i k s)
    ((p, .recordsComplete) :: offerCounts p (s.port p)) 0 [.reportAdded] := by
  have hdone : Accounts s (clearCountdowns i (s.setCtx i { s.ctx i with state := .done })) [] 0 [] :=
    .same (fun _ => ⟨rfl, rfl⟩) rfl
  have hrec : Accounts s (recorded s p i k) [(p, .recordsComplete)] 0 [.reportAdded] :=
    (hdone.trans (accounts_appendEntry _ _)).trans (accounts_count _ p .recordsComplete)
  have hoffer : offerCounts p ((recorded s p i k).port p) = offerCounts p (s.port p) := by simp [recorded, offerCounts]
  have hall := hrec.trans (accounts_offerReply (recorded s p i k) p (acceptReply k ((s.ctx i).count.getD 0)))
  rwa [hoffer, ← completeRecord_eq] at hall

theorem portBecomes_completeRecord (p : PortId) (i : Slot) (k : Key) : PortBecomes s (completeRecord p i k s) p
    fun q => { q with replies := offered q (acceptReply k ((s.ctx i).count.getD 0)) } := by
  have hrec : PortBecomes s (recorded s p i k) p id := ⟨by simp [recorded], fun q _ => by simp [recorded]⟩
  rw [completeRecord_eq]
  exact portBecomes_trans hrec (portBecomes_offerReply ..) fun q q' => uncounted_offered _

/-- The completion test of R61 on a context with a key. -/
theorem completeIfFull_eq (p : PortId) {i : Slot} {k : Key} (hk : (s.ctx i).key = some k) : completeIfFull p i s =
    if (s.ctx i).count = some (s.ctx i).frags.length then completeRecord p i k s else s := by
  simp only [completeIfFull, hk, Context.complete, beq_iff_eq]

end

/-! ### The end of the last segment (R16, R59 to R61) -/

/-- The state with its buffer memory replaced. -/
def withMem (s : State) (m : Memory) : State := { s with mem := m }

@[simp] theorem withMem_frame (s : State) (m : Memory) :
    (∀ q : PortId, (withMem s m).port q = s.port q) ∧ (∀ j : Slot, (withMem s m).ctx j = s.ctx j) ∧
    (∀ j : Slot, (withMem s m).timers j = s.timers j) ∧ (withMem s m).table = s.table ∧ (withMem s m).pool = s.pool ∧
    (withMem s m).mem = m ∧ (withMem s m).timer = s.timer ∧ (withMem s m).reports = s.reports ∧
    (withMem s m).drain = s.drain ∧ (withMem s m).cmd = s.cmd ∧ (withMem s m).stats = s.stats ∧
    (withMem s m).host = s.host ∧ (withMem s m).free = s.free ∧ (withMem s m).pending = s.pending := by
  and_intros <;> intros <;> rfl

/-- A completed copy: the last segment written, the entry inserted and the countdowns loaded (R58 to R60). -/
def copied (s : State) (st : StoreClaim) (g : Seg) : State :=
  stored (withMem s (writeSegment st.payload st.current g s.mem)) st

theorem exec_lastSegment {s : State} {st : StoreClaim} {g : Seg} (hs : s.table.service = some st) (hw : st.waiting = false)
    (hg : st.segs[st.current]? = some g) (hlast : st.segs[st.current + 1]? = none) : exec .fillSegmentEnd s =
      .next (releaseFrame st.port ((completeIfFull st.port st.slot (copied s st g)).setService none)) := by
  have hend : exec .fillSegmentEnd s = .next (endSegment st s) := by
    simp only [exec, execFillSegmentEnd, hs, hw, Bool.false_eq_true, if_false]
  rw [hend]
  simp only [endSegment, hg, hlast]
  rfl

@[simp] theorem copied_frame (s : State) (st : StoreClaim) (g : Seg) :
    (copied s st g).table.lastServed = s.table.lastServed ∧ (copied s st g).table.openOrder = s.table.openOrder ∧
    (copied s st g).pool = s.pool ∧ (copied s st g).mem = writeSegment st.payload st.current g s.mem ∧
    (copied s st g).timer.tick = s.timer.tick ∧ (copied s st g).timer.divider = s.timer.divider ∧
    (copied s st g).timer.scan = s.timer.scan ∧ (copied s st g).timer.claim = s.timer.claim ∧
    (copied s st g).reports = s.reports ∧ (copied s st g).drain = s.drain ∧ (copied s st g).cmd = s.cmd ∧
    (copied s st g).host = s.host ∧ (copied s st g).free = s.free ∧ (copied s st g).pending = s.pending := by
  simp [copied]

theorem copied_ctx (s : State) (st : StoreClaim) (g : Seg) (j : Slot) :
    (copied s st g).ctx j = if j = st.slot then storedContext s st else s.ctx j := by
  simp only [copied, stored_ctx, storedContext, withMem_frame]

theorem copied_timers (s : State) (st : StoreClaim) (g : Seg) (j : Slot) :
    (copied s st g).timers j = if j = st.slot then storedTimers s st else s.timers j := by
  simp only [copied, stored_timers, storedTimers, withMem_frame]

theorem accounts_copied (s : State) (st : StoreClaim) (g : Seg) :
    Accounts s (copied s st g) [(st.port, .fragsStored)] 0 [] :=
  (Accounts.same (t := withMem s (writeSegment st.payload st.current g s.mem)) (fun q => by simp) (by simp)).trans
    (accounts_stored _ st)

theorem uncounted_copied (s : State) (st : StoreClaim) (g : Seg) (q : PortId) :
    uncounted ((copied s st g).port q) = uncounted (s.port q) := by
  rw [copied, uncounted_stored, (withMem_frame s _).1]

/-- The claim's end, after which its staging buffer is FREE, counts nothing (R16). -/
theorem accounts_endClaim (s : State) (p : PortId) : Accounts s (releaseFrame p (s.setService none)) [] 0 [] :=
  .same (fun q => by simp) rfl

/-- A table with no claim in service is another with its context records replaced. -/
theorem table_contexts {a b : Table} (openOrder : a.openOrder = b.openOrder) (lastServed : a.lastServed = b.lastServed)
    (service : a.service = none) : a = { b with contexts := a.contexts, service := none } := by
  cases a; cases b; simp_all

@[simp] theorem setService_openOrder (s : State) (c : Option StoreClaim) :
    (s.setService c).table.openOrder = s.table.openOrder := rfl

/-- Settles O26. -/
theorem storeEnds : Obligations.StoreEnds := by
  intro s st g k hs hw hg hlast hk
  have hctx : (copied s st g).ctx st.slot = storedContext s st := by rw [copied_ctx, if_pos rfl]
  have hkey : ((copied s st g).ctx st.slot).key = some k := by rw [hctx]; exact hk
  have hexec := exec_lastSegment hs hw hg hlast
  rw [completeIfFull_eq _ _ hkey, hctx] at hexec
  have hother : ∀ j, j ≠ st.slot → (copied s st g).ctx j = s.ctx j ∧ (copied s st g).timers j = s.timers j :=
    fun j hj => ⟨by rw [copied_ctx, if_neg hj], by rw [copied_timers, if_neg hj]⟩
  have hbec : PortBecomes s (copied s st g) st.port id := ⟨uncounted_copied .., fun q _ => uncounted_copied ..⟩
  have hend : ∀ (u : State) q, uncounted ((u.setService none).port q) = uncounted (u.port q) := fun u q => by
    rw [setService_port]
  have hacc := accounts_copied s st g
  refine ⟨fun hc => ?_, fun hc => ?_⟩
  · rw [if_neg hc] at hexec
    refine ⟨_, hexec, by simpa using hctx, ?_, by simp, by simpa using hacc.trans (accounts_endClaim _ st.port),
      portBecomes_releaseFrame (portBecomes_counted hbec (hend _)), by simpa using hother, ?_⟩
    · simp only [releaseFrame_frame, setService_timers, copied_timers, if_true, storedTimers]
      cases st.prior <;> rfl
    · apply state_eq
      case table => exact table_contexts (by simp) (by simp) (by simp)
      case timer => exact timer_slots (by simp) (by simp) (by simp) (by simp)
      all_goals simp
  · rw [if_pos hc] at hexec
    have hcomplete := accounts_completeRecord (copied s st g) st.port st.slot k
    have hbec' := portBecomes_trans hbec (portBecomes_completeRecord (copied s st g) st.port st.slot k)
      fun q q' => uncounted_offered _
    rw [offerCounts_congr st.port (uncounted_copied s st g st.port)] at hcomplete
    rw [hctx, hc] at hbec'
    refine ⟨_, hexec, by simp [completeRecord_ctx, hctx], by simp [completeRecord_timers], ?_,
      by simpa using (hacc.trans hcomplete).trans (accounts_endClaim _ st.port), portBecomes_releaseFrame (portBecomes_counted hbec' (hend _)),
      fun j hj => ?_, ?_⟩
    · simp [successEntry, hctx]
    · simpa [completeRecord_ctx, completeRecord_timers, hj] using hother j hj
    · apply state_eq
      case table => exact table_contexts (by simp) (by simp) (by simp)
      case timer => exact timer_slots (by simp) (by simp) (by simp) (by simp)
      all_goals simp

end Sys2Proof.Machine
end

