-- ==== Sys2Proof/Proofs/Keeps.lean ====
section
/-! SUPPORT. What every step keeps, from any state: the counters, the registers, buffer memory, the ports and their frames. One
relation, `Keeps`, and one lemma of it for each shared operation. -/

namespace Sys2Proof.Machine

open Sys2Proof.Safety

/-! ### The relations -/

/-- The frames a port assembles and stages have the right form (R4, R10, R11, R14). -/
def FramesOk (q : Port) : Prop := assemblyOk q.rx ∧ ∀ f ∈ q.staging, stagedOk f

/-- From `q` to `q'` every law of a port is kept, its counters apart. -/
structure PortKeeps (q q' : Port) : Prop where
  rate : 16 ≤ q.rate.toNat → 16 ≤ q'.rate.toNat
  quota : q.quota.toNat ≤ 1024 → q'.quota.toNat ≤ 1024
  reclimit : q.reclimit.toNat ≤ 6144 → q'.reclimit.toNat ≤ 6144
  law : PortLaw q → PortLaw q'
  frames : FramesOk q → FramesOk q'

/-- From `s` to `t` each of the five laws is kept. -/
structure Keeps (s t : State) : Prop where
  counters : CounterLaw s → CounterLaw t
  registers : RegisterLaw s → RegisterLaw t
  memory : Memory.wf s.mem = true → Memory.wf t.mem = true
  ports : PortsLaw s → PortsLaw t
  frames : FrameLaw s → FrameLaw t

theorem Keeps.refl (s : State) : Keeps s s := ⟨id, id, id, id, id⟩

theorem Keeps.trans {s t u : State} (h : Keeps s t) (h' : Keeps t u) : Keeps s u :=
  ⟨h'.counters ∘ h.counters, h'.registers ∘ h.registers, h'.memory ∘ h.memory, h'.ports ∘ h.ports, h'.frames ∘ h.frames⟩

theorem PortKeeps.refl (q : Port) : PortKeeps q q := ⟨id, id, id, id, id⟩

/-- From `q` to `q'` the parts that the laws of a port read stand: receiver, staging buffers, replies, ENABLE and the settings with
a range. -/
def SameLink (q q' : Port) : Prop :=
  q'.rx = q.rx ∧ q'.staging = q.staging ∧ q'.replies = q.replies ∧ q'.enable = q.enable ∧ q'.rate = q.rate ∧
    q'.quota = q.quota ∧ q'.reclimit = q.reclimit

/-- From `q` to `q'` the settings with a range stand. -/
def SameRange (q q' : Port) : Prop := q'.rate = q.rate ∧ q'.quota = q.quota ∧ q'.reclimit = q.reclimit

/-- Where the settings stand, the law of the port and that of its frames are to be shown. -/
theorem PortKeeps.of_law {q q' : Port} (hs : SameRange q q') (law : PortLaw q → PortLaw q')
    (frames : FramesOk q → FramesOk q') : PortKeeps q q' := by
  obtain ⟨rate, quota, reclimit⟩ := hs
  exact ⟨fun h => by rwa [rate], fun h => by rwa [quota], fun h => by rwa [reclimit], law, frames⟩

theorem PortKeeps.same {q q' : Port} (h : SameLink q q') : PortKeeps q q' := by
  obtain ⟨rx, staging, replies, enable, hs⟩ := h
  refine .of_law hs (fun h => ?_) fun h => by simpa only [FramesOk, rx, staging] using h
  obtain ⟨h1, h2, h3, h4, h5, h6⟩ := h
  constructor <;> simpa only [rx, staging, replies, enable]

/-! ### Counters -/

/-- Whatever is counted, a counter stands at 65535 exactly when its limit flag is set (R165, R170). -/
theorem counterLaw_of_accounts {s t : State} {l : List (PortId × Counter)} {n : Nat} {ev : List Event}
    (h : Accounts s t l n ev) (hs : CounterLaw s) : CounterLaw t where
  ports p c := by
    have hlaw := hs.ports p c
    have hlt := (s.counter p c).isLt
    rw [counter_eq_iff _ 65535 (by omega)] at hlaw ⊢
    rw [h.counters, h.limits, ← hlaw, reaches]
    omega
  unreported := by
    have hlaw := hs.unreported
    have hlt := s.stats.unreported.isLt
    rw [counter_eq_iff _ 65535 (by omega)] at hlaw ⊢
    rw [h.unreported, h.unreportedLimit, ← hlaw, reaches]
    omega

/-! ### The general lemmas -/

/-- From `s` to `t` the parts outside the ports and the statistics that the laws read stand, but for the command in flight. -/
def SameRest (s t : State) : Prop :=
  t.pool.low = s.pool.low ∧ t.timer.tick = s.timer.tick ∧ t.timer.divider = s.timer.divider ∧ t.host = s.host ∧ t.mem = s.mem

/-- From `s` to `t` every part that the laws read stands, but for the command in flight. -/
def SameAll (s t : State) : Prop := (∀ p, t.port p = s.port p) ∧ t.stats = s.stats ∧ SameRest s t

/-- Outside an asserted RESET# the timebase is stopped exactly when TICK is 0, and a loaded period is in range (R89, R90). -/
def TimebaseOk (s : State) : Prop :=
  (s.host.phase ≠ .resetAsserted → (s.timer.divider = none ↔ s.timer.tick = 0#16)) ∧
    ∀ d, s.timer.divider = some d → 1 ≤ d ∧ d ≤ 16776960

/-- The laws, part by part. -/
theorem keeps_parts {s t : State} (counters : CounterLaw s → CounterLaw t) (ports : ∀ p, PortKeeps (s.port p) (t.port p))
    (low : s.pool.low.toNat ≤ 1024 → t.pool.low.toNat ≤ 1024) (timebase : TimebaseOk s → TimebaseOk t)
    (command : RegisterLaw s → ∀ f, t.cmd.inFlight = some f → operandsOk f.code f.operands = true)
    (memory : Memory.wf s.mem = true → Memory.wf t.mem = true) : Keeps s t := by
  refine ⟨counters, fun hs => ?_, memory, fun hs p => (ports p).law (hs p), fun hs p => (ports p).frames (hs p)⟩
  obtain ⟨htimebase, hperiod⟩ := timebase ⟨hs.timebase, hs.period⟩
  exact ⟨fun p => (ports p).rate (hs.rate p), fun p => (ports p).quota (hs.quota p),
    fun p => (ports p).reclimit (hs.reclimit p), low hs.low, htimebase, hperiod, command hs⟩

/-- A change that moves no timebase keeps the laws when it keeps those of each port and of the command in flight. -/
theorem keeps_of {s t : State} (hc : CounterLaw s → CounterLaw t) (hp : ∀ p, PortKeeps (s.port p) (t.port p))
    (command : RegisterLaw s → ∀ f, t.cmd.inFlight = some f → operandsOk f.code f.operands = true)
    (hr : SameRest s t) : Keeps s t := by
  obtain ⟨low, tick, divider, host, mem⟩ := hr
  refine keeps_parts hc hp (by rw [low]; exact id) ?_ command (by rw [mem]; exact id)
  rw [TimebaseOk, TimebaseOk, host, tick, divider]
  exact id

/-- A change of ports and counters. -/
theorem keeps_ports {s t : State} {l : List (PortId × Counter)} {n : Nat} {ev : List Event} (h : Accounts s t l n ev)
    (hp : ∀ p, PortKeeps (s.port p) (t.port p)) (hr : SameRest s t) (cmd : t.cmd = s.cmd) : Keeps s t :=
  keeps_of (counterLaw_of_accounts h) hp (fun hs f hf => hs.command f (by rwa [← cmd])) hr

/-- A change of the command unit and of nothing else that the laws read. -/
theorem keeps_command {s t : State} (h : SameAll s t)
    (command : RegisterLaw s → ∀ f, t.cmd.inFlight = some f → operandsOk f.code f.operands = true) : Keeps s t := by
  obtain ⟨port, stats, hr⟩ := h
  exact keeps_of (counterLaw_of_accounts (.same (fun p => by rw [port]; exact ⟨rfl, rfl⟩) stats))
    (fun p => by rw [port]; exact .refl _) command hr

/-- A change outside what the laws read. -/
theorem keeps_outside {s t : State} (h : SameAll s t) (cmd : t.cmd.inFlight = s.cmd.inFlight) : Keeps s t :=
  keeps_command h fun hs f hf => hs.command f (by rwa [← cmd])

/-- A change of the timer unit or the host port, with the timebase kept. -/
theorem keeps_timebase {s t : State} (port : ∀ p, t.port p = s.port p) (stats : t.stats = s.stats)
    (low : t.pool.low = s.pool.low) (cmd : t.cmd = s.cmd) (mem : t.mem = s.mem) (timebase : TimebaseOk s → TimebaseOk t) :
    Keeps s t :=
  keeps_parts (counterLaw_of_accounts (.same (fun p => by rw [port]; exact ⟨rfl, rfl⟩) stats)) (fun p => by rw [port]; exact .refl _)
    (by rw [low]; exact id) timebase (fun hs f hf => hs.command f (by rwa [← cmd])) (by rw [mem]; exact id)

/-- A change of one port that leaves its counters and limit flags. -/
theorem keeps_modifyPort {s : State} {p : PortId} {f : Port → Port} (h : PortKeeps (s.port p) (f (s.port p)))
    (counters : (f (s.port p)).counters = (s.port p).counters) (limits : (f (s.port p)).limits = (s.port p).limits) :
    Keeps s (s.modifyPort p f) :=
  keeps_ports (accounts_modifyPort s p f counters limits) (fun q => by
    rw [modifyPort_port]
    split
    · next e => subst e; exact h
    · exact .refl _) (by simp [SameRest]) rfl

section
variable (s : State)

/-! ### Events and counters -/

theorem keeps_raise (e : Event) : Keeps s (raise e s) :=
  keeps_ports (accounts_raise s e) (fun _ => .refl _) (by simp [SameRest]) rfl

theorem keeps_count (p : PortId) (c : Counter) : Keeps s (count p c s) :=
  keeps_ports (accounts_count s p c) (fun q => .same (by simp [SameLink])) (by simp [SameRest]) (by simp)

theorem keeps_countMany (p : PortId) (c : Counter) (n : Nat) : Keeps s (countMany p c n s) := by
  induction n generalizing s with
  | zero => exact .refl s
  | succ n ih => exact (keeps_count s p c).trans (ih _)

theorem limitFlag_clearCounter (p q : PortId) (c d : Counter) :
    (clearCounter p c s).limitFlag q d = (s.limitFlag q d && !decide (q = p ∧ d = c)) := by
  simp only [State.limitFlag, clearCounter, modifyPort_port]
  by_cases hq : q = p
  · subst hq
    cases c <;> cases d <;> simp [counterIdx]
  · simp [hq]

/-- A cleared counter stands at 0 with its limit flag clear (R167). -/
theorem keeps_clearCounter (p : PortId) (c : Counter) : Keeps s (clearCounter p c s) := by
  have hcounter : ∀ q d, (clearCounter p c s).counter q d = if q = p ∧ d = c then 0#16 else s.counter q d := fun q d =>
    counter_modifyPort_set s p q c d 0#16 _ fun _ => rfl
  refine keeps_of (fun h => ⟨fun q d => ?_, h.unreported⟩) (fun q => .same ?_) (fun hs => hs.command) (by simp [SameRest])
  · rw [hcounter, limitFlag_clearCounter]
    by_cases hqd : q = p ∧ d = c
    · rw [if_pos hqd]
      simp [hqd]
    · rw [if_neg hqd, h.ports]
      simp [hqd]
  · rw [clearCounter, modifyPort_port]
    split <;> simp [SameLink, *]

theorem keeps_clearLimits (p : PortId) (v : Word) : Keeps s (clearLimits p v s) := by
  unfold clearLimits
  generalize allCounters = l
  induction l generalizing s with
  | nil => exact .refl s
  | cons c l ih =>
    refine Keeps.trans ?_ (ih _)
    dsimp only
    split
    · exact keeps_clearCounter s p c
    · exact .refl s

theorem keeps_clearUnreported : Keeps s (clearUnreported s) :=
  keeps_of (fun h => ⟨h.ports, by simp [clearUnreported]⟩) (fun _ => .refl _) (fun hs => hs.command) ⟨rfl, rfl, rfl, rfl, rfl⟩

/-- The host's writes to EVENTS and EVENT_ENABLE. -/
theorem keeps_flags (events enable : BitVec 9) :
    Keeps s { s with stats := { s.stats with events := events, enable := enable } } :=
  keeps_of (fun h => ⟨h.ports, h.unreported⟩) (fun _ => .refl _) (fun hs => hs.command) ⟨rfl, rfl, rfl, rfl, rfl⟩

/-! ### Reports and replies -/

theorem keeps_appendEntry (e : ReportEntry) : Keeps s (appendEntry e s) :=
  keeps_ports (accounts_appendEntry s e) (fun _ => .refl _) (by simp [SameRest]) rfl

theorem keeps_appendFailure (e : ReportEntry) : Keeps s (appendFailure e s) :=
  keeps_ports (accounts_appendFailure s e) (fun q => .same (by simp [SameLink])) (by simp [SameRest]) (by simp)

/-- A reply admitted to the queue of a receiver that is not OFF (R109, R110). -/
theorem portKeeps_admit {q : Port} (r : Reply) (hoff : q.rx.state ≠ .off) (hlen : q.replies.length < 8) :
    PortKeeps q { q with replies := q.replies ++ [r] } :=
  .of_law ⟨rfl, rfl, rfl⟩ (fun h => ⟨h.enable, fun e => absurd e hoff, h.offChar, h.timer,
    by rw [List.length_append, List.length_singleton]; omega, h.staging⟩) id

theorem keeps_offerReply (p : PortId) (r : Reply) : Keeps s (offerReply p r s) := by
  unfold offerReply
  split
  · next h => exact keeps_modifyPort (portKeeps_admit r h.1 h.2) rfl rfl
  · exact keeps_count s p _

/-! ### Contexts -/

theorem keeps_freeContext (i : Slot) : Keeps s (freeContext i s) :=
  keeps_ports (accounts_freeContext s i) (fun q => .same (by simp [freeContext_port, SameLink])) (by simp [SameRest]) (by simp)

theorem keeps_failContext (i : Slot) (st : ReportStatus) : Keeps s (failContext i st s) := by
  unfold failContext
  split
  · exact (keeps_appendFailure s _).trans ((keeps_count _ _ _).trans (keeps_freeContext _ i))
  · exact .refl s

theorem keeps_openContext (i : Slot) (k : Key) (st : CtxState) (pinned : Bool) : Keeps s (openContext i k st pinned s) :=
  keeps_outside (by simp [SameAll, SameRest]) rfl

theorem keeps_forgetKey (k : Key) : Keeps s (forgetKey k s) :=
  keeps_ports (.same (fun q => by simp) rfl) (fun q => .same (by simp [SameLink])) (by simp [SameRest]) rfl

theorem keeps_rememberKey (k : Key) (n : Nat) : Keeps s (rememberKey k n s) :=
  keeps_ports (.same (fun q => by simp) rfl) (fun q => .same (by simp [SameLink])) (by simp [SameRest]) rfl

theorem keeps_allocate (p : PortId) (n : Nat) : Keeps s (allocate p n s) := by
  obtain ⟨hpool, hport⟩ := allocate_pool s p n
  refine keeps_ports (accounts_allocate s p n) (fun q => .same ?_) (by simp [SameRest, hpool]) (by simp)
  rw [hport]
  split <;> simp [SameLink, *]

end

end Sys2Proof.Machine
end

