-- ==== Sys2Proof/Proofs/KeepsReceiver.lean ====
section
/-! SUPPORT. The receivers keep the laws of the ports and of their frames (R2, R4, R8 to R15, R20, R21). -/

namespace Sys2Proof.Machine

open Sys2Proof.Safety

/-! ### Changes of a receiver -/

/-- A receiver that stays on, with ENABLE as it reads, its timer stopped in HUNT, and its assembly of the right form. -/
theorem portKeeps_rx {q : Port} {r : Receiver}
    (enable : r.state = .hunt ∨ r.state = .receiving ↔ q.rx.state = .hunt ∨ q.rx.state = .receiving) (off : r.state ≠ .off)
    (timer : PortLaw q → r.state = .hunt → r.timer = .stopped) (assembly : assemblyOk q.rx → assemblyOk r) :
    PortKeeps q { q with rx := r } :=
  .of_law ⟨rfl, rfl, rfl⟩ (fun h => ⟨h.enable.trans enable.symm, fun e => absurd e off, fun e => absurd e off,
    fun e => timer h (e.resolve_left off), h.queue, h.staging⟩) fun h => ⟨assembly h.1, h.2⟩

/-- A receiver in OFF, with ENABLE clear and its replies gone (R8, R20, R21). -/
theorem portKeeps_off {q : Port} (en : Bool) (enable : PortLaw q → en = false) : PortKeeps q { q with
    enable := en, rx := Receiver.noFrame .off (.between none), replies := [] } :=
  .of_law ⟨rfl, rfl, rfl⟩ (fun h => ⟨by simp [enable h, Receiver.noFrame], fun _ => rfl, fun _ => rfl, fun _ => rfl,
    Nat.zero_le _, h.staging⟩) fun h => ⟨by simp [assemblyOk, Receiver.noFrame], h.2⟩

theorem modifyPort_self (s : State) (p : PortId) : (s.modifyPort p fun q => q) = s := by
  show ({ s with ports := s.ports.set p.val s.ports[p.val] } : State) = s
  rw [Vector.set_getElem_self]

section
variable {s : State} {p : PortId}

/-- The replies discarded after a change of the port (R20). -/
theorem keeps_discardReplies_after {f : Port → Port} (h : PortKeeps (s.port p) { f (s.port p) with replies := [] })
    (counters : (f (s.port p)).counters = (s.port p).counters) (limits : (f (s.port p)).limits = (s.port p).limits) :
    Keeps s (discardReplies p (s.modifyPort p f)) := by
  rw [discardReplies, modifyPort_modifyPort]
  have hm : Keeps s (s.modifyPort p fun q => { f q with replies := [] }) := keeps_modifyPort h counters limits
  exact hm.trans (keeps_countMany _ p _ _)

/-- The entry into OFF after a change of the port (R20, R21). -/
theorem keeps_enterOff_after {f : Port → Port}
    (h : PortKeeps (s.port p) { f (s.port p) with rx := Receiver.noFrame .off (.between none), replies := [] })
    (counters : (f (s.port p)).counters = (s.port p).counters) (limits : (f (s.port p)).limits = (s.port p).limits) :
    Keeps s (enterOff p (s.modifyPort p f)) := by
  have hdiscard : Keeps s (discardReplies p (setRx p (Receiver.noFrame .off (.between none)) (s.modifyPort p f))) := by
    rw [setRx, modifyPort_modifyPort]
    exact keeps_discardReplies_after h counters limits
  unfold enterOff
  dsimp only
  split
  · exact hdiscard.trans (keeps_raise _ _)
  · exact hdiscard

/-! ### The end of a frame -/

theorem keeps_endFrame (ch : CharPhase) (h : (s.port p).rx.inFrame) : Keeps s (endFrame p ch s) := by
  unfold endFrame
  split
  · next hs =>
    have hoff := keeps_enterOff_after (s := s) (p := p) (f := fun q => q)
      (portKeeps_off (s.port p).enable fun hl => by
        rw [← Bool.not_eq_true, hl.enable, hs]
        decide) rfl rfl
    rwa [modifyPort_self] at hoff
  · next hs =>
    have hr : (s.port p).rx.state = .receiving := h.resolve_right hs
    exact keeps_modifyPort (portKeeps_rx (by simp [Receiver.noFrame, hr]) (by simp [Receiver.noFrame]) (fun _ _ => rfl)
      fun _ => by simp [assemblyOk, Receiver.noFrame]) rfl rfl

theorem keeps_dropFrame (ch : CharPhase) (h : (s.port p).rx.inFrame) : Keeps s (dropFrame p ch s) :=
  (keeps_count s p .framesBad).trans (keeps_endFrame ch (by simpa using h))

/-- A frame that passes the checks of R14 with its assembly whole is staged in the form that R14 and R15 give. -/
theorem stagedOk_assembled (h : (s.port p).rx.inFrame) (hp : (s.port p).rx.position = .crcHigh)
    (ha : assemblyOk (s.port p).rx) (hf : formOk (s.port p).addr (s.port p).rx.len (s.port p).rx.body = true) :
    stagedOk (assembled s p) := by
  have hlen := ha h
  rw [hp] at hlen
  obtain ⟨h5, h101, hbody⟩ := hlen
  simp only [formOk, Bool.and_eq_true, Bool.or_eq_true, beq_iff_eq, Bool.not_eq_true'] at hf
  obtain ⟨⟨⟨⟨⟨-, hstation⟩, -⟩, hkind⟩, hindex⟩, hpayload⟩ := hf
  refine ⟨hbody, h5, h101, hstation, or_assoc.1 hkind, hindex, fun hk => ?_⟩
  have hk' : bodyByte (s.port p).rx.body 2 = kindFrag := hk
  rw [if_pos hk', bne_iff_ne] at hpayload
  exact Nat.lt_of_le_of_ne h5 (Ne.symm hpayload)

/-- A frame staged behind the one before it, in the other buffer (R15). -/
theorem stagingOk_concat {l : List StagedFrame} {f : StagedFrame} (h : stagingOk l) (hl : l.length < 2)
    (hb : ∀ g ∈ l, g.bufferB ≠ f.bufferB) (hf : f.inService = false) : stagingOk (l ++ [f]) := by
  obtain ⟨-, hnodup, hwait⟩ := h
  refine ⟨by rw [List.length_append, List.length_singleton]; omega, ?_, fun g hg => ?_⟩
  · rw [List.map_append, List.nodup_append]
    refine ⟨hnodup, by simp, fun a ha b hb' => ?_⟩
    obtain ⟨g, hg, rfl⟩ := List.mem_map.1 ha
    rw [List.mem_singleton.1 hb']
    exact hb g hg
  · match l, hl with
    | [], _ => simp at hg
    | [x], _ => simp only [List.singleton_append, List.drop_one, List.tail_cons, List.mem_singleton] at hg; rw [hg]; exact hf

theorem keeps_stageFrame (h : (s.port p).rx.inFrame) (hp : (s.port p).rx.position = .crcHigh)
    (hs : (s.port p).staging.length < 2) (hf : formOk (s.port p).addr (s.port p).rx.len (s.port p).rx.body = true) :
    Keeps s (stageFrame p s) := by
  refine keeps_ports (accounts_stageFrame s p) (fun q => ?_) (by simp [SameRest, stageFrame]) rfl
  rw [stageFrame_port]
  split
  · next e =>
    subst e
    refine .of_law ⟨rfl, rfl, rfl⟩ (fun hl => ⟨hl.enable, hl.offQueue, hl.offChar, hl.timer, hl.queue, ?_⟩)
      fun hl => ⟨hl.1, fun f hf' => ?_⟩
    · exact stagingOk_concat hl.staging hs (freeBuffer_free hs) rfl
    · rcases List.mem_append.1 hf' with hf' | hf'
      · exact hl.2 f hf'
      · rw [List.mem_singleton.1 hf']
        exact stagedOk_assembled h hp hl.1 hf
  · exact .refl _

theorem keeps_judgeFrame (v : Byte) (h : (s.port p).rx.inFrame) (hp : (s.port p).rx.position = .crcHigh) :
    Keeps s (judgeFrame p v s) ∧ ((judgeFrame p v s).port p).rx = (s.port p).rx := by
  have hgood := keeps_count s p .framesGood
  unfold judgeFrame
  dsimp only
  split
  · exact ⟨keeps_count s p .framesBad, by simp⟩
  · split
    · exact ⟨hgood.trans (keeps_count _ p .framesBad), by simp⟩
    · split
      · next hs hf =>
        refine ⟨hgood.trans (keeps_stageFrame (by simpa using h) (by simpa using hp) ?_ (by simpa using hf)), ?_⟩
        · simp only [count_port_frame]
          omega
        · rw [stageFrame_port, if_pos rfl]
          simp
      · exact ⟨hgood.trans (keeps_count _ p .framesIgnored), by simp⟩

end

end Sys2Proof.Machine
end

