-- ==== Sys2Proof/Proofs/KeepsCharacter.lean ====
section
/-! SUPPORT. Every row of a receiver or transmitter keeps the laws (R2, R8 to R15, R18, R20, R21). -/

namespace Sys2Proof.Machine

open Sys2Proof.Safety

section
variable {s : State} {p : PortId}

/-! ### Changes of a receiver's line and frame -/

/-- In HUNT only the place on the line moves. -/
theorem keeps_char (ch : CharPhase) (h : (s.port p).rx.state ≠ .off) :
    Keeps s (setRx p { (s.port p).rx with char := ch } s) :=
  keeps_modifyPort (portKeeps_rx (by simp) h (fun hl e => hl.timer (.inr e)) fun ha => ha) rfl rfl

/-- Inside a frame, a character taken in keeps the receiver's state; the assembly is to be shown. -/
theorem keeps_assembly {r : Receiver} (hin : (s.port p).rx.inFrame) (hstate : r.state = (s.port p).rx.state)
    (assembly : assemblyOk (s.port p).rx → assemblyOk r) : Keeps s (setRx p r s) := by
  refine keeps_modifyPort (portKeeps_rx (by rw [hstate]) ?_ (fun _ e => ?_) assembly) rfl rfl
  · rw [hstate]
    rcases hin with e | e <;> simp [e]
  · rw [hstate] at e
    rcases hin with e' | e' <;> simp [e] at e'

theorem keeps_takeGood_inFrame (v : Byte) (h : (s.port p).rx.inFrame) : Keeps s (takeGood p v s) := by
  cases hp : (s.port p).rx.position with
  | awaitingLen =>
    by_cases hv : validLen v = true
    · rw [takeGood_len h hp hv]
      refine keeps_assembly h rfl fun ha _ => ?_
      have hbody := ha h
      rw [hp] at hbody
      obtain ⟨h5, h101⟩ := (validLen_iff v).1 hv
      simp only [hbody, List.length_nil]
      omega
    · rw [takeGood_badLen h hp hv]
      exact keeps_dropFrame _ h
  | bodyByte =>
    rw [takeGood_body h hp]
    refine keeps_assembly h rfl fun ha _ => ?_
    have hbody := ha h
    rw [hp] at hbody
    obtain ⟨h5, h101, hlt⟩ := hbody
    by_cases hl : ((s.port p).rx.body ++ [v]).length = (s.port p).rx.len
    · simp only [bodyPosition, if_pos hl]
      exact ⟨h5, h101, hl⟩
    · simp only [bodyPosition, if_neg hl]
      rw [List.length_append, List.length_singleton] at hl ⊢
      omega
  | crcLow =>
    rw [takeGood_crcLow h hp]
    refine keeps_assembly h rfl fun ha _ => ?_
    have hbody := ha h
    rwa [hp] at hbody
  | crcHigh =>
    rw [takeGood_crcHigh h hp]
    obtain ⟨hk, hrx⟩ := keeps_judgeFrame v h hp
    exact hk.trans (keeps_endFrame _ (by rw [hrx]; exact h))

theorem keeps_takeGood (v : Byte) (h : (s.port p).rx.state ≠ .off) : Keeps s (takeGood p v s) := by
  by_cases hin : (s.port p).rx.inFrame
  · exact keeps_takeGood_inFrame v hin
  have hh : (s.port p).rx.state = .hunt := by
    cases hs : (s.port p).rx.state <;> simp_all [Receiver.inFrame]
  by_cases hv : v = 0xC3#8
  · subst hv
    rw [takeGood_sync hh]
    exact keeps_modifyPort (portKeeps_rx (by simp [Receiver.noFrame, hh]) (by simp [Receiver.noFrame])
      (fun _ e => by simp [Receiver.noFrame] at e) fun _ _ => by simp [Receiver.noFrame]) rfl rfl
  · rw [takeGood_skipped hh hv]
    exact keeps_char _ h

theorem keeps_takeBad (h : (s.port p).rx.state ≠ .off) : Keeps s (takeBad p s) := by
  by_cases hin : (s.port p).rx.inFrame
  · rw [takeBad_inFrame hin]
    exact keeps_dropFrame _ hin
  · have hh : (s.port p).rx.state = .hunt := by
      cases hs : (s.port p).rx.state <;> simp_all [Receiver.inFrame]
    rw [takeBad_hunt hh]
    exact keeps_char _ h

/-! ### The rows of a receiver -/

theorem keeps_takeCharacter (c : Character) : Keeps s (takeCharacter p c s) := by
  by_cases hoff : (s.port p).rx.state = .off
  · rw [takeCharacter_off c hoff]
    exact .refl s
  by_cases hc : (s.port p).rx.char = .startConfirmed
  · cases c with
    | good v => rw [takeCharacter_good v hc]; exact keeps_takeGood v hoff
    | framingError => rw [takeCharacter_bad hc]; exact keeps_takeBad hoff
  · rw [takeCharacter_none c hc]
    exact .refl s

theorem keeps_sampleLine (samples : List Bool) : Keeps s (sampleLine p samples s) := by
  unfold sampleLine
  dsimp only
  split
  · exact .refl s
  · next hoff => exact keeps_char _ hoff
  · exact .refl s

theorem keeps_checkStart (level : Bool) (h : (s.port p).rx.state ≠ .off) :
    Keeps s (setRx p (checkStart (s.port p).rx level) s) := by
  have hstate : (checkStart (s.port p).rx level).state = (s.port p).rx.state := by unfold checkStart; split <;> rfl
  refine keeps_modifyPort (portKeeps_rx (by rw [hstate]) (by rwa [hstate]) (fun hl e => ?_) fun ha => ?_) rfl rfl
  · rw [hstate] at e
    have ht := hl.timer (.inr e)
    simp [checkStart, apply_ite Receiver.timer, ht]
  · unfold checkStart
    split <;> exact ha

/-! ### The rows of a transmitter -/

/-- A transmitter that begins the head reply, whatever it was at before (R18). -/
theorem keeps_sendHead {r : Reply} {rest : List Reply} (tx : Port → Option Transmission) (hr : (s.port p).replies = r :: rest) :
    Keeps s (s.modifyPort p fun q => { q with replies := rest, tx := tx q }) :=
  keeps_modifyPort (.of_law ⟨rfl, rfl, rfl⟩ (fun h => ⟨h.enable, fun e => absurd (h.offQueue e) (by simp [hr]), h.offChar, h.timer,
    by have hq := h.queue; rw [hr, List.length_cons] at hq; exact Nat.le_of_succ_le hq, h.staging⟩) id) rfl rfl

theorem keeps_startReply : Keeps s (startReply p s) := by
  cases ht : (s.port p).tx with
  | some x => rw [startReply_none (.inl (by simp [ht]))]; exact .refl s
  | none =>
    cases hr : (s.port p).replies with
    | nil => rw [startReply_none (.inr hr)]; exact .refl s
    | cons r rest => rw [startReply_idle ht hr]; exact keeps_sendHead _ hr

theorem keeps_tx (tx : Option Transmission) : Keeps s (s.modifyPort p fun q => { q with tx := tx }) :=
  keeps_modifyPort (.same (by simp [SameLink])) rfl rfl

theorem keeps_endReply (t : Transmission) : Keeps s (endReply p t s) := (keeps_tx _).trans (keeps_count _ p _)

theorem keeps_endGuard : Keeps s (endGuard p s) := by
  cases hr : (s.port p).replies with
  | cons r rest => rw [endGuard_reply hr]; exact keeps_sendHead _ hr
  | nil =>
    simp only [endGuard, modifyPort_port_same, hr]
    split
    · exact (keeps_tx none).trans (keeps_raise _ _)
    · exact keeps_tx none

end

end Sys2Proof.Machine
end

