-- ==== Sys2Proof/Proofs/KeepsFrames.lean ====
section
/-! SUPPORT. The frame claims and the fill copy keep the laws (R15, R16, R50 to R72, R83). -/

namespace Sys2Proof.Machine

open Sys2Proof.Safety

section
variable (s : State)

/-! ### Updates outside what the laws read -/

theorem keeps_setCtx (i : Slot) (c : Context) : Keeps s (s.setCtx i c) := keeps_outside (by simp [SameAll, SameRest]) rfl

theorem keeps_setTimers (i : Slot) (v : SlotTimers) : Keeps s (s.setTimers i v) := keeps_outside (by simp [SameAll, SameRest]) rfl

theorem keeps_setService (c : Option StoreClaim) : Keeps s (s.setService c) := keeps_outside (by simp [SameAll, SameRest]) rfl

theorem keeps_setLastServed (c : Claimant) : Keeps s (s.setLastServed c) := keeps_outside (by simp [SameAll, SameRest]) rfl

theorem keeps_setDrain (d : DrainPort) : Keeps s (s.setDrain d) := keeps_outside (by simp [SameAll, SameRest]) rfl

/-! ### Staging buffers (R15, R16) -/

/-- A port whose staging buffers change, with their law and that of their frames kept. -/
theorem portKeeps_staging {q : Port} {l : List StagedFrame} (staging : stagingOk q.staging → stagingOk l)
    (frames : (∀ f ∈ q.staging, stagedOk f) → ∀ f ∈ l, stagedOk f) : PortKeeps q { q with staging := l } :=
  .of_law ⟨rfl, rfl, rfl⟩ (fun h => ⟨h.enable, h.offQueue, h.offChar, h.timer, h.queue, staging h.staging⟩)
    fun h => ⟨h.1, frames h.2⟩

theorem keeps_serveFrame (p : PortId) : Keeps s (serveFrame p s) := by
  refine keeps_modifyPort (portKeeps_staging ?_ ?_) rfl rfl
  · cases (s.port p).staging with
    | nil => exact id
    | cons f rest => exact fun h => h
  · cases (s.port p).staging with
    | nil => exact id
    | cons f rest => simp only [List.forall_mem_cons]; exact fun h => h

theorem keeps_releaseFrame (p : PortId) : Keeps s (releaseFrame p s) := by
  refine keeps_modifyPort (portKeeps_staging (fun h => ?_) fun h f hf => h f (List.mem_filter.1 hf).1) rfl rfl
  obtain ⟨hlen, hnodup, -⟩ := h
  refine ⟨(List.length_filter_le ..).trans hlen, hnodup.sublist (List.filter_sublist.map _), fun f hf => ?_⟩
  simpa using (List.mem_filter.1 (List.mem_of_mem_drop hf)).2

/-! ### The store (R57 to R61) -/

theorem keeps_insertEntry (st : StoreClaim) : Keeps s (insertEntry st s) := (keeps_setCtx s _ _).trans (keeps_count _ _ _)

theorem keeps_loadAfterStore (st : StoreClaim) : Keeps s (loadAfterStore st s) := by
  unfold loadAfterStore
  dsimp only
  split
  · exact keeps_setTimers s _ _
  · exact keeps_setTimers s _ _
  · exact (keeps_setCtx s _ _).trans ((keeps_setTimers _ _ _).trans (keeps_setTimers _ _ _))

theorem keeps_completeRecord (p : PortId) (i : Slot) (k : Key) : Keeps s (completeRecord p i k s) := by
  have hdone : Keeps s (clearCountdowns i (s.setCtx i { s.ctx i with state := .done })) :=
    (keeps_setCtx s _ _).trans (keeps_setTimers _ _ _)
  exact ((hdone.trans (keeps_appendEntry _ _)).trans (keeps_count _ _ _)).trans (keeps_offerReply _ _ _)

theorem keeps_completeIfFull (p : PortId) (i : Slot) : Keeps s (completeIfFull p i s) := by
  unfold completeIfFull
  split
  · split
    · exact keeps_completeRecord s p i _
    · exact .refl s
  · exact .refl s

theorem keeps_finishStore (st : StoreClaim) : Keeps s (finishStore st s) :=
  (keeps_insertEntry s st).trans <| (keeps_loadAfterStore _ st).trans <| (keeps_completeIfFull _ _ _).trans <|
    (keeps_setService _ none).trans (keeps_releaseFrame _ _)

theorem keeps_withMem {m : Memory} (h : Memory.wf s.mem = true → Memory.wf m = true) : Keeps s (withMem s m) :=
  keeps_parts (fun hs => ⟨hs.ports, hs.unreported⟩) (fun _ => .refl _) id id (fun hs => hs.command) h

theorem keeps_endSegment (st : StoreClaim) : Keeps s (endSegment st s) := by
  have hnext : ∀ u : State, Keeps u (match st.segs[st.current + 1]? with
      | some g => u.setService (some { st with current := st.current + 1, waiting := u.fillBlocked g })
      | none => finishStore st u) := fun u => by
    split
    · exact keeps_setService u _
    · exact keeps_finishStore u st
  unfold endSegment
  dsimp only
  cases st.segs[st.current]? with
  | none => exact hnext s
  | some g => exact (keeps_withMem s (wf_writeSegment _ _ _ _)).trans (hnext _)

theorem keeps_beginStore (p : PortId) (i : Slot) (prior : CtxState) (f : StagedFrame) : Keeps s (beginStore p i prior f s) :=
  (keeps_allocate s p _).trans (keeps_setService _ _)

/-! ### FRAG (R50 to R68) -/

theorem keeps_answerLate (p : PortId) (k : Key) (n : Nat) : Keeps s (answerLate p k n s) :=
  (keeps_count s _ _).trans ((keeps_offerReply _ _ _).trans (keeps_releaseFrame _ p))

theorem keeps_refuseFrag (p : PortId) (f : StagedFrame) : Keeps s (refuseFrag p f s) :=
  (keeps_offerReply s _ _).trans ((keeps_count _ _ _).trans (keeps_releaseFrame _ p))

theorem keeps_fragOnContext (p : PortId) (i : Slot) (f : StagedFrame) : Keeps s (fragOnContext p i f s) := by
  have hfail : ∀ st, Keeps s (releaseFrame p (failContext i st s)) := fun st =>
    (keeps_failContext s i st).trans (keeps_releaseFrame _ p)
  unfold fragOnContext
  dsimp only
  split
  · exact (keeps_count s _ _).trans (keeps_releaseFrame _ p)
  split
  · exact hfail _
  split
  · exact hfail _
  split
  · exact keeps_beginStore s p i _ f
  · exact keeps_refuseFrag s p f

theorem keeps_openAndStore (p : PortId) (i : Slot) (f : StagedFrame) : Keeps s (openAndStore p i f s) :=
  (keeps_openContext s i _ _ _).trans (keeps_beginStore _ p i _ f)

theorem keeps_findWay (p : PortId) (f : StagedFrame) : Keeps s (findWay p f s) := by
  unfold findWay
  dsimp only
  split
  · exact keeps_openAndStore s p _ f
  split
  · split
    · exact (keeps_failContext s _ _).trans (keeps_openAndStore _ p _ f)
    · exact keeps_refuseFrag s p f
  · exact keeps_refuseFrag s p f

theorem keeps_firstFragment (p : PortId) (f : StagedFrame) : Keeps s (firstFragment p f s) := by
  unfold firstFragment
  split
  · exact keeps_answerLate s p _ _
  split
  · exact (keeps_appendFailure s _).trans ((keeps_count _ _ _).trans (keeps_releaseFrame _ p))
  split
  · exact keeps_findWay s p f
  · exact keeps_refuseFrag s p f

theorem keeps_handleFrag (p : PortId) (f : StagedFrame) : Keeps s (handleFrag p f s) := by
  unfold handleFrag
  split
  · split
    · exact keeps_answerLate s p _ _
    · exact keeps_answerLate s p _ _
    · exact keeps_fragOnContext s p _ f
  · exact keeps_firstFragment s p f

/-! ### ABORT and QUERY (R69 to R72) -/

theorem keeps_abortEffect (p : PortId) (f : StagedFrame) : Keeps s (abortEffect p f s) := by
  unfold abortEffect
  split
  · split
    · exact keeps_failContext s _ _
    · exact keeps_failContext s _ _
    · exact keeps_count s _ _
    · exact keeps_count s _ _
    · exact .refl s
  · split
    · exact keeps_count s _ _
    · exact .refl s

theorem keeps_handleAbort (p : PortId) (f : StagedFrame) : Keeps s (handleAbort p f s) :=
  (keeps_abortEffect s p f).trans (keeps_releaseFrame _ p)

theorem keeps_handleQuery (p : PortId) (f : StagedFrame) : Keeps s (handleQuery p f s) :=
  (keeps_offerReply s _ _).trans (keeps_releaseFrame _ p)

/-! ### The claim taken (R15, R45) -/

/-- A frame claim keeps the laws when its handling does. -/
theorem keeps_takeFrame {kind : Byte} {handle : PortId → StagedFrame → State → State}
    (h : ∀ (u : State) (p : PortId) (f : StagedFrame), Keeps u (handle p f u)) : Keeps s (takeFrame kind handle s) := by
  unfold takeFrame
  split
  · split
    · split
      · exact (keeps_setLastServed s _).trans ((keeps_serveFrame _ _).trans (h _ _ _))
      · exact .refl s
    · exact .refl s
  · exact .refl s

end

end Sys2Proof.Machine
end

