-- ==== Sys2Proof/Proofs/KeepsUnits.lean ====
section
/-! SUPPORT. The command unit, the timer unit, the return engine, the drain port and the resets keep the laws. -/

namespace Sys2Proof.Machine

open Sys2Proof.Safety

section
variable (s : State)

/-! ### The command unit (R144, R147) -/

theorem keeps_completeCommand (st : CommandStatus) (results : List Word) : Keeps s (completeCommand st results s) := by
  have hcmd : Keeps s { s with cmd := { s.cmd with status := st.code, results := resultWords results, inFlight := none } } :=
    keeps_command (by simp [SameAll, SameRest]) fun _ _ hf => by cases hf
  exact hcmd.trans (keeps_raise _ _)

theorem keeps_completeAtOnce (code : Byte) (st : CommandStatus) : Keeps s (completeAtOnce code st s) := by
  have hcode : Keeps s { s with cmd := { s.cmd with cmd := code } } := keeps_outside (by simp [SameAll, SameRest]) rfl
  exact hcode.trans (keeps_completeCommand _ st [])

theorem keeps_acceptCommand (code : Byte) (c : CommandCode) (h : operandsOk c s.cmd.operands = true) :
    Keeps s (acceptCommand code c s) :=
  keeps_command (by simp [SameAll, SameRest, acceptCommand]) fun _ f hf => by cases hf; exact h

theorem keeps_writeCmd (v : Word) : Keeps s (writeCmd v s) := by
  unfold writeCmd
  dsimp only
  split
  · exact keeps_completeAtOnce s _ _
  split
  · exact keeps_raise s _
  split
  · exact keeps_completeAtOnce s _ _
  · split
    · next h => exact keeps_acceptCommand s _ _ h
    · exact keeps_completeAtOnce s _ _

/-! ### The work of the claims (R130, R131, R140, R150 to R162) -/

theorem keeps_takeHead (e : ReportEntry) : Keeps s (takeHead e s) := by
  have hreports : Keeps s { s with reports := s.reports.drop 1 } := keeps_outside (by simp [SameAll, SameRest]) rfl
  exact hreports.trans (keeps_completeCommand _ _ _)

theorem keeps_claimTake : Keeps s (claimTake s) := by
  unfold claimTake
  split
  · exact keeps_completeCommand s _ _
  split
  · exact keeps_takeHead s _
  split
  · exact keeps_completeCommand s _ _
  · exact (keeps_setCtx s _ _).trans ((keeps_setDrain _ _).trans (keeps_takeHead _ _))

theorem keeps_claimRelease : Keeps s (claimRelease s) := by
  have hfreed : ∀ (u : State) (i : Slot) (results : List Word),
      Keeps u (completeCommand .ok results (unbindDrain (freeContext i u))) := fun u i _ =>
    (keeps_freeContext u i).trans ((keeps_setDrain _ _).trans (keeps_completeCommand _ _ _))
  unfold claimRelease
  split
  · exact keeps_completeCommand s _ _
  · dsimp only
    split
    · exact (keeps_rememberKey s _ _).trans (hfreed _ _ _)
    · exact hfreed s _ _

theorem keeps_claimLookup (k : Key) : Keeps s (claimLookup k s) := by
  unfold claimLookup
  split <;> exact keeps_completeCommand s _ _

theorem keeps_claimReserve (k : Key) (pinned : Bool) : Keeps s (claimReserve k pinned s) := by
  unfold claimReserve
  split
  · exact keeps_completeCommand s _ _
  split
  · exact keeps_completeCommand s _ _
  · exact (keeps_openContext s _ _ _ _).trans ((keeps_forgetKey _ k).trans (keeps_completeCommand _ _ _))

theorem keeps_setPinned (v : Bool) (k : Key) : Keeps s (setPinned v k s) := by
  unfold setPinned
  split
  · exact keeps_completeCommand s _ _
  · dsimp only
    split
    · exact (keeps_setCtx s _ _).trans (keeps_completeCommand _ _ _)
    · exact keeps_completeCommand s _ _

theorem keeps_claimCancel (k : Key) : Keeps s (claimCancel k s) := by
  unfold claimCancel
  split
  · exact keeps_completeCommand s _ _
  · dsimp only
    split
    · exact (keeps_freeContext s _).trans (keeps_completeCommand _ _ _)
    · exact keeps_completeCommand s _ _

theorem keeps_claimForget (all : Bool) (k : Key) : Keeps s (claimForget all k s) := by
  have hnone : Keeps s (s.modifyPort k.port fun q => { q with recent := [] }) :=
    keeps_modifyPort (.same (by simp [SameLink])) rfl rfl
  unfold claimForget
  split
  · exact hnone.trans (keeps_completeCommand _ _ _)
  split
  · exact (keeps_forgetKey s k).trans (keeps_completeCommand _ _ _)
  · exact keeps_completeCommand s _ _

theorem keeps_commandWork (f : InFlight) : Keeps s (commandWork f s) := by
  unfold commandWork
  dsimp only
  split
  · exact keeps_claimTake s
  · exact keeps_claimRelease s
  · exact keeps_claimLookup s _
  · exact keeps_claimReserve s _ _
  · exact keeps_setPinned s true _
  · exact keeps_setPinned s false _
  · exact keeps_claimCancel s _
  · exact keeps_claimForget s _ _
  · exact .refl s
  · exact .refl s

/-! ### Walk visits (R152, R159) -/

variable {s} in
/-- The claim for the next slot has the command and the operands of the one before it. -/
theorem keeps_nextVisit {f : InFlight} (freed segments : Nat) (h : s.cmd.inFlight = some f) :
    Keeps s (nextVisit f freed segments s) :=
  keeps_command (by simp [SameAll, SameRest, nextVisit]) fun hs g hg => by cases hg; exact hs.command f h

variable {s} in
theorem keeps_visitNext {f : InFlight} (h : s.cmd.inFlight = some f) : Keeps s (visitNext f s) := by
  unfold visitNext
  split
  · exact keeps_completeCommand s _ _
  split
  · exact keeps_completeCommand s _ _
  · exact keeps_nextVisit 0 0 h

variable {s} in
theorem keeps_visitPurge {f : InFlight} (h : s.cmd.inFlight = some f) : Keeps s (visitPurge f s) := by
  have hnext : ∀ (u : State) (freed segments : Nat), u.cmd.inFlight = some f →
      Keeps u (if f.slot = 63 then completeCommand .ok [word freed, word segments] u else nextVisit f freed segments u) := by
    intro u freed segments hu
    split
    · exact keeps_completeCommand u _ _
    · exact keeps_nextVisit _ _ hu
  unfold visitPurge
  dsimp only
  generalize (s.ctx f.slot).purged _ _ = hit
  cases hit with
  | true => exact (keeps_freeContext s f.slot).trans (hnext _ _ _ (by simpa using h))
  | false => exact hnext s _ _ h

variable {s} in
theorem keeps_visitWork {f : InFlight} (h : s.cmd.inFlight = some f) : Keeps s (visitWork f s) := by
  unfold visitWork
  split
  · exact keeps_visitNext h
  · exact keeps_visitPurge h
  · exact .refl s

/-- The command unit's claim taken keeps the laws when its work does (R45). -/
theorem keeps_takeCommand {walk : Bool} {work : InFlight → State → State}
    (h : ∀ (u : State) (f : InFlight), u.cmd.inFlight = some f → Keeps u (work f u)) : Keeps s (takeCommand walk work s) := by
  unfold takeCommand
  split
  · next f _ hf =>
    split
    · exact (keeps_setLastServed s _).trans (h _ f hf)
    · exact .refl s
  · exact .refl s

/-! ### The timer unit (R89 to R102) -/

/-- A divider loaded from TICK is a timebase as R89 and R90 give it. -/
theorem timebaseOk_load {t : State} (h : t.timer.divider = dividerLoad t.timer.tick) : TimebaseOk t := by
  rw [TimebaseOk, h, dividerLoad]
  have hlt := t.timer.tick.isLt
  split
  · simp [*]
  · next hne =>
    have hpos : t.timer.tick.toNat ≠ 0 := fun e => hne (BitVec.eq_of_toNat_eq e)
    refine ⟨fun _ => by simp [hne], fun d hd => ?_⟩
    cases hd
    omega

theorem keeps_presentExpiry : Keeps s (presentExpiry s) := keeps_outside (by simp [SameAll, SameRest]) (by simp)

theorem keeps_tickState : Keeps s (tickState s) := by
  have htick : Keeps s { s with timer := { s.timer with
      divider := dividerLoad s.timer.tick, slots := s.timer.slots.map SlotTimers.ticked } } :=
    keeps_timebase (fun _ => rfl) rfl rfl rfl rfl fun _ => timebaseOk_load rfl
  exact htick.trans (keeps_presentExpiry _)

/-- An expiry claim taken keeps the laws when its action does (R96). -/
theorem keeps_takeExpiry {kind : CountdownKind} {act : Slot → State → State}
    (h : ∀ (u : State) (i : Slot), Keeps u (act i u)) : Keeps s (takeExpiry kind act s) := by
  unfold takeExpiry
  split
  · next c _ _ =>
    split
    · have hwithdrawn : ∀ u : State, Keeps u { u with
          timer := { u.timer with claim := none, scan := positionAfter c } } := fun u =>
        keeps_outside (by simp [SameAll, SameRest]) rfl
      have hact : ∀ u : State, Keeps u (if (s.timers c.slot).mark kind then act c.slot (presentExpiry u) else presentExpiry u) := by
        intro u
        split
        · exact (keeps_presentExpiry u).trans (h _ _)
        · exact keeps_presentExpiry u
      exact ((keeps_setLastServed s .timer).trans (hwithdrawn _)).trans ((keeps_setTimers _ c.slot _).trans (hact _))
    · exact .refl s
  · exact .refl s

theorem keeps_repairStep (i : Slot) : Keeps s (repairStep i s) := by
  unfold repairStep
  dsimp only
  split
  · split
    · split
      · exact keeps_failContext s i _
      · exact (keeps_offerReply s _ _).trans ((keeps_setCtx _ _ _).trans (keeps_setTimers _ _ _))
    · exact .refl s
  · exact .refl s

theorem keeps_lifeFailure (i : Slot) : Keeps s (lifeFailure i s) := by
  unfold lifeFailure
  split
  · exact keeps_failContext s i _
  · exact .refl s

/-! ### The drain port (R133 to R138, R177) -/

theorem keeps_resumeFill : Keeps s (resumeFill s) := keeps_setService s _

theorem keeps_writeDrainPos (v : Word) : Keeps s (writeDrainPos v s) := by
  unfold writeDrainPos
  split
  · exact .refl s
  split
  · exact keeps_setDrain s _
  · exact keeps_raise s _

/-! ### The resets and the walk (R86, R184, R185) -/

theorem portKeeps_reset (q : Port) : PortKeeps q Port.reset :=
  ⟨fun _ => by decide, fun _ => by decide, fun _ => by decide, fun _ => portLaw_reset, fun _ => by
    have h := frameLaw_reset 0
    rwa [reset_port] at h⟩

theorem portKeeps_softReset (q : Port) : PortKeeps q q.softReset :=
  .of_law ⟨rfl, rfl, rfl⟩
    (fun _ => ⟨portLaw_reset.enable, portLaw_reset.offQueue, portLaw_reset.offChar, portLaw_reset.timer, portLaw_reset.queue,
      portLaw_reset.staging⟩)
    (portKeeps_reset q).frames

/-- Cleared counters stand at 0 with their limit flags clear. -/
theorem counterLaw_cleared {t : State} (port : ∀ p, (t.port p).counters = Port.reset.counters ∧ (t.port p).limits = Port.reset.limits)
    (unreported : t.stats.unreported = 0#16) (limit : t.stats.unreportedLimit = false) : CounterLaw t where
  ports p c := by
    obtain ⟨hc, hl⟩ := port p
    simp [State.counter, State.limitFlag, hc, hl, Port.reset]
  unreported := by simp [unreported, limit]

theorem resetAssert_port (p : PortId) : (resetAssert s).port p = Port.reset := reset_port p

theorem keeps_resetAssert : Keeps s (resetAssert s) :=
  keeps_parts (fun _ => counterLaw_cleared (fun p => by simp [resetAssert_port]) rfl rfl)
    (fun p => by rw [resetAssert_port]; exact portKeeps_reset _) (fun _ => (by decide : (64#11).toNat ≤ 1024))
    (fun _ => ⟨fun h => absurd rfl h, fun d hd => by cases hd⟩) (fun _ f hf => by cases hf) id

theorem keeps_resetDeassert : Keeps s (resetDeassert s) :=
  keeps_timebase (fun _ => rfl) rfl rfl rfl rfl fun _ => timebaseOk_load rfl

theorem keeps_softReset : Keeps s (softResetState s) :=
  keeps_parts (fun _ => counterLaw_cleared (fun p => by rw [softReset_port]; exact ⟨rfl, rfl⟩) rfl rfl)
    (fun p => by rw [softReset_port]; exact portKeeps_softReset _) id (fun _ => timebaseOk_load rfl)
    (fun _ f hf => by cases hf) id

/-- A change of the host port outside an asserted RESET#. -/
theorem keeps_host {host : HostPort} (h : host.phase ≠ .resetAsserted → s.host.phase ≠ .resetAsserted) :
    Keeps s { s with host := host } :=
  keeps_timebase (fun _ => rfl) rfl rfl rfl rfl fun ht => ⟨fun h' => ht.1 (h h'), ht.2⟩

variable {s} in
theorem keeps_endWalk (h : s.host.phase ≠ .resetAsserted) : Keeps s (endWalk s) :=
  (keeps_host s fun _ => h).trans (keeps_raise _ _)

variable {s} in
theorem keeps_walkStep (k : Fin 1024) (h : s.host.phase ≠ .resetAsserted) : Keeps s (walkStep k s) := by
  have hpool : Keeps s { s with pool := { s.pool with freeList := s.pool.freeList ++ [k] } } :=
    keeps_outside (by simp [SameAll, SameRest]) rfl
  refine hpool.trans ?_
  unfold walkStep
  dsimp only
  split
  · exact keeps_endWalk h
  · exact keeps_host _ fun _ => h

end

end Sys2Proof.Machine
end

