-- ==== Sys2Proof/Proofs/StepKeeps.lean ====
section
/-! SUPPORT. The host's writes keep the laws, and with them every command and every step (CountersRegistersAndMemoryKept,
PortsAndFramesKept). -/

namespace Sys2Proof.Machine

open Sys2Proof.Safety

section
variable {s : State} {p : PortId}

/-! ### PORT_CTRL (R19 to R22) -/

/-- An accepted enable request: an OFF receiver, whose reply queue is empty, goes to HUNT (R19). -/
theorem portKeeps_enabled {q : Port} (h : q.rx.state = .off) : PortKeeps q { q with
    rx := Receiver.noFrame .hunt (.between none), configFault := false, enable := true } :=
  .of_law ⟨rfl, rfl, rfl⟩ (fun hl => ⟨by simp [Receiver.noFrame], fun _ => hl.offQueue h, nofun, fun _ => rfl, hl.queue,
    hl.staging⟩) fun hl => ⟨nofun, hl.2⟩

/-- A refused enable request leaves the receiver OFF (R19). -/
theorem portKeeps_refused {q : Port} (h : q.rx.state = .off) : PortKeeps q { q with configFault := true, enable := false } :=
  .of_law ⟨rfl, rfl, rfl⟩ (fun hl => ⟨by simp [h], hl.offQueue, hl.offChar, hl.timer, hl.queue, hl.staging⟩) id

/-- A receiver that leaves the frame in flight to its end in STOPPING (R20). -/
theorem portKeeps_stopped {q : Port} (h : q.rx.state = .receiving) : PortKeeps q { stopReceiving q with replies := [] } :=
  .of_law ⟨rfl, rfl, rfl⟩ (fun hl => ⟨by simp [stopReceiving], nofun, nofun, nofun, Nat.zero_le _, hl.staging⟩)
    fun hl => ⟨fun _ => hl.1 (.inl h), hl.2⟩

theorem keeps_requestEnable (h : (s.port p).rx.state = .off) : Keeps s (requestEnable p s) := by
  unfold requestEnable
  dsimp only
  split
  · exact keeps_modifyPort (portKeeps_enabled h) rfl rfl
  · exact keeps_modifyPort (portKeeps_refused h) rfl rfl

theorem keeps_disablePort (h : (s.port p).rx.state = .hunt ∨ (s.port p).rx.state = .receiving) : Keeps s (disablePort p s) := by
  rcases h with h | h
  · rw [disablePort_of_hunt s p h]
    exact keeps_enterOff_after (portKeeps_off false fun _ => rfl) rfl rfl
  · rw [disablePort_of_receiving s p h]
    exact keeps_discardReplies_after (portKeeps_stopped h) rfl rfl

theorem keeps_applyEnable (en : Bool) : Keeps s (applyEnable p en s) := by
  cases hs : (s.port p).rx.state with
  | off =>
    rw [applyEnable_off hs]
    split
    · exact keeps_requestEnable hs
    · exact .refl s
  | stopping => rw [applyEnable_stopping hs]; exact .refl s
  | hunt | receiving =>
    cases en with
    | true => rw [applyEnable_none (by simp [hs])]; exact .refl s
    | false => rw [applyEnable_disable (by simp [hs])]; exact keeps_disablePort (by simp [hs])

theorem keeps_writePortCtrl (v : Word) : Keeps s (writePortCtrl p v s) :=
  (keeps_modifyPort (f := storeCtrl v) (.same (by simp [SameLink, storeCtrl])) rfl rfl).trans (keeps_applyEnable _)

end

/-! ### The other registers (R3, R23, R81, R82, R89, R90, R178) -/

section
variable (s : State) (p : PortId) (v : Word)

theorem clampTo_toNat_le (w max : Nat) : (clampTo w max v).toNat ≤ max := by
  rw [clampTo, BitVec.toNat_ofNat]
  exact (Nat.mod_le _ _).trans (Nat.min_le_right _ _)

theorem keeps_writePortAddr : Keeps s (writePortAddr p v s) := by
  unfold writePortAddr
  split
  · exact keeps_modifyPort (.same (by simp [SameLink])) rfl rfl
  · exact .refl s

/-- A rate, quota or record limit stored within its range. -/
theorem portKeeps_setting {q : Port} {rate : Word} {quota : BitVec 11} {reclimit : BitVec 13}
    (hrate : 16 ≤ q.rate.toNat → 16 ≤ rate.toNat) (hquota : q.quota.toNat ≤ 1024 → quota.toNat ≤ 1024)
    (hreclimit : q.reclimit.toNat ≤ 6144 → reclimit.toNat ≤ 6144) :
    PortKeeps q { q with rate := rate, quota := quota, reclimit := reclimit } :=
  ⟨hrate, hquota, hreclimit, fun h => ⟨h.enable, h.offQueue, h.offChar, h.timer, h.queue, h.staging⟩, id⟩

theorem keeps_writePortRate : Keeps s (writePortRate p v s) := by
  unfold writePortRate
  split
  · refine keeps_modifyPort (portKeeps_setting (fun _ => ?_) id id) rfl rfl
    split
    · decide
    · omega
  · exact .refl s

theorem keeps_writeQuota : Keeps s (s.modifyPort p fun q => { q with quota := clampTo 11 1024 v }) :=
  keeps_modifyPort (portKeeps_setting id (fun _ => clampTo_toNat_le v _ _) id) rfl rfl

theorem keeps_writeReclimit : Keeps s (s.modifyPort p fun q => { q with reclimit := clampTo 13 6144 v }) :=
  keeps_modifyPort (portKeeps_setting id id fun _ => clampTo_toNat_le v _ _) rfl rfl

theorem keeps_writePoolLow : Keeps s (writePoolLow v s) :=
  keeps_parts (fun h => ⟨h.ports, h.unreported⟩) (fun _ => .refl _) (fun _ => clampTo_toNat_le v _ _) id
    (fun h => h.command) id

/-- A TICK write stops the timebase with 0, starts a stopped one with another value, and leaves a running count (R89, R90). -/
theorem keeps_writeTick : Keeps s (writeTick v s) := by
  refine keeps_timebase (fun _ => rfl) rfl rfl rfl rfl fun ⟨_, hperiod⟩ => ?_
  by_cases hv : v = 0#16
  · exact timebaseOk_load (by simp [writeTick, dividerLoad, hv])
  · cases hd : s.timer.divider with
    | none => exact timebaseOk_load (by simp [writeTick, dividerLoad, hv, hd])
    | some d =>
      refine ⟨fun _ => by simp [writeTick, hv], fun d' hd' => hperiod d' ?_⟩
      simpa [writeTick, hv, hd] using hd'

theorem keeps_writeCtrl : Keeps s (writeCtrl v s) := by
  unfold writeCtrl
  split
  · exact keeps_softReset s
  · exact .refl s

theorem keeps_writeStatus : Keeps s (writeStatus v s) := by
  unfold writeStatus
  split
  · exact keeps_clearUnreported s
  · exact .refl s

theorem keeps_writeOperand (i : Fin 4) : Keeps s (writeOperand i v s) :=
  keeps_outside (by simp [SameAll, SameRest, writeOperand]) rfl

/-- The port settings that no law reads. -/
theorem keeps_settings (gap repair life : Port → Word) :
    Keeps s (s.modifyPort p fun q => { q with gap := gap q, repair := repair q, life := life q }) :=
  keeps_modifyPort (.same (by simp [SameLink])) rfl rfl

theorem keeps_writeReg (r : Reg) : Keeps s (writeReg r v s) := by
  by_cases hr : r.readOnly = true
  · rw [writeReg_readOnly v s hr]
    exact .refl s
  cases r with
  | ctrl => exact keeps_writeCtrl s v
  | status => exact keeps_writeStatus s v
  | events => exact keeps_flags s _ _
  | eventEnable => exact keeps_flags s _ _
  | portSelect => exact keeps_host s id
  | tick => exact keeps_writeTick s v
  | poolLow => exact keeps_writePoolLow s v
  | unreported => exact keeps_clearUnreported s
  | cmd => exact keeps_writeCmd s v
  | operand i => exact keeps_writeOperand s v i
  | drainPos => exact keeps_writeDrainPos s v
  | portCtrl => exact keeps_writePortCtrl v
  | portAddr => exact keeps_writePortAddr s _ v
  | portRate => exact keeps_writePortRate s _ v
  | portQuota => exact keeps_writeQuota s _ v
  | portGap => exact keeps_settings s _ (fun _ => v) Port.repair Port.life
  | portRepair => exact keeps_settings s _ Port.gap (fun _ => v) Port.life
  | portLife => exact keeps_settings s _ Port.gap Port.repair fun _ => v
  | portReclimit => exact keeps_writeReclimit s _ v
  | counter c => exact keeps_clearCounter s _ c
  | portLimits => exact keeps_clearLimits s _ v
  | poolFree | poolBacklog | cmdStatus | result | reportCount | reportHead | drainData | drainLen | portHeld | portState =>
    exact absurd rfl hr

theorem keeps_hostWrite (r : Reg) : Keeps s (hostWrite r v s) := by
  unfold hostWrite
  split
  · exact keeps_writeReg s v r
  · exact .refl s

theorem keeps_writeRegister (o : Byte) : Keeps s (writeRegister o v s) := by
  unfold writeRegister
  split
  · exact keeps_hostWrite s v _
  · exact .refl s

end

/-! ### Every command and every step -/

section
variable (s : State)

theorem keeps_ite {c : Prop} [Decidable c] {t : State} (h : c → Keeps s t) : Keeps s (if c then t else s) := by
  split
  · next hc => exact h hc
  · exact .refl s

variable {s} in
/-- A command whose outcome is one next state keeps the laws when that state does. -/
theorem keeps_next {t u : State} (hk : Keeps s u) (h : Host.Outcome.next (φ := Fault) (ρ := Refusal) u = .next t) : Keeps s t := by
  cases h
  exact hk

theorem keeps_startCheck (p : PortId) (level : Bool) : Keeps s
    (if (s.port p).rx.state ≠ .off ∧ (s.port p).rx.char = .edgeSeen then setRx p (checkStart (s.port p).rx level) s else s) :=
  keeps_ite s fun h => keeps_checkStart level h.1

theorem keeps_characterTimeout (p : PortId) : Keeps s
    (if (s.port p).rx.inFrame ∧ (s.port p).rx.timer = .running then dropFrame p (s.port p).rx.char s else s) :=
  keeps_ite s fun h => keeps_dropFrame _ h.1

theorem keeps_powerUp (high : Bool) : Keeps s
    (if high then resetDeassert { resetAssert s with mem := [] } else { resetAssert s with mem := [] }) := by
  have hmem : Keeps s (withMem (resetAssert s) []) := (keeps_resetAssert s).trans (keeps_withMem _ fun _ => rfl)
  split
  · exact hmem.trans (keeps_resetDeassert _)
  · exact hmem

variable {s} {t : State}

/-! Commands whose occasion is a part of the state. -/

theorem keeps_execWalkStep (h : execWalkStep s = .next t) : Keeps s t := by
  unfold execWalkStep at h
  split at h
  · next k hk => exact keeps_next (keeps_walkStep k (by simp [hk])) h
  · exact keeps_next (.refl s) h
  · exact keeps_next (.refl s) h

theorem keeps_execTick (h : execTick s = .next t) : Keeps s t := by
  unfold execTick at h
  split at h
  · exact keeps_next (keeps_tickState s) h
  · exact keeps_next (.refl s) h

theorem keeps_execReplyEnd {p : PortId} (h : execReplyEnd p s = .next t) : Keeps s t := by
  unfold execReplyEnd at h
  split at h
  · next x _ =>
    refine keeps_next ?_ h
    split
    · exact .refl s
    · exact keeps_endReply x
  · exact keeps_next (.refl s) h

theorem keeps_execGuardEnd {p : PortId} (h : execGuardEnd p s = .next t) : Keeps s t := by
  unfold execGuardEnd at h
  split at h
  · exact keeps_next (keeps_ite s fun _ => keeps_endGuard) h
  · exact keeps_next (.refl s) h

theorem keeps_execReturnMove (h : execReturnMove s = .next t) : Keeps s t := by
  unfold execReturnMove at h
  split at h
  · cases h
    exact keeps_outside (by simp [SameAll, SameRest]) rfl
  · exact keeps_next (.refl s) h

theorem keeps_execFillSegmentEnd (h : execFillSegmentEnd s = .next t) : Keeps s t := by
  unfold execFillSegmentEnd at h
  split at h
  · next st _ =>
    refine keeps_next ?_ h
    split
    · exact .refl s
    · exact keeps_endSegment s st
  · exact keeps_next (.refl s) h

theorem keeps_readRecord {i : Slot} (h : readRecord i s = .next t) : Keeps s t := by
  unfold readRecord at h
  split at h
  · cases h
  split at h
  · split at h
    · exact keeps_next (keeps_setDrain s _) h
    · exact keeps_next (keeps_setDrain s _) h
  · exact keeps_next (keeps_setDrain s _) h

theorem keeps_execDrainDataRead (h : execDrainDataRead s = .next t) : Keeps s t := by
  have hfault : Keeps s (raise .drainFault (readZero s)) := (keeps_setDrain s _).trans (keeps_raise _ _)
  unfold execDrainDataRead at h
  split at h
  · exact keeps_next (.refl s) h
  split at h
  · exact keeps_next (keeps_setDrain s _) h
  split at h
  · exact keeps_next hfault h
  split at h
  · exact keeps_next hfault h
  · exact keeps_readRecord h

theorem keeps_execDrainReadGrant (h : execDrainReadGrant s = .next t) : Keeps s t := by
  unfold execDrainReadGrant at h
  split at h
  · exact keeps_next (keeps_ite s fun _ => (keeps_setDrain s _).trans (keeps_resumeFill _)) h
  · exact keeps_next (.refl s) h

theorem keeps_execHeldReadEnded (h : execHeldReadEnded s = .next t) : Keeps s t := by
  have hfree : ∀ (u : State) (n : Nat), Keeps u { u with free := n } := fun u n =>
    keeps_outside (by simp [SameAll, SameRest]) rfl
  unfold execHeldReadEnded at h
  split at h
  · exact keeps_next ((keeps_setDrain s _).trans ((hfree _ _).trans (keeps_resumeFill _))) h
  · exact keeps_next (.refl s) h

theorem keeps_execUnreportedClear {r : UnreportedRoute} {v : Word} (h : execUnreportedClear r v s = .next t) : Keeps s t := by
  cases r <;> exact keeps_next (keeps_hostWrite s v _) h

/-- Every command keeps the laws. -/
theorem exec_keeps (c : Instr) (h : exec c s = .next t) : Keeps s t := by
  cases c with
  | powerUp high => exact keeps_next (keeps_powerUp s high) h
  | hardwareReset => exact keeps_next (keeps_resetAssert s) h
  | resetDeasserted => exact keeps_next (keeps_ite s fun _ => keeps_resetDeassert s) h
  | softReset v => exact keeps_next (keeps_ite s fun _ => keeps_writeCtrl s v) h
  | walkStep => exact keeps_execWalkStep h
  | syncReceived | goodCharacter | characterSkipped | badLen | framingError | frameCompletion =>
    exact keeps_next (keeps_takeCharacter _) h
  | characterTimeout p => exact keeps_next (keeps_characterTimeout s p) h
  | startEdge line => exact keeps_next (keeps_sampleLine line.samples) h
  | startCheck p level => exact keeps_next (keeps_startCheck s p level) h
  | frag => exact keeps_next (keeps_takeFrame s keeps_handleFrag) h
  | abort => exact keeps_next (keeps_takeFrame s keeps_handleAbort) h
  | query => exact keeps_next (keeps_takeFrame s keeps_handleQuery) h
  | fillSegmentEnd => exact keeps_execFillSegmentEnd h
  | tick => exact keeps_execTick h
  | countdownExpiry =>
    exact keeps_next (keeps_ite s fun _ => (keeps_setTimers s _ _).trans (keeps_presentExpiry _)) h
  | repairExpiry => exact keeps_next (keeps_takeExpiry s keeps_repairStep) h
  | lifeExpiry => exact keeps_next (keeps_takeExpiry s keeps_lifeFailure) h
  | replyStart => exact keeps_next keeps_startReply h
  | replyEnd => exact keeps_execReplyEnd h
  | guardEnd => exact keeps_execGuardEnd h
  | returnMove => exact keeps_execReturnMove h
  | drainDataRead => exact keeps_execDrainDataRead h
  | drainReadGrant => exact keeps_execDrainReadGrant h
  | heldReadEnded => exact keeps_execHeldReadEnded h
  | drainPosWrite v => exact keeps_next (keeps_ite s fun _ => keeps_writeDrainPos s v) h
  | portEnable v | portDisable v | portCtrlWrite v | portAddrWrite v | portRateWrite v | tickWrite v | counterClear _ v
  | portLimitsWrite v | eventsWrite v | eventEnableWrite v => exact keeps_next (keeps_hostWrite s v _) h
  | unreportedClear => exact keeps_execUnreportedClear h
  | registerWrite o v => exact keeps_next (keeps_writeRegister s v o) h
  | take | release | lookup | next | reserve | pin | unpin | cancel | purge | forget | badCommand =>
    exact keeps_next (keeps_ite s fun _ => keeps_writeCmd s _) h
  | commandClaim => exact keeps_next (keeps_takeCommand s fun u f _ => keeps_commandWork u f) h
  | walkVisit => exact keeps_next (keeps_takeCommand s fun _ _ hf => keeps_visitWork hf) h

theorem step_keeps (h : step s = .next t) : Keeps s t := by
  unfold step at h
  split at h
  · exact keeps_next (.refl s) h
  · next c rest _ =>
    have htaken : Keeps s { s with pending := rest } := keeps_outside (by simp [SameAll, SameRest]) rfl
    exact htaken.trans (exec_keeps c h)

end

/-- Settles O54: every command keeps the three laws, and so does taking it from the queue. -/
theorem countersRegistersAndMemoryKept : Obligations.CountersRegistersAndMemoryKept := fun _ _ h =>
  have hk := step_keeps h
  ⟨hk.counters, hk.registers, hk.memory⟩

/-- Settles O55: every command keeps the two laws of every port, and so does taking it from the queue. -/
theorem portsAndFramesKept : Obligations.PortsAndFramesKept := fun _ _ h =>
  have hk := step_keeps h
  ⟨hk.ports, hk.frames⟩

end Sys2Proof.Machine
end

