-- ==== Sys2Proof/Proofs/Totals.lean ====
section
/-! SUPPORT. Sums over the context table: the segments in each place and PORT_HELD as totals over the slots, and the table law of a
READY device in which one context has changed (R75, R80). -/

namespace Sys2Proof.Machine

open Sys2Proof.Safety

/-! ### Totals over the slots -/

/-- A number of each context, summed over the table. -/
def State.total (s : State) (φ : Context → Nat) : Nat := ∑ i : Slot, φ (s.ctx i)

/-- Where one context has changed, a total has changed by that context's part. -/
theorem total_change {s t : State} {i : Slot} (φ : Context → Nat) (h : ∀ j, j ≠ i → t.ctx j = s.ctx j) :
    t.total φ + φ (s.ctx i) = s.total φ + φ (t.ctx i) := by
  have hrest : ∑ j ∈ Finset.univ.erase i, φ (t.ctx j) = ∑ j ∈ Finset.univ.erase i, φ (s.ctx j) :=
    Finset.sum_congr rfl fun j hj => by rw [h j (Finset.ne_of_mem_erase hj)]
  have hs := Finset.add_sum_erase Finset.univ (fun j => φ (s.ctx j)) (Finset.mem_univ i)
  have ht := Finset.add_sum_erase Finset.univ (fun j => φ (t.ctx j)) (Finset.mem_univ i)
  unfold State.total
  omega

theorem total_congr {s t : State} (φ : Context → Nat) (h : ∀ j, t.ctx j = s.ctx j) : t.total φ = s.total φ := by
  unfold State.total
  simp only [h]

theorem le_total (s : State) (φ : Context → Nat) (i : Slot) : φ (s.ctx i) ≤ s.total φ :=
  Finset.single_le_sum (f := fun j => φ (s.ctx j)) (fun _ _ => Nat.zero_le _) (Finset.mem_univ i)

/-! ### Segments and PORT_HELD as totals (R75, R80) -/

/-- The segments that the claim in service holds (R75). -/
def serviceSegs (s : State) : List Seg :=
  match s.table.service with
  | some st => st.segs
  | none => []

/-- The segments that the claim in service holds on port `p` (R80). -/
def serviceHeld (s : State) (p : PortId) : Nat :=
  match s.table.service with
  | some st => if st.port = p then st.segs.length else 0
  | none => 0

/-- What a context counts in PORT_HELD of port `p` (R80). -/
def heldBy (p : PortId) (c : Context) : Nat :=
  match c.key with
  | some k => if k.port = p then c.heldSegs else 0
  | none => 0

@[simp] theorem heldBy_freed (p : PortId) : heldBy p Context.freed = 0 := rfl

@[simp] theorem contextSegs_freed : contextSegs Context.freed = [] := rfl

@[simp] theorem serviceSegs_none {s : State} (h : s.table.service = none) : serviceSegs s = [] := by rw [serviceSegs, h]

@[simp] theorem serviceHeld_none {s : State} (h : s.table.service = none) (p : PortId) : serviceHeld s p = 0 := by
  rw [serviceHeld, h]

theorem serviceSegs_some {s : State} {st : StoreClaim} (h : s.table.service = some st) : serviceSegs s = st.segs := by
  rw [serviceSegs, h]

theorem serviceHeld_some {s : State} {st : StoreClaim} (h : s.table.service = some st) (p : PortId) :
    serviceHeld s p = if st.port = p then st.segs.length else 0 := by
  rw [serviceHeld, h]

theorem heldBy_some {c : Context} {k : Key} (h : c.key = some k) (p : PortId) :
    heldBy p c = if k.port = p then c.heldSegs else 0 := by
  rw [heldBy, h]

theorem heldOn_eq (s : State) (p : PortId) : heldOn s p = s.total (heldBy p) + serviceHeld s p := by
  rw [State.total, Fin.sum_univ_def]
  rfl

theorem contexts_toList (s : State) : s.table.contexts.toList = (List.finRange 64).map s.ctx := by
  refine List.ext_getElem (by simp) fun n hn hn' => ?_
  simp [State.ctx]

theorem count_heldSegments (s : State) (g : Seg) : (heldSegments s).count g =
    s.total (fun c => (contextSegs c).count g) + (serviceSegs s).count g := by
  rw [State.total, Fin.sum_univ_def, heldSegments, contexts_toList, List.count_append, List.count_flatMap, List.map_map]
  rfl

/-- Outside the walk every segment stands in exactly one place (R75). -/
theorem placesOk_ready {s : State} (h : s.host.phase = .ready) : placesOk s ↔ ∀ g, s.pool.freeList.count g +
    s.pool.backlog.count g + s.total (fun c => (contextSegs c).count g) + (serviceSegs s).count g = 1 := by
  simp only [placesOk, h, List.perm_iff_count, List.count_append, count_heldSegments]
  refine forall_congr' fun g => ?_
  rw [List.count_eq_one_of_mem (List.nodup_finRange 1024) (List.mem_finRange g)]
  omega

/-! ### One context changed -/

/-- What the table law says of one context: a FREE one has the FREE values, another a key, and the held count is that of its
segments (R30). -/
structure ContextFits (c : Context) : Prop where
  free : c.state = .free → c = Context.freed
  key : c.state ≠ .free → c.key ≠ none
  sums : c.heldSegs = (contextSegs c).length

theorem tableLaw_fits {s : State} (hs : TableLaw s) (i : Slot) : ContextFits (s.ctx i) := ⟨hs.free i, hs.key i, hs.sums i⟩

/-- The slots in the report queue are those of DONE contexts in `t`, which but for slot `i` were so in `s` (R124). -/
structure ReportsFollow (s t : State) (i : Slot) : Prop where
  nodup : (successSlots t.reports).Nodup
  others : ∀ j, j ≠ i → (j ∈ successSlots t.reports ↔ j ∈ successSlots s.reports)
  done : (t.ctx i).state = .done ↔ i ∈ successSlots t.reports
  kinds : ∀ e ∈ t.reports, e.slot.isSome = e.isSuccess

/-- The drain port is bound to slot `i` exactly when that is DRAINING, and to another as before (R133). -/
structure BoundFollows (s t : State) (i : Slot) : Prop where
  others : ∀ j, j ≠ i → (t.drain.bound = some j ↔ s.drain.bound = some j)
  draining : (t.ctx i).state = .draining ↔ t.drain.bound = some i

/-- What the change of the context in slot `i` does to each of the places where segments are counted balances (R75, R80). -/
structure SegmentsFollow (s t : State) (i : Slot) : Prop where
  held : ∀ p, (t.port p).held + heldBy p (s.ctx i) + serviceHeld s p =
    (s.port p).held + heldBy p (t.ctx i) + serviceHeld t p
  places : ∀ g, t.pool.freeList.count g + t.pool.backlog.count g + (contextSegs (t.ctx i)).count g + (serviceSegs t).count g =
    s.pool.freeList.count g + s.pool.backlog.count g + (contextSegs (s.ctx i)).count g + (serviceSegs s).count g

theorem initialising_ready {s : State} (h : s.host.phase = .ready) : s.initialising = false := by
  simp [State.initialising, h]

/-- The table law after a change of the context in one slot of a READY device. -/
theorem tableLaw_change {s t : State} {i : Slot} (hs : TableLaw s) (ready : s.host.phase = .ready)
    (ready' : t.host.phase = .ready) (others : ∀ j, j ≠ i → t.ctx j = s.ctx j) (fits : ContextFits (t.ctx i))
    (segments : SegmentsFollow s t i) (service : ∀ st, t.table.service = some st → serviceOk t st)
    (reports : ReportsFollow s t i) (drain : BoundFollows s t i) : TableLaw t := by
  have hfits : ∀ j, ContextFits (t.ctx j) := fun j => by
    by_cases hj : j = i
    · rw [hj]; exact fits
    · rw [others j hj]; exact tableLaw_fits hs j
  refine ⟨fun j => (hfits j).free, fun j => (hfits j).key, fun j => (hfits j).sums, fun p => ?_,
    (placesOk_ready ready').2 fun g => ?_, service, reports.nodup, fun j => ?_, reports.kinds, fun j => ?_,
    fun h => absurd h (by simp [initialising_ready ready'])⟩
  · have htotal := total_change (heldBy p) others
    have hbefore := hs.held p
    have hchange := segments.held p
    rw [heldOn_eq] at hbefore ⊢
    omega
  · have htotal := total_change (fun c => (contextSegs c).count g) others
    have hbefore := (placesOk_ready ready).1 hs.places g
    have hchange := segments.places g
    omega
  · by_cases hj : j = i
    · rw [hj]; exact reports.done
    · rw [others j hj, reports.others j hj]; exact hs.reports j
  · by_cases hj : j = i
    · rw [hj]; exact drain.draining
    · rw [others j hj, drain.others j hj]; exact hs.drain j

/-- PORT_HELD counts what each context holds (R80). -/
theorem heldBy_le {s : State} (hs : TableLaw s) (i : Slot) (p : PortId) : heldBy p (s.ctx i) ≤ (s.port p).held := by
  rw [hs.held, heldOn_eq]
  exact (le_total s (heldBy p) i).trans (Nat.le_add_right _ _)

end Sys2Proof.Machine
end

