-- ==== Sys2Proof/Proofs/Lookup.lean ====
section
/-! SUPPORT. Slots, sets and ways (R27), and what the searches of the context table find: the lookup of a key (LookupFindsTheKey),
the FREE way of R39, the victim of R40 and the next claimant of R45 (RotationChoice). -/

namespace Sys2Proof.Machine

open Sys2Proof.Safety

/-! ### Slots, sets and ways (R27) -/

@[simp] theorem setOfSlot_slotOf (t : SetId) (w : Way) : setOfSlot (slotOf t w) = t := by
  simp only [setOfSlot, slotOf, Fin.ext_iff]
  omega

@[simp] theorem wayOfSlot_slotOf (t : SetId) (w : Way) : wayOfSlot (slotOf t w) = w := by
  simp only [wayOfSlot, slotOf, Fin.ext_iff]
  omega

@[simp] theorem slotOf_setOfSlot (i : Slot) : slotOf (setOfSlot i) (wayOfSlot i) = i := by
  simp only [slotOf, setOfSlot, wayOfSlot, Fin.ext_iff]
  omega

theorem slotOf_eq_iff (t : SetId) (w : Way) (i : Slot) : slotOf t w = i ↔ t = setOfSlot i ∧ w = wayOfSlot i := by
  constructor
  · rintro rfl; simp
  · rintro ⟨rfl, rfl⟩; simp

theorem mem_slotsOfSet (t : SetId) (i : Slot) : i ∈ slotsOfSet t ↔ setOfSlot i = t := by
  simp only [slotsOfSet, List.mem_map, List.mem_finRange, true_and, slotOf_eq_iff]
  constructor
  · rintro ⟨_, rfl, _⟩; rfl
  · rintro rfl; exact ⟨_, rfl, rfl⟩

theorem slotsOfSet_increasing (t : SetId) : (slotsOfSet t).Pairwise (· < ·) := by
  refine (List.pairwise_lt_finRange 4).map _ fun v w h => ?_
  simp only [slotOf, Fin.lt_def] at h ⊢
  omega

/-- In an increasing list the first element that passes a test is the least that does. -/
theorem find?_increasing {α : Type} [LinearOrder α] {l : List α} (h : l.Pairwise (· < ·)) (p : α → Bool) (a : α) :
    l.find? p = some a ↔ a ∈ l ∧ p a = true ∧ ∀ b ∈ l, p b = true → a ≤ b := by
  induction l with
  | nil => simp
  | cons x rest ih =>
    obtain ⟨hx, hrest⟩ := List.pairwise_cons.1 h
    cases hp : p x with
    | true =>
      rw [List.find?_cons_of_pos hp]
      constructor
      · rintro ⟨⟩
        refine ⟨List.mem_cons_self, hp, fun b hb _ => ?_⟩
        rcases List.mem_cons.1 hb with rfl | hb
        · exact le_refl _
        · exact (hx b hb).le
      · rintro ⟨ha, -, hmin⟩
        rcases List.mem_cons.1 ha with rfl | ha
        · rfl
        · exact absurd (hmin x List.mem_cons_self hp) (not_le.2 (hx a ha))
    | false =>
      rw [List.find?_cons_of_neg (by simp [hp]), ih hrest]
      constructor
      · rintro ⟨ha, hpa, hmin⟩
        refine ⟨List.mem_cons_of_mem _ ha, hpa, fun b hb hpb => ?_⟩
        rcases List.mem_cons.1 hb with rfl | hb
        · rw [hp] at hpb; cases hpb
        · exact hmin b hb hpb
      · rintro ⟨ha, hpa, hmin⟩
        rcases List.mem_cons.1 ha with rfl | ha
        · rw [hp] at hpa; cases hpa
        · exact ⟨ha, hpa, fun b hb => hmin b (List.mem_cons_of_mem _ hb)⟩

/-! ### The lookup of a key (R28, R29) -/

section
variable {s : State} {k : Key} {i : Slot}

theorem bears_iff : s.bears k i = true ↔ (s.ctx i).state ≠ .free ∧ (s.ctx i).key = some k := by
  simp [State.bears]

/-- The context a lookup finds bears the key and stands in the key's set (R28). -/
theorem lookup_some (h : s.lookup k = some i) :
    setOfSlot i = setOf k ∧ (s.ctx i).state ≠ .free ∧ (s.ctx i).key = some k :=
  ⟨(mem_slotsOfSet _ _).1 (List.mem_of_find?_eq_some h), bears_iff.1 (List.find?_some h)⟩

theorem lookup_none : s.lookup k = none ↔
    ∀ i, setOfSlot i = setOf k → (s.ctx i).state ≠ .free → (s.ctx i).key ≠ some k := by
  simp only [State.lookup, List.find?_eq_none, mem_slotsOfSet, bears_iff, not_and]

/-- In a table that keeps the key law a failed lookup means that no context bears the key. -/
theorem lookup_none_of_law (hk : KeyLaw s) : s.lookup k = none ↔ ∀ i, (s.ctx i).state ≠ .free → (s.ctx i).key ≠ some k :=
  lookup_none.trans ⟨fun h i hi he => h i (hk.inSet i k hi he).symm hi he, fun h i _ => h i⟩

/-- Settles O17: the key's set holds every context that bears the key, and only one does. -/
theorem lookupFindsTheKey : Obligations.LookupFindsTheKey := by
  refine fun s k hk => ⟨fun i => ⟨fun h => (lookup_some h).2, fun ⟨hi, he⟩ => ?_⟩, lookup_none_of_law hk⟩
  cases hl : s.lookup k with
  | none => exact absurd he ((lookup_none_of_law hk).1 hl i hi)
  | some j =>
    obtain ⟨-, hj, hkey⟩ := lookup_some hl
    rw [hk.unique j i hj hi (hkey.trans he.symm)]

/-! ### The FREE way and the victim (R39, R40) -/

theorem freeWay_some (t : SetId) : s.freeWay t = some i ↔
    setOfSlot i = t ∧ (s.ctx i).state = .free ∧ ∀ j, setOfSlot j = t → (s.ctx j).state = .free → i ≤ j := by
  simp only [State.freeWay, find?_increasing (slotsOfSet_increasing t), mem_slotsOfSet, beq_iff_eq]

theorem freeWay_none (t : SetId) : s.freeWay t = none ↔ ∀ j, setOfSlot j = t → (s.ctx j).state ≠ .free := by
  simp only [State.freeWay, List.find?_eq_none, mem_slotsOfSet, beq_iff_eq]

theorem victim_none (t : SetId) : s.victim t = none ↔ ∀ w ∈ s.order t, (s.ctx (slotOf t w)).eligible = false := by
  simp only [State.victim, List.find?_eq_none, List.mem_map, forall_exists_index, and_imp, forall_apply_eq_imp_iff₂,
    Bool.not_eq_true]

/-- The victim is the eligible context whose way stands earliest in the open-order list (R40). -/
theorem victim_of_order {t : SetId} {before after : List Way} (ho : s.order t = before ++ wayOfSlot i :: after)
    (ht : setOfSlot i = t) (hb : ∀ w ∈ before, (s.ctx (slotOf t w)).eligible = false) (hi : (s.ctx i).eligible = true) :
    s.victim t = some i := by
  subst ht
  rw [State.victim, ho, List.map_append, List.map_cons, slotOf_setOfSlot, List.find?_append,
    List.find?_eq_none.2 (by simpa using hb), Option.none_or]
  exact List.find?_cons_of_pos (p := fun j => (s.ctx j).eligible) hi

/-- The victim is eligible and stands in its set (R40). -/
theorem victim_eligible {t : SetId} (h : s.victim t = some i) : setOfSlot i = t ∧ (s.ctx i).eligible = true := by
  have hi := List.find?_some (p := fun j => (s.ctx j).eligible) h
  obtain ⟨w, -, rfl⟩ := List.mem_map.1 (List.mem_of_find?_eq_some h)
  exact ⟨setOfSlot_slotOf t w, hi⟩

end

/-! ### The next claimant (R44 to R46) -/

/-- The first element of a list that passes a test, among those in the list. -/
theorem find?_iff_idxOf {α : Type} [DecidableEq α] {l : List α} (p : α → Bool) (a : α) : l.find? p = some a ↔
    a ∈ l ∧ p a = true ∧ ∀ b, p b = true → l.idxOf a ≤ l.idxOf b := by
  induction l with
  | nil => simp
  | cons x rest ih =>
    cases hp : p x with
    | true =>
      rw [List.find?_cons_of_pos hp]
      constructor
      · rintro ⟨⟩
        exact ⟨List.mem_cons_self, hp, by simp⟩
      · rintro ⟨-, -, hmin⟩
        by_contra hne
        have hle := hmin x hp
        rw [List.idxOf_cons_self, List.idxOf_cons_ne _ fun e => hne (by rw [e])] at hle
        omega
    | false =>
      have hne : ∀ b, p b = true → x ≠ b := fun b hb e => by rw [e, hb] at hp; cases hp
      rw [List.find?_cons_of_neg (by simp [hp]), ih]
      constructor
      · rintro ⟨ha, hpa, hmin⟩
        refine ⟨List.mem_cons_of_mem _ ha, hpa, fun b hb => ?_⟩
        rw [List.idxOf_cons_ne _ (hne a hpa), List.idxOf_cons_ne _ (hne b hb)]
        exact Nat.succ_le_succ (hmin b hb)
      · rintro ⟨ha, hpa, hmin⟩
        refine ⟨(List.mem_cons.1 ha).resolve_left (hne a hpa).symm, hpa, fun b hb => ?_⟩
        have hle := hmin b hb
        rw [List.idxOf_cons_ne _ (hne a hpa), List.idxOf_cons_ne _ (hne b hb)] at hle
        exact Nat.le_of_succ_le_succ hle

theorem mem_rotation (c : Claimant) : c ∈ rotation := by
  cases c with
  | receiver p => revert p; decide
  | timer => decide
  | command => decide

theorem mem_rotationAfter (a c : Claimant) : c ∈ rotationAfter a := List.mem_rotate.2 (mem_rotation c)

/-- The turns from one claimant to the next: the distance of their places in the rotation, from 1 to 6 (R45). -/
theorem idxOf_rotationAfter : ∀ a ∈ rotation, ∀ c ∈ rotation, (rotationAfter a).idxOf c = (c.rank + 5 - a.rank) % 6 := by
  decide

theorem rank_lt (c : Claimant) : c.rank < 6 := by
  cases c with
  | receiver p => simp only [Claimant.rank]; omega
  | timer => decide
  | command => decide

theorem rank_inj : ∀ a ∈ rotation, ∀ c ∈ rotation, a.rank = c.rank → a = c := by decide

theorem turnsTo_eq (s : State) (c : Claimant) : turnsTo s c = (c.rank + 5 - s.table.lastServed.rank) % 6 + 1 := by
  rw [turnsTo, idxOf_rotationAfter _ (mem_rotation _) _ (mem_rotation c)]

section
variable {s : State}

theorem nextClaimant_busy (h : s.table.service ≠ none) : s.nextClaimant = none := by
  unfold State.nextClaimant
  split
  · rfl
  · next hn => exact absurd hn h

theorem nextClaimant_idle (h : s.table.service = none) :
    s.nextClaimant = (rotationAfter s.table.lastServed).find? s.presents := by
  simp only [State.nextClaimant, h]

theorem nextClaimant_some (h : s.table.service = none) (c : Claimant) : s.nextClaimant = some c ↔
    s.presents c = true ∧ ∀ d, s.presents d = true → turnsTo s c ≤ turnsTo s d := by
  rw [nextClaimant_idle h, find?_iff_idxOf]
  simp only [mem_rotationAfter, true_and, turnsTo, Nat.add_le_add_iff_right]

theorem nextClaimant_none (h : s.table.service = none) : s.nextClaimant = none ↔ ∀ c, s.presents c = false := by
  rw [nextClaimant_idle h, List.find?_eq_none]
  simp only [mem_rotationAfter, true_implies, Bool.not_eq_true]

/-- While a claim is next, none is in service (R44). -/
theorem service_of_next {c : Claimant} (h : s.nextClaimant = some c) : s.table.service = none := by
  by_contra hs
  rw [nextClaimant_busy hs] at h
  cases h

end

/-- Settles O16: the claimant served last comes last in the rotation, so the others come nearer. -/
theorem rotationChoice : Obligations.RotationChoice := by
  refine fun s => ⟨nextClaimant_busy, nextClaimant_some, nextClaimant_none, fun c => ?_, fun t c d hc hd hne ht => ?_⟩
  · rw [turnsTo_eq]
    omega
  · have hle := ((nextClaimant_some (service_of_next hc) c).1 hc).2 d hd
    have hrank : c.rank ≠ d.rank := fun e => hne (rank_inj _ (mem_rotation d) _ (mem_rotation c) e.symm)
    have hc6 := rank_lt c
    have hd6 := rank_lt d
    have hs6 := rank_lt s.table.lastServed
    rw [turnsTo_eq, turnsTo_eq] at hle
    rw [turnsTo_eq, turnsTo_eq, ht]
    omega

end Sys2Proof.Machine
end

