-- ==== Sys2Proof/Proofs/Stands.lean ====
section
/-! SUPPORT. The changes under which the context table stands: one relation, from which each of the laws of the table follows, and
the bundle of those laws that a step is to keep. -/

namespace Sys2Proof.Machine

open Sys2Proof.Safety

/-! ### The relations -/

/-- A claim in service but for whether the fill engine waits, which no law reads. -/
def unwaited (st : StoreClaim) : StoreClaim := { st with waiting := false }

/-- The report queue has its success entries, gained failure entries at most, and keeps their cap (R124). -/
def ReportsStand (l l' : List ReportEntry) : Prop :=
  successSlots l' = successSlots l ∧ (∀ e ∈ l', e ∈ l ∨ e.slot = none ∧ e.isSuccess = false) ∧
    (failureCount l ≤ 16 → failureCount l' ≤ 16)

/-- The positions of the drain port are even, and 0 when it is not bound (R133). -/
def PositionsOk (d : DrainPort) : Prop :=
  (d.bound = none → d.pos = 0) ∧ d.pos % 2 = 0 ∧ ∀ h, d.held = some h → h.pos % 2 = 0

/-- The drain port is bound as before, to a record of the same length. -/
def DrainStands (d d' : DrainPort) : Prop := d'.bound = d.bound ∧ d'.len = d.len ∧ (PositionsOk d → PositionsOk d')

/-- From `s` to `t` the context records, their open order, the claim in service and PORT_HELD stand, and what else the laws of the
table read changes in keeping with them. -/
structure Stands (s t : State) : Prop where
  ctx : ∀ i, t.ctx i = s.ctx i
  order : ∀ u, t.order u = s.order u
  service : t.table.service.map unwaited = s.table.service.map unwaited
  held : ∀ p, (t.port p).held = (s.port p).held
  recent : ∀ p, (t.port p).recent.Sublist (s.port p).recent
  mem : ∀ g, written s.mem g → written t.mem g
  reports : ReportsStand s.reports t.reports
  drain : DrainStands s.drain t.drain
  places : placesOk s → placesOk t
  timers : TimerLaw s → TimerLaw t
  quiet : (s.initialising = true → Quiet s) → t.initialising = true → Quiet t
  ready : s.host.phase = .ready → t.host.phase = .ready

theorem ReportsStand.refl (l : List ReportEntry) : ReportsStand l l := ⟨rfl, fun _ => .inl, id⟩

theorem DrainStands.refl (d : DrainPort) : DrainStands d d := ⟨rfl, rfl, id⟩

theorem Stands.refl (s : State) : Stands s s :=
  ⟨fun _ => rfl, fun _ => rfl, rfl, fun _ => rfl, fun _ => .refl _, fun _ => id, .refl _, .refl _, id, id, id, id⟩

theorem Stands.trans {s t u : State} (h : Stands s t) (h' : Stands t u) : Stands s u where
  ctx i := (h'.ctx i).trans (h.ctx i)
  order v := (h'.order v).trans (h.order v)
  service := h'.service.trans h.service
  held p := (h'.held p).trans (h.held p)
  recent p := (h'.recent p).trans (h.recent p)
  mem g hg := h'.mem g (h.mem g hg)
  reports := by
    obtain ⟨hslots, hmem, hcap⟩ := h.reports
    obtain ⟨hslots', hmem', hcap'⟩ := h'.reports
    exact ⟨hslots'.trans hslots, fun e he => (hmem' e he).elim (hmem e) .inr, hcap' ∘ hcap⟩
  drain := by
    obtain ⟨hbound, hlen, hpos⟩ := h.drain
    obtain ⟨hbound', hlen', hpos'⟩ := h'.drain
    exact ⟨hbound'.trans hbound, hlen'.trans hlen, hpos' ∘ hpos⟩
  places := h'.places ∘ h.places
  timers := h'.timers ∘ h.timers
  quiet := h'.quiet ∘ h.quiet
  ready := h'.ready ∘ h.ready

/-! ### The claim in service -/

section
variable {s t : State}

/-- The claim in service is the one that was, but for the fill engine's waiting. -/
theorem Stands.claim (h : Stands s t) {st : StoreClaim} (ht : t.table.service = some st) :
    ∃ st', s.table.service = some st' ∧ st = { st' with waiting := st.waiting } := by
  have hs := h.service
  rw [ht, Option.map_some, eq_comm, Option.map_eq_some_iff] at hs
  obtain ⟨st', hs', he⟩ := hs
  refine ⟨st', hs', ?_⟩
  cases st
  cases st'
  simp only [unwaited, StoreClaim.mk.injEq] at he ⊢
  simp [he]

theorem Stands.idle (h : Stands s t) (hs : s.table.service = none) : t.table.service = none := by
  have he := h.service
  rwa [hs, Option.map_none, Option.map_eq_none_iff] at he

theorem serviceSegs_unwaited (s : State) : serviceSegs s = ((s.table.service.map unwaited).map (·.segs)).getD [] := by
  unfold serviceSegs
  cases s.table.service <;> rfl

theorem serviceHeld_unwaited (s : State) (p : PortId) : serviceHeld s p =
    ((s.table.service.map unwaited).map fun st => if st.port = p then st.segs.length else 0).getD 0 := by
  unfold serviceHeld
  cases s.table.service <;> rfl

/-! ### Each law where the table stands -/

/-- What the claim in service works on is read from one context record. -/
theorem serviceOk_congr {st : StoreClaim} (h : t.ctx st.slot = s.ctx st.slot) : serviceOk t st ↔ serviceOk s st := by
  rw [serviceOk, serviceOk, h]

theorem Stands.tableLaw (h : Stands s t) (hs : TableLaw s) : TableLaw t := by
  obtain ⟨hslots, hmem, -⟩ := h.reports
  refine ⟨fun i => ?_, fun i => ?_, fun i => ?_, fun p => ?_, h.places hs.places, fun st hst => ?_, ?_, fun i => ?_,
    fun e he => ?_, fun i => ?_, h.quiet hs.quiet⟩
  · rw [h.ctx]; exact hs.free i
  · rw [h.ctx]; exact hs.key i
  · rw [h.ctx]; exact hs.sums i
  · have htotal := total_congr (heldBy p) h.ctx
    have hbefore := hs.held p
    rw [heldOn_eq] at hbefore ⊢
    rw [h.held, hbefore, htotal, serviceHeld_unwaited t, h.service, ← serviceHeld_unwaited]
  · obtain ⟨st', hst', he⟩ := h.claim hst
    have hok := hs.service st' hst'
    rw [he, serviceOk_congr (h.ctx _)]
    exact hok
  · rw [hslots]; exact hs.reportSlots
  · rw [h.ctx, hslots]; exact hs.reports i
  · rcases hmem e he with he | ⟨hnone, hfail⟩
    · exact hs.reportKinds e he
    · rw [hnone, hfail]; rfl
  · rw [h.ctx, h.drain.1]; exact hs.drain i

/-- The open-order lists hold the non-FREE ways while both stand (R38). -/
theorem orderLaw_congr (horder : ∀ u, t.order u = s.order u) (hfree : ∀ i, (t.ctx i).state = .free ↔ (s.ctx i).state = .free)
    (hs : OrderLaw s) : OrderLaw t := fun u => by
  rw [horder]
  exact ⟨(hs u).1, fun w => ((hs u).2 w).trans (not_congr (hfree _)).symm⟩

/-- Every non-FREE context of `t` was so in `s` with the same key. -/
def KeysFrom (s t : State) : Prop :=
  ∀ i, (t.ctx i).state ≠ .free → (s.ctx i).state ≠ .free ∧ (t.ctx i).key = (s.ctx i).key

theorem keyLaw_from (h : KeysFrom s t) (hs : KeyLaw s) : KeyLaw t where
  inSet i k hi hk := by
    obtain ⟨hi', he⟩ := h i hi
    exact hs.inSet i k hi' (he ▸ hk)
  unique i j hi hj hk := by
    obtain ⟨hi', hei⟩ := h i hi
    obtain ⟨hj', hej⟩ := h j hj
    exact hs.unique i j hi' hj' (by rw [← hei, hk, hej])

/-- An entry of a part of a recent-completion list is an entry of the list. -/
theorem recentEntry_sublist {k : Key} (h : (t.port k.port).recent.Sublist (s.port k.port).recent)
    (hs : s.recentEntry k = none) : t.recentEntry k = none := by
  simp only [State.recentEntry, List.find?_eq_none] at hs ⊢
  exact fun e he => hs e (h.subset he)

theorem recentLaw_from (h : KeysFrom s t) (hr : ∀ p, (t.port p).recent.Sublist (s.port p).recent) (hs : RecentLaw s) :
    RecentLaw t where
  length p := (hr p).length_le.trans (hs.length p)
  distinct p := (hs.distinct p).sublist ((hr p).map _)
  apart i k hi hk := by
    obtain ⟨hi', he⟩ := h i hi
    exact recentEntry_sublist (hr _) (hs.apart i k hi' (he ▸ hk))

/-- There are no more success entries than slots, since each names one of its own (R124). -/
theorem successCount_le (ht : TableLaw t) : successCount t.reports ≤ 64 := by
  have hcount : successCount t.reports = (successSlots t.reports).length := by
    have hkinds := ht.reportKinds
    unfold successCount successSlots
    generalize t.reports = l at hkinds ⊢
    induction l with
    | nil => rfl
    | cons e l ih =>
      obtain ⟨he, hl⟩ := List.forall_mem_cons.1 hkinds
      cases hslot : e.slot <;> rw [hslot] at he <;> simp [hslot, ← he, ih hl]
  rw [hcount]
  simpa using ht.reportSlots.length_le_card

theorem queueLaw_of (ht : TableLaw t) (h : failureCount t.reports ≤ 16) : QueueLaw t := ⟨h, successCount_le ht⟩

theorem Stands.keysFrom (h : Stands s t) : KeysFrom s t := fun i hi => by rw [h.ctx] at hi ⊢; exact ⟨hi, rfl⟩

/-- The entry of a claim in service fits a context record that stands. -/
theorem storeLaw_congr {st st' : StoreClaim} (hctx : t.ctx st.slot = s.ctx st.slot)
    (he : st' = { st with waiting := st'.waiting }) (h : StoreLaw s st) : StoreLaw t st' := by
  obtain ⟨hfresh, hconsistent, hlast, hpayload, hsegs, hcurrent⟩ := h
  rw [he]
  constructor
  · rw [hctx]; exact hfresh
  · rw [hctx]; exact hconsistent
  · exact hlast
  · exact hpayload
  · exact hsegs
  · exact hcurrent

theorem Stands.recordLaw (h : Stands s t) (hs : RecordLaw s) : RecordLaw t where
  contexts i := by rw [h.ctx]; exact hs.contexts i
  empty i := by
    have hopened : (∃ st, t.table.service = some st ∧ st.slot = i ∧ st.prior = .free) ↔
        ∃ st, s.table.service = some st ∧ st.slot = i ∧ st.prior = .free := by
      have he := h.service
      cases hs' : s.table.service <;> cases ht : t.table.service <;> rw [hs', ht] at he <;> simp [unwaited] at he ⊢
      simp [he]
    rw [h.ctx, hopened]
    exact hs.empty i
  store st hst := by
    obtain ⟨st', hst', he⟩ := h.claim hst
    have hslot : st.slot = st'.slot := by rw [he]
    exact storeLaw_congr (h.ctx _) he (hs.store st' hst')

theorem Stands.drainLaw (h : Stands s t) (hs : DrainLaw s) : DrainLaw t := by
  obtain ⟨hbound, hlen, hpos⟩ := h.drain
  obtain ⟨-, hmem, -⟩ := h.reports
  obtain ⟨hzero, heven, hheld⟩ := hpos ⟨fun hb => (hs.unbound hb).2, hs.even, hs.heldEven⟩
  refine ⟨fun i g hg => ?_, fun st hst g hg => ?_, fun i hi => ?_, fun e he i hi => ?_, fun hb => ⟨?_, hzero hb⟩, heven, hheld⟩
  · rw [h.ctx] at hg
    exact h.mem g (hs.stored i g hg)
  · obtain ⟨st', hst', he⟩ := h.claim hst
    rw [he] at hg
    exact h.mem g (hs.passed st' hst' g hg)
  · rw [h.ctx, hlen]
    exact hs.length i (hbound ▸ hi)
  · rw [h.ctx]
    rcases hmem e he with he | ⟨hnone, -⟩
    · exact hs.entries e he i hi
    · rw [hnone] at hi; cases hi
  · rw [hlen]
    exact (hs.unbound (hbound ▸ hb)).1

end

/-! ### The laws that a step is to keep -/

/-- From `s`, which keeps the table law, to `t` each law of the table is kept. `F` says that the claim taken is for a payload of the
right length, which the law of context records leans on (R4, R50). -/
structure LawsFollow (F : Prop) (s t : State) : Prop where
  table : TableLaw t
  order : OrderLaw s → OrderLaw t
  key : KeyLaw s → KeyLaw t
  recent : KeyLaw s → RecentLaw s → RecentLaw t
  queue : QueueLaw s → QueueLaw t
  timers : TimerLaw s → TimerLaw t
  record : F → RecordLaw s → RecordLaw t
  drain : RecordLaw s → DrainLaw s → DrainLaw t

section
variable {F : Prop} {s t u : State}

theorem LawsFollow.trans (h : LawsFollow True s t) (h' : LawsFollow F t u) : LawsFollow F s u where
  table := h'.table
  order := h'.order ∘ h.order
  key := h'.key ∘ h.key
  recent hk hr := h'.recent (h.key hk) (h.recent hk hr)
  queue := h'.queue ∘ h.queue
  timers := h'.timers ∘ h.timers
  record hF hr := h'.record hF (h.record trivial hr)
  drain hr hd := h'.drain (h.record trivial hr) (h.drain hr hd)

theorem LawsFollow.weaken (h : LawsFollow True s t) : LawsFollow F s t :=
  ⟨h.table, h.order, h.key, h.recent, h.queue, h.timers, fun _ => h.record trivial, h.drain⟩

/-- What stands after a change that keeps the laws. -/
theorem LawsFollow.stands (h : LawsFollow F s t) (h' : Stands t u) : LawsFollow F s u where
  table := h'.tableLaw h.table
  order hs := orderLaw_congr h'.order (fun i => by rw [h'.ctx]) (h.order hs)
  key hs := keyLaw_from h'.keysFrom (h.key hs)
  recent hk hr := recentLaw_from h'.keysFrom h'.recent (h.recent hk hr)
  queue hs := by
    obtain ⟨-, -, hcap⟩ := h'.reports
    exact queueLaw_of (h'.tableLaw h.table) (hcap (h.queue hs).1)
  timers := h'.timers ∘ h.timers
  record hF hr := h'.recordLaw (h.record hF hr)
  drain hr hd := h'.drainLaw (h.drain hr hd)

theorem LawsFollow.refl (hs : TableLaw s) : LawsFollow F s s := ⟨hs, id, id, fun _ => id, id, id, fun _ => id, fun _ => id⟩

theorem Stands.laws (h : Stands s t) (hs : TableLaw s) : LawsFollow F s t := (LawsFollow.refl hs).stands h

end

end Sys2Proof.Machine
end

