-- ==== Sys2Proof/Proofs/StandsPorts.lean ====
section
/-! SUPPORT. The table stands under counting, events and replies, and in every row of a receiver, a transmitter or a register but the
resets (R2 to R23, R165 to R180). -/

namespace Sys2Proof.Machine

open Sys2Proof.Safety

/-! ### Nothing of the table changed -/

/-- From `s` to `t` every part that the laws of the table read stands, but for what `Quiet` reads of the link ports and the command
unit. -/
def SameTable (s t : State) : Prop :=
  (∀ i, t.ctx i = s.ctx i) ∧ (∀ u, t.order u = s.order u) ∧ t.table.service = s.table.service ∧
    (∀ p, (t.port p).held = (s.port p).held) ∧ (∀ p, (t.port p).recent = (s.port p).recent) ∧ t.mem = s.mem ∧
    t.reports = s.reports ∧ t.drain = s.drain ∧ t.pool.freeList = s.pool.freeList ∧ t.pool.backlog = s.pool.backlog ∧
    (∀ i, t.timers i = s.timers i) ∧ t.timer.claim = s.timer.claim ∧ t.host.phase = s.host.phase

/-- The receivers' states, their staged frames and an idle command unit stand (R48). -/
def SameWork (s t : State) : Prop :=
  (∀ p, (t.port p).rx.state = (s.port p).rx.state ∧ (t.port p).staging = (s.port p).staging) ∧
    (s.cmd.inFlight = none → t.cmd.inFlight = none)

section
variable {s t u : State}

theorem SameTable.refl (s : State) : SameTable s s := by simp [SameTable]

theorem SameTable.trans (h : SameTable s t) (h' : SameTable t u) : SameTable s u := by
  obtain ⟨h1, h2, h3, h4, h5, h6, h7, h8, h9, h10, h11, h12, h13⟩ := h
  obtain ⟨e1, e2, e3, e4, e5, e6, e7, e8, e9, e10, e11, e12, e13⟩ := h'
  exact ⟨fun i => (e1 i).trans (h1 i), fun v => (e2 v).trans (h2 v), e3.trans h3, fun p => (e4 p).trans (h4 p),
    fun p => (e5 p).trans (h5 p), e6.trans h6, e7.trans h7, e8.trans h8, e9.trans h9, e10.trans h10,
    fun i => (e11 i).trans (h11 i), e12.trans h12, e13.trans h13⟩

theorem SameWork.refl (s : State) : SameWork s s := ⟨fun _ => ⟨rfl, rfl⟩, id⟩

theorem SameWork.trans (h : SameWork s t) (h' : SameWork t u) : SameWork s u := by
  obtain ⟨hport, hcmd⟩ := h
  obtain ⟨hport', hcmd'⟩ := h'
  exact ⟨fun p => ⟨(hport' p).1.trans (hport p).1, (hport' p).2.trans (hport p).2⟩, hcmd' ∘ hcmd⟩

theorem heldSegments_congr (hctx : ∀ i, t.ctx i = s.ctx i) (hsegs : serviceSegs t = serviceSegs s) :
    heldSegments t = heldSegments s := by
  show _ ++ serviceSegs t = _ ++ serviceSegs s
  rw [contexts_toList, contexts_toList, hsegs, funext hctx]

theorem placesOk_congr (hheld : heldSegments t = heldSegments s) (hfree : t.pool.freeList = s.pool.freeList)
    (hbacklog : t.pool.backlog = s.pool.backlog) (hphase : t.host.phase = s.host.phase) : placesOk s → placesOk t := by
  simp only [placesOk, hheld, hfree, hbacklog, hphase]
  exact id

theorem timerLaw_congr (hctx : ∀ i, t.ctx i = s.ctx i) (htimers : ∀ i, t.timers i = s.timers i)
    (hclaim : t.timer.claim = s.timer.claim) (hs : TimerLaw s) : TimerLaw t where
  states i := by rw [hctx, htimers]; exact hs.states i
  marked i := by rw [htimers]; exact hs.marked i
  range i := by rw [htimers]; exact hs.range i
  presented i := by rw [htimers, hclaim]; exact hs.presented i

theorem quiet_congr (hw : SameWork s t) (htimers : ∀ i, t.timers i = s.timers i) (hclaim : t.timer.claim = s.timer.claim)
    (hservice : t.table.service = s.table.service) (hs : Quiet s) : Quiet t where
  receivers p := by rw [(hw.1 p).1, (hw.1 p).2]; exact hs.receivers p
  timers i := by rw [htimers]; exact hs.timers i
  timerClaim := hclaim.trans hs.timerClaim
  command := hw.2 hs.command
  service := hservice.trans hs.service

theorem stands_of_same (h : SameTable s t) (hq : (s.initialising = true → Quiet s) → t.initialising = true → Quiet t) :
    Stands s t := by
  obtain ⟨hctx, horder, hservice, hheld, hrecent, hmem, hreports, hdrain, hfree, hbacklog, htimers, hclaim, hphase⟩ := h
  refine ⟨hctx, horder, by rw [hservice], hheld, fun p => by rw [hrecent], fun g => by rw [hmem]; exact id, ?_, ?_, ?_,
    timerLaw_congr hctx htimers hclaim, hq, fun hr => hphase.trans hr⟩
  · rw [hreports]; exact .refl _
  · rw [hdrain]; exact .refl _
  · refine placesOk_congr (heldSegments_congr hctx ?_) hfree hbacklog hphase
    rw [serviceSegs, hservice]
    rfl

/-- While READY the receivers, the staged frames and the command unit are free to change. -/
theorem stands_ready (h : SameTable s t) (hr : s.host.phase = .ready) : Stands s t :=
  stands_of_same h fun _ hi => absurd hi (by
    obtain ⟨-, -, -, -, -, -, -, -, -, -, -, -, hphase⟩ := h
    simp [initialising_ready (hphase.trans hr)])

/-- In any phase they stand when the work of the ports and of the command unit does. -/
theorem stands_same (h : SameTable s t) (hw : SameWork s t) : Stands s t :=
  stands_of_same h fun hs hi => by
    obtain ⟨-, -, hservice, -, -, -, -, -, -, -, htimers, hclaim, hphase⟩ := h
    refine quiet_congr hw htimers hclaim hservice (hs ?_)
    rwa [State.initialising, ← hphase]

/-- A receiver in OFF, as all are while INITIALISING, does nothing (R8, R48). -/
theorem stands_receiver {p : PortId} (h : SameTable s t) (hoff : (s.port p).rx.state = .off → t = s) : Stands s t :=
  stands_of_same h fun hs hi => by
    have hq : Quiet s := hs (by
      obtain ⟨-, -, -, -, -, -, -, -, -, -, -, -, hphase⟩ := h
      rwa [State.initialising, ← hphase])
    rw [hoff (hq.receivers p).1]
    exact hq

end

/-! ### Counters, events and the shared operations on ports -/

section
variable (s : State) (p : PortId)

theorem sameTable_modifyPort (f : Port → Port) (held : ∀ q, (f q).held = q.held) (recent : ∀ q, (f q).recent = q.recent) :
    SameTable s (s.modifyPort p f) := by
  have hheld : ∀ q, ((s.modifyPort p f).port q).held = (s.port q).held := fun q => modifyPort_part s _ p q f held
  have hrecent : ∀ q, ((s.modifyPort p f).port q).recent = (s.port q).recent := fun q => modifyPort_part s _ p q f recent
  simp [SameTable, hheld, hrecent]

theorem sameWork_modifyPort (f : Port → Port) (rx : ∀ q, (f q).rx = q.rx) (staging : ∀ q, (f q).staging = q.staging) :
    SameWork s (s.modifyPort p f) :=
  ⟨fun q => ⟨congrArg Receiver.state (modifyPort_part s _ p q f rx), modifyPort_part s _ p q f staging⟩, id⟩

theorem sameTable_raise (e : Event) : SameTable s (raise e s) := by simp [SameTable]

theorem sameWork_raise (e : Event) : SameWork s (raise e s) := by simp [SameWork]

theorem sameTable_count (c : Counter) : SameTable s (count p c s) := by simp [SameTable]

theorem sameWork_count (c : Counter) : SameWork s (count p c s) := by simp [SameWork]

theorem stands_raise (e : Event) : Stands s (raise e s) := stands_same (sameTable_raise s e) (sameWork_raise s e)

theorem stands_count (c : Counter) : Stands s (count p c s) := stands_same (sameTable_count s p c) (sameWork_count s p c)

theorem sameTable_countMany (c : Counter) (n : Nat) : SameTable s (countMany p c n s) := by simp [SameTable]

theorem sameTable_setLastServed (c : Claimant) : SameTable s (s.setLastServed c) := by simp [SameTable]

theorem sameWork_setLastServed (c : Claimant) : SameWork s (s.setLastServed c) := by simp [SameWork]

theorem stands_setLastServed (c : Claimant) : Stands s (s.setLastServed c) :=
  stands_same (sameTable_setLastServed s c) (sameWork_setLastServed s c)

theorem sameTable_offerReply (r : Reply) : SameTable s (offerReply p r s) := by
  unfold offerReply
  split
  · exact sameTable_modifyPort s p _ (fun _ => rfl) fun _ => rfl
  · exact sameTable_count s p _

theorem sameWork_offerReply (r : Reply) : SameWork s (offerReply p r s) := by
  unfold offerReply
  split
  · exact sameWork_modifyPort s p _ (fun _ => rfl) fun _ => rfl
  · exact sameWork_count s p _

theorem stands_offerReply (r : Reply) : Stands s (offerReply p r s) :=
  stands_same (sameTable_offerReply s p r) (sameWork_offerReply s p r)

theorem sameTable_serveFrame : SameTable s (serveFrame p s) := sameTable_modifyPort s p _ (fun _ => rfl) fun _ => rfl

theorem sameTable_releaseFrame : SameTable s (releaseFrame p s) := sameTable_modifyPort s p _ (fun _ => rfl) fun _ => rfl

theorem sameTable_discardReplies : SameTable s (discardReplies p s) := by
  have hempty : SameTable s (s.modifyPort p fun q => { q with replies := [] }) :=
    sameTable_modifyPort s p _ (fun _ => rfl) fun _ => rfl
  exact hempty.trans (sameTable_countMany _ p _ _)

/-! ### Receivers (R2, R8 to R15, R20, R21) -/

theorem sameTable_setRx (r : Receiver) : SameTable s (setRx p r s) := sameTable_modifyPort s p _ (fun _ => rfl) fun _ => rfl

theorem sameTable_enterOff : SameTable s (enterOff p s) := by
  have hdiscard := (sameTable_setRx s p (Receiver.noFrame .off (.between none))).trans (sameTable_discardReplies _ p)
  unfold enterOff
  dsimp only
  split
  · exact hdiscard.trans (sameTable_raise _ _)
  · exact hdiscard

theorem sameTable_endFrame (ch : CharPhase) : SameTable s (endFrame p ch s) := by
  unfold endFrame
  split
  · exact sameTable_enterOff s p
  · exact sameTable_setRx s p _

theorem sameTable_dropFrame (ch : CharPhase) : SameTable s (dropFrame p ch s) :=
  (sameTable_count s p _).trans (sameTable_endFrame _ p ch)

theorem sameTable_stageFrame : SameTable s (stageFrame p s) := by
  unfold stageFrame
  exact sameTable_modifyPort s p (fun q => { q with staging := q.staging ++ [_] }) (fun _ => rfl) fun _ => rfl

theorem sameTable_judgeFrame (v : Byte) : SameTable s (judgeFrame p v s) := by
  have hgood := sameTable_count s p .framesGood
  unfold judgeFrame
  dsimp only
  split
  · exact sameTable_count s p _
  split
  · exact hgood.trans (sameTable_count _ p _)
  split
  · exact hgood.trans (sameTable_stageFrame _ p)
  · exact hgood.trans (sameTable_count _ p _)

theorem sameTable_takeGood_inFrame (v : Byte) (h : (s.port p).rx.inFrame) : SameTable s (takeGood p v s) := by
  cases hp : (s.port p).rx.position with
  | awaitingLen =>
    by_cases hv : validLen v = true
    · rw [takeGood_len h hp hv]; exact sameTable_setRx s p _
    · rw [takeGood_badLen h hp hv]; exact sameTable_dropFrame s p _
  | bodyByte => rw [takeGood_body h hp]; exact sameTable_setRx s p _
  | crcLow => rw [takeGood_crcLow h hp]; exact sameTable_setRx s p _
  | crcHigh => rw [takeGood_crcHigh h hp]; exact (sameTable_judgeFrame s p v).trans (sameTable_endFrame _ p _)

theorem sameTable_takeGood (v : Byte) : SameTable s (takeGood p v s) := by
  cases hs : (s.port p).rx.state with
  | off => simp only [takeGood, hs]; exact .refl s
  | hunt =>
    by_cases hv : v = 0xC3#8
    · rw [hv, takeGood_sync hs]; exact sameTable_setRx s p _
    · rw [takeGood_skipped hs hv]; exact sameTable_setRx s p _
  | receiving | stopping => exact sameTable_takeGood_inFrame s p v (by simp [Receiver.inFrame, hs])

theorem sameTable_takeBad : SameTable s (takeBad p s) := by
  unfold takeBad
  dsimp only
  split
  · exact .refl s
  · exact sameTable_setRx s p _
  · exact sameTable_dropFrame s p _
  · exact sameTable_dropFrame s p _

theorem stands_takeCharacter (c : Character) : Stands s (takeCharacter p c s) := by
  refine stands_receiver (p := p) ?_ (takeCharacter_off c)
  unfold takeCharacter
  split
  · exact sameTable_takeGood s p _
  · exact sameTable_takeBad s p
  · exact .refl s

theorem stands_sampleLine (samples : List Bool) : Stands s (sampleLine p samples s) := by
  refine stands_receiver (p := p) ?_ fun hoff => by simp only [sampleLine, hoff]
  unfold sampleLine
  dsimp only
  split
  · exact .refl s
  · exact sameTable_setRx s p _
  · exact .refl s

theorem stands_startCheck (level : Bool) : Stands s
    (if (s.port p).rx.state ≠ .off ∧ (s.port p).rx.char = .edgeSeen then setRx p (checkStart (s.port p).rx level) s else s) := by
  refine stands_receiver (p := p) ?_ fun hoff => if_neg fun h => h.1 hoff
  split
  · exact sameTable_setRx s p _
  · exact .refl s

theorem stands_characterTimeout : Stands s
    (if (s.port p).rx.inFrame ∧ (s.port p).rx.timer = .running then dropFrame p (s.port p).rx.char s else s) := by
  refine stands_receiver (p := p) ?_ fun hoff => if_neg fun h => by simp [Receiver.inFrame, hoff] at h
  split
  · exact sameTable_dropFrame s p _
  · exact .refl s

/-! ### Transmitters (R18, R21) -/

/-- A change of a port's replies, transmitter or settings. -/
theorem stands_modifyPort (f : Port → Port) (held : ∀ q, (f q).held = q.held) (recent : ∀ q, (f q).recent = q.recent)
    (rx : ∀ q, (f q).rx = q.rx) (staging : ∀ q, (f q).staging = q.staging) : Stands s (s.modifyPort p f) :=
  stands_same (sameTable_modifyPort s p f held recent) (sameWork_modifyPort s p f rx staging)

theorem stands_startReply : Stands s (startReply p s) := by
  unfold startReply
  split
  · exact stands_modifyPort s p _ (fun _ => rfl) (fun _ => rfl) (fun _ => rfl) fun _ => rfl
  · exact .refl s

theorem stands_tx (tx : Option Transmission) : Stands s (s.modifyPort p fun q => { q with tx := tx }) :=
  stands_modifyPort s p _ (fun _ => rfl) (fun _ => rfl) (fun _ => rfl) fun _ => rfl

theorem stands_endReply (t : Transmission) : Stands s (endReply p t s) := (stands_tx s p _).trans (stands_count _ p _)

theorem stands_endGuard : Stands s (endGuard p s) := by
  unfold endGuard
  dsimp only
  split
  · exact (stands_tx s p none).trans (stands_startReply _ p)
  split
  · exact (stands_tx s p none).trans (stands_raise _ _)
  · exact stands_tx s p none

/-! ### Registers (R19 to R23, R165 to R180) -/

theorem stands_clearCounter (c : Counter) : Stands s (clearCounter p c s) :=
  stands_modifyPort s p _ (fun _ => rfl) (fun _ => rfl) (fun _ => rfl) fun _ => rfl

theorem stands_clearLimits (v : Word) : Stands s (clearLimits p v s) := by
  unfold clearLimits
  generalize allCounters = l
  induction l generalizing s with
  | nil => exact .refl s
  | cons c l ih =>
    refine Stands.trans ?_ (ih _)
    dsimp only
    split
    · exact stands_clearCounter s p c
    · exact .refl s

/-- A change of statistics, TICK, POOL_LOW, OPERAND or PORT_SELECT leaves the table and its claims. -/
theorem stands_registers (stats : Stats) (tick : Word) (divider : Option Nat) (low : BitVec 11) (operands : Vector Word 4)
    (portSelect : PortId) : Stands s { s with
      stats := stats, timer := { s.timer with tick := tick, divider := divider }, pool := { s.pool with low := low }
      cmd := { s.cmd with operands := operands }, host := { s.host with portSelect := portSelect } } :=
  stands_same (by simp [SameTable]) (by simp [SameWork])

theorem sameTable_disablePort : SameTable s (disablePort p s) := by
  have henable : SameTable s (s.modifyPort p fun q => { q with enable := false }) :=
    sameTable_modifyPort s p _ (fun _ => rfl) fun _ => rfl
  unfold disablePort
  dsimp only
  split
  · exact henable.trans (sameTable_enterOff _ p)
  · exact (henable.trans (sameTable_setRx _ p _)).trans (sameTable_discardReplies _ p)

theorem stands_applyEnable (en : Bool) : Stands s (applyEnable p en s) := by
  cases hs : (s.port p).rx.state with
  | off =>
    rw [applyEnable_off hs]
    split
    · next h =>
      have hr : s.host.phase = .ready := by simpa [State.initialising] using (Bool.and_eq_true_iff.1 h).2
      refine stands_ready ?_ hr
      unfold requestEnable
      dsimp only
      split
      · exact sameTable_modifyPort s p _ (fun _ => rfl) fun _ => rfl
      · exact sameTable_modifyPort s p _ (fun _ => rfl) fun _ => rfl
    · exact .refl s
  | stopping => rw [applyEnable_stopping hs]; exact .refl s
  | hunt | receiving =>
    cases en with
    | true => rw [applyEnable_none (by simp [hs])]; exact .refl s
    | false =>
      rw [applyEnable_disable (by simp [hs])]
      exact stands_receiver (p := p) (sameTable_disablePort s p) fun hoff => by rw [hs] at hoff; cases hoff

theorem stands_writePortCtrl (v : Word) : Stands s (writePortCtrl p v s) :=
  (stands_modifyPort s p (storeCtrl v) (fun _ => rfl) (fun _ => rfl) (fun _ => rfl) fun _ => rfl).trans
    (stands_applyEnable _ p _)

theorem stands_writePortAddr (v : Word) : Stands s (writePortAddr p v s) := by
  unfold writePortAddr
  split
  · exact stands_modifyPort s p _ (fun _ => rfl) (fun _ => rfl) (fun _ => rfl) fun _ => rfl
  · exact .refl s

theorem stands_writePortRate (v : Word) : Stands s (writePortRate p v s) := by
  unfold writePortRate
  split
  · exact stands_modifyPort s p _ (fun _ => rfl) (fun _ => rfl) (fun _ => rfl) fun _ => rfl
  · exact .refl s

/-! ### The command unit (R144, R147) -/

theorem sameTable_cmd (c : CommandUnit) : SameTable s { s with cmd := c } := by simp [SameTable]

theorem stands_completeCommand (st : CommandStatus) (results : List Word) : Stands s (completeCommand st results s) :=
  (stands_same (sameTable_cmd s { s.cmd with status := st.code, results := resultWords results, inFlight := none })
    ⟨fun _ => ⟨rfl, rfl⟩, fun _ => rfl⟩).trans (stands_raise _ _)

theorem stands_completeAtOnce (code : Byte) (st : CommandStatus) : Stands s (completeAtOnce code st s) :=
  (stands_same (sameTable_cmd s { s.cmd with cmd := code }) ⟨fun _ => ⟨rfl, rfl⟩, id⟩).trans (stands_completeCommand _ _ _)

theorem stands_writeCmd (v : Word) : Stands s (writeCmd v s) := by
  unfold writeCmd
  dsimp only
  split
  · exact stands_completeAtOnce s _ _
  next hi =>
  split
  · exact stands_raise s _
  split
  · exact stands_completeAtOnce s _ _
  split
  · exact stands_ready (sameTable_cmd s _) (by simpa [State.initialising] using hi)
  · exact stands_completeAtOnce s _ _

end

end Sys2Proof.Machine
end

