-- ==== Sys2Proof/Proofs/StandsUnits.lean ====
section
/-! SUPPORT. The table stands in the timer unit, the return engine, the walk, the drain port, the report queue and the
recent-completion lists, and after a reset it is that of the reset state (R79, R86, R89 to R96, R124 to R138, R184, R185). -/

namespace Sys2Proof.Machine

open Sys2Proof.Safety

/-! ### Countdowns and marks (R91 to R96) -/

/-- A marked countdown is absent, and a running one is 1 to 65535 (R91). -/
def CountdownsOk (v : SlotTimers) : Prop :=
  (∀ k, v.mark k = true → v.value k = none) ∧ ∀ k n, v.value k = some n → 1 ≤ n ∧ n ≤ 65535

theorem countdownsOk_of {s : State} (h : TimerLaw s) (i : Slot) : CountdownsOk (s.timers i) := ⟨h.marked i, h.range i⟩

@[simp] theorem cleared_mark (k : CountdownKind) : SlotTimers.cleared.mark k = false := by cases k <;> rfl

@[simp] theorem cleared_value (k : CountdownKind) : SlotTimers.cleared.value k = none := by cases k <;> rfl

theorem claimAt_positionOf (c : ExpiryClaim) : claimAt (positionOf c) = c := by
  obtain ⟨i, k⟩ := c
  have h0 : 2 * i.val / 2 = i.val := by omega
  have h1 : (2 * i.val + 1) / 2 = i.val := by omega
  cases k <;> simp [claimAt, positionOf, h0, h1, Nat.add_mod]

section
variable {s t : State}

/-- No position is found exactly when no mark is set (R95). -/
theorem firstMarked_none : s.firstMarked = none ↔ ∀ i k, (s.timers i).mark k = false := by
  simp only [State.firstMarked, List.find?_eq_none, List.mem_map, List.mem_finRange, true_and, forall_exists_index,
    forall_apply_eq_imp_iff, Bool.not_eq_true, State.markedAt]
  constructor
  · intro h i k
    have hpos := h (positionOf ⟨i, k⟩ - s.timer.scan)
    rwa [add_sub_cancel, claimAt_positionOf] at hpos
  · exact fun h d => h _ _

/-- With an expiry claim presented the law of countdowns asks only for the slots' own (R95). -/
theorem timerLaw_presentExpiry (states : ∀ i, (s.ctx i).gathering = false → s.timers i = SlotTimers.cleared)
    (ok : ∀ i, CountdownsOk (s.timers i)) : TimerLaw (presentExpiry s) where
  states i := by simpa using states i
  marked i := by simpa using (ok i).1
  range i := by simpa using (ok i).2
  presented i k h hnone := by
    simp only [presentExpiry_frame, presentExpiry_claim, Option.or_eq_none_iff, Option.map_eq_none_iff] at h hnone
    rw [firstMarked_none.1 hnone.2 i k] at h
    cases h

/-- A change of one context and its countdowns, by which no mark is set. -/
theorem timerLaw_change {i : Slot} (h : TimerLaw s) (hctx : ∀ j, j ≠ i → t.ctx j = s.ctx j)
    (htimers : ∀ j, j ≠ i → t.timers j = s.timers j) (hclaim : t.timer.claim = s.timer.claim)
    (states : (t.ctx i).gathering = false → t.timers i = SlotTimers.cleared) (ok : CountdownsOk (t.timers i))
    (hm : ∀ k, (t.timers i).mark k = true → (s.timers i).mark k = true) : TimerLaw t := by
  have hok : ∀ j, CountdownsOk (t.timers j) := fun j => by
    by_cases hj : j = i
    · rw [hj]; exact ok
    · rw [htimers j hj]; exact countdownsOk_of h j
  refine ⟨fun j hg => ?_, fun j => (hok j).1, fun j => (hok j).2, fun j k hk => ?_⟩
  · by_cases hj : j = i
    · rw [hj] at hg ⊢; exact states hg
    · rw [hctx j hj] at hg
      rw [htimers j hj]; exact h.states j hg
  · rw [hclaim]
    by_cases hj : j = i
    · rw [hj] at hk
      exact h.presented i k (hm k hk)
    · rw [htimers j hj] at hk
      exact h.presented j k hk

theorem countdownsOk_cleared : CountdownsOk SlotTimers.cleared := by simp [CountdownsOk]

/-- A change of the timer unit alone, with its laws kept. -/
theorem stands_timer {u : TimerUnit} (timers : TimerLaw s → TimerLaw { s with timer := u })
    (quiet : Quiet s → Quiet { s with timer := u }) : Stands s { s with timer := u } :=
  ⟨fun _ => rfl, fun _ => rfl, rfl, fun _ => rfl, fun _ => .refl _, fun _ => id, .refl _, .refl _, id, timers,
    fun hq hi => quiet (hq hi), id⟩

/-! ### Ticks (R89 to R95) -/

theorem countdownsOk_ticked {v : SlotTimers} (h : CountdownsOk v) : CountdownsOk v.ticked := by
  have hone : ∀ c : Option Nat × Bool, (c.2 = true → c.1 = none) → (∀ n, c.1 = some n → 1 ≤ n ∧ n ≤ 65535) →
      ((tickCountdown c).2 = true → (tickCountdown c).1 = none) ∧
        ∀ n, (tickCountdown c).1 = some n → 1 ≤ n ∧ n ≤ 65535 := by
    rintro ⟨_ | v, m⟩ hm hr
    · exact ⟨fun _ => rfl, nofun⟩
    · have hv := hr v rfl
      unfold tickCountdown
      dsimp only
      split
      · exact ⟨fun _ => rfl, nofun⟩
      · refine ⟨fun e => absurd (hm e) (by simp), fun n hn => ?_⟩
        cases hn
        omega
  obtain ⟨hm, hr⟩ := h
  constructor
  · intro k
    cases k with
    | repair => exact (hone _ (hm .repair) (hr .repair)).1
    | life => exact (hone _ (hm .life) (hr .life)).1
  · intro k
    cases k with
    | repair => exact (hone _ (hm .repair) (hr .repair)).2
    | life => exact (hone _ (hm .life) (hr .life)).2

@[simp] theorem cleared_ticked : SlotTimers.cleared.ticked = SlotTimers.cleared := rfl

/-- The timer unit at a tick, before a claim is presented (R92). -/
def ticked (s : State) : State := { s with timer := { s.timer with
  divider := dividerLoad s.timer.tick, slots := s.timer.slots.map SlotTimers.ticked } }

@[simp] theorem ticked_timers (i : Slot) : (ticked s).timers i = (s.timers i).ticked := by
  rw [State.timers, ticked, Fin.getElem_fin, Vector.getElem_map, slots_getElem]

theorem stands_presented {u : TimerUnit} (timers : TimerLaw s → TimerLaw (presentExpiry { s with timer := u }))
    (quiet : Quiet s → Quiet (presentExpiry { s with timer := u })) : Stands s (presentExpiry { s with timer := u }) := by
  have he : presentExpiry { s with timer := u } = { s with timer := (presentExpiry { s with timer := u }).timer } := by
    unfold presentExpiry
    split <;> rfl
  rw [he] at timers quiet ⊢
  exact stands_timer timers quiet

theorem stands_tickState : Stands s (tickState s) := by
  refine stands_presented (fun h => timerLaw_presentExpiry (s := ticked s) (fun i hi => ?_) fun i => ?_) fun h => ?_
  · rw [ticked_timers, h.states i hi, cleared_ticked]
  · rw [ticked_timers]
    exact countdownsOk_ticked (countdownsOk_of h i)
  · have htimers : ∀ i, (ticked s).timers i = SlotTimers.cleared := fun i => by
      rw [ticked_timers, h.timers, cleared_ticked]
    have hclaim : (presentExpiry (ticked s)).timer.claim = none := by
      rw [presentExpiry_claim, firstMarked_none.2 fun i k => by rw [htimers, cleared_mark]]
      simpa [ticked] using h.timerClaim
    exact ⟨fun p => by simpa using h.receivers p, fun i => ((presentExpiry_frame (ticked s)).2.2.2.1 i).trans (htimers i),
      hclaim, by simpa using h.command, by simpa using h.service⟩

theorem countdownsOk_expire {v : SlotTimers} (h : CountdownsOk v) (k : CountdownKind) : CountdownsOk (v.expire k) := by
  obtain ⟨hm, hr⟩ := h
  constructor
  · intro j
    have hj := hm j
    cases k <;> cases j <;> simp_all [SlotTimers.expire, SlotTimers.mark, SlotTimers.value]
  · intro j n hn
    refine hr j n ?_
    cases k <;> cases j <;> simp_all [SlotTimers.expire, SlotTimers.value]

theorem stands_countdownExpiry (i : Slot) (k : CountdownKind) : Stands s
    (if s.timer.divider.isSome ∧ (s.timers i).value k = some 1 then presentExpiry (s.setTimers i ((s.timers i).expire k))
      else s) := by
  split
  · next hrun =>
    obtain ⟨-, hone⟩ := hrun
    refine stands_presented (fun h => timerLaw_presentExpiry (fun j hj => ?_) fun j => ?_) fun h => ?_
    · have hne : j ≠ i := fun e => by
        rw [← e, h.states j hj, cleared_value] at hone
        cases hone
      exact (setTimers_timers_ne s i j _ hne).trans (h.states j hj)
    · show CountdownsOk ((s.setTimers i ((s.timers i).expire k)).timers j)
      rw [setTimers_timers]
      split
      · exact countdownsOk_expire (countdownsOk_of h i) k
      · exact countdownsOk_of h j
    · rw [h.timers i, cleared_value] at hone
      cases hone
  · exact .refl s

/-! ### An expiry claim taken (R95, R96) -/

/-- The mark of the claim cleared, and the scan position past it (R95, R96). -/
def withdrawn (s : State) (c : ExpiryClaim) : TimerUnit :=
  { s.timer with claim := none, scan := positionAfter c, slots := s.timer.slots.set c.slot ((s.timers c.slot).clearMark c.kind) }

theorem countdownsOk_clearMark {v : SlotTimers} (h : CountdownsOk v) (k : CountdownKind) : CountdownsOk (v.clearMark k) := by
  obtain ⟨hm, hr⟩ := h
  constructor
  · intro j
    have hj := hm j
    cases k <;> cases j <;> simp_all [SlotTimers.clearMark, SlotTimers.mark, SlotTimers.value]
  · intro j n hn
    refine hr j n ?_
    cases k <;> cases j <;> exact hn

@[simp] theorem cleared_clearMark (k : CountdownKind) : SlotTimers.cleared.clearMark k = SlotTimers.cleared := by
  cases k <;> rfl

theorem stands_expiryTaken (c : ExpiryClaim) (hc : s.timer.claim = some c) :
    Stands s (presentExpiry { s with timer := withdrawn s c }) := by
  have htimers : ∀ j, ({ s with timer := withdrawn s c } : State).timers j =
      if j = c.slot then (s.timers c.slot).clearMark c.kind else s.timers j :=
    fun j => setTimers_timers s c.slot j ((s.timers c.slot).clearMark c.kind)
  refine stands_presented (fun h => timerLaw_presentExpiry (fun j hj => ?_) fun j => ?_) fun h => ?_
  · rw [htimers]
    split
    · next e => rw [← e, h.states j hj, cleared_clearMark]
    · exact h.states j hj
  · rw [htimers]
    split
    · exact countdownsOk_clearMark (countdownsOk_of h _) _
    · exact countdownsOk_of h j
  · rw [h.timerClaim] at hc
    cases hc

/-! ### The return engine and the walk (R79, R86) -/

/-- A return move takes its segment from the backlog to the free list (R79). -/
theorem stands_returnMove {g : Seg} {rest : List Seg} (hb : s.pool.backlog = g :: rest) :
    Stands s { s with pool := { s.pool with freeList := s.pool.freeList ++ [g], backlog := rest } } := by
  refine ⟨fun _ => rfl, fun _ => rfl, rfl, fun _ => rfl, fun _ => .refl _, fun _ => id, .refl _, .refl _, fun hp => ?_,
    timerLaw_congr (fun _ => rfl) (fun _ => rfl) rfl,
    fun hq hi => quiet_congr (SameWork.refl s) (fun _ => rfl) rfl rfl (hq hi), id⟩
  unfold placesOk at hp ⊢
  dsimp only
  cases hphase : s.host.phase with
  | ready =>
    rw [hphase] at hp
    show (s.pool.freeList ++ [g] ++ rest ++ heldSegments s).Perm _
    refine .trans (.append_right _ ?_) hp
    rw [hb, List.append_assoc]
    rfl
  | walking | resetAsserted =>
    rw [hphase, hb] at hp
    obtain ⟨-, hnil, -⟩ := hp
    cases hnil

/-- While the walk runs, a change of the pool and of the phase under which every segment keeps its place. -/
theorem stands_walk {pool : Pool} {host : HostPort} (hphase : s.host.phase ≠ .ready)
    (places : placesOk s → placesOk { s with pool := pool, host := host }) (timer : TimerUnit)
    (slots : timer.slots = s.timer.slots) (claim : timer.claim = s.timer.claim) :
    Stands s { s with pool := pool, host := host, timer := timer } := by
  have htimers : ∀ j, ({ s with pool := pool, host := host, timer := timer } : State).timers j = s.timers j := fun j => by
    simp [slots]
  refine ⟨fun _ => rfl, fun _ => rfl, rfl, fun _ => rfl, fun _ => .refl _, fun _ => id, .refl _, .refl _, places,
    timerLaw_congr (fun _ => rfl) htimers claim, fun hq _ => ?_, fun hr => absurd hr hphase⟩
  exact quiet_congr (s := s) ⟨fun _ => ⟨rfl, rfl⟩, id⟩ htimers claim rfl (hq (by simpa [State.initialising] using hphase))

theorem stands_walkStep {k : Fin 1024} (hk : s.host.phase = .walking k) : Stands s (walkStep k s) := by
  have htake : placesOk s → s.pool.freeList ++ [k] = (List.finRange 1024).take (k.val + 1) ∧ s.pool.backlog = [] ∧
      heldSegments s = [] := fun hp => by
    simp only [placesOk, hk] at hp
    obtain ⟨hfree, hrest⟩ := hp
    rw [hfree]
    refine ⟨?_, hrest⟩
    rw [List.take_add_one, List.getElem?_eq_getElem (by simp), List.getElem_finRange]
    rfl
  have hne : s.host.phase ≠ .ready := by simp [hk]
  unfold walkStep
  dsimp only
  split
  · next hlast =>
    refine (stands_walk hne (fun hp => ?_) s.timer rfl rfl).trans (stands_raise _ _)
    obtain ⟨hfree, hbacklog, hheld⟩ := htake hp
    show (s.pool.freeList ++ [k] ++ s.pool.backlog ++ heldSegments s).Perm _
    rw [hheld, hbacklog, hfree, hlast, List.take_of_length_le (by simp)]
    simp
  · next hlast =>
    refine stands_walk hne (fun hp => ?_) s.timer rfl rfl
    obtain ⟨hfree, hrest⟩ := htake hp
    refine ⟨hfree.trans ?_, hrest⟩
    have hk1 : (k + 1).val = k.val + 1 := Fin.val_add_one_of_lt' (by
      have hlt := k.isLt
      have hval : k.val ≠ 1023 := fun e => hlast (Fin.ext e)
      omega)
    rw [hk1]

theorem stands_resetDeassert (h : s.host.phase = .resetAsserted) : Stands s (resetDeassert s) := by
  refine stands_walk (by simp [h]) (fun hp => ?_) _ rfl rfl
  simp only [placesOk, h] at hp
  obtain ⟨hfree, hrest⟩ := hp
  exact ⟨by simpa using hfree, hrest⟩

/-! ### The resets (R184, R185) -/

/-- After a reset the laws hold whatever held before it. -/
theorem laws_reset {F : Prop} (h : Stands State.reset t) : LawsFollow F s t :=
  have hlaws : LawsFollow True State.reset t := h.laws tableLaw_reset
  ⟨hlaws.table, fun _ => hlaws.order orderLaw_reset, fun _ => hlaws.key keyLaw_reset,
    fun _ _ => hlaws.recent keyLaw_reset recentLaw_reset, fun _ => hlaws.queue ⟨by decide, by decide⟩,
    fun _ => hlaws.timers timerLaw_reset, fun _ _ => hlaws.record trivial recordLaw_reset,
    fun _ _ => hlaws.drain recordLaw_reset drainLaw_reset⟩

/-- Where nothing is written the first byte of a segment is not (R74). -/
theorem not_written_nil (g : Seg) : ¬ written [] g := fun h => h 0 (by decide) rfl

/-- The state after a reset in phase `phase`, with the table emptied, the pool empty and nothing at work. -/
theorem stands_emptied (ht : t.table = Table.reset) (hpool : t.pool.freeList = [] ∧ t.pool.backlog = [])
    (hport : ∀ p, (t.port p).rx.state = .off ∧ (t.port p).staging = [] ∧ (t.port p).held = 0 ∧ (t.port p).recent = [])
    (htimers : t.timer.slots = Vector.replicate 64 SlotTimers.cleared ∧ t.timer.claim = none) (hreports : t.reports = [])
    (hdrain : { t.drain with readData := 0#16 } = DrainPort.reset) (hcmd : t.cmd.inFlight = none)
    (hphase : t.host.phase = .walking 0 ∨ t.host.phase = .resetAsserted) : Stands State.reset t := by
  obtain ⟨hslots, hclaim⟩ := htimers
  have hctx : ∀ i, t.ctx i = State.reset.ctx i := fun i => by simp only [State.ctx, ht]; rfl
  have htimers : ∀ i, t.timers i = State.reset.timers i := fun i => by simp only [State.timers, hslots]; rfl
  have hservice : t.table.service = none := by rw [ht]; rfl
  have hheld : heldSegments t = [] := by rw [heldSegments, ht]; decide
  simp only [DrainPort.reset, DrainPort.mk.injEq] at hdrain
  obtain ⟨hbound, hpos, hlen, hread, -⟩ := hdrain
  refine ⟨hctx, fun u => by simp only [State.order, ht]; rfl, by rw [hservice]; rfl, fun p => ?_, fun p => ?_,
    fun g hg => absurd hg (not_written_nil g), ?_, ?_, fun _ => ?_, timerLaw_congr hctx htimers hclaim, fun _ _ => ?_,
    fun hr => by cases hr⟩
  · rw [reset_port]; exact (hport p).2.2.1
  · rw [(hport p).2.2.2]; exact List.nil_sublist _
  · rw [hreports]; exact .refl _
  · exact ⟨hbound, hlen, fun _ => ⟨fun _ => hpos, by rw [hpos], fun h hh => by rw [hread] at hh; cases hh⟩⟩
  · rcases hphase with hphase | hphase <;> simp [placesOk, hphase, hpool, hheld]
  · exact ⟨fun p => ⟨(hport p).1, (hport p).2.1⟩, fun i => (htimers i).trans (reset_timers i), hclaim, hcmd, hservice⟩

theorem stands_softReset : Stands State.reset (softResetState s) :=
  stands_emptied rfl ⟨rfl, rfl⟩ (fun p => by rw [softReset_port]; exact ⟨rfl, rfl, rfl, rfl⟩)
    ⟨rfl, rfl⟩ rfl rfl rfl (.inl rfl)

theorem stands_resetAssert (m : Memory) : Stands State.reset { resetAssert s with mem := m } :=
  stands_emptied rfl ⟨rfl, rfl⟩ (fun p => by
    have he : ({ resetAssert s with mem := m } : State).port p = Port.reset := reset_port p
    rw [he]
    exact ⟨rfl, rfl, rfl, rfl⟩) ⟨rfl, rfl⟩ rfl rfl rfl (.inr rfl)

/-! ### The drain port (R133 to R138, R177) -/

theorem stands_setDrain {d : DrainPort} (h : DrainStands s.drain d) : Stands s (s.setDrain d) :=
  ⟨fun _ => rfl, fun _ => rfl, rfl, fun _ => rfl, fun _ => .refl _, fun _ => id, .refl _, h, id,
    timerLaw_congr (fun _ => rfl) (fun _ => rfl) rfl,
    fun hq hi => quiet_congr (SameWork.refl s) (fun _ => rfl) rfl rfl (hq hi), id⟩

theorem stands_resumeFill : Stands s (resumeFill s) := by
  have hservice : (resumeFill s).table.service.map unwaited = s.table.service.map unwaited := by
    show (s.table.service.map _).map unwaited = _
    rw [Option.map_map]
    rfl
  refine ⟨fun _ => rfl, fun _ => rfl, hservice, fun _ => rfl, fun _ => .refl _, fun _ => id, .refl _, .refl _,
    placesOk_congr (heldSegments_congr (fun _ => rfl) ?_) rfl rfl rfl, timerLaw_congr (fun _ => rfl) (fun _ => rfl) rfl,
    fun hq hi => ?_, id⟩
  · rw [serviceSegs_unwaited, hservice, ← serviceSegs_unwaited]
  · have hquiet : Quiet s := hq hi
    exact ⟨hquiet.receivers, hquiet.timers, hquiet.timerClaim, hquiet.command, by
      show s.table.service.map _ = none
      rw [hquiet.service]
      rfl⟩

/-- The host's writes of DRAIN_POS, by which the position stays even (R137). -/
theorem stands_writeDrainPos (v : Word) : Stands s (writeDrainPos v s) := by
  unfold writeDrainPos
  split
  · exact .refl s
  split
  · next h =>
    refine stands_setDrain ⟨rfl, rfl, fun ⟨_, _, hheld⟩ => ⟨fun hb => ?_, by dsimp only; omega, hheld⟩⟩
    dsimp only at hb
    rw [hb] at h
    simp at h
  · exact stands_raise s _

theorem stands_readRecord {i : Slot} (hb : s.drain.bound = some i) (h : readRecord i s = .next t) : Stands s t := by
  have hdrive : ∀ w, Stands s (driveWord w s) := fun w => stands_setDrain ⟨rfl, rfl, fun ⟨_, heven, hheld⟩ =>
    ⟨fun hn => absurd (hb.symm.trans hn) (by simp), by dsimp only; omega, hheld⟩⟩
  unfold readRecord at h
  split at h
  · cases h
  · split at h
    · split at h
      · cases h
        exact stands_setDrain ⟨rfl, rfl, fun ⟨hzero, heven, _⟩ => ⟨hzero, heven, fun x hx => by cases hx; exact heven⟩⟩
      · cases h; exact hdrive _
    · cases h; exact hdrive _

theorem stands_drainDataRead (h : execDrainDataRead s = .next t) : Stands s t := by
  have hzero : Stands s (readZero s) := stands_setDrain ⟨rfl, rfl, id⟩
  unfold execDrainDataRead at h
  split at h
  · cases h; exact .refl s
  split at h
  · cases h; exact hzero
  split at h
  · cases h; exact hzero.trans (stands_raise _ _)
  next i hb =>
  split at h
  · cases h; exact hzero.trans (stands_raise _ _)
  · exact stands_readRecord hb h

theorem stands_drainReadGrant (h : execDrainReadGrant s = .next t) : Stands s t := by
  unfold execDrainReadGrant at h
  split at h
  · next x hx =>
    cases h
    split
    · refine .trans (stands_setDrain (d := { s.drain with held := none, readData := x.data, pos := heldAdvance s.drain x })
        ⟨rfl, rfl, fun ⟨hzero, heven, hheld⟩ => ?_⟩) stands_resumeFill
      have hxe := hheld x hx
      refine ⟨fun hb => ?_, ?_, nofun⟩
      · dsimp only at hb ⊢
        rw [heldAdvance, hb]
        exact hzero hb
      · dsimp only [heldAdvance]
        split <;> omega
    · exact .refl s
  · cases h; exact .refl s

theorem stands_heldReadEnded (h : execHeldReadEnded s = .next t) : Stands s t := by
  unfold execHeldReadEnded at h
  split at h
  · cases h
    have hended : Stands s (s.setDrain { s.drain with held := none, readData := Config.floatingBus s.free }) :=
      stands_setDrain ⟨rfl, rfl, fun ⟨hzero, heven, _⟩ => ⟨hzero, heven, nofun⟩⟩
    exact (hended.trans (stands_same (by simp [SameTable]) (by simp [SameWork]))).trans stands_resumeFill
  · cases h; exact .refl s

/-! ### The report queue (R124 to R127) -/

theorem stands_reports {l : List ReportEntry} (h : ReportsStand s.reports l) : Stands s { s with reports := l } :=
  ⟨fun _ => rfl, fun _ => rfl, rfl, fun _ => rfl, fun _ => .refl _, fun _ => id, h, .refl _, id,
    timerLaw_congr (fun _ => rfl) (fun _ => rfl) rfl,
    fun hq hi => quiet_congr (SameWork.refl s) (fun _ => rfl) rfl rfl (hq hi), id⟩

/-- A failure entry appended, or lost to the cap, leaves the success entries (R124, R127). -/
theorem stands_appendFailure {e : ReportEntry} (hslot : e.slot = none) (hfail : e.isSuccess = false) :
    Stands s (appendFailure e s) := by
  unfold appendFailure
  split
  · next hcap =>
    have hadded : Stands s { s with reports := s.reports ++ [e] } := by
      refine stands_reports ⟨?_, fun x hx => ?_, fun _ => ?_⟩
      · rw [successSlots, List.filterMap_append, List.filterMap_cons_none hslot]
        simp [successSlots]
      · rcases List.mem_append.1 hx with hx | hx
        · exact .inl hx
        · rw [List.mem_singleton.1 hx]
          exact .inr ⟨hslot, hfail⟩
      · simp only [failureCount, List.filter_append, List.length_append] at hcap ⊢
        simp [hfail]
        omega
    exact hadded.trans (stands_raise _ _)
  · have hlost : Stands s (countUnreported s) := stands_same (by simp [SameTable]) (by simp [SameWork])
    exact hlost.trans (stands_raise _ _)

/-- A failure entry taken from the head of the queue (R130). -/
theorem stands_dropFailure {e : ReportEntry} {rest : List ReportEntry} (hr : s.reports = e :: rest) (hslot : e.slot = none) :
    Stands s { s with reports := rest } := by
  refine stands_reports ?_
  rw [hr]
  refine ⟨?_, fun x hx => .inl (List.mem_cons_of_mem _ hx), fun hcap => le_trans ?_ hcap⟩
  · rw [successSlots, successSlots, List.filterMap_cons_none hslot]
  · exact ((List.sublist_cons_self e rest).filter _).length_le

/-! ### Recent-completion lists (R118, R120, R162) -/

/-- A list of recent completions of which entries are removed. -/
theorem stands_recent (p : PortId) (f : Port → List RecentEntry) (h : ∀ q, (f q).Sublist q.recent) :
    Stands s (s.modifyPort p fun q => { q with recent := f q }) := by
  have hport : ∀ {α : Type} (g : Port → α), (∀ q, g { q with recent := f q } = g q) →
      ∀ q, g ((s.modifyPort p fun q => { q with recent := f q }).port q) = g (s.port q) := fun g hg q =>
    modifyPort_part s g p q _ hg
  refine ⟨fun _ => rfl, fun _ => rfl, rfl, hport (·.held) fun _ => rfl, fun q => ?_, fun _ => id, .refl _, .refl _, id,
    timerLaw_congr (fun _ => rfl) (fun _ => rfl) rfl,
    fun hq hi => quiet_congr ⟨fun q => ⟨hport (·.rx.state) (fun _ => rfl) q, hport (·.staging) (fun _ => rfl) q⟩, id⟩
      (fun _ => rfl) rfl rfl (hq hi), id⟩
  rw [modifyPort_port]
  split
  · next e => subst e; exact h _
  · exact .refl _

theorem stands_forgetKey (k : Key) : Stands s (forgetKey k s) :=
  stands_recent k.port (fun q => q.recent.filter fun e => !(e.station == k.station && e.tag == k.tag))
    fun _ => List.filter_sublist

end

end Sys2Proof.Machine
end

