-- ==== Sys2Proof/Proofs/ContextChanges.lean ====
section
/-! SUPPORT. The changes of one context that keep the laws of the table: freeing (R36), opening (R35), and the beginning of a store
(R57, R65). -/

namespace Sys2Proof.Machine

open Sys2Proof.Safety

section
variable {s t : State} {i : Slot}

/-! ### One context changed: the laws of records and of the drain port -/

/-- The record law after a change of one context, with no claim in service. -/
theorem recordLaw_change (hs : RecordLaw s) (idle : s.table.service = none) (idle' : t.table.service = none)
    (others : ∀ j, j ≠ i → t.ctx j = s.ctx j) (law : ContextLaw (t.ctx i))
    (empty : (t.ctx i).frags = [] ↔ (t.ctx i).state = .free ∨ (t.ctx i).state = .expecting) : RecordLaw t where
  contexts j := by
    by_cases hj : j = i
    · rw [hj]; exact law
    · rw [others j hj]; exact hs.contexts j
  empty j := by
    have hbefore := hs.empty j
    rw [idle] at hbefore
    rw [idle']
    by_cases hj : j = i
    · rw [hj]; simpa using empty
    · rw [others j hj]; simpa using hbefore
  store st hst := by rw [idle'] at hst; cases hst

/-- The drain law after a change of one context that is neither DONE nor DRAINING before or after it, or is freed. -/
theorem drainLaw_change (hs : DrainLaw s) (others : ∀ j, j ≠ i → t.ctx j = s.ctx j)
    (mem : ∀ g, written s.mem g → written t.mem g) (stored : ∀ g ∈ contextSegs (t.ctx i), written t.mem g)
    (passed : ∀ st, t.table.service = some st → ∀ g ∈ st.segs.take st.current, written t.mem g)
    (length : ∀ j, t.drain.bound = some j → t.drain.len = (t.ctx j).storedBytes)
    (entries : ∀ e ∈ t.reports, ∀ j, e.slot = some j → e.length = some (t.ctx j).storedBytes)
    (unbound : t.drain.bound = none → t.drain.len = 0) (positions : PositionsOk t.drain) : DrainLaw t := by
  obtain ⟨hzero, heven, hheld⟩ := positions
  refine ⟨fun j g hg => ?_, passed, length, entries, fun hb => ⟨unbound hb, hzero hb⟩, heven, hheld⟩
  by_cases hj : j = i
  · rw [hj] at hg; exact stored g hg
  · rw [others j hj] at hg; exact mem g (hs.stored j g hg)

theorem positionsOk_of (hs : DrainLaw s) : PositionsOk s.drain := ⟨fun hb => (hs.unbound hb).2, hs.even, hs.heldEven⟩

theorem mem_successSlots {l : List ReportEntry} {j : Slot} : j ∈ successSlots l ↔ ∃ e ∈ l, e.slot = some j :=
  List.mem_filterMap

/-- A slot that a report names is not that of a context that is not DONE (R124). -/
theorem ne_of_reported (hs : TableLaw s) (hi : (s.ctx i).state ≠ .done) {e : ReportEntry} (he : e ∈ s.reports) {j : Slot}
    (hj : e.slot = some j) : j ≠ i := fun h =>
  hi ((hs.reports i).2 (h ▸ mem_successSlots.2 ⟨e, he, hj⟩))

/-! ### Freeing (R36) -/

theorem heldBy_port (c : Context) (p : PortId) : (if c.key.map (·.port) = some p then c.heldSegs else 0) = heldBy p c := by
  unfold heldBy
  cases c.key <;> simp

theorem freeContext_held (hs : TableLaw s) (p : PortId) :
    ((freeContext i s).port p).held + heldBy p (s.ctx i) = (s.port p).held := by
  rw [freeContext_port, heldBy_port]
  exact Nat.sub_add_cancel (heldBy_le hs i p)

theorem contextFits_freed : ContextFits Context.freed := ⟨fun _ => rfl, fun h => absurd rfl h, rfl⟩

theorem tableLaw_freeContext (hs : TableLaw s) (ready : s.host.phase = .ready) (idle : s.table.service = none)
    (hi : (s.ctx i).state ≠ .done) : TableLaw (freeContext i s) := by
  obtain ⟨hctx, hothers, -, hpool, -, -, hdrain⟩ := freeContext_freed s i
  have hidle : (freeContext i s).table.service = none := by simpa using idle
  have hbound : ∀ j, j ≠ i → (s.ctx i).state = .draining → s.drain.bound ≠ some j := fun j hj hd hb => by
    have hbi := (hs.drain i).1 hd
    rw [hbi] at hb
    exact hj (Option.some.inj hb).symm
  refine tableLaw_change (i := i) hs ready (by simpa using ready) hothers (by rw [hctx]; exact contextFits_freed)
    ⟨fun p => ?_, fun g => ?_⟩ (fun st hst => by rw [hidle] at hst; cases hst) ⟨?_, fun j _ => ?_, ?_, ?_⟩
    ⟨fun j hj => ?_, ?_⟩
  · rw [freeContext_held hs, hctx, heldBy_freed, serviceHeld_none hidle, serviceHeld_none idle]
  · rw [hctx, hpool, contextSegs_freed, serviceSegs_none hidle, serviceSegs_none idle, List.count_append]
    simp only [List.count_nil]
    omega
  · simpa using hs.reportSlots
  · simp
  · rw [hctx]
    have hnot := (not_congr (hs.reports i)).1 hi
    simpa [Context.freed] using hnot
  · simpa using hs.reportKinds
  · rw [hdrain]
    split
    · next hd => simpa using hbound j hj hd
    · rfl
  · rw [hctx, hdrain]
    split
    · simp [Context.freed]
    · next hd =>
      have hnot := (not_congr (hs.drain i)).1 hd
      simpa [Context.freed] using hnot

/-- The way of a freed context leaves the open-order list of its set (R36, R38). -/
theorem orderLaw_freeContext (hs : OrderLaw s) : OrderLaw (freeContext i s) := fun u => by
  obtain ⟨hctx, hothers, horder, -⟩ := freeContext_freed s i
  obtain ⟨hnodup, hmem⟩ := hs u
  rw [horder]
  by_cases hu : u = setOfSlot i
  · subst hu
    rw [if_pos rfl]
    refine ⟨hnodup.filter _, fun w => ?_⟩
    rw [List.mem_filter, hmem, decide_eq_true_iff]
    by_cases hw : w = wayOfSlot i
    · simp [hw, hctx, Context.freed]
    · rw [hothers _ fun e => hw ((slotOf_eq_iff _ _ _).1 e).2]
      simp [hw]
  · rw [if_neg hu]
    refine ⟨hnodup, fun w => ?_⟩
    rw [hmem, hothers _ fun e => hu ((slotOf_eq_iff _ _ _).1 e).1]

theorem keysFrom_freeContext : KeysFrom s (freeContext i s) := fun j hj => by
  obtain ⟨hctx, hothers, -⟩ := freeContext_freed s i
  by_cases hji : j = i
  · rw [hji, hctx] at hj; exact absurd rfl hj
  · rw [hothers j hji] at hj ⊢; exact ⟨hj, rfl⟩

theorem timerLaw_freeContext (hs : TimerLaw s) : TimerLaw (freeContext i s) := by
  obtain ⟨-, hothers, -, -, htimers, -⟩ := freeContext_freed s i
  have hi : (freeContext i s).timers i = SlotTimers.cleared := by rw [htimers, if_pos rfl]
  exact timerLaw_change hs hothers (fun j hj => by rw [htimers, if_neg hj]) (by simp) (fun _ => hi)
    (by rw [hi]; exact countdownsOk_cleared) fun k hk => by rw [hi, cleared_mark] at hk; cases hk

theorem drainLaw_freeContext (hs : TableLaw s) (idle : s.table.service = none) (hi : (s.ctx i).state ≠ .done)
    (hd : DrainLaw s) : DrainLaw (freeContext i s) := by
  obtain ⟨hctx, hothers, -, -, -, -, hdrain⟩ := freeContext_freed s i
  refine drainLaw_change (i := i) hd hothers (fun g => by simp) (fun g hg => by rw [hctx] at hg; cases hg)
    (fun st hst => ?_) (fun j hb => ?_) (fun e he j hj => ?_) (fun hb => ?_) ?_
  · rw [(freeContext_frame s i).1, idle] at hst; cases hst
  · rw [hdrain] at hb ⊢
    split at hb
    · cases hb
    · next hne =>
      rw [if_neg hne, hothers j fun e => hne ((hs.drain i).2 (e ▸ hb))]
      exact hd.length j hb
  · have he' : e ∈ s.reports := by simpa using he
    rw [hothers j (ne_of_reported hs hi he' hj)]
    exact hd.entries e he' j hj
  · rw [hdrain] at hb ⊢
    split
    · rfl
    · next hne =>
      rw [if_neg hne] at hb
      exact (hd.unbound hb).1
  · rw [hdrain]
    obtain ⟨hzero, heven, hheld⟩ := positionsOk_of hd
    split
    · exact ⟨fun _ => rfl, rfl, hheld⟩
    · exact ⟨hzero, heven, hheld⟩

/-- Freeing a context that is not DONE, while no claim is in service, keeps the laws (R36). -/
theorem laws_freeContext (hs : TableLaw s) (ready : s.host.phase = .ready) (idle : s.table.service = none)
    (hi : (s.ctx i).state ≠ .done) : LawsFollow True s (freeContext i s) where
  table := tableLaw_freeContext hs ready idle hi
  order := orderLaw_freeContext
  key := keyLaw_from keysFrom_freeContext
  recent _ := recentLaw_from keysFrom_freeContext fun p => by rw [freeContext_port]
  queue hq := queueLaw_of (tableLaw_freeContext hs ready idle hi) (by simpa using hq.1)
  timers := timerLaw_freeContext
  record _ hr := by
    obtain ⟨hctx, hothers, -⟩ := freeContext_freed s i
    refine recordLaw_change (i := i) hr idle (by simpa using idle) hothers ?_ ?_
    · rw [hctx]; exact contextLaw_freed
    · rw [hctx]; simp [Context.freed]
  drain _ := drainLaw_freeContext hs idle hi

/-! ### Opening (R35) -/

/-- The record that a context has when it is opened (R35). -/
def opened (k : Key) (st : CtxState) (pinned : Bool) : Context :=
  { Context.freed with state := st, key := some k, pinned := pinned }

theorem openContext_ctx (s : State) (i j : Slot) (k : Key) (st : CtxState) (pinned : Bool) :
    (openContext i k st pinned s).ctx j = if j = i then opened k st pinned else s.ctx j := (openContext_table s i k st pinned).1 j

/-- EXPECTING and COLLECTING, the states in which a context is opened (R35). -/
def CtxState.opening (st : CtxState) : Prop := st = .expecting ∨ st = .collecting

section
variable {k : Key} {st : CtxState} {pinned : Bool}

theorem openContext_others : ∀ j, j ≠ i → (openContext i k st pinned s).ctx j = s.ctx j := fun j hj => by
  rw [openContext_ctx, if_neg hj]

@[simp] theorem openContext_same : (openContext i k st pinned s).ctx i = opened k st pinned := by
  rw [openContext_ctx, if_pos rfl]

theorem contextFits_opened (h : st.opening) : ContextFits (opened k st pinned) :=
  ⟨fun e => absurd e (by rcases h with h | h <;> simp [opened, h]), nofun, rfl⟩

theorem contextLaw_opened (h : st.opening) : ContextLaw (opened k st pinned) := by
  obtain ⟨hinc, hent, hbytes, hhigh, hcount, hknown, hatt, -⟩ := contextLaw_freed
  exact ⟨hinc, hent, hbytes, hhigh, hcount, hknown, hatt, by rcases h with h | h <;> simp [opened, Context.freed, h]⟩

variable (hfree : (s.ctx i).state = .free) (h : st.opening)
include hfree h

theorem tableLaw_openContext (hs : TableLaw s) (ready : s.host.phase = .ready) (idle : s.table.service = none) :
    TableLaw (openContext i k st pinned s) := by
  have hctx := hs.free i hfree
  have hidle : (openContext i k st pinned s).table.service = none := by simpa using idle
  have hnot : i ∉ successSlots s.reports := fun hm => by rw [← hs.reports, hfree] at hm; cases hm
  have hbound : s.drain.bound ≠ some i := fun hb => by rw [← hs.drain, hfree] at hb; cases hb
  refine tableLaw_change (i := i) hs ready (by simpa using ready) openContext_others
    (by rw [openContext_same]; exact contextFits_opened h) ⟨fun p => ?_, fun g => ?_⟩
    (fun st hst => by rw [hidle] at hst; cases hst) ⟨?_, fun j _ => ?_, ?_, ?_⟩ ⟨fun j hj => ?_, ?_⟩
  · rw [serviceHeld_none hidle, serviceHeld_none idle, hctx, openContext_same]
    simp [heldBy, opened, Context.freed]
  · rw [serviceSegs_none hidle, serviceSegs_none idle, hctx, openContext_same]
    simp [contextSegs, opened, Context.freed]
  · simpa using hs.reportSlots
  · simp
  · rw [openContext_same]
    rcases h with h | h <;> simpa [opened, h] using hnot
  · simpa using hs.reportKinds
  · simp
  · rw [openContext_same]
    rcases h with h | h <;> simpa [opened, h] using hbound

/-- The way of an opened context stands at the tail of the open-order list of its set (R35, R38). -/
theorem orderLaw_openContext (hs : OrderLaw s) : OrderLaw (openContext i k st pinned s) := fun u => by
  obtain ⟨-, horder⟩ := openContext_table s i k st pinned
  obtain ⟨hnodup, hmem⟩ := hs u
  have hst : st ≠ .free := by rcases h with h | h <;> simp [h]
  rw [horder]
  by_cases hu : u = setOfSlot i
  · subst hu
    have hnot : wayOfSlot i ∉ s.order (setOfSlot i) := fun hw => (hmem _).1 hw (by rwa [slotOf_setOfSlot])
    rw [if_pos rfl]
    refine ⟨List.nodup_append.2 ⟨hnodup, List.nodup_singleton _, fun w hw v hv e => ?_⟩, fun w => ?_⟩
    · rw [List.mem_singleton.1 hv] at e
      exact hnot (e ▸ hw)
    · rw [List.mem_append, List.mem_singleton, hmem, openContext_ctx]
      by_cases hw : w = wayOfSlot i
      · simp [hw, opened, hst]
      · rw [if_neg fun e => hw ((slotOf_eq_iff _ _ _).1 e).2]
        simp [hw]
  · rw [if_neg hu]
    refine ⟨hnodup, fun w => ?_⟩
    rw [hmem, openContext_ctx, if_neg fun e => hu ((slotOf_eq_iff _ _ _).1 e).1]

omit hfree h in
/-- A key that no context bears is opened in its own set (R28, R29). -/
theorem keyLaw_openContext (hset : setOfSlot i = setOf k) (hnone : s.lookup k = none) (hs : KeyLaw s) :
    KeyLaw (openContext i k st pinned s) := by
  have hfresh := (lookup_none_of_law hs).1 hnone
  have hkey : ∀ j, j ≠ i → ((openContext i k st pinned s).ctx j).state ≠ .free →
      ((openContext i k st pinned s).ctx j).key ≠ some k := fun j hj hst => by
    rw [openContext_others j hj] at hst ⊢
    exact hfresh j hst
  constructor
  · intro j k' hj hk
    by_cases hji : j = i
    · rw [hji, openContext_same] at hk
      rw [hji, hset, ← Option.some.inj hk]
    · rw [openContext_others j hji] at hj hk
      exact hs.inSet j k' hj hk
  · intro j l hj hl he
    by_cases hji : j = i <;> by_cases hli : l = i
    · rw [hji, hli]
    · rw [hji, openContext_same] at he
      exact absurd he.symm (hkey l hli hl)
    · rw [hli, openContext_same] at he
      exact absurd he (hkey j hji hj)
    · rw [openContext_others j hji] at hj he
      rw [openContext_others l hli] at hl he
      exact hs.unique j l hj hl he

omit hfree h in
theorem recentLaw_openContext (hnone : s.recentEntry k = none) (hs : RecentLaw s) :
    RecentLaw (openContext i k st pinned s) where
  length := hs.length
  distinct := hs.distinct
  apart j k' hj hk := by
    by_cases hji : j = i
    · rw [hji, openContext_same] at hk
      rw [← Option.some.inj hk]
      exact hnone
    · rw [openContext_others j hji] at hj hk
      exact hs.apart j k' hj hk

omit h in
theorem timerLaw_openContext (hs : TimerLaw s) : TimerLaw (openContext i k st pinned s) := by
  have hcleared : (openContext i k st pinned s).timers i = SlotTimers.cleared := hs.states i (by simp [Context.gathering, hfree])
  exact timerLaw_change hs openContext_others (fun _ _ => rfl) rfl (fun _ => hcleared)
    (by rw [hcleared]; exact countdownsOk_cleared) fun k hk => by rw [hcleared, cleared_mark] at hk; cases hk

omit h in
theorem drainLaw_openContext (hs : TableLaw s) (idle : s.table.service = none) (hd : DrainLaw s) :
    DrainLaw (openContext i k st pinned s) := by
  refine drainLaw_change (i := i) hd openContext_others (fun _ => id) (fun g hg => by rw [openContext_same] at hg; cases hg)
    (fun st hst => by rw [(openContext_frame s i k _ pinned).2.2.1, idle] at hst; cases hst) (fun j hb => ?_)
    (fun e he j hj => ?_) (fun hb => (hd.unbound hb).1) (positionsOk_of (s := s) hd)
  · have hji : j ≠ i := fun e => by
      have hj := (hs.drain j).2 hb
      rw [e, hfree] at hj
      cases hj
    rw [openContext_others j hji]
    exact hd.length j hb
  · rw [openContext_others j (ne_of_reported hs (by rw [hfree]; decide) he hj)]
    exact hd.entries e he j hj

/-- Opening a FREE way of the key's set for a key that has neither context nor recent entry keeps the laws, but that of records, which
a COLLECTING context with no fragments keeps only beside its claim (R35, R39). -/
theorem laws_openContext (hs : TableLaw s) (ready : s.host.phase = .ready) (idle : s.table.service = none)
    (hset : setOfSlot i = setOf k) (hnone : s.lookup k = none) (hrecent : s.recentEntry k = none) :
    LawsFollow (st = .expecting) s (openContext i k st pinned s) where
  table := tableLaw_openContext hfree h hs ready idle
  order := orderLaw_openContext hfree h
  key := keyLaw_openContext hset hnone
  recent _ := recentLaw_openContext hrecent
  queue hq := queueLaw_of (tableLaw_openContext hfree h hs ready idle) hq.1
  timers := timerLaw_openContext hfree
  record he hr := by
    refine recordLaw_change (i := i) hr idle (by simpa using idle) openContext_others ?_ ?_
    · rw [openContext_same]; exact contextLaw_opened h
    · rw [openContext_same]; simp [opened, Context.freed, he]
  drain _ := drainLaw_openContext hfree hs idle

end

end

end Sys2Proof.Machine
end

