-- ==== Sys2Proof/Proofs/StoreBegins.lean ====
section
/-! SUPPORT. The beginning of a store: what it changes, and that it keeps the laws of the table, on a context that gathers fragments
and on one opened for a first fragment (R57, R58, R64, R65). -/

namespace Sys2Proof.Machine

open Sys2Proof.Safety

section
variable (s : State) (p : PortId) (i : Slot) (prior : CtxState) (f : StagedFrame)

/-! ### What the beginning of a store changes -/

theorem beginStore_eq : beginStore p i prior f s =
    (allocate p (segsNeeded f.payload.length) s).setService (some (storeBegun s p i prior f)) := by
  have hneeds : (allocate p (segsNeeded f.payload.length) s).readNeeds = s.readNeeds := by
    simp only [State.readNeeds, allocate_frame]
  unfold beginStore storeBegun
  dsimp only
  cases s.pool.freeList.take (segsNeeded f.payload.length) <;> simp [State.fillBlocked, hneeds]

@[simp] theorem beginStore_frame : (∀ j : Slot, (beginStore p i prior f s).ctx j = s.ctx j) ∧
    (∀ u : SetId, (beginStore p i prior f s).order u = s.order u) ∧
    (∀ j : Slot, (beginStore p i prior f s).timers j = s.timers j) ∧
    (beginStore p i prior f s).table.lastServed = s.table.lastServed ∧ (beginStore p i prior f s).mem = s.mem ∧
    (beginStore p i prior f s).timer = s.timer ∧ (beginStore p i prior f s).reports = s.reports ∧
    (beginStore p i prior f s).drain = s.drain ∧ (beginStore p i prior f s).cmd = s.cmd ∧
    (beginStore p i prior f s).host = s.host ∧ (beginStore p i prior f s).free = s.free ∧
    (beginStore p i prior f s).pending = s.pending := by
  simp [beginStore_eq]

/-- The claim in service once the store has begun (R57, R58). -/
@[simp] theorem beginStore_service : (beginStore p i prior f s).table.service = some (storeBegun s p i prior f) := by
  rw [beginStore_eq]; rfl

/-- The segments leave the free-list head (R57). -/
@[simp] theorem beginStore_pool : (beginStore p i prior f s).pool =
    { s.pool with freeList := s.pool.freeList.drop (segsNeeded f.payload.length) } := by
  rw [beginStore_eq, setService_pool, (allocate_pool s p _).1]

/-- PORT_HELD rises by the segments (R57). -/
theorem beginStore_port (q : PortId) : (beginStore p i prior f s).port q =
    if q = p then { s.port p with held := (s.port p).held + segsNeeded f.payload.length } else s.port q := by
  rw [beginStore_eq, setService_port, (allocate_pool s p _).2]

/-! ### The laws -/

variable {s p i prior f}

theorem tableLaw_beginStore (hs : TableLaw s) (ready : s.host.phase = .ready) (idle : s.table.service = none)
    (hroom : segsNeeded f.payload.length ≤ s.pool.freeList.length) (hok : serviceOk s (storeBegun s p i prior f)) :
    TableLaw (beginStore p i prior f s) := by
  refine tableLaw_change (i := i) hs ready (by simpa using ready) (fun j _ => by simp) (by simpa using tableLaw_fits hs i)
    ⟨fun q => ?_, fun g => ?_⟩ (fun st hst => ?_) ⟨?_, fun j _ => ?_, ?_, ?_⟩ ⟨fun j _ => ?_, ?_⟩
  · have hlen : (storeBegun s p i prior f).segs.length = segsNeeded f.payload.length := by
      rw [storeBegun, List.length_take, Nat.min_eq_left hroom]
    rw [serviceHeld_none idle, serviceHeld_some (beginStore_service ..), beginStore_port, hlen, (beginStore_frame ..).1]
    by_cases hq : q = p
    · subst hq
      simp only [storeBegun, if_true]
      omega
    · rw [if_neg hq, if_neg fun e => hq e.symm]
  · have hsplit := List.count_append (a := g) (l₁ := s.pool.freeList.take (segsNeeded f.payload.length))
      (l₂ := s.pool.freeList.drop (segsNeeded f.payload.length))
    rw [List.take_append_drop] at hsplit
    rw [serviceSegs_none idle, serviceSegs_some (beginStore_service ..), beginStore_pool, (beginStore_frame ..).1]
    simp only [storeBegun, List.count_nil]
    omega
  · rw [beginStore_service] at hst
    rw [← Option.some.inj hst, serviceOk_congr ((beginStore_frame ..).1 _)]
    exact hok
  · simpa using hs.reportSlots
  · simp
  · simpa using hs.reports i
  · simpa using hs.reportKinds
  · simp
  · simpa using hs.drain i

/-- The drain law does not look at the segments of a store that has only begun. -/
theorem drainLaw_beginStore (hs : DrainLaw s) : DrainLaw (beginStore p i prior f s) := by
  refine drainLaw_change (i := i) hs (fun j _ => by simp) (fun g => by simp) (fun g hg => ?_) (fun st hst g hg => ?_)
    (fun j hb => ?_) (fun e he j hj => ?_) (fun hb => ?_) (by simpa using positionsOk_of hs)
  · simp only [beginStore_frame] at hg ⊢
    exact hs.stored i g hg
  · rw [beginStore_service] at hst
    rw [← Option.some.inj hst] at hg
    simp [storeBegun] at hg
  · simp only [beginStore_frame] at hb ⊢
    exact hs.length j hb
  · simp only [beginStore_frame] at he ⊢
    exact hs.entries e he j hj
  · simp only [beginStore_frame] at hb ⊢
    exact (hs.unbound hb).1

/-- The laws other than that of records follow the beginning of a store. -/
theorem laws_beginStore_but (hs : TableLaw s) (ready : s.host.phase = .ready) (idle : s.table.service = none)
    (hroom : segsNeeded f.payload.length ≤ s.pool.freeList.length) (hok : serviceOk s (storeBegun s p i prior f)) :
    LawsFollow False s (beginStore p i prior f s) := by
  have hkeys : KeysFrom s (beginStore p i prior f s) := fun j hj => by simpa using hj
  have htable := tableLaw_beginStore hs ready idle hroom hok
  refine ⟨htable, orderLaw_congr (fun u => by simp) fun j => by simp, keyLaw_from hkeys,
    fun _ => recentLaw_from hkeys fun q => ?_, fun hq => queueLaw_of htable (by simpa using hq.1),
    timerLaw_congr (fun j => by simp) (fun j => by simp) (by simp), fun hF => hF.elim, fun _ => drainLaw_beginStore⟩
  rw [beginStore_port]
  split
  · next e => rw [e]
  · exact .refl _

/-- The record law once a claim on slot `i` is in service. -/
theorem recordLaw_begin {t : State} {st : StoreClaim} (hs : RecordLaw s) (idle : s.table.service = none)
    (hst : t.table.service = some st) (others : ∀ j, j ≠ st.slot → t.ctx j = s.ctx j) (law : ContextLaw (t.ctx st.slot))
    (empty : (t.ctx st.slot).frags = [] ↔
      (t.ctx st.slot).state = .free ∨ (t.ctx st.slot).state = .expecting ∨ st.prior = .free)
    (store : StoreLaw t st) : RecordLaw t where
  contexts j := by
    by_cases hj : j = st.slot
    · rw [hj]; exact law
    · rw [others j hj]; exact hs.contexts j
  empty j := by
    have hbefore := hs.empty j
    rw [idle] at hbefore
    rw [hst]
    by_cases hj : j = st.slot
    · rw [hj]; simpa using empty
    · have hne : st.slot ≠ j := fun e => hj e.symm
      rw [others j hj]; simpa [hne] using hbefore
  store st' hst' := by rw [← Option.some.inj (hst.symm.trans hst')]; exact store

/-- The payload of a FRAG is 1 to 96 bytes long (R4, R50). -/
def PayloadOk (f : StagedFrame) : Prop := 1 ≤ f.payload.length ∧ f.payload.length ≤ 96

theorem segsNeeded_pos {n : Nat} (h : 1 ≤ n) : 0 < segsNeeded n := by unfold segsNeeded; omega

/-- The claim of a store that has begun fits a context that passed the checks of R53 and R54. -/
theorem storeLaw_begun {t : State} (hroom : segsNeeded f.payload.length ≤ s.pool.freeList.length)
    (hfresh : (t.ctx i).hasIndex f.index = false) (hconsistent : (t.ctx i).inconsistent f.index f.last = false)
    (hpayload : PayloadOk f) : StoreLaw t (storeBegun s p i prior f) := by
  have hlen : (storeBegun s p i prior f).segs.length = segsNeeded f.payload.length := by
    rw [storeBegun, List.length_take, Nat.min_eq_left hroom]
  refine ⟨hfresh, hconsistent, fun h63 => ?_, hpayload, hlen, ?_⟩
  · have hindex : f.index = 63 := h63
    simp [storeBegun, StagedFrame.last, hindex]
  · rw [hlen]
    exact segsNeeded_pos hpayload.1

/-- A fragment of a context that gathers fragments begins its store (R52 to R58). -/
theorem laws_beginStore (hs : TableLaw s) (ready : s.host.phase = .ready) (idle : s.table.service = none)
    (hroom : segsNeeded f.payload.length ≤ s.pool.freeList.length) (hkey : (s.ctx i).key = some (f.key p))
    (hu : (s.ctx i).unfinished = true) (hfresh : (s.ctx i).hasIndex f.index = false)
    (hconsistent : (s.ctx i).inconsistent f.index f.last = false) :
    LawsFollow (PayloadOk f) s (beginStore p i (s.ctx i).state f s) := by
  have hbut : LawsFollow False s (beginStore p i (s.ctx i).state f s) :=
    laws_beginStore_but hs ready idle hroom ⟨⟨_, hkey, rfl⟩, .inr ⟨rfl, hu⟩⟩
  refine ⟨hbut.table, hbut.order, hbut.key, hbut.recent, hbut.queue, hbut.timers, fun hF hr => ?_, hbut.drain⟩
  refine recordLaw_begin hr idle (beginStore_service ..) (fun j _ => by simp) ?_ ?_
    (storeLaw_begun hroom (by simpa using hfresh) (by simpa using hconsistent) hF)
  · simpa [storeBegun] using hr.contexts i
  · have hempty := hr.empty i
    rw [idle] at hempty
    have hne : (s.ctx i).state ≠ .free := fun e => by simp [Context.unfinished, Context.gathering, e] at hu
    simpa [storeBegun, hne] using hempty

/-- A first fragment opens a FREE way of its set and begins its store (R64, R65). -/
theorem laws_openAndStore (hs : TableLaw s) (ready : s.host.phase = .ready) (idle : s.table.service = none)
    (hroom : segsNeeded f.payload.length ≤ s.pool.freeList.length) (hfree : (s.ctx i).state = .free)
    (hset : setOfSlot i = setOf (f.key p)) (hnone : s.lookup (f.key p) = none) (hrecent : s.recentEntry (f.key p) = none) :
    LawsFollow (PayloadOk f) s (openAndStore p i f s) := by
  have hopen : CtxState.opening .collecting := .inr rfl
  have ho : LawsFollow (CtxState.collecting = .expecting) s (openContext i (f.key p) .collecting false s) :=
    laws_openContext hfree hopen hs ready idle hset hnone hrecent
  have hb : LawsFollow False (openContext i (f.key p) .collecting false s) (openAndStore p i f s) :=
    laws_beginStore_but ho.table (by simpa using ready) (by simpa using idle) (by simpa using hroom)
      ⟨⟨_, congrArg Context.key openContext_same, rfl⟩, .inl ⟨rfl, congrArg Context.state openContext_same⟩⟩
  have hctx : (openAndStore p i f s).ctx i = opened (f.key p) .collecting false := by simp [openAndStore]
  refine ⟨hb.table, hb.order ∘ ho.order, hb.key ∘ ho.key, fun hk hr => hb.recent (ho.key hk) (ho.recent hk hr),
    hb.queue ∘ ho.queue, hb.timers ∘ ho.timers, fun hF hr => ?_,
    fun _ hd => drainLaw_beginStore (drainLaw_openContext hfree hs idle hd)⟩
  have hst : (openAndStore p i f s).table.service =
      some (storeBegun (openContext i (f.key p) .collecting false s) p i .free f) := beginStore_service ..
  refine recordLaw_begin hr idle hst (fun j hj => ?_) ?_ ?_ (storeLaw_begun (by simpa using hroom) ?_ ?_ hF)
  · have he := openContext_others (s := s) (i := i) (k := f.key p) (st := .collecting) (pinned := false) j hj
    simpa [openAndStore] using he
  · show ContextLaw ((openAndStore p i f s).ctx i)
    rw [hctx]
    exact contextLaw_opened hopen
  · simp [storeBegun, hctx, opened, Context.freed]
  · rw [hctx]; rfl
  · rw [hctx]; cases f.last <;> rfl

end

end Sys2Proof.Machine
end

