-- ==== Sys2Proof/Proofs/StoreCompletes.lean ====
section
/-! SUPPORT. The fill copy keeps the laws of the table: the end of a segment, and with the last one the insertion of the entry, the
loads and the completion of the record (R31, R58 to R61, R83). -/

namespace Sys2Proof.Machine

open Sys2Proof.Safety

/-! ### The insertion into a fragment list (R31, R59) -/

theorem insertFrag_perm (e : FragEntry) (l : List FragEntry) : (insertFrag e l).Perm (e :: l) := by
  induction l with
  | nil => exact .refl _
  | cons x rest ih =>
    unfold insertFrag
    split
    · exact .refl _
    · exact (ih.cons x).trans (.swap e x rest)

theorem insertFrag_increasing {e : FragEntry} {l : List FragEntry} (h : (l.map (·.index)).Pairwise (· < ·))
    (hfresh : ∀ x ∈ l, x.index ≠ e.index) : ((insertFrag e l).map (·.index)).Pairwise (· < ·) := by
  induction l with
  | nil => simp [insertFrag]
  | cons x rest ih =>
    obtain ⟨hx, hrest⟩ := List.forall_mem_cons.1 hfresh
    rw [List.map_cons, List.pairwise_cons] at h
    obtain ⟨hlt, hinc⟩ := h
    unfold insertFrag
    split
    · next he =>
      rw [List.map_cons, List.pairwise_cons, List.map_cons]
      refine ⟨fun y hy => ?_, List.pairwise_cons.2 ⟨hlt, hinc⟩⟩
      rcases List.mem_cons.1 hy with rfl | hy
      · exact he
      · exact he.trans (hlt y hy)
    · next he =>
      rw [List.map_cons, List.pairwise_cons]
      refine ⟨fun y hy => ?_, ih hinc hrest⟩
      rcases List.mem_cons.1 (((insertFrag_perm e rest).map _).mem_iff.1 hy) with rfl | hy
      · exact lt_of_le_of_ne (not_lt.1 he) hx
      · exact hlt y hy

/-- The last index of an increasing list after an insertion is the highest one (R59). -/
theorem insertFrag_highest {e : FragEntry} {l : List FragEntry} (h : (l.map (·.index)).Pairwise (· < ·)) :
    ((insertFrag e l).map (·.index)).getLast? = raiseHighest (l.map (·.index)).getLast? e.index := by
  induction l with
  | nil => rfl
  | cons x rest ih =>
    rw [List.map_cons, List.pairwise_cons] at h
    obtain ⟨hlt, hinc⟩ := h
    have hne : ((insertFrag e rest).map (·.index)) ≠ [] := fun hn => by
      have hlen := congrArg List.length hn
      rw [List.length_map, (insertFrag_perm e rest).length_eq] at hlen
      simp at hlen
    unfold insertFrag
    split
    · next he =>
      have hmax : ∀ y ∈ (x :: rest).map (·.index), e.index ≤ y := by
        rw [List.map_cons]
        refine List.forall_mem_cons.2 ⟨he.le, fun y hy => (he.trans (hlt y hy)).le⟩
      rw [List.map_cons, List.getLast?_cons_of_ne_nil (by simp)]
      cases hlast : ((x :: rest).map (·.index)).getLast? with
      | none => simp at hlast
      | some y => simp [raiseHighest, max_eq_left (hmax y (List.mem_of_getLast? hlast))]
    · next he =>
      rw [List.map_cons, List.getLast?_cons_of_ne_nil hne, ih hinc, List.map_cons]
      cases rest with
      | nil => simp [raiseHighest, max_eq_right (not_lt.1 he)]
      | cons z rest => rw [List.getLast?_cons_of_ne_nil (by simp)]

theorem contextSegs_insert (c : Context) (st : StoreClaim) : (contextSegs (c.insert st)).Perm (st.segs ++ contextSegs c) :=
  (insertFrag_perm _ _).flatMap_right _

/-! ### The context after a store (R59 to R61) -/

section
variable (s : State) (st : StoreClaim)

/-- The record is complete once the entry of the store stands in its list (R61). -/
abbrev Whole : Prop := (storedContext s st).count = some (storedContext s st).frags.length

/-- The context of the claim once its store is over: DONE when the record is complete (R59 to R61). -/
def finalContext : Context := if Whole s st then { storedContext s st with state := .done } else storedContext s st

/-- The countdowns of the slot once the store is over (R60, R61). -/
def finalTimers : SlotTimers := if Whole s st then SlotTimers.cleared else storedTimers s st

/-- The state once the store is over, before its staging buffer returns to FREE (R59 to R61). -/
def finished : State := (completeIfFull st.port st.slot (stored s st)).setService none

@[simp] theorem finished_frame : (∀ u : SetId, (finished s st).order u = s.order u) ∧
    (finished s st).table.service = none ∧ (∀ q : PortId, ((finished s st).port q).held = (s.port q).held) ∧
    (∀ q : PortId, ((finished s st).port q).recent = (s.port q).recent) ∧ (finished s st).pool = s.pool ∧
    (finished s st).mem = s.mem ∧ (finished s st).timer.claim = s.timer.claim ∧ (finished s st).drain = s.drain ∧
    (finished s st).host = s.host := by
  have hport : ∀ q, uncounted ((finished s st).port q) = uncounted { s.port q with
      replies := ((finished s st).port q).replies } := fun q => by
    have hstored := uncounted_stored s st q
    simp only [uncounted, Port.mk.injEq] at hstored ⊢
    unfold finished completeIfFull
    split
    · split
      · next k _ _ =>
        obtain ⟨hsame, hother⟩ := portBecomes_completeRecord (stored s st) st.port st.slot k
        by_cases hq : q = st.port
        · subst hq
          simp only [uncounted, Port.mk.injEq] at hsame
          simp [hsame, hstored]
        · have hne := hother q hq
          simp only [uncounted, Port.mk.injEq] at hne
          simp [hne, hstored]
      · simp [hstored]
    · simp [hstored]
  have horder : (finished s st).table.openOrder = s.table.openOrder := by
    unfold finished completeIfFull
    split
    · split <;> simp
    · simp
  refine ⟨fun u => by simp only [State.order, horder], rfl, fun q => ?_, fun q => ?_, ?_⟩
  · have hq := hport q
    simp only [uncounted, Port.mk.injEq] at hq
    simp [hq]
  · have hq := hport q
    simp only [uncounted, Port.mk.injEq] at hq
    simp [hq]
  · unfold finished completeIfFull
    split
    · split <;> simp
    · simp

variable {s st} {k : Key}

theorem finished_eq (hk : (s.ctx st.slot).key = some k) : (Whole s st →
      finished s st = (completeRecord st.port st.slot k (stored s st)).setService none) ∧
    (¬ Whole s st → finished s st = (stored s st).setService none) := by
  have hctx : (stored s st).ctx st.slot = storedContext s st := by rw [stored_ctx, if_pos rfl]
  have hkey : ((stored s st).ctx st.slot).key = some k := by rw [hctx]; exact hk
  unfold finished Whole
  rw [completeIfFull_eq _ _ hkey, hctx]
  exact ⟨fun h => by rw [if_pos h], fun h => by rw [if_neg h]⟩

theorem finished_ctx (hk : (s.ctx st.slot).key = some k) (j : Slot) :
    (finished s st).ctx j = if j = st.slot then finalContext s st else s.ctx j := by
  obtain ⟨hwhole, hshort⟩ := finished_eq hk
  unfold finalContext
  by_cases h : Whole s st
  · rw [hwhole h, if_pos h, setService_ctx, completeRecord_ctx, stored_ctx, stored_ctx, if_pos rfl]
    split <;> rfl
  · rw [hshort h, if_neg h, setService_ctx, stored_ctx]

theorem finished_timers (hk : (s.ctx st.slot).key = some k) (j : Slot) :
    (finished s st).timers j = if j = st.slot then finalTimers s st else s.timers j := by
  obtain ⟨hwhole, hshort⟩ := finished_eq hk
  unfold finalTimers
  by_cases h : Whole s st
  · rw [hwhole h, if_pos h, setService_timers, completeRecord_timers, stored_timers]
    split <;> rfl
  · rw [hshort h, if_neg h, setService_timers, stored_timers]

theorem finished_reports (hk : (s.ctx st.slot).key = some k) : (finished s st).reports =
    if Whole s st then s.reports ++ [successEntry st.slot k (storedContext s st)] else s.reports := by
  obtain ⟨hwhole, hshort⟩ := finished_eq hk
  by_cases h : Whole s st
  · rw [hwhole h, if_pos h]
    simp [stored_ctx]
  · rw [hshort h, if_neg h]
    simp

/-! ### The laws at the end of a store -/

variable (hs : TableLaw s) (hst : s.table.service = some st)
include hs hst

/-- The context that a store works on gathers fragments, or is EXPECTING until its loads (R34, R60). -/
theorem service_unfinished : (s.ctx st.slot).unfinished = true := by
  obtain ⟨-, ⟨-, h⟩ | ⟨-, h⟩⟩ := hs.service st hst
  · simp [Context.unfinished, Context.gathering, h]
  · exact h

theorem service_key : ∃ k, (s.ctx st.slot).key = some k ∧ k.port = st.port := (hs.service st hst).1

theorem service_ready : s.host.phase = .ready := by
  by_contra hr
  have hq := (hs.quiet (by simpa [State.initialising] using hr)).service
  rw [hst] at hq
  cases hq

theorem storedContext_gathering : (storedContext s st).gathering = true := by
  obtain ⟨-, h | ⟨hprior, hu⟩⟩ := hs.service st hst
  · simp [storedContext, h, Context.gathering]
  · unfold storedContext Context.gathering
    dsimp only
    split
    · next hp => rcases hp with hp | hp <;> simp [← hprior, hp]
    · rfl

theorem finalContext_state : (finalContext s st).state ≠ .free ∧ (finalContext s st).state ≠ .expecting ∧
    (finalContext s st).state ≠ .draining ∧ ((finalContext s st).state = .done ↔ Whole s st) := by
  have hg := storedContext_gathering hs hst
  simp only [Context.gathering, Bool.or_eq_true, beq_iff_eq] at hg
  unfold finalContext
  split
  · next hw => exact ⟨nofun, nofun, nofun, fun _ => hw, fun _ => rfl⟩
  · next hw => rcases hg with hg | hg <;> simp [hg, hw]

omit hs hst in
theorem finalContext_parts : (finalContext s st).key = (s.ctx st.slot).key ∧
    (finalContext s st).heldSegs = (s.ctx st.slot).heldSegs + st.segs.length ∧
    (finalContext s st).storedBytes = (storedContext s st).storedBytes ∧
    (finalContext s st).frags = ((s.ctx st.slot).insert st).frags := by
  have hfrags : (storedContext s st).frags = ((s.ctx st.slot).insert st).frags := by rw [storedContext_eq]
  unfold finalContext
  split
  · exact ⟨rfl, rfl, rfl, hfrags⟩
  · exact ⟨rfl, rfl, rfl, hfrags⟩

omit hs hst in
theorem finalContext_segs : (contextSegs (finalContext s st)).Perm (st.segs ++ contextSegs (s.ctx st.slot)) := by
  obtain ⟨-, -, -, hfrags⟩ := finalContext_parts (s := s) (st := st)
  rw [contextSegs, hfrags]
  exact contextSegs_insert _ st

theorem contextFits_final : ContextFits (finalContext s st) := by
  obtain ⟨k, hk, -⟩ := service_key hs hst
  obtain ⟨hkey, hheld, -, -⟩ := finalContext_parts (s := s) (st := st)
  obtain ⟨hfree, -⟩ := finalContext_state hs hst
  refine ⟨fun h => absurd h hfree, fun _ => by rw [hkey, hk]; simp, ?_⟩
  rw [hheld, hs.sums, finalContext_segs.length_eq, List.length_append, Nat.add_comm]

omit hs hst in
theorem finished_others {k : Key} (hk : (s.ctx st.slot).key = some k) : ∀ j, j ≠ st.slot → (finished s st).ctx j = s.ctx j :=
  fun j hj => by rw [finished_ctx hk, if_neg hj]

theorem reportsFollow_finished : ReportsFollow s (finished s st) st.slot := by
  obtain ⟨k, hk, -⟩ := service_key hs hst
  obtain ⟨-, -, -, hdone⟩ := finalContext_state hs hst
  have hnot : st.slot ∉ successSlots s.reports := fun hm => by
    rw [← hs.reports] at hm
    have hu := service_unfinished hs hst
    simp [Context.unfinished, Context.gathering, hm] at hu
  have hctx : (finished s st).ctx st.slot = finalContext s st := by rw [finished_ctx hk, if_pos rfl]
  have hreports := finished_reports hk
  by_cases hw : Whole s st
  · rw [if_pos hw] at hreports
    have hslots : successSlots (finished s st).reports = successSlots s.reports ++ [st.slot] := by
      rw [hreports, successSlots, List.filterMap_append]
      rfl
    refine ⟨?_, fun j hj => ?_, ?_, fun e he => ?_⟩
    · rw [hslots]
      refine List.nodup_append.2 ⟨hs.reportSlots, List.nodup_singleton _, fun j hj l hl e => ?_⟩
      rw [List.mem_singleton.1 hl] at e
      exact hnot (e ▸ hj)
    · rw [hslots]
      simp [hj]
    · rw [hctx, hdone, hslots]
      exact ⟨fun _ => by simp, fun _ => hw⟩
    · rw [hreports] at he
      rcases List.mem_append.1 he with he | he
      · exact hs.reportKinds e he
      · rw [List.mem_singleton.1 he]
        rfl
  · rw [if_neg hw] at hreports
    refine ⟨by rw [hreports]; exact hs.reportSlots, fun j _ => by rw [hreports], ?_, by rw [hreports]; exact hs.reportKinds⟩
    rw [hctx, hdone, hreports]
    exact ⟨fun h => absurd h hw, fun h => absurd h hnot⟩

theorem tableLaw_finished : TableLaw (finished s st) := by
  obtain ⟨k, hk, hport⟩ := service_key hs hst
  have hctx : (finished s st).ctx st.slot = finalContext s st := by rw [finished_ctx hk, if_pos rfl]
  have hready := service_ready hs hst
  have hidle : (finished s st).table.service = none := by simp
  have hbound : s.drain.bound ≠ some st.slot := fun hb => by
    rw [← hs.drain] at hb
    have hu := service_unfinished hs hst
    simp [Context.unfinished, Context.gathering, hb] at hu
  refine tableLaw_change hs hready (by simpa using hready) (finished_others hk)
    (by rw [hctx]; exact contextFits_final hs hst) ⟨fun p => ?_, fun g => ?_⟩ (fun st' hst' => by rw [hidle] at hst'; cases hst')
    (reportsFollow_finished hs hst) ⟨fun j _ => by simp, ?_⟩
  · obtain ⟨hkey, hheld, -, -⟩ := finalContext_parts (s := s) (st := st)
    rw [hctx, serviceHeld_none hidle, serviceHeld_some hst, heldBy_some (hkey.trans hk), heldBy_some hk, hheld, hport,
      (finished_frame s st).2.2.1]
    split <;> omega
  · rw [hctx, serviceSegs_none hidle, serviceSegs_some hst, finalContext_segs.count_eq, List.count_append]
    simp only [finished_frame, List.count_nil]
    omega
  · obtain ⟨-, -, hdraining, -⟩ := finalContext_state hs hst
    rw [hctx]
    simp [hdraining, hbound]

omit hs hst in
theorem storedTimers_ok (h : TimerLaw s) : CountdownsOk (storedTimers s st) := by
  have hrepair : ∀ v : Word, ∀ n, repairLoad v = some n → 1 ≤ n ∧ n ≤ 65535 := fun v n hn => by
    have hlt := v.isLt
    cases hn
    omega
  have hgap : ∀ v : Word, ∀ n, gapLoad v = some n → 1 ≤ n ∧ n ≤ 65535 := fun v n hn => by
    have hlt := v.isLt
    unfold gapLoad at hn
    split at hn
    · cases hn
    · next hne =>
      have hpos : v.toNat ≠ 0 := fun e => hne (BitVec.eq_of_toNat_eq e)
      cases hn
      omega
  unfold storedTimers
  split
  · refine ⟨fun k hk => ?_, fun k n hn => ?_⟩
    · cases k with
      | repair => cases hk
      | life => exact h.marked st.slot .life hk
    · cases k with
      | repair => exact hrepair _ n hn
      | life => exact h.range st.slot .life n hn
  · refine ⟨fun k hk => ?_, fun k n hn => ?_⟩
    · cases k with
      | repair => cases hk
      | life => exact h.marked st.slot .life hk
    · cases k with
      | repair => exact hgap _ n hn
      | life => exact h.range st.slot .life n hn
  · refine ⟨fun k hk => ?_, fun k n hn => ?_⟩
    · cases k <;> cases hk
    · cases k with
      | repair => exact hgap _ n hn
      | life => exact hgap _ n hn

omit hs hst in
theorem storedTimers_mark (k : CountdownKind) (h : (storedTimers s st).mark k = true) : (s.timers st.slot).mark k = true := by
  unfold storedTimers at h
  split at h
  · cases k with
    | repair => cases h
    | life => exact h
  · cases k with
    | repair => cases h
    | life => exact h
  · cases k <;> cases h

theorem timerLaw_finished (h : TimerLaw s) : TimerLaw (finished s st) := by
  obtain ⟨k, hk, -⟩ := service_key hs hst
  have hctx : (finished s st).ctx st.slot = finalContext s st := by rw [finished_ctx hk, if_pos rfl]
  have htimers : (finished s st).timers st.slot = finalTimers s st := by rw [finished_timers hk, if_pos rfl]
  refine timerLaw_change h (finished_others hk) (fun j hj => by rw [finished_timers hk, if_neg hj]) (by simp) ?_ ?_ ?_
  · rw [hctx, htimers]
    unfold finalContext finalTimers
    split
    · exact fun _ => rfl
    · rw [storedContext_gathering hs hst]
      exact nofun
  · rw [htimers]
    unfold finalTimers
    split
    · exact countdownsOk_cleared
    · exact storedTimers_ok h
  · rw [htimers]
    unfold finalTimers
    split
    · intro j hj
      rw [cleared_mark] at hj
      cases hj
    · exact storedTimers_mark

omit hs hst in
/-- The index of a claim that passed the check of R54 stands below a count, and the last one at or above every stored index. -/
theorem consistent_count (hc : ContextLaw (s.ctx st.slot)) (hl : StoreLaw s st) (n : Nat)
    (hn : (storedContext s st).count = some n) :
    1 ≤ n ∧ n ≤ 64 ∧ st.index.val < n ∧ ∀ e ∈ (s.ctx st.slot).frags, e.index.val < n := by
  have hlt := st.index.isLt
  have hconsistent := (not_congr (disagrees_iff (s.ctx st.slot) st.index st.last)).2 (by rw [hl.consistent]; decide)
  rw [Disagrees, not_or, not_or] at hconsistent
  obtain ⟨-, habove, hbelow⟩ := hconsistent
  have hcount : (storedContext s st).count = if st.last then some (st.index.val + 1) else (s.ctx st.slot).count := rfl
  rw [hcount] at hn
  by_cases hlast : st.last = true
  · rw [if_pos hlast] at hn
    have hn' := Option.some.inj hn
    refine ⟨by omega, by omega, by omega, fun e he => ?_⟩
    cases hh : (s.ctx st.slot).highest with
    | none =>
      rw [hc.highest, List.getLast?_eq_none_iff, List.map_eq_nil_iff] at hh
      rw [hh] at he
      cases he
    | some y =>
      have hy : ¬ st.index < y := fun h => habove ⟨hlast, y, hh, h⟩
      have hle : e.index ≤ y := by
        rw [hc.highest] at hh
        obtain ⟨l, hl'⟩ := List.getLast?_eq_some_iff.1 hh
        have hinc := hc.increasing
        have hmem : e.index ∈ (s.ctx st.slot).frags.map (·.index) := List.mem_map_of_mem he
        rw [hl'] at hinc hmem
        rcases List.mem_append.1 hmem with hm | hm
        · exact ((List.pairwise_append.1 hinc).2.2 _ hm y (List.mem_singleton_self y)).le
        · rw [List.mem_singleton.1 hm]
      have hle' := hle.trans (not_lt.1 hy)
      rw [Fin.le_def] at hle'
      omega
  · rw [if_neg hlast] at hn
    obtain ⟨h1, h64, hall⟩ := hc.count n hn
    refine ⟨h1, h64, ?_, hall⟩
    by_contra hge
    exact hbelow ⟨by simpa using hlast, n, hn, not_lt.1 hge⟩

/-- The record of a completed store has the form of R30 to R34. -/
theorem contextLaw_final (hc : ContextLaw (s.ctx st.slot)) (hl : StoreLaw s st) : ContextLaw (finalContext s st) := by
  have hfresh : ∀ x ∈ (s.ctx st.slot).frags, x.index ≠ st.index := by
    have hf := hl.fresh
    simpa [Context.hasIndex] using hf
  obtain ⟨-, -, hbytes, hfrags⟩ := finalContext_parts (s := s) (st := st)
  obtain ⟨-, -, hdraining, hdone⟩ := finalContext_state hs hst
  have hcount : (finalContext s st).count = (storedContext s st).count := by unfold finalContext; split <;> rfl
  have hhigh : (finalContext s st).highest = raiseHighest (s.ctx st.slot).highest st.index := by
    have hstored : (storedContext s st).highest = raiseHighest (s.ctx st.slot).highest st.index := by rw [storedContext_eq]; rfl
    unfold finalContext
    split <;> exact hstored
  have hleft : (finalContext s st).attemptsLeft + (finalContext s st).attemptsUsed ≤ 7 := by
    have hport := (s.port st.port).attempts.isLt
    have hbefore := hc.attempts
    have he : (finalContext s st).attemptsLeft = (storedContext s st).attemptsLeft ∧
        (finalContext s st).attemptsUsed = (storedContext s st).attemptsUsed := by unfold finalContext; split <;> exact ⟨rfl, rfl⟩
    rw [he.1, he.2]
    unfold storedContext
    dsimp only
    split <;> omega
  have hperm : ((s.ctx st.slot).insert st).frags.Perm
      ({ index := st.index, length := st.payload.length, segs := st.segs } :: (s.ctx st.slot).frags) := insertFrag_perm _ _
  refine ⟨?_, fun e he => ?_, ?_, ?_, fun n hn => ?_, fun hnil => ?_, hleft, ?_⟩
  · rw [hfrags]
    exact insertFrag_increasing hc.increasing hfresh
  · rw [hfrags, hperm.mem_iff, List.mem_cons] at he
    rcases he with rfl | he
    · exact ⟨hl.payload.1, hl.payload.2, hl.segs⟩
    · exact hc.entries e he
  · rw [hbytes, hfrags, (hperm.map _).sum_eq, List.map_cons, List.sum_cons, ← hc.bytes]
    exact Nat.add_comm _ _
  · rw [hhigh, hfrags, hc.highest]
    exact (insertFrag_highest (e := ⟨st.index, st.payload.length, st.segs⟩) hc.increasing).symm
  · rw [hcount] at hn
    obtain ⟨h1, h64, hindex, hall⟩ := consistent_count hc hl n hn
    refine ⟨h1, h64, fun e he => ?_⟩
    rw [hfrags, hperm.mem_iff, List.mem_cons] at he
    rcases he with rfl | he
    · exact hindex
    · exact hall e he
  · rw [hfrags] at hnil
    rw [hnil] at hperm
    exact absurd hperm.length_eq (by simp)
  · have hlen : (storedContext s st).frags = (finalContext s st).frags := by unfold finalContext; split <;> rfl
    rw [hdone, hcount, ← hlen, Whole]
    simp [hdraining]

theorem recordLaw_finished (hr : RecordLaw s) : RecordLaw (finished s st) := by
  obtain ⟨k, hk, -⟩ := service_key hs hst
  obtain ⟨hfree, hexpecting, -, -⟩ := finalContext_state hs hst
  obtain ⟨-, -, -, hfrags⟩ := finalContext_parts (s := s) (st := st)
  have hidle : (finished s st).table.service = none := by simp
  have hctx : ∀ j, (finished s st).ctx j = if j = st.slot then finalContext s st else s.ctx j := finished_ctx hk
  refine ⟨fun j => ?_, fun j => ?_, fun st' hst' => by rw [hidle] at hst'; cases hst'⟩
  · rw [hctx]
    split
    · exact contextLaw_final hs hst (hr.contexts _) (hr.store st hst)
    · exact hr.contexts j
  · rw [hctx, hidle]
    split
    · have hne : (finalContext s st).frags ≠ [] := fun hnil => by
        rw [hfrags] at hnil
        have hlen := (insertFrag_perm { index := st.index, length := st.payload.length, segs := st.segs }
          (s.ctx st.slot).frags).length_eq
        rw [show insertFrag _ (s.ctx st.slot).frags = [] from hnil] at hlen
        simp at hlen
      simp [hne, hfree, hexpecting]
    · next hj =>
      have hempty := hr.empty j
      have hne : st.slot ≠ j := fun e => hj e.symm
      rw [hst] at hempty
      simpa [hne] using hempty

/-- A success entry carries the length of its record, and what the list of a stored fragment holds was written (R74, R125). -/
theorem drainLaw_finished (hw : ∀ g ∈ st.segs, written s.mem g) (hd : DrainLaw s) : DrainLaw (finished s st) := by
  obtain ⟨k, hk, -⟩ := service_key hs hst
  obtain ⟨-, -, hbytes, -⟩ := finalContext_parts (s := s) (st := st)
  have hctx : (finished s st).ctx st.slot = finalContext s st := by rw [finished_ctx hk, if_pos rfl]
  have hu := service_unfinished hs hst
  have hdone : (s.ctx st.slot).state ≠ .done := fun e => by simp [Context.unfinished, Context.gathering, e] at hu
  refine drainLaw_change hd (finished_others hk) (fun g => by simp) (fun g hg => ?_)
    (fun st' hst' => by rw [(finished_frame s st).2.1] at hst'; cases hst') (fun j hb => ?_) (fun e he j hj => ?_)
    (fun hb => ?_) (by simpa using positionsOk_of hd)
  · rw [hctx, finalContext_segs.mem_iff, List.mem_append] at hg
    simp only [finished_frame]
    exact hg.elim (hw g) (hd.stored _ g)
  · simp only [finished_frame] at hb ⊢
    have hne : j ≠ st.slot := fun e => by
      have hj := (hs.drain j).2 hb
      rw [e] at hj
      simp [Context.unfinished, Context.gathering, hj] at hu
    rw [finished_others hk j hne]
    exact hd.length j hb
  · have hold : e ∈ s.reports → e.length = some ((finished s st).ctx j).storedBytes := fun he' => by
      rw [finished_others hk j (ne_of_reported hs hdone he' hj)]
      exact hd.entries e he' j hj
    rw [finished_reports hk] at he
    split at he
    · rcases List.mem_append.1 he with he | he
      · exact hold he
      · rw [List.mem_singleton.1 he] at hj ⊢
        rw [← Option.some.inj hj, hctx, hbytes]
        rfl
    · exact hold he
  · simp only [finished_frame] at hb ⊢
    exact (hd.unbound hb).1

/-- The end of a store keeps the laws, where the last of its segments was written (R59 to R61). -/
theorem laws_finished (hw : RecordLaw s → DrainLaw s → ∀ g ∈ st.segs, written s.mem g) :
    LawsFollow True s (finished s st) := by
  obtain ⟨k, hk, -⟩ := service_key hs hst
  obtain ⟨hfree, -⟩ := finalContext_state hs hst
  obtain ⟨hkey, -⟩ := finalContext_parts (s := s) (st := st)
  have hne : (s.ctx st.slot).state ≠ .free := fun e => by
    have hnone := hs.free _ e
    rw [hnone] at hk
    cases hk
  have hkeys : KeysFrom s (finished s st) := fun j hj => by
    rw [finished_ctx hk] at hj ⊢
    split at hj
    · next e => rw [if_pos e, e]; exact ⟨hne, hkey⟩
    · next e => rw [if_neg e]; exact ⟨hj, rfl⟩
  have htable := tableLaw_finished hs hst
  refine ⟨htable, orderLaw_congr (fun u => by simp) fun j => ?_, keyLaw_from hkeys,
    fun _ => recentLaw_from hkeys fun q => by simp, fun hq => queueLaw_of htable ?_, timerLaw_finished hs hst,
    fun _ => recordLaw_finished hs hst, fun hr hd => drainLaw_finished hs hst (hw hr hd) hd⟩
  · rw [finished_ctx hk]
    split
    · next e => rw [e]; simp [hfree, hne]
    · rfl
  · have hcap := hq.1
    rw [finished_reports hk]
    split
    · simpa [failureCount, successEntry, ReportEntry.isSuccess] using hcap
    · exact hcap

end

end Sys2Proof.Machine
end

