-- ==== Sys2Proof/Proofs/ClaimChanges.lean ====
section
/-! SUPPORT. What the claims change in the table beside stores, and that they keep its laws: the segments of a fill copy (R83), a
failure (R37), the binding of the drain port (R131), a release (R140), a reservation (R154), and the fields of a context that gathers
fragments (R98, R156). -/

namespace Sys2Proof.Machine

open Sys2Proof.Safety

section
variable {s t : State} {i : Slot} {k : Key}

/-! ### The end of a segment (R58, R83) -/

theorem written_writeSegment (payload : List Byte) (n : Nat) (g : Seg) (m : Memory) :
    written (writeSegment payload n g m) g ∧ ∀ g', written m g' → written (writeSegment payload n g m) g' := by
  refine ⟨fun o ho => ?_, fun g' hg' o ho => ?_⟩
  · rw [readByte_writeSegment, if_pos ⟨Nat.le_add_right _ _, Nat.add_lt_add_left ho _⟩]
    exact Option.some_ne_none _
  · rw [readByte_writeSegment]
    split
    · exact Option.some_ne_none _
    · exact hg' o ho

/-- The state with the current segment of a store written (R58). -/
def segmentWritten (s : State) (st : StoreClaim) : State :=
  match st.segs[st.current]? with
  | some g => withMem s (writeSegment st.payload st.current g s.mem)
  | none => s

theorem stands_withMem {m : Memory} (h : ∀ g, written s.mem g → written m g) : Stands s (withMem s m) :=
  ⟨fun _ => rfl, fun _ => rfl, rfl, fun _ => rfl, fun _ => .refl _, h, .refl _, .refl _, id,
    timerLaw_congr (fun _ => rfl) (fun _ => rfl) rfl,
    fun hq hi => quiet_congr (SameWork.refl s) (fun _ => rfl) rfl rfl (hq hi), id⟩

theorem stands_segmentWritten (st : StoreClaim) : Stands s (segmentWritten s st) := by
  unfold segmentWritten
  split
  · exact stands_withMem (written_writeSegment _ _ _ _).2
  · exact .refl s

theorem segmentWritten_service (s : State) (st : StoreClaim) : (segmentWritten s st).table.service = s.table.service := by
  unfold segmentWritten
  split <;> rfl

theorem segmentWritten_current {st : StoreClaim} {g : Seg} (h : st.segs[st.current]? = some g) :
    written (segmentWritten s st).mem g := by
  have he : segmentWritten s st = withMem s (writeSegment st.payload st.current g s.mem) := by simp only [segmentWritten, h]
  rw [he]
  simpa only [withMem_frame] using (written_writeSegment st.payload st.current g s.mem).1

/-- Every segment up to the current one was written (R74). -/
theorem segmentWritten_passed {st : StoreClaim} (hst : s.table.service = some st) (hd : DrainLaw (segmentWritten s st)) :
    ∀ g ∈ st.segs.take (st.current + 1), written (segmentWritten s st).mem g := by
  intro g hg
  rw [List.take_add_one, List.mem_append] at hg
  rcases hg with hg | hg
  · exact hd.passed st ((segmentWritten_service s st).trans hst) g hg
  · exact segmentWritten_current (Option.mem_toList.1 hg)

theorem endSegment_eq (st : StoreClaim) (s : State) : endSegment st s = match st.segs[st.current + 1]? with
    | some g => (segmentWritten s st).setService
        (some { st with current := st.current + 1, waiting := (segmentWritten s st).fillBlocked g })
    | none => releaseFrame st.port (finished (segmentWritten s st) st) := by
  unfold endSegment segmentWritten
  cases st.segs[st.current]? <;> cases st.segs[st.current + 1]? <;> rfl

/-- The fill copy going on to its next segment keeps the laws (R83). -/
theorem laws_nextSegment {st : StoreClaim} {g : Seg} {wait : Bool} (hs : TableLaw s) (hst : s.table.service = some st)
    (hg : st.segs[st.current + 1]? = some g)
    (hw : RecordLaw s → DrainLaw s → ∀ g ∈ st.segs.take (st.current + 1), written s.mem g) :
    LawsFollow True s (s.setService (some { st with current := st.current + 1, waiting := wait })) := by
  have hready := service_ready hs hst
  have htable : TableLaw (s.setService (some { st with current := st.current + 1, waiting := wait })) := by
    refine tableLaw_change (i := st.slot) hs hready hready (fun _ _ => rfl) (tableLaw_fits hs _) ⟨fun p => ?_, fun g => ?_⟩
      (fun st' hst' => ?_) ⟨hs.reportSlots, fun _ _ => Iff.rfl, hs.reports _, hs.reportKinds⟩ ⟨fun _ _ => Iff.rfl, hs.drain _⟩
    · rw [serviceHeld_some hst, serviceHeld_some (setService_service ..)]
      rfl
    · rw [serviceSegs_some hst, serviceSegs_some (setService_service ..)]
      rfl
    · cases hst'
      exact hs.service st hst
  refine ⟨htable, id, keyLaw_from fun _ hj => ⟨hj, rfl⟩, fun _ => recentLaw_from (fun _ hj => ⟨hj, rfl⟩) fun _ => .refl _,
    fun hq => queueLaw_of htable hq.1, timerLaw_congr (fun _ => rfl) (fun _ => rfl) rfl,
    fun _ hr => ⟨hr.contexts, fun j => ?_, fun st' hst' => ?_⟩, fun hr hd => ?_⟩
  · have hempty := hr.empty j
    rw [hst] at hempty
    simpa using hempty
  · cases hst'
    obtain ⟨hfresh, hconsistent, hlast, hpayload, hsegs, -⟩ := hr.store st hst
    exact ⟨hfresh, hconsistent, hlast, hpayload, hsegs, (List.getElem?_eq_some_iff.1 hg).1⟩
  · refine drainLaw_change (i := st.slot) hd (fun _ _ => rfl) (fun _ => id) (hd.stored _) (fun st' hst' => ?_) hd.length
      hd.entries (fun hb => (hd.unbound hb).1) (positionsOk_of (s := s) hd)
    cases hst'
    exact hw hr hd

/-- The end of a segment keeps the laws (R58 to R61, R83). -/
theorem laws_endSegment {st : StoreClaim} (hs : TableLaw s) (hst : s.table.service = some st) :
    LawsFollow True s (endSegment st s) := by
  have hwritten : LawsFollow True s (segmentWritten s st) := (stands_segmentWritten st).laws hs
  have hst' : (segmentWritten s st).table.service = some st := (segmentWritten_service s st).trans hst
  rw [endSegment_eq]
  cases hg : st.segs[st.current + 1]? with
  | some g => exact hwritten.trans (laws_nextSegment hwritten.table hst' hg fun _ hd => segmentWritten_passed hst hd)
  | none =>
    have hall : st.segs.take (st.current + 1) = st.segs := List.take_of_length_le (List.getElem?_eq_none_iff.1 hg)
    have hready := service_ready hwritten.table hst'
    refine (hwritten.trans (laws_finished hwritten.table hst' fun _ hd => ?_)).stands
      (stands_ready (sameTable_releaseFrame _ _) (by simpa using hready))
    rw [← hall]
    exact segmentWritten_passed hst hd

/-! ### A failure (R37) -/

theorem failureEntry_kind {r : ReportStatus} (hr : r ≠ .complete) (k : Key) (c : Context) :
    (failureEntry r k c).isSuccess = false := by
  simpa [failureEntry, ReportEntry.isSuccess] using hr

/-- The failure of a context that is not DONE, while no claim is in service, keeps the laws (R37). -/
theorem laws_failContext {r : ReportStatus} (hs : TableLaw s) (ready : s.host.phase = .ready) (idle : s.table.service = none)
    (hi : (s.ctx i).state ≠ .done) (hr : r ≠ .complete) : LawsFollow True s (failContext i r s) := by
  unfold failContext
  split
  · next k _ =>
    have hreported := (stands_appendFailure (s := s) (e := failureEntry r k (s.ctx i)) rfl (failureEntry_kind hr _ _)).trans
      (stands_count _ k.port .recordsFailed)
    have hlaws : LawsFollow True s _ := hreported.laws hs
    exact hlaws.trans (laws_freeContext hlaws.table (by simpa using ready) (by simpa using idle) (by simpa using hi))
  · exact .refl hs

/-! ### One context recast, with its key and its fragments as they were -/

/-- The two contexts differ in state, pinned and the attempts at most. -/
structure Recast (c c' : Context) : Prop where
  key : c'.key = c.key
  frags : c'.frags = c.frags
  count : c'.count = c.count
  highest : c'.highest = c.highest
  bytes : c'.storedBytes = c.storedBytes
  held : c'.heldSegs = c.heldSegs

/-- What the record law says of one context while no claim is in service (R30 to R34). -/
def Formed (c : Context) : Prop := ContextLaw c ∧ (c.frags = [] ↔ c.state = .free ∨ c.state = .expecting)

/-- The state with one context recast, and with the report queue and the drain port replaced. -/
def recast (s : State) (i : Slot) (c : Context) (l : List ReportEntry) (d : DrainPort) : State :=
  { s.setCtx i c with reports := l, drain := d }

section
variable {c : Context} {l : List ReportEntry} {d : DrainPort}

@[simp] theorem recast_ctx_same : (recast s i c l d).ctx i = c := setCtx_ctx_same ..

theorem recast_ctx_ne {j : Slot} (hj : j ≠ i) : (recast s i c l d).ctx j = s.ctx j := setCtx_ctx_ne _ _ _ _ hj

theorem Recast.segs {c c' : Context} (h : Recast c c') : contextSegs c' = contextSegs c := by rw [contextSegs, h.frags, contextSegs]

theorem Recast.law {c c' : Context} (h : Recast c c') (hc : ContextLaw c)
    (known : c.frags = [] → c'.attemptsLeft = c.attemptsLeft ∧ c'.attemptsUsed = c.attemptsUsed)
    (attempts : c'.attemptsLeft + c'.attemptsUsed = c.attemptsLeft + c.attemptsUsed)
    (ended : c'.state = .done ∨ c'.state = .draining ↔ c.state = .done ∨ c.state = .draining) : ContextLaw c' := by
  obtain ⟨-, hfrags, hcount, hhighest, hbytes, -⟩ := h
  refine ⟨?_, ?_, ?_, ?_, ?_, fun hempty => ?_, ?_, ?_⟩
  · rw [hfrags]; exact hc.increasing
  · rw [hfrags]; exact hc.entries
  · rw [hfrags, hbytes]; exact hc.bytes
  · rw [hfrags, hhighest]; exact hc.highest
  · rw [hfrags, hcount]; exact hc.count
  · rw [hfrags] at hempty
    obtain ⟨hleft, hused⟩ := known hempty
    rw [hcount, hleft, hused]
    exact hc.known hempty
  · rw [attempts]; exact hc.attempts
  · rw [ended, hcount, hfrags]; exact hc.complete

variable (hs : TableLaw s) (ready : s.host.phase = .ready) (idle : s.table.service = none) (h : Recast (s.ctx i) c)
  (hfree : (s.ctx i).state ≠ .free) (hfree' : c.state ≠ .free) (reports : ReportsFollow s (recast s i c l d) i)
  (drain : BoundFollows s (recast s i c l d) i)
include hs ready idle h hfree hfree' reports drain

theorem tableLaw_recast : TableLaw (recast s i c l d) := by
  have hidle : (recast s i c l d).table.service = none := idle
  refine tableLaw_change hs ready ready (fun _ => recast_ctx_ne) ?_ ⟨fun p => ?_, fun g => ?_⟩
    (fun st hst => by rw [hidle] at hst; cases hst) reports drain
  · rw [recast_ctx_same]
    exact ⟨fun e => absurd e hfree', fun _ => by rw [h.key]; exact hs.key i hfree, by rw [h.held, h.segs]; exact hs.sums i⟩
  · rw [serviceHeld_none idle, serviceHeld_none hidle, recast_ctx_same]
    have he : heldBy p c = heldBy p (s.ctx i) := by rw [heldBy, h.key, h.held, heldBy]
    rw [he]
    rfl
  · rw [serviceSegs_none idle, serviceSegs_none hidle, recast_ctx_same, h.segs]
    rfl

/-- A context recast keeps the laws. -/
theorem laws_recast (queue : failureCount l ≤ failureCount s.reports) (hg : c.gathering = false → (s.ctx i).gathering = false)
    (formed : Formed (s.ctx i) → Formed c)
    (fits : DrainLaw s → (∀ j, d.bound = some j → d.len = ((recast s i c l d).ctx j).storedBytes) ∧
      (∀ e ∈ l, ∀ j, e.slot = some j → e.length = some ((recast s i c l d).ctx j).storedBytes) ∧
      (d.bound = none → d.len = 0) ∧ PositionsOk d) : LawsFollow True s (recast s i c l d) := by
  have htable := tableLaw_recast hs ready idle h hfree hfree' reports drain
  have hidle : (recast s i c l d).table.service = none := idle
  have hkeys : KeysFrom s (recast s i c l d) := fun j hj => by
    by_cases hji : j = i
    · rw [hji, recast_ctx_same]; exact ⟨hfree, h.key⟩
    · rw [recast_ctx_ne hji] at hj ⊢; exact ⟨hj, rfl⟩
  refine ⟨htable, orderLaw_congr (fun _ => rfl) fun j => ?_, keyLaw_from hkeys, fun _ => recentLaw_from hkeys fun _ => .refl _,
    fun hq => queueLaw_of htable (queue.trans hq.1), fun ht => ?_, fun _ hr => ?_, fun _ hd => ?_⟩
  · by_cases hji : j = i
    · rw [hji, recast_ctx_same]; exact iff_of_false hfree' hfree
    · rw [recast_ctx_ne hji]
  · refine timerLaw_change ht (fun _ => recast_ctx_ne) (fun _ _ => rfl) rfl (fun hn => ?_) (countdownsOk_of ht i) fun _ => id
    rw [recast_ctx_same] at hn
    exact ht.states i (hg hn)
  · have hempty := hr.empty i
    rw [idle] at hempty
    obtain ⟨hlaw, hnone⟩ := formed ⟨hr.contexts i, by simpa using hempty⟩
    exact recordLaw_change hr idle hidle (fun _ => recast_ctx_ne) (by rwa [recast_ctx_same]) (by rwa [recast_ctx_same])
  · obtain ⟨hlength, hentries, hunbound, hpositions⟩ := fits hd
    refine drainLaw_change hd (fun _ => recast_ctx_ne) (fun _ => id) (fun g hg => ?_)
      (fun st hst => by rw [hidle] at hst; cases hst) hlength hentries hunbound hpositions
    rw [recast_ctx_same, h.segs] at hg
    exact hd.stored i g hg

end

/-! ### A context that gathers fragments recast (R98, R156) -/

/-- EXPECTING, COLLECTING and REPAIRING are none of the other states (R156). -/
theorem unfinished_ne {c : Context} (h : c.unfinished = true) : c.state ≠ .free ∧ c.state ≠ .done ∧ c.state ≠ .draining := by
  refine ⟨?_, ?_, ?_⟩ <;> intro e <;> simp [Context.unfinished, Context.gathering, e] at h

/-- An unfinished context recast to an unfinished one keeps the laws. -/
theorem laws_setCtx {c : Context} (hs : TableLaw s) (ready : s.host.phase = .ready) (idle : s.table.service = none)
    (h : Recast (s.ctx i) c) (hu : (s.ctx i).unfinished = true) (hu' : c.unfinished = true)
    (hg : c.gathering = false → (s.ctx i).gathering = false) (formed : Formed (s.ctx i) → Formed c) :
    LawsFollow True s (s.setCtx i c) := by
  obtain ⟨hfree, hdone, hdraining⟩ := unfinished_ne hu
  obtain ⟨hfree', hdone', hdraining'⟩ := unfinished_ne hu'
  have hbytes : ∀ j, ((recast s i c s.reports s.drain).ctx j).storedBytes = (s.ctx j).storedBytes := fun j => by
    by_cases hji : j = i
    · rw [hji, recast_ctx_same, h.bytes]
    · rw [recast_ctx_ne hji]
  refine laws_recast (l := s.reports) (d := s.drain) hs ready idle h hfree hfree'
    ⟨hs.reportSlots, fun _ _ => Iff.rfl, ?_, hs.reportKinds⟩ ⟨fun _ _ => Iff.rfl, ?_⟩ le_rfl hg formed
    fun hd => ⟨fun j hj => ?_, fun e he j hj => ?_, fun hb => (hd.unbound hb).1, positionsOk_of hd⟩
  · rw [recast_ctx_same]
    exact iff_of_false hdone' ((not_congr (hs.reports i)).1 hdone)
  · rw [recast_ctx_same]
    exact iff_of_false hdraining' ((not_congr (hs.drain i)).1 hdraining)
  · rw [hbytes]; exact hd.length j hj
  · rw [hbytes]; exact hd.entries e he j hj

/-- Setting the pinned field of an unfinished context keeps the laws (R156). -/
theorem laws_pinned (v : Bool) (hs : TableLaw s) (ready : s.host.phase = .ready) (idle : s.table.service = none)
    (hu : (s.ctx i).unfinished = true) : LawsFollow True s (s.setCtx i { s.ctx i with pinned := v }) := by
  have hr : Recast (s.ctx i) { s.ctx i with pinned := v } := ⟨rfl, rfl, rfl, rfl, rfl, rfl⟩
  exact laws_setCtx hs ready idle hr hu hu id fun ⟨hlaw, hempty⟩ =>
    ⟨hr.law hlaw (fun _ => ⟨rfl, rfl⟩) rfl Iff.rfl, hempty⟩

/-- The context after a repair step that spends an attempt (R98). -/
def attemptSpent (c : Context) : Context :=
  { c with attemptsLeft := c.attemptsLeft - 1, attemptsUsed := c.attemptsUsed + 1, state := .repairing }

/-- A repair step on a context with attempts left keeps the laws (R98). -/
theorem laws_attemptSpent (hs : TableLaw s) (ready : s.host.phase = .ready) (idle : s.table.service = none)
    (hgath : (s.ctx i).gathering = true) (hleft : (s.ctx i).attemptsLeft ≠ 0) :
    LawsFollow True s (s.setCtx i (attemptSpent (s.ctx i))) := by
  have hr : Recast (s.ctx i) (attemptSpent (s.ctx i)) := ⟨rfl, rfl, rfl, rfl, rfl, rfl⟩
  have hstate : (s.ctx i).state = .collecting ∨ (s.ctx i).state = .repairing := by simpa [Context.gathering] using hgath
  refine laws_setCtx hs ready idle hr (by simp [Context.unfinished, hgath]) rfl nofun fun ⟨hlaw, hempty⟩ => ?_
  have hfrags : (s.ctx i).frags ≠ [] := by
    rw [Ne, hempty]
    rcases hstate with e | e <;> simp [e]
  refine ⟨hr.law hlaw (fun e => absurd e hfrags) ?_ ?_, ?_⟩
  · show (s.ctx i).attemptsLeft - 1 + ((s.ctx i).attemptsUsed + 1) = _
    omega
  · rcases hstate with e | e <;> simp [attemptSpent, e]
  · simpa [attemptSpent] using hfrags

/-- Loading the repair countdown of a context that gathers fragments (R93). -/
theorem stands_loadRepair {v : Option Nat} (ready : s.host.phase = .ready) (hg : (s.ctx i).gathering = true)
    (hv : ∀ n, v = some n → 1 ≤ n ∧ n ≤ 65535) : Stands s (loadRepair i v s) := by
  refine ⟨fun _ => rfl, fun _ => rfl, rfl, fun _ => rfl, fun _ => .refl _, fun _ => id, .refl _, .refl _, id, fun h => ?_,
    fun _ hi => absurd hi (by simp [State.initialising, ready]), id⟩
  have hi : (loadRepair i v s).timers i = { s.timers i with repair := v, repairMark := false } := by
    rw [loadRepair_timers, if_pos rfl]
  have hok := countdownsOk_of h i
  refine timerLaw_change h (fun _ _ => rfl) (fun j hj => by rw [loadRepair_timers, if_neg hj]) rfl
    (fun hn => absurd hg (by simpa using hn)) ?_ ?_
  · rw [hi]
    refine ⟨fun k hk => ?_, fun k n hn => ?_⟩
    · cases k with
      | repair => cases hk
      | life => exact hok.1 .life hk
    · cases k with
      | repair => exact hv n hn
      | life => exact hok.2 .life n hn
  · rw [hi]
    intro k hk
    cases k with
    | repair => cases hk
    | life => exact hk

theorem repairLoad_range {v : Word} {n : Nat} (h : repairLoad v = some n) : 1 ≤ n ∧ n ≤ 65535 := by
  have hlt := v.isLt
  cases h
  omega

/-! ### The binding of the drain port (R131) -/

/-- The state after a TAKE of a success entry, before it is answered (R130, R131). -/
def taken (s : State) (i : Slot) (n : Nat) : State :=
  recast s i { s.ctx i with state := .draining } (s.reports.drop 1) { s.drain with bound := some i, pos := 0, len := n }

/-- The TAKE of the success entry at the head keeps the laws (R130, R131). -/
theorem laws_taken {e : ReportEntry} {rest : List ReportEntry} (hs : TableLaw s) (ready : s.host.phase = .ready)
    (idle : s.table.service = none) (hhead : s.reports = e :: rest) (hslot : e.slot = some i) (hbound : s.drain.bound = none) :
    LawsFollow True s (taken s i (e.length.getD 0)) := by
  have hslots : successSlots s.reports = i :: successSlots rest := by
    rw [hhead, successSlots, List.filterMap_cons_some hslot]; rfl
  have hrest : s.reports.drop 1 = rest := by rw [hhead]; rfl
  have hnodup := hs.reportSlots
  rw [hslots, List.nodup_cons] at hnodup
  obtain ⟨hnot, hnodup⟩ := hnodup
  have hdone : (s.ctx i).state = .done := (hs.reports i).2 (by rw [hslots]; exact List.mem_cons_self)
  have hr : Recast (s.ctx i) { s.ctx i with state := .draining } := ⟨rfl, rfl, rfl, rfl, rfl, rfl⟩
  have hbytes : ∀ l d j, ((recast s i { s.ctx i with state := .draining } l d).ctx j).storedBytes = (s.ctx j).storedBytes :=
    fun l d j => by
      by_cases hji : j = i
      · rw [hji, recast_ctx_same]
      · rw [recast_ctx_ne hji]
  refine laws_recast hs ready idle hr (by rw [hdone]; decide) nofun ⟨?_, fun j hj => ?_, ?_, fun x hx => ?_⟩
    ⟨fun j hj => ?_, ?_⟩ ?_ (fun _ => by simp [Context.gathering, hdone]) (fun ⟨hlaw, hempty⟩ => ?_)
    fun hd => ⟨fun j hj => ?_, fun x hx j hj => ?_, nofun, ?_⟩
  · show (successSlots (s.reports.drop 1)).Nodup
    rw [hrest]
    exact hnodup
  · show j ∈ successSlots (s.reports.drop 1) ↔ _
    rw [hrest, hslots, List.mem_cons]
    simp [hj]
  · rw [recast_ctx_same]
    show _ ↔ i ∈ successSlots (s.reports.drop 1)
    rw [hrest]
    exact iff_of_false nofun hnot
  · exact hs.reportKinds x (List.mem_of_mem_drop hx)
  · rw [hbound]
    exact iff_of_false (fun e => hj (Option.some.inj e).symm) nofun
  · rw [recast_ctx_same]
    exact iff_of_true rfl rfl
  · exact ((List.drop_sublist 1 s.reports).filter _).length_le
  · refine ⟨hr.law hlaw (fun _ => ⟨rfl, rfl⟩) rfl (by simp [hdone]), ?_⟩
    rw [hdone] at hempty
    simpa using hempty
  · cases hj
    rw [hbytes]
    show e.length.getD 0 = _
    rw [hd.entries e (by rw [hhead]; exact List.mem_cons_self) i hslot]
    rfl
  · rw [hbytes]
    exact hd.entries x (List.mem_of_mem_drop hx) j hj
  · obtain ⟨-, -, hheld⟩ := positionsOk_of hd
    exact ⟨nofun, rfl, hheld⟩

/-! ### A release (R119, R140) -/

section
variable {n : Nat}

theorem recentEntry_none : s.recentEntry k = none ↔
    ∀ e ∈ (s.port k.port).recent, ¬ (e.station = k.station ∧ e.tag = k.tag) := by
  simp [State.recentEntry]

theorem rememberKey_recent (q : PortId) : ((rememberKey k n s).port q).recent = if q = k.port then
    (if 8 ≤ (s.port k.port).recent.length then (s.port k.port).recent.drop 1 else (s.port k.port).recent) ++
      [{ station := k.station, tag := k.tag, count := n }] else (s.port q).recent := by
  rw [rememberKey, modifyPort_port]
  split <;> rfl

/-- The newest entry apart, the list after a release holds what it held (R119). -/
theorem mem_rememberKey {q : PortId} {e : RecentEntry} (h : e ∈ ((rememberKey k n s).port q).recent) :
    e ∈ (s.port q).recent ∨ q = k.port ∧ e = { station := k.station, tag := k.tag, count := n } := by
  rw [rememberKey_recent] at h
  split at h
  · next hq =>
    rw [hq]
    rcases List.mem_append.1 h with h | h
    · refine .inl ?_
      split at h
      · exact List.mem_of_mem_drop h
      · exact h
    · exact .inr ⟨rfl, List.mem_singleton.1 h⟩
  · exact .inl h

/-- The recent-completion lists keep their law when the one context with the key goes as the key enters (R118, R119). -/
theorem recentLaw_remembered (hk : (s.ctx i).key = some k) (hfree : (s.ctx i).state ≠ .free) (hkey : KeyLaw s)
    (hs : RecentLaw s) (hctx : (t.ctx i).state = .free) (hothers : ∀ j, j ≠ i → t.ctx j = s.ctx j)
    (hrecent : ∀ q, (t.port q).recent = ((rememberKey k n s).port q).recent) : RecentLaw t := by
  have hnone := recentEntry_none.1 (hs.apart i k hfree hk)
  refine ⟨fun q => ?_, fun q => ?_, fun j k' hj hk' => ?_⟩
  · rw [hrecent, rememberKey_recent]
    have hq := hs.length q
    split
    · next e =>
      subst e
      split <;> simp <;> omega
    · exact hq
  · rw [hrecent, rememberKey_recent]
    split
    · have hpart : (if 8 ≤ (s.port k.port).recent.length then (s.port k.port).recent.drop 1
          else (s.port k.port).recent).Sublist (s.port k.port).recent := by
        split
        · exact List.drop_sublist 1 _
        · exact .refl _
      rw [List.map_append, List.nodup_append]
      refine ⟨(hs.distinct k.port).sublist (hpart.map _), List.nodup_singleton _, fun a ha b hb => ?_⟩
      obtain ⟨e, he, rfl⟩ := List.mem_map.1 ha
      rw [List.map_singleton, List.mem_singleton] at hb
      rw [hb]
      exact fun hab => hnone e (hpart.subset he) (by simpa using hab)
    · exact hs.distinct q
  · have hji : j ≠ i := fun e => hj (e ▸ hctx)
    rw [hothers j hji] at hj hk'
    rw [recentEntry_none, hrecent]
    intro e he
    rcases mem_rememberKey he with he | ⟨hport, rfl⟩
    · exact recentEntry_none.1 (hs.apart j k' hj hk') e he
    · rintro ⟨hstation, htag⟩
      have hkk : k' = k := by
        cases k; cases k'
        simp only [Key.mk.injEq] at *
        exact ⟨hport, hstation.symm, htag.symm⟩
      exact hji (hkey.unique j i hj hfree (by rw [hk', hk, hkk]))

/-- The state after a RELEASE, before it is answered (R140). -/
def released (s : State) (i : Slot) (k : Key) (n : Nat) : State := unbindDrain (freeContext i (rememberKey k n s))

/-- No law but that of the recent-completion lists reads them. -/
theorem tableLaw_rememberKey (hs : TableLaw s) (ready : s.host.phase = .ready) : TableLaw (rememberKey k n s) :=
  ⟨hs.free, hs.key, hs.sums, fun p => (by simp : ((rememberKey k n s).port p).held = (s.port p).held).trans (hs.held p),
    hs.places, hs.service, hs.reportSlots, hs.reports, hs.reportKinds, hs.drain, fun h => absurd h (by
      have hready : (rememberKey k n s).host.phase = .ready := ready
      simp [initialising_ready hready])⟩

/-- The release of the record that is DRAINING keeps the laws (R119, R140). -/
theorem laws_released (hs : TableLaw s) (ready : s.host.phase = .ready) (idle : s.table.service = none)
    (hb : s.drain.bound = some i) (hk : (s.ctx i).key = some k) : LawsFollow True s (released s i k n) := by
  have hdraining : (s.ctx i).state = .draining := (hs.drain i).2 hb
  have hne : (s.ctx i).state ≠ .free := by rw [hdraining]; decide
  have hfreed := freeContext_freed (rememberKey k n s) i
  have hlaws : LawsFollow True (rememberKey k n s) (freeContext i (rememberKey k n s)) :=
    laws_freeContext (tableLaw_rememberKey hs ready) ready idle (by simp [hdraining])
  have hdrain : (freeContext i (rememberKey k n s)).drain = { s.drain with bound := none, pos := 0, len := 0 } := by
    rw [hfreed.drain, (rememberKey_frame s k n).1, if_pos hdraining]
    rfl
  refine LawsFollow.stands (t := freeContext i (rememberKey k n s)) ⟨hlaws.table, hlaws.order,
    fun h => hlaws.key ⟨h.inSet, h.unique⟩, fun hkey hr => ?_, hlaws.queue,
    fun h => hlaws.timers ⟨h.states, h.marked, h.range, h.presented⟩,
    fun _ h => hlaws.record trivial (recordLaw_change (i := i) h idle idle (fun _ _ => rfl) (h.contexts i) ?_),
    fun _ h => drainLaw_freeContext (tableLaw_rememberKey hs ready) idle (by simp [hdraining])
      ⟨h.stored, h.passed, h.length, h.entries, h.unbound, h.even, h.heldEven⟩⟩ (stands_setDrain ?_)
  · refine recentLaw_remembered hk hne hkey hr (by rw [hfreed.ctx]; rfl) hfreed.others fun q => by rw [freeContext_port]
  · have hempty := h.empty i
    rw [idle] at hempty
    simpa using hempty
  · rw [hdrain]
    exact ⟨rfl, rfl, id⟩

end

/-! ### A reservation (R154) -/

theorem recentEntry_forgetKey : (forgetKey k s).recentEntry k = none := by
  rw [recentEntry_none, forgetKey, modifyPort_port_same]
  intro e he
  have hkept := (List.mem_filter.1 he).2
  rw [not_and_or]
  simpa using hkept

/-- A key is reserved in the FREE way with the lowest number (R35, R39, R154). -/
theorem laws_reserved {pinned : Bool} (hs : TableLaw s) (ready : s.host.phase = .ready) (idle : s.table.service = none)
    (hnone : s.lookup k = none) (hway : s.freeWay (setOf k) = some i) :
    LawsFollow True s (forgetKey k (openContext i k .expecting pinned s)) := by
  obtain ⟨hset, hfree, -⟩ := (freeWay_some _).1 hway
  have hforgot : LawsFollow True s (forgetKey k s) := (stands_forgetKey k).laws hs
  have hopened : LawsFollow (CtxState.expecting = .expecting) (forgetKey k s)
      (openContext i k .expecting pinned (forgetKey k s)) :=
    laws_openContext (by simpa using hfree) (.inl rfl) hforgot.table ready idle hset
      ((lookup_congr (fun _ => by simp) k).trans hnone) recentEntry_forgetKey
  have hall : LawsFollow (CtxState.expecting = .expecting) s (openContext i k .expecting pinned (forgetKey k s)) :=
    hforgot.trans hopened
  exact ⟨hall.table, hall.order, hall.key, hall.recent, hall.queue, hall.timers, fun _ => hall.record rfl, hall.drain⟩

end

end Sys2Proof.Machine
end

