-- ==== Sys2Proof/Proofs/Failure.lean ====
section
/-! SUPPORT. The failure of a context (ContextFailure). -/

namespace Sys2Proof.Machine

open Sys2Proof.Safety

section
variable {s u t : State} {i : Slot} {k : Key}

/-- What a context's freeing reads stood before it. -/
theorem freed_after (h : Freed u t i) (ctx : ∀ j, u.ctx j = s.ctx j) (order : ∀ v, u.order v = s.order v)
    (timers : ∀ j, u.timers j = s.timers j) (pool : u.pool = s.pool) (timer : u.timer = s.timer) (drain : u.drain = s.drain) :
    Freed s t i where
  ctx := h.ctx
  others j hj := (h.others j hj).trans (ctx j)
  order v := by rw [h.order, order]
  pool := by rw [h.pool, pool, ctx]
  timers j := by rw [h.timers, timers]
  timer := by rw [h.timer, timer]
  drain := by rw [h.drain, drain, ctx]

/-- The freeing of a context lowers PORT_HELD of its port (R36). -/
theorem portBecomes_freeContext (hk : (s.ctx i).key = some k) : PortBecomes s (freeContext i s) k.port
    fun q => { q with held := q.held - (s.ctx i).heldSegs } := by
  have hport : ∀ q, (freeContext i s).port q = { s.port q with
      held := (s.port q).held - if k.port = q then (s.ctx i).heldSegs else 0 } := fun q => by
    rw [freeContext_port, hk]
    simp
  exact ⟨by rw [hport, if_pos rfl], fun q hq => by rw [hport, if_neg fun e => hq e.symm]; rfl⟩

/-- The state in which a failing context is freed: its failure reported and counted (R37). -/
def failureReported (s : State) (r : ReportStatus) (k : Key) (c : Context) : State :=
  count k.port .recordsFailed (appendFailure (failureEntry r k c) s)

theorem failContext_eq (r : ReportStatus) (hk : (s.ctx i).key = some k) :
    failContext i r s = freeContext i (failureReported s r k (s.ctx i)) := by
  simp only [failContext, hk]
  rfl

@[simp] theorem failureReported_frame (s : State) (r : ReportStatus) (k : Key) (c : Context) :
    (∀ j : Slot, (failureReported s r k c).ctx j = s.ctx j) ∧ (∀ v : SetId, (failureReported s r k c).order v = s.order v) ∧
    (∀ j : Slot, (failureReported s r k c).timers j = s.timers j) ∧ (failureReported s r k c).table = s.table ∧
    (failureReported s r k c).pool = s.pool ∧ (failureReported s r k c).mem = s.mem ∧
    (failureReported s r k c).timer = s.timer ∧ (failureReported s r k c).drain = s.drain ∧
    (failureReported s r k c).cmd = s.cmd ∧ (failureReported s r k c).host = s.host ∧
    (failureReported s r k c).free = s.free ∧ (failureReported s r k c).pending = s.pending ∧
    (failureReported s r k c).reports =
      (if failureCount s.reports < 16 then s.reports ++ [failureEntry r k c] else s.reports) ∧
    ∀ q : PortId, uncounted ((failureReported s r k c).port q) = uncounted (s.port q) := by
  simp [failureReported]

theorem accounts_failureReported (r : ReportStatus) (c : Context) : Accounts s (failureReported s r k c)
    [(k.port, .recordsFailed)] (if failureCount s.reports < 16 then 0 else 1)
    (if failureCount s.reports < 16 then [.reportAdded] else [.reportLost]) := by
  have h := (accounts_appendFailure s (failureEntry r k c)).trans (accounts_count _ k.port .recordsFailed)
  rwa [List.append_nil, Nat.add_zero] at h

/-- A failure reports, counts and frees (R37). -/
theorem failContext_failsWith (r : ReportStatus) (hk : (s.ctx i).key = some k) : FailsWith s (failContext i r s) i k r [] := by
  have haccounts := (accounts_failureReported (s := s) (k := k) r (s.ctx i)).trans (accounts_freeContext _ i)
  rw [failContext_eq r hk]
  refine ⟨freed_after (freeContext_freed _ i) ?_ ?_ ?_ ?_ ?_ ?_, ?_, by simpa using haccounts, ?_⟩
  case refine_8 => apply state_eq <;> simp
  all_goals simp [failureEntry]

theorem portBecomes_failContext (r : ReportStatus) (hk : (s.ctx i).key = some k) : PortBecomes s (failContext i r s) k.port
    fun q => { q with held := q.held - (s.ctx i).heldSegs } := by
  have hreported : PortBecomes s (failureReported s r k (s.ctx i)) k.port id := ⟨by simp, fun q _ => by simp⟩
  have hfreed := portBecomes_freeContext (s := failureReported s r k (s.ctx i)) (i := i) (k := k) (by simpa using hk)
  rw [(failureReported_frame ..).1] at hfreed
  rw [failContext_eq r hk]
  refine portBecomes_trans hreported hfreed fun q q' e => ?_
  simp only [uncounted, Port.mk.injEq] at e ⊢
  simp [e]

/-- Settles O15: the entry is reported and counted before the context is freed, which changes none of what those read. -/
theorem contextFailure : Obligations.ContextFailure := fun s i _ r hk =>
  ⟨failContext_failsWith r hk, portBecomes_failContext r hk, (failContext_frame s i r).1, (failContext_frame s i r).2.1⟩

end

end Sys2Proof.Machine
end

