-- ==== Sys2Proof/Proofs/FrameClaimsKeep.lean ====
section
/-! SUPPORT. The claims of the receivers and of the timer unit keep the laws of the table (R50 to R72, R96 to R102). -/

namespace Sys2Proof.Machine

open Sys2Proof.Safety

section
variable {F G : Prop} {s t : State} {i : Slot} {p : PortId} {f : StagedFrame}

/-! ### Claims that are next -/

/-- While the device is INITIALISING no claim is next (R48). -/
theorem ready_of_next {c : Claimant} (hs : TableLaw s) (h : s.nextClaimant = some c) : s.host.phase = .ready := by
  by_contra hr
  have hq := hs.quiet (by simpa [State.initialising] using hr)
  have hp := presents_of_next h
  cases c with
  | receiver p => simp [State.presents, State.frameClaim, (hq.receivers p).2] at hp
  | timer => simp [State.presents, hq.timerClaim] at hp
  | command => simp [State.presents, hq.command] at hp

theorem LawsFollow.imp (h : LawsFollow F s t) (hGF : G → F) : LawsFollow G s t :=
  ⟨h.table, h.order, h.key, h.recent, h.queue, h.timers, fun hG => h.record (hGF hG), h.drain⟩

/-- After a frame claim the staging buffer goes back (R16). -/
theorem LawsFollow.released (h : LawsFollow F s t) (ready : t.host.phase = .ready) (p : PortId) :
    LawsFollow F s (releaseFrame p t) := h.stands (stands_ready (sameTable_releaseFrame t p) ready)

theorem failContext_ready (r : ReportStatus) (ready : s.host.phase = .ready) : (failContext i r s).host.phase = .ready := by
  simpa using ready

/-! ### States of a context -/

theorem unfinished_of_ne {c : Context} (hfree : c.state ≠ .free) (hdone : c.state ≠ .done) (hdraining : c.state ≠ .draining) :
    c.unfinished = true := by
  unfold Context.unfinished Context.gathering
  cases h : c.state <;> simp_all

theorem gathering_ne_done {c : Context} (h : c.gathering = true) : c.state ≠ .done := fun e => by simp [Context.gathering, e] at h

/-! ### Refusals and late fragments -/

theorem laws_refuseFrag (hs : TableLaw s) (ready : s.host.phase = .ready) : LawsFollow F s (refuseFrag p f s) :=
  (((stands_offerReply s p (holdReply (f.key p) f.indexByte)).trans (stands_count _ p .fragsHeld)).laws hs).released
    (by simpa using ready) p

theorem laws_answerLate {k : Key} {n : Nat} (hs : TableLaw s) (ready : s.host.phase = .ready) :
    LawsFollow F s (answerLate p k n s) :=
  (((stands_count s p .fragsDuplicate).trans (stands_offerReply _ p (acceptReply k n))).laws hs).released
    (by simpa using ready) p

theorem laws_refuseOversize (hs : TableLaw s) (ready : s.host.phase = .ready) : LawsFollow F s (refuseOversize p f s) :=
  (((stands_appendFailure (s := s) (e := refusalEntry (f.key p)) rfl rfl).trans (stands_count _ p .recordsFailed)).laws hs).released
    (by simpa using ready) p

/-! ### FRAG (R50 to R68) -/

section
variable (hs : TableLaw s) (ready : s.host.phase = .ready) (idle : s.table.service = none)
include hs ready idle

theorem laws_fragOnContext (hkey : (s.ctx i).key = some (f.key p)) (hu : (s.ctx i).unfinished = true) :
    LawsFollow (PayloadOk f) s (fragOnContext p i f s) := by
  obtain ⟨-, hdone, -⟩ := unfinished_ne hu
  have hfail : ∀ r : ReportStatus, r ≠ .complete → LawsFollow (PayloadOk f) s (releaseFrame p (failContext i r s)) := fun r hr =>
    (laws_failContext hs ready idle hdone hr).weaken.released (failContext_ready r ready) p
  unfold fragOnContext
  dsimp only
  split
  · exact ((stands_count s p .fragsDuplicate).laws hs).released (by simpa using ready) p
  split
  · exact hfail _ (by decide)
  split
  · exact hfail _ (by decide)
  next hfresh hconsistent _ =>
  split
  · next hroom =>
    exact laws_beginStore hs ready idle ((room_iff s p _).2 hroom).1 hkey hu (by simpa using hfresh) (by simpa using hconsistent)
  · exact laws_refuseFrag hs ready

/-- The way that a displacement frees, once its context has failed (R41). -/
theorem laws_displace (hset : setOfSlot i = setOf (f.key p)) (hi : (s.ctx i).eligible = true)
    (hroom : segsNeeded f.payload.length ≤ s.pool.freeList.length) (hnone : s.lookup (f.key p) = none)
    (hrecent : s.recentEntry (f.key p) = none) : LawsFollow (PayloadOk f) s (openAndStore p i f (failContext i .displaced s)) := by
  have hgath : (s.ctx i).gathering = true := by
    simp only [Context.eligible, Bool.and_eq_true] at hi
    exact hi.1
  obtain ⟨hfree, hdone, -⟩ := unfinished_ne (c := s.ctx i) (by simp [Context.unfinished, hgath])
  obtain ⟨k, hk⟩ := Option.ne_none_iff_exists'.1 (hs.key i hfree)
  have hfails := failContext_failsWith .displaced hk
  have hlaws := laws_failContext (r := .displaced) hs ready idle hdone (by decide)
  have hnone' : (failContext i .displaced s).lookup (f.key p) = none := lookup_none.2 fun j hj hst => by
    have hji : j ≠ i := fun e => by rw [e, hfails.freed.ctx] at hst; exact hst rfl
    rw [hfails.freed.others j hji] at hst ⊢
    exact lookup_none.1 hnone j hj hst
  have hrecent' : (failContext i .displaced s).recentEntry (f.key p) = none := by
    rw [recentEntry_congr, hrecent]
    rw [failContext_eq _ hk, freeContext_port]
    simp [failureReported]
  exact hlaws.trans (laws_openAndStore hlaws.table (failContext_ready _ ready) (by simpa using idle)
    (by rw [hfails.freed.pool]; exact hroom) (by rw [hfails.freed.ctx]; rfl) hset hnone' hrecent')

theorem laws_findWay (hroom : segsNeeded f.payload.length ≤ s.pool.freeList.length) (hnone : s.lookup (f.key p) = none)
    (hrecent : s.recentEntry (f.key p) = none) : LawsFollow (PayloadOk f) s (findWay p f s) := by
  unfold findWay
  dsimp only
  split
  · next i hway =>
    obtain ⟨hset, hfree, -⟩ := (freeWay_some _).1 hway
    exact laws_openAndStore hs ready idle hroom hfree hset hnone hrecent
  split
  · split
    · next i hv =>
      obtain ⟨hset, hi⟩ := victim_eligible hv
      exact laws_displace hs ready idle hset hi hroom hnone hrecent
    · exact laws_refuseFrag hs ready
  · exact laws_refuseFrag hs ready

theorem laws_firstFragment (hnone : s.lookup (f.key p) = none) : LawsFollow (PayloadOk f) s (firstFragment p f s) := by
  unfold firstFragment
  split
  · exact laws_answerLate hs ready
  next hrecent =>
  split
  · exact laws_refuseOversize hs ready
  split
  · next hroom => exact laws_findWay hs ready idle ((room_iff s p _).2 hroom).1 hnone hrecent
  · exact laws_refuseFrag hs ready

theorem laws_handleFrag : LawsFollow (PayloadOk f) s (handleFrag p f s) := by
  unfold handleFrag
  split
  · next i hi =>
    obtain ⟨-, hfree, hkey⟩ := lookup_some hi
    split
    · exact laws_answerLate hs ready
    · exact laws_answerLate hs ready
    · next hdone hdraining => exact laws_fragOnContext hs ready idle hkey (unfinished_of_ne hfree hdone hdraining)
  · next hnone => exact laws_firstFragment hs ready idle hnone

/-! ### ABORT and QUERY (R69 to R72) -/

theorem laws_abortEffect : LawsFollow True s (abortEffect p f s) ∧ (abortEffect p f s).host.phase = .ready := by
  unfold abortEffect
  split
  · next i _ =>
    split
    · next h => exact ⟨laws_failContext hs ready idle (by rw [h]; decide) (by decide), failContext_ready _ ready⟩
    · next h => exact ⟨laws_failContext hs ready idle (by rw [h]; decide) (by decide), failContext_ready _ ready⟩
    · exact ⟨(stands_count s p .fragsDuplicate).laws hs, by simpa using ready⟩
    · exact ⟨(stands_count s p .fragsDuplicate).laws hs, by simpa using ready⟩
    · exact ⟨.refl hs, ready⟩
  · split
    · exact ⟨(stands_count s p .fragsDuplicate).laws hs, by simpa using ready⟩
    · exact ⟨.refl hs, ready⟩

theorem laws_handleAbort : LawsFollow True s (handleAbort p f s) := by
  obtain ⟨hlaws, hready⟩ := laws_abortEffect (p := p) (f := f) hs ready idle
  exact hlaws.released hready p

omit idle in
theorem laws_handleQuery : LawsFollow True s (handleQuery p f s) :=
  ((stands_offerReply s p _).laws hs).released (by simpa using ready) p

end

/-- A frame claim taken keeps the laws when its handling does. -/
theorem laws_takeFrame {kind : Byte} {handle : PortId → StagedFrame → State → State} (hs : TableLaw s)
    (h : ∀ u p f, TableLaw u → u.host.phase = .ready → u.table.service = none → f.kind = kind → f ∈ (s.port p).staging →
      LawsFollow F u (handle p f u)) : LawsFollow F s (takeFrame kind handle s) := by
  unfold takeFrame
  split
  · next p hnext =>
    split
    · next f rest hstaging =>
      split
      · next hkind =>
        have hready := ready_of_next hs hnext
        have hserved : LawsFollow True s (served s p) := ((stands_setLastServed s (.receiver p)).trans
          (stands_ready (sameTable_serveFrame _ p) hready)).laws hs
        exact hserved.trans (h _ p f hserved.table hready (by simpa using service_of_next hnext) hkind
          (by rw [hstaging]; exact List.mem_cons_self))
      · exact .refl hs
    · exact .refl hs
  · exact .refl hs

/-- A staged FRAG has a payload of 1 to 96 bytes (R4, R14, R50). -/
theorem payloadOk_of_staged (hf : FrameLaw s) (hmem : f ∈ (s.port p).staging) (hk : f.kind = kindFrag) : PayloadOk f := by
  obtain ⟨hlen, -, hmax, -, -, -, hmin⟩ := (hf p).2 f hmem
  have hsix := hmin hk
  simp only [PayloadOk, StagedFrame.payload, List.length_take, List.length_drop]
  omega

theorem laws_frag (hs : TableLaw s) : LawsFollow (FrameLaw s) s (takeFrame kindFrag handleFrag s) :=
  laws_takeFrame hs fun _ _ _ hu ready idle hk hmem =>
    (laws_handleFrag hu ready idle).imp fun hF => payloadOk_of_staged hF hmem hk

theorem laws_abort (hs : TableLaw s) : LawsFollow True s (takeFrame kindAbort handleAbort s) :=
  laws_takeFrame hs fun _ _ _ hu ready idle _ _ => laws_handleAbort hu ready idle

theorem laws_query (hs : TableLaw s) : LawsFollow True s (takeFrame kindQuery handleQuery s) :=
  laws_takeFrame hs fun _ _ _ hu ready _ _ _ => laws_handleQuery hu ready

/-! ### The expiry claims (R96 to R102) -/

section
variable {k : Key} (hs : TableLaw s) (ready : s.host.phase = .ready) (idle : s.table.service = none)
include hs ready idle

theorem laws_spendAttempt (hg : (s.ctx i).gathering = true) (hleft : (s.ctx i).attemptsLeft ≠ 0) :
    LawsFollow True s (spendAttempt i k s) := by
  have hoffered : LawsFollow True s (offerReply k.port (repeatReply k (s.ctx i)) s) := (stands_offerReply s _ _).laws hs
  have hspent := laws_attemptSpent (s := offerReply k.port (repeatReply k (s.ctx i)) s) (i := i) hoffered.table
    (by simpa using ready) (by simpa using idle) (by simpa using hg) (by simpa using hleft)
  rw [(offerReply_frame ..).1] at hspent
  exact (hoffered.trans hspent).stands (stands_loadRepair (by simpa using ready) (by rw [setCtx_ctx_same]; rfl)
    fun n => repairLoad_range)

theorem laws_repairStep : LawsFollow True s (repairStep i s) := by
  unfold repairStep
  dsimp only
  split
  · split
    · next hg =>
      split
      · exact laws_failContext hs ready idle (gathering_ne_done hg) (by decide)
      · next hleft => exact laws_spendAttempt hs ready idle hg hleft
    · exact .refl hs
  · exact .refl hs

theorem laws_lifeFailure : LawsFollow True s (lifeFailure i s) := by
  unfold lifeFailure
  split
  · next hg => exact laws_failContext hs ready idle (gathering_ne_done hg) (by decide)
  · exact .refl hs

end

/-- An expiry claim taken keeps the laws when its action does. -/
theorem laws_takeExpiry {kind : CountdownKind} {act : Slot → State → State} (hs : TableLaw s)
    (h : ∀ u i, TableLaw u → u.host.phase = .ready → u.table.service = none → LawsFollow True u (act i u)) :
    LawsFollow True s (takeExpiry kind act s) := by
  unfold takeExpiry
  split
  · next c hnext hclaim =>
    split
    · next hkind =>
      subst hkind
      have htaken : LawsFollow True s (presentExpiry { s.setLastServed .timer with
          timer := withdrawn (s.setLastServed .timer) c }) :=
        ((stands_setLastServed s .timer).trans (stands_expiryTaken c hclaim)).laws hs
      dsimp only
      split
      · exact htaken.trans (h _ _ htaken.table (by simpa using ready_of_next hs hnext) (by simpa using service_of_next hnext))
      · exact htaken
    · exact .refl hs
  · exact .refl hs

theorem laws_repairExpiry (hs : TableLaw s) : LawsFollow True s (takeExpiry .repair repairStep s) :=
  laws_takeExpiry hs fun _ _ => laws_repairStep

theorem laws_lifeExpiry (hs : TableLaw s) : LawsFollow True s (takeExpiry .life lifeFailure s) :=
  laws_takeExpiry hs fun _ _ => laws_lifeFailure

end

end Sys2Proof.Machine
end

