-- ==== Sys2Proof/Proofs/CommandClaimsKeep.lean ====
section
/-! SUPPORT. The claims of the command unit keep the laws of the table (R130 to R162). -/

namespace Sys2Proof.Machine

open Sys2Proof.Safety

section
variable {F : Prop} {s t : State} {i : Slot} {k : Key}

/-- The answer to a command changes nothing that the laws of the table read (R147). -/
theorem LawsFollow.answered (h : LawsFollow F s t) (st : CommandStatus) (l : List Word) :
    LawsFollow F s (completeCommand st l t) := h.stands (stands_completeCommand t st l)

theorem laws_answered (hs : TableLaw s) (st : CommandStatus) (l : List Word) : LawsFollow True s (completeCommand st l s) :=
  (LawsFollow.refl hs).answered st l

theorem purged_unfinished {c : Context} {p : PortId} {b : Bool} (h : c.purged p b = true) : c.unfinished = true := by
  simp only [Context.purged, Bool.and_eq_true] at h
  exact h.1.2

section
variable (hs : TableLaw s) (ready : s.host.phase = .ready) (idle : s.table.service = none)
include hs ready idle

/-! ### TAKE and RELEASE (R130, R131, R140) -/

theorem laws_claimTake : LawsFollow True s (claimTake s) := by
  unfold claimTake
  split
  · exact laws_answered hs _ _
  next e rest hhead =>
  split
  · next hslot =>
    have hrest : ({ s with reports := s.reports.drop 1 } : State) = { s with reports := rest } := by rw [hhead]; rfl
    refine LawsFollow.answered ?_ .ok (reportWords e)
    rw [hrest]
    exact (stands_dropFailure hhead hslot).laws hs
  next i hslot =>
  split
  · exact laws_answered hs _ _
  · next hbound =>
    exact (laws_taken hs ready idle hhead hslot (by simpa using hbound)).answered _ _

theorem laws_claimRelease : LawsFollow True s (claimRelease s) := by
  unfold claimRelease
  split
  · exact laws_answered hs _ _
  next i hb =>
  have hdraining : (s.ctx i).state = .draining := (hs.drain i).2 hb
  obtain ⟨k, hk⟩ := Option.ne_none_iff_exists'.1 (hs.key i (by rw [hdraining]; decide))
  simp only [hk]
  exact (laws_released hs ready idle hb hk).answered _ _

/-! ### LOOKUP, RESERVE, PIN, UNPIN, CANCEL and FORGET (R150 to R162) -/

omit ready idle in
theorem laws_claimLookup : LawsFollow True s (claimLookup k s) := by
  unfold claimLookup
  split <;> exact laws_answered hs _ _

theorem laws_claimReserve (pinned : Bool) : LawsFollow True s (claimReserve k pinned s) := by
  unfold claimReserve
  split
  · exact laws_answered hs _ _
  next hnone =>
  split
  · exact laws_answered hs _ _
  · next i hway => exact (laws_reserved hs ready idle hnone hway).answered _ _

theorem laws_setPinned (v : Bool) : LawsFollow True s (setPinned v k s) := by
  unfold setPinned
  split
  · exact laws_answered hs _ _
  next i _ =>
  dsimp only
  split
  · next hu => exact (laws_pinned v hs ready idle hu).answered _ _
  · exact laws_answered hs _ _

theorem laws_claimCancel : LawsFollow True s (claimCancel k s) := by
  unfold claimCancel
  split
  · exact laws_answered hs _ _
  next i _ =>
  dsimp only
  split
  · next hu =>
    obtain ⟨-, hdone, -⟩ := unfinished_ne hu
    exact (laws_freeContext hs ready idle hdone).answered _ _
  · exact laws_answered hs _ _

omit ready idle in
theorem laws_claimForget (all : Bool) : LawsFollow True s (claimForget all k s) := by
  unfold claimForget
  split
  · exact ((stands_recent k.port (fun _ => []) fun _ => List.nil_sublist _).laws hs).answered _ _
  split
  · exact ((stands_forgetKey k).laws hs).answered _ _
  · exact laws_answered hs _ _

theorem laws_commandWork (f : InFlight) : LawsFollow True s (commandWork f s) := by
  unfold commandWork
  dsimp only
  cases f.code with
  | take => exact laws_claimTake hs ready idle
  | release => exact laws_claimRelease hs ready idle
  | lookup => exact laws_claimLookup hs
  | reserve => exact laws_claimReserve hs ready idle _
  | pin => exact laws_setPinned hs ready idle true
  | unpin => exact laws_setPinned hs ready idle false
  | cancel => exact laws_claimCancel hs ready idle
  | forget => exact laws_claimForget hs _
  | next | purge => exact .refl hs

/-! ### Walk visits (R47, R152, R159) -/

omit hs idle in
theorem stands_nextVisit (f : InFlight) (freed segments : Nat) : Stands s (nextVisit f freed segments s) :=
  stands_ready (sameTable_cmd s _) ready

omit idle in
theorem laws_visitNext (f : InFlight) : LawsFollow True s (visitNext f s) := by
  unfold visitNext
  split
  · exact laws_answered hs _ _
  split
  · exact laws_answered hs _ _
  · exact (stands_nextVisit ready f 0 0).laws hs

/-- The state after the freeing of a PURGE visit, if it frees (R159). -/
theorem laws_purgeFrees {p : PortId} {b : Bool} :
    LawsFollow True s (if (s.ctx i).purged p b then freeContext i s else s) := by
  split
  · next h =>
    obtain ⟨-, hdone, -⟩ := unfinished_ne (purged_unfinished h)
    exact laws_freeContext hs ready idle hdone
  · exact .refl hs

theorem laws_visitPurge (f : InFlight) : LawsFollow True s (visitPurge f s) := by
  have hfreed := laws_purgeFrees (i := f.slot) (p := opPortId f.operands) (b := opIncludePinned f.operands) hs ready idle
  have hready : (if (s.ctx f.slot).purged (opPortId f.operands) (opIncludePinned f.operands) then freeContext f.slot s
      else s).host.phase = .ready := by
    split
    · simpa using ready
    · exact ready
  unfold visitPurge
  dsimp only
  split
  · exact hfreed.answered _ _
  · exact hfreed.stands (stands_nextVisit hready f _ _)

theorem laws_visitWork (f : InFlight) : LawsFollow True s (visitWork f s) := by
  unfold visitWork
  split
  · exact laws_visitNext hs ready f
  · exact laws_visitPurge hs ready idle f
  · exact .refl hs

end

/-- The command unit's claim taken keeps the laws when its work does. -/
theorem laws_takeCommand {walk : Bool} {work : InFlight → State → State} (hs : TableLaw s)
    (h : ∀ u f, TableLaw u → u.host.phase = .ready → u.table.service = none → LawsFollow True u (work f u)) :
    LawsFollow True s (takeCommand walk work s) := by
  unfold takeCommand
  split
  · next f hnext _ =>
    split
    · have hserved : LawsFollow True s (s.setLastServed .command) := (stands_setLastServed s .command).laws hs
      exact hserved.trans (h _ f hserved.table (by simpa using ready_of_next hs hnext) (by simpa using service_of_next hnext))
    · exact .refl hs
  · exact .refl hs

end

end Sys2Proof.Machine
end

