-- ==== Sys2Proof/Proofs/TableKept.lean ====
section
/-! SUPPORT. Every command and every step keeps the laws of the context table (TableKept, ListsKeysAndTimersKept,
RecordsAndDrainKept). -/

namespace Sys2Proof.Machine

open Sys2Proof.Safety

section
variable {F : Prop} {s t : State}

/-! ### The host's writes (R178) -/

/-- Every register write but that of CTRL leaves the table and its claims. -/
theorem stands_writeReg {r : Reg} (v : Word) (hr : r ≠ .ctrl) : Stands s (writeReg r v s) := by
  have hset : ∀ (p : PortId) (f : Port → Port), (∀ q, (f q).held = q.held) → (∀ q, (f q).recent = q.recent) →
      (∀ q, (f q).rx = q.rx) → (∀ q, (f q).staging = q.staging) → Stands s (s.modifyPort p f) := stands_modifyPort s
  have hregister := stands_registers s
  cases r with
  | ctrl => exact absurd rfl hr
  | status =>
    show Stands s (writeStatus v s)
    unfold writeStatus
    split
    · exact hregister _ _ _ _ _ _
    · exact .refl s
  | events | eventEnable | portSelect | tick | poolLow | unreported | operand => exact hregister _ _ _ _ _ _
  | cmd => exact stands_writeCmd s v
  | drainPos => exact stands_writeDrainPos v
  | portCtrl => exact stands_writePortCtrl s _ v
  | portAddr => exact stands_writePortAddr s _ v
  | portRate => exact stands_writePortRate s _ v
  | portQuota | portGap | portRepair | portLife | portReclimit =>
    unfold writeReg
    exact hset _ _ (fun _ => rfl) (fun _ => rfl) (fun _ => rfl) fun _ => rfl
  | counter c => exact stands_clearCounter s _ c
  | portLimits => exact stands_clearLimits s _ v
  | poolFree | poolBacklog | cmdStatus | result | reportCount | reportHead | drainData | drainLen | portHeld | portState =>
    exact .refl s

theorem laws_ite {c : Prop} [Decidable c] (hs : TableLaw s) (h : c → LawsFollow F s t) :
    LawsFollow F s (if c then t else s) := by
  split
  · next hc => exact h hc
  · exact .refl hs

theorem stands_ite {c : Prop} [Decidable c] (h : c → Stands s t) : Stands s (if c then t else s) := by
  split
  · next hc => exact h hc
  · exact .refl s

theorem laws_writeCtrl (v : Word) (hs : TableLaw s) : LawsFollow F s (writeCtrl v s) :=
  laws_ite hs fun _ => laws_reset stands_softReset

theorem laws_hostWrite (r : Reg) (v : Word) (hs : TableLaw s) : LawsFollow F s (hostWrite r v s) := by
  refine laws_ite hs fun _ => ?_
  by_cases hr : r = .ctrl
  · rw [hr]
    exact laws_writeCtrl v hs
  · exact (stands_writeReg v hr).laws hs

theorem laws_writeRegister (o : Byte) (v : Word) (hs : TableLaw s) : LawsFollow F s (writeRegister o v s) := by
  unfold writeRegister
  split
  · exact laws_hostWrite _ v hs
  · exact .refl hs

/-! ### Commands whose occasion is a part of the state -/

/-- A command whose outcome is one next state keeps the laws when that state does. -/
theorem laws_next {u : State} (hl : LawsFollow F s u) (h : Host.Outcome.next (φ := Fault) (ρ := Refusal) u = .next t) :
    LawsFollow F s t := by
  cases h
  exact hl

/-- A command whose outcome is one next state in which the table stands. -/
theorem stands_next {u : State} (hu : Stands s u) (h : Host.Outcome.next (φ := Fault) (ρ := Refusal) u = .next t) :
    Stands s t := by
  cases h
  exact hu

theorem laws_powerUp (high : Bool) : LawsFollow F s
    (if high then resetDeassert { resetAssert s with mem := [] } else { resetAssert s with mem := [] }) := by
  have hreset : Stands State.reset { resetAssert s with mem := [] } := stands_resetAssert []
  split
  · exact laws_reset (hreset.trans (stands_resetDeassert rfl))
  · exact laws_reset hreset

theorem laws_hardwareReset : LawsFollow F s (resetAssert s) := laws_reset (stands_resetAssert (resetAssert s).mem)

theorem stands_execWalkStep (h : execWalkStep s = .next t) : Stands s t := by
  unfold execWalkStep at h
  split at h
  · next k hk => exact stands_next (stands_walkStep hk) h
  · exact stands_next (.refl s) h
  · exact stands_next (.refl s) h

theorem stands_execTick (h : execTick s = .next t) : Stands s t := by
  unfold execTick at h
  split at h
  · exact stands_next stands_tickState h
  · exact stands_next (.refl s) h

theorem stands_execReplyEnd {p : PortId} (h : execReplyEnd p s = .next t) : Stands s t := by
  unfold execReplyEnd at h
  split at h
  · next x _ =>
    refine stands_next ?_ h
    split
    · exact .refl s
    · exact stands_endReply s p x
  · exact stands_next (.refl s) h

theorem stands_execGuardEnd {p : PortId} (h : execGuardEnd p s = .next t) : Stands s t := by
  unfold execGuardEnd at h
  split at h
  · exact stands_next (stands_ite fun _ => stands_endGuard s p) h
  · exact stands_next (.refl s) h

theorem stands_execReturnMove (h : execReturnMove s = .next t) : Stands s t := by
  unfold execReturnMove at h
  split at h
  · next hb => exact stands_next (stands_returnMove hb) h
  · exact stands_next (.refl s) h

theorem laws_execFillSegmentEnd (hs : TableLaw s) (h : execFillSegmentEnd s = .next t) : LawsFollow True s t := by
  unfold execFillSegmentEnd at h
  split at h
  · next st hst =>
    refine laws_next ?_ h
    split
    · exact .refl hs
    · exact laws_endSegment hs hst
  · exact laws_next (.refl hs) h

theorem laws_execUnreportedClear {r : UnreportedRoute} {v : Word} (hs : TableLaw s)
    (h : execUnreportedClear r v s = .next t) : LawsFollow F s t := by
  cases r with
  | counter => exact laws_next (laws_hostWrite .unreported v hs) h
  | status => exact laws_next (laws_hostWrite .status v hs) h

/-! ### Every command and every step -/

/-- Every command keeps the laws of the table. -/
theorem exec_laws (c : Instr) (hs : TableLaw s) (h : exec c s = .next t) : LawsFollow (FrameLaw s) s t := by
  cases c with
  | powerUp high => exact laws_next (laws_powerUp high) h
  | hardwareReset => exact laws_next laws_hardwareReset h
  | resetDeasserted => exact laws_next (laws_ite hs fun hphase => (stands_resetDeassert hphase).laws hs) h
  | softReset v => exact laws_next (laws_ite hs fun _ => laws_writeCtrl v hs) h
  | walkStep => exact (stands_execWalkStep h).laws hs
  | syncReceived p | goodCharacter p | characterSkipped p | badLen p | framingError p | frameCompletion p =>
    exact (stands_next (stands_takeCharacter s p _) h).laws hs
  | characterTimeout p => exact (stands_next (stands_characterTimeout s p) h).laws hs
  | startEdge line => exact (stands_next (stands_sampleLine s line.port line.samples) h).laws hs
  | startCheck p level => exact (stands_next (stands_startCheck s p level) h).laws hs
  | frag => exact laws_next (laws_frag hs) h
  | abort => exact laws_next (laws_abort hs).weaken h
  | query => exact laws_next (laws_query hs).weaken h
  | fillSegmentEnd => exact (laws_execFillSegmentEnd hs h).weaken
  | tick => exact (stands_execTick h).laws hs
  | countdownExpiry i kind => exact (stands_next (stands_countdownExpiry i kind) h).laws hs
  | repairExpiry => exact laws_next (laws_repairExpiry hs).weaken h
  | lifeExpiry => exact laws_next (laws_lifeExpiry hs).weaken h
  | replyStart p => exact (stands_next (stands_startReply s p) h).laws hs
  | replyEnd => exact (stands_execReplyEnd h).laws hs
  | guardEnd => exact (stands_execGuardEnd h).laws hs
  | returnMove => exact (stands_execReturnMove h).laws hs
  | drainDataRead => exact (stands_drainDataRead h).laws hs
  | drainReadGrant => exact (stands_drainReadGrant h).laws hs
  | heldReadEnded => exact (stands_heldReadEnded h).laws hs
  | drainPosWrite v => exact (stands_next (stands_ite fun _ => stands_writeDrainPos v) h).laws hs
  | portEnable v | portDisable v | portCtrlWrite v | portAddrWrite v | portRateWrite v | tickWrite v | counterClear _ v
  | portLimitsWrite v | eventsWrite v | eventEnableWrite v => exact laws_next (laws_hostWrite _ v hs) h
  | unreportedClear => exact laws_execUnreportedClear hs h
  | registerWrite o v => exact laws_next (laws_writeRegister o v hs) h
  | take | release | lookup | next | reserve | pin | unpin | cancel | purge | forget | badCommand =>
    exact (stands_next (stands_ite fun _ => stands_writeCmd s _) h).laws hs
  | commandClaim => exact laws_next (laws_takeCommand hs fun _ f hu ready idle => laws_commandWork hu ready idle f).weaken h
  | walkVisit => exact laws_next (laws_takeCommand hs fun _ f hu ready idle => laws_visitWork hu ready idle f).weaken h

theorem step_laws (hs : TableLaw s) (h : step s = .next t) : LawsFollow (FrameLaw s) s t := by
  unfold step at h
  split at h
  · exact laws_next (.refl hs) h
  · next c rest _ =>
    have htaken : LawsFollow True s { s with pending := rest } :=
      (stands_same (by simp [SameTable]) (by simp [SameWork])).laws hs
    exact htaken.trans (exec_laws c htaken.table h)

end

/-- Settles O56: each command is a chain of changes under which the table stands, or of changes of one context that balance. -/
theorem tableKept : Obligations.TableKept := fun _ _ h hs => (step_laws hs h).table

/-- Settles O57, by the same walk through the commands as the table law. -/
theorem listsKeysAndTimersKept : Obligations.ListsKeysAndTimersKept := fun _ _ h hs =>
  have hl := step_laws hs h
  ⟨hl.order, hl.key, hl.recent, hl.queue, hl.timers⟩

/-- Settles O58: the record law needs the frame law where a FRAG begins its store. -/
theorem recordsAndDrainKept : Obligations.RecordsAndDrainKept := fun _ _ h hs =>
  have hl := step_laws hs h
  ⟨hl.record, hl.drain⟩

end Sys2Proof.Machine
end

