-- ==== Sys2Proof/Proofs/FragRefusals.lean ====
section
/-! SUPPORT. The handling of a FRAG by its cases, and the two outcomes without a store: a failure (FragFails) and a refusal
(FragRefusedWithHold). -/

namespace Sys2Proof.Machine

open Sys2Proof.Safety

/-! ### The cases of a FRAG (R52 to R65) -/

section
variable {s : State} {p : PortId} {i : Slot} {f : StagedFrame} {rest : List StagedFrame}

theorem handleFrag_on (hi : s.lookup (f.key p) = some i) (hu : (s.ctx i).unfinished = true) :
    handleFrag p f s = fragOnContext p i f s := by
  obtain ⟨-, hdone, hdraining⟩ := unfinished_ne hu
  unfold handleFrag
  simp only [hi]

theorem handleFrag_first (hnone : s.lookup (f.key p) = none) : handleFrag p f s = firstFragment p f s := by
  simp only [handleFrag, hnone]

theorem fragOnContext_inconsistent (hfresh : (s.ctx i).hasIndex f.index = false)
    (hd : Disagrees (s.ctx i) f.index f.last) : fragOnContext p i f s = releaseFrame p (failContext i .inconsistent s) := by
  simp [fragOnContext, hfresh, (disagrees_iff ..).1 hd]

theorem fragOnContext_oversize (hfresh : (s.ctx i).hasIndex f.index = false) (hd : ¬ Disagrees (s.ctx i) f.index f.last)
    (hsize : (s.port p).reclimit.toNat < (s.ctx i).storedBytes + f.payload.length) :
    fragOnContext p i f s = releaseFrame p (failContext i .oversize s) := by
  rw [disagrees_iff, Bool.not_eq_true] at hd
  simp [fragOnContext, hfresh, hd, hsize]

theorem fragOnContext_fits (h : FitsContext s p i f) : fragOnContext p i f s =
    if s.hasRoom p (segsNeeded f.payload.length) then beginStore p i (s.ctx i).state f s else refuseFrag p f s := by
  obtain ⟨-, hfresh, hconsistent, hsize⟩ := (fitsContext_iff ..).1 h
  simp [fragOnContext, hfresh, hconsistent, not_lt.2 hsize]

theorem firstFragment_oversize (hrecent : s.recentEntry (f.key p) = none)
    (hsize : (s.port p).reclimit.toNat < f.payload.length) : firstFragment p f s = refuseOversize p f s := by
  simp [firstFragment, hrecent, hsize]

theorem firstFragment_fits (h : FitsFirst s p f) : firstFragment p f s =
    if s.hasRoom p (segsNeeded f.payload.length) then findWay p f s else refuseFrag p f s := by
  obtain ⟨-, hrecent, hsize⟩ := h
  simp [firstFragment, hrecent, not_lt.2 hsize]

theorem findWay_free (hway : s.freeWay (setOf (f.key p)) = some i) : findWay p f s = openAndStore p i f s := by
  simp only [findWay, hway]

theorem findWay_displaces (hway : s.freeWay (setOf (f.key p)) = none) (hreclaim : (s.port p).reclaim = true)
    (hv : s.victim (setOf (f.key p)) = some i) :
    findWay p f s = openAndStore p i f (failContext i .displaced s) := by
  simp [findWay, hway, hreclaim, hv]

theorem findWay_refused (hway : s.freeWay (setOf (f.key p)) = none)
    (h : (s.port p).reclaim = false ∨ s.victim (setOf (f.key p)) = none) : findWay p f s = refuseFrag p f s := by
  rcases h with h | h
  · simp [findWay, hway, h]
  · simp [findWay, hway, h]

/-! ### What the serving of the frame leaves as it was -/

theorem exec_frag (h : FrameNext s p f rest) (hk : f.kind = 0x01#8) :
    exec .frag s = .next (handleFrag p f (served s p)) :=
  congrArg Host.Outcome.next (takeFrame_next handleFrag h hk)

theorem served_limits (s : State) (p q : PortId) : ((served s p).port q).reclimit = (s.port q).reclimit ∧
    ((served s p).port q).held = (s.port q).held ∧ ((served s p).port q).quota = (s.port q).quota ∧
    ((served s p).port q).reclaim = (s.port q).reclaim := by
  simp [served]

theorem served_lookup (k : Key) : (served s p).lookup k = s.lookup k := lookup_congr (by simp) k

theorem served_recentEntry (k : Key) : (served s p).recentEntry k = s.recentEntry k := recentEntry_congr (by simp)

theorem served_fitsContext (h : FitsContext s p i f) : FitsContext (served s p) p i f := by
  simpa [FitsContext, served_limits] using h

theorem served_fitsFirst (h : FitsFirst s p f) : FitsFirst (served s p) p f := by
  simpa [FitsFirst, served_limits, served_lookup, served_recentEntry] using h

theorem served_hasRoom {n : Nat} : (served s p).hasRoom p (segsNeeded n) = true ↔ Room s p n := by
  rw [← room_iff]
  simp [Room, served_limits]

theorem served_freeWay (u : SetId) : (served s p).freeWay u = s.freeWay u := by
  simp only [State.freeWay, served_frame]

theorem served_victim (u : SetId) : (served s p).victim u = s.victim u := by
  simp only [State.victim, served_frame]

/-! ### A failure (R54, R55, R63) -/

/-- A context that fails within a frame claim fails as it would by itself (R16). -/
theorem failsWith_claim {t : State} {k : Key} {r : ReportStatus} (h : FailsWith (served s p) t i k r []) :
    FailsWith s (releaseFrame p t) i k r [] := by
  obtain ⟨hfreed, hreports, haccounts, hrest⟩ := h
  obtain ⟨hctx, hothers, horder, hpool, htimers, htimer, hdrain⟩ :=
    freed_after (s := s) hfreed (by simp) (by simp) (by simp) (by simp) (by simp) (by simp)
  have hall := ((accounts_served s p).trans haccounts).trans (accounts_releaseFrame _ p)
  refine ⟨⟨hctx, hothers, horder, hpool, htimers, htimer, hdrain⟩, hreports, by simpa using hall, ?_⟩
  have hpart : ∀ {α : Type} (g : State → α), g t = g { served s p with
      ports := t.ports, table := t.table, pool := t.pool, timer := t.timer, reports := t.reports, drain := t.drain
      stats := t.stats } := fun g => congrArg g hrest
  exact state_eq rfl rfl rfl (hpart State.mem) rfl rfl rfl (hpart State.cmd) rfl (hpart State.host) (hpart State.free)
    (hpart State.pending)

/-- A FRAG whose context fails: the outcome of the claim (R16, R37). -/
theorem fragFails_outcome {r : ReportStatus} (h : FrameNext s p f rest) (hkind : f.kind = 0x01#8)
    (hi : s.lookup (f.key p) = some i) (hu : (s.ctx i).unfinished = true)
    (hfail : fragOnContext p i f (served s p) = releaseFrame p (failContext i r (served s p))) :
    ∃ t, exec .frag s = .next t ∧ FailsWith s t i (f.key p) r [] ∧
      PortBecomes s t p (fun q => { q with staging := rest, held := q.held - (s.ctx i).heldSegs }) ∧
      t.table.lastServed = .receiver p ∧ t.table.service = none := by
  obtain ⟨-, -, hkey⟩ := lookup_some hi
  have hkey' : ((served s p).ctx i).key = some (f.key p) := by simpa using hkey
  have hbecomes : PortBecomes (served s p) (failContext i r (served s p)) p
      fun q => { q with held := q.held - ((served s p).ctx i).heldSegs } := portBecomes_failContext r hkey'
  rw [(served_frame s p).1] at hbecomes
  refine ⟨_, exec_frag h hkind, ?_⟩
  rw [handleFrag_on ((served_lookup _).trans hi) (by simpa using hu), hfail]
  refine ⟨failsWith_claim (failContext_failsWith r hkey'),
    portBecomes_claim h hbecomes (fun q q' e => ?_) (fun _ _ => rfl), ?_, ?_⟩
  · simp only [uncounted, Port.mk.injEq] at e ⊢
    simp [e]
  · simp
  · simpa using service_of_next h.1

theorem refuseOversize_eq (s : State) : refuseOversize p f s =
    releaseFrame p (failureReported s .oversize (f.key p) Context.freed) := rfl

/-- The outcome of a first fragment that is refused as oversize (R63). -/
theorem oversize_outcome (h : FrameNext s p f rest) :
    (refuseOversize p f (served s p)).reports = (if failureCount s.reports < 16 then
      s.reports ++ [{ status := .oversize, slot := none, key := f.key p, length := none, count := none
                      fragments := some 0, highest := none, attemptsUsed := 0 }] else s.reports) ∧
    Accounts s (refuseOversize p f (served s p)) [(p, .recordsFailed)] (if failureCount s.reports < 16 then 0 else 1)
      (if failureCount s.reports < 16 then [.reportAdded] else [.reportLost]) ∧
    PortBecomes s (refuseOversize p f (served s p)) p (fun q => { q with staging := rest }) ∧
    refuseOversize p f (served s p) = { s with
      ports := (refuseOversize p f (served s p)).ports, stats := (refuseOversize p f (served s p)).stats
      reports := (refuseOversize p f (served s p)).reports, table := { s.table with lastServed := .receiver p } } := by
  have hbecomes : PortBecomes (served s p) (failureReported (served s p) .oversize (f.key p) Context.freed) p id :=
    ⟨by simp, fun q _ => by simp⟩
  have haccounts := ((accounts_served s p).trans (accounts_failureReported (k := f.key p) .oversize Context.freed)).trans
    (accounts_releaseFrame _ p)
  rw [refuseOversize_eq]
  refine ⟨by simp [failureEntry, Context.freed], by simpa [StagedFrame.key] using haccounts,
    portBecomes_claim h hbecomes (fun q q' e => e) (fun _ _ => rfl), ?_⟩
  apply state_eq <;> simp

/-- Settles O21: a failing context, by R54 or R55, and the first fragment of R63, which has none. -/
theorem fragFails : Obligations.FragFails := by
  refine fun s p f rest h hkind => ⟨fun i hi hu hfresh => ⟨fun hd => ?_, fun hd hsize => ?_⟩, fun hnone hrecent hsize => ?_⟩
  · exact fragFails_outcome h hkind hi hu (fragOnContext_inconsistent (by simpa using hfresh) (by simpa using hd))
  · exact fragFails_outcome h hkind hi hu
      (fragOnContext_oversize (by simpa using hfresh) (by simpa using hd) (by simpa [served_limits] using hsize))
  · refine ⟨_, exec_frag h hkind, ?_⟩
    rw [handleFrag_first ((served_lookup _).trans hnone), firstFragment_oversize ((served_recentEntry _).trans hrecent)
      (by simpa [served_limits] using hsize)]
    exact oversize_outcome h

/-! ### A refusal (R56, R64) -/

/-- The order of the increments does not matter to the account (R165). -/
theorem accounts_perm {t : State} {l l' : List (PortId × Counter)} {n : Nat} {ev : List Event} (h : Accounts s t l n ev)
    (hl : l.Perm l') : Accounts s t l' n ev := by
  obtain ⟨hcounters, hlimits, hunreported, hlimit, hevents, henable⟩ := h
  simp only [hl.count_eq] at hcounters hlimits hevents
  exact ⟨hcounters, hlimits, hunreported, hlimit, hevents, henable⟩

/-- The outcome of a FRAG that is answered with HOLD (R51, R56, R64). -/
theorem refused_outcome (h : FrameNext s p f rest) :
    Accounts s (refuseFrag p f (served s p)) ((p, .fragsHeld) :: offerCounts p (s.port p)) 0 [] ∧
    PortBecomes s (refuseFrag p f (served s p)) p (fun q => { q with
      staging := rest
      replies := offered q { kind := .hold, station := (f.key p).station, tag := (f.key p).tag
                             index := f.indexByte, bitmap := none } }) ∧
    refuseFrag p f (served s p) = { s with
      ports := (refuseFrag p f (served s p)).ports, stats := (refuseFrag p f (served s p)).stats
      table := { s.table with lastServed := .receiver p } } := by
  have hoffer : offerCounts p ((served s p).port p) = offerCounts p (s.port p) := by simp [offerCounts]
  have haccounts := (((accounts_served s p).trans (accounts_offerReply _ p (holdReply (f.key p) f.indexByte))).trans
    (accounts_count _ p .fragsHeld)).trans (accounts_releaseFrame _ p)
  rw [hoffer] at haccounts
  refine ⟨accounts_perm haccounts (by simp), ?_, ?_⟩
  · exact portBecomes_claim h (portBecomes_counted (portBecomes_offerReply ..) fun q => uncounted_count _ _ _ _)
      (fun q q' => uncounted_offered _) fun q l => rfl
  · apply state_eq <;> simp [refuseFrag]

/-- Settles O22: no room on a context or for a first fragment, and no way for a first fragment. -/
theorem fragRefusedWithHold : Obligations.FragRefusedWithHold := by
  intro s p f rest h hkind hcase
  have hrefused : handleFrag p f (served s p) = refuseFrag p f (served s p) := by
    rcases hcase with ⟨i, hi, hfits, hroom⟩ | ⟨hfits, hroom⟩ | ⟨hfits, hroom, hfull, hdisplace⟩
    · rw [handleFrag_on ((served_lookup _).trans hi) (by simpa using hfits.1), fragOnContext_fits (served_fitsContext hfits),
        if_neg (not_congr served_hasRoom |>.2 hroom)]
    · rw [handleFrag_first ((served_lookup _).trans hfits.1), firstFragment_fits (served_fitsFirst hfits),
        if_neg (not_congr served_hasRoom |>.2 hroom)]
    · have hway : (served s p).freeWay (setOf (f.key p)) = none := (served_freeWay _).trans ((freeWay_none _).2 hfull)
      rw [handleFrag_first ((served_lookup _).trans hfits.1), firstFragment_fits (served_fitsFirst hfits),
        if_pos (served_hasRoom.2 hroom)]
      exact findWay_refused hway (hdisplace.imp (by simp [served_limits]) fun hv => (served_victim _).trans ((victim_none _).2 hv))
  refine ⟨_, exec_frag h hkind, ?_⟩
  rw [hrefused]
  exact refused_outcome h

end

end Sys2Proof.Machine
end

