-- ==== Sys2Proof/Proofs/FragStores.lean ====
section
/-! SUPPORT. The beginning of a store by a FRAG: on a context that gathers fragments, in a FREE way (FragStoreBegins), and in the way
of a displaced context (Displacement). -/

namespace Sys2Proof.Machine

open Sys2Proof.Safety

section
variable {s u v : State} {p : PortId} {i : Slot} {f : StagedFrame} {rest : List StagedFrame} {prior : CtxState}

/-! ### The claim and its accounts (R57, R58, R82) -/

/-- The claim of a store reads the free list and the waiting read. -/
theorem storeBegun_congr (hfree : v.pool.freeList = s.pool.freeList) (hdrain : v.drain = s.drain) :
    storeBegun v p i prior f = storeBegun s p i prior f := by
  simp only [storeBegun, State.readNeeds, hfree, hdrain]

/-- The beginning of a store raises POOL_LOW at the crossing (R82). -/
theorem accounts_beginStore : Accounts s (beginStore p i prior f s) [] 0 (lowRaised s (segsNeeded f.payload.length)) := by
  have h := (accounts_allocate s p (segsNeeded f.payload.length)).trans
    (Accounts.same (t := beginStore p i prior f s) (fun q => by simp [beginStore_eq]) (by simp [beginStore_eq]))
  simpa [lowRaised] using h

/-! ### A store in a context or in a FREE way (R52 to R58, R64, R65) -/

/-- What begins with a store when only the table has changed since the frame was served. -/
theorem begins_outcome (h : FrameNext s p f rest) (hv : v = { served s p with table := v.table })
    (hlast : v.table.lastServed = .receiver p) :
    (beginStore p i prior f v).table.service = some (storeBegun s p i prior f) ∧
    (beginStore p i prior f v).table.lastServed = .receiver p ∧
    (beginStore p i prior f v).pool = { s.pool with freeList := s.pool.freeList.drop (segsNeeded f.payload.length) } ∧
    Accounts s (beginStore p i prior f v) [] 0 (lowRaised s (segsNeeded f.payload.length)) ∧
    PortBecomes s (beginStore p i prior f v) p (fun q => { q with
      staging := { f with inService := true } :: rest
      held := q.held + segsNeeded f.payload.length }) ∧
    beginStore p i prior f v = { s with
      ports := (beginStore p i prior f v).ports, table := (beginStore p i prior f v).table
      pool := (beginStore p i prior f v).pool, stats := (beginStore p i prior f v).stats } := by
  have hpart : ∀ {α : Type} (g : State → α), g v = g { served s p with table := v.table } := fun g => congrArg g hv
  have hpool : v.pool = s.pool := hpart State.pool
  have hport : ∀ q, v.port q = (served s p).port q := fun q => hpart fun w => w.port q
  have haccounts : Accounts s v [] 0 [] :=
    (accounts_served s p).trans (.same (fun q => by rw [hport]; exact ⟨rfl, rfl⟩) (hpart State.stats))
  refine ⟨?_, by simpa using hlast, by rw [beginStore_pool, hpool], ?_, ⟨?_, fun q hq => ?_⟩, ?_⟩
  · rw [beginStore_service]
    exact congrArg some (storeBegun_congr (congrArg Pool.freeList hpool) (hpart State.drain))
  · have hbegins := haccounts.trans (accounts_beginStore (p := p) (i := i) (prior := prior) (f := f))
    simpa [lowRaised, hpool] using hbegins
  · rw [beginStore_port, if_pos rfl, hport, served_port h.2, if_pos rfl]
  · rw [beginStore_port, if_neg hq, hport, served_port h.2, if_neg hq]
  · obtain ⟨-, -, -, -, hmem, htimer, hreports, hdrain, hcmd, hhost, hfree, hpending⟩ := beginStore_frame v p i prior f
    exact state_eq rfl rfl rfl (hmem.trans (hpart State.mem)) (htimer.trans (hpart State.timer))
      (hreports.trans (hpart State.reports)) (hdrain.trans (hpart State.drain)) (hcmd.trans (hpart State.cmd)) rfl
      (hhost.trans (hpart State.host)) (hfree.trans (hpart State.free)) (hpending.trans (hpart State.pending))

/-- Settles O23: the context was there, or the lowest FREE way is opened for the key. -/
theorem fragStoreBegins : Obligations.FragStoreBegins := by
  rintro s p f rest i h hkind hroom (⟨hi, hfits⟩ | ⟨hfits, hset, hfree, hlowest⟩)
  · obtain ⟨hne, -⟩ := unfinished_ne hfits.1
    refine ⟨_, exec_frag h hkind, ?_⟩
    rw [handleFrag_on ((served_lookup _).trans hi) (by simpa using hfits.1), fragOnContext_fits (served_fitsContext hfits),
      if_pos (served_hasRoom.2 hroom), (served_frame s p).1]
    obtain ⟨hservice, hlast, hpool, haccounts, hport, hrest⟩ :=
      begins_outcome (v := served s p) (i := i) (prior := (s.ctx i).state) h rfl rfl
    exact ⟨hservice, hlast, fun j _ => by simp, by simp [hne], fun w => by simp [hne], hpool, haccounts, hport, hrest⟩
  · have hway : (served s p).freeWay (setOf (f.key p)) = some i :=
      (served_freeWay _).trans ((freeWay_some _).2 ⟨hset, hfree, hlowest⟩)
    obtain ⟨hctx, horder⟩ := openContext_table (served s p) i (f.key p) .collecting false
    refine ⟨_, exec_frag h hkind, ?_⟩
    rw [handleFrag_first ((served_lookup _).trans hfits.1), firstFragment_fits (served_fitsFirst hfits),
      if_pos (served_hasRoom.2 hroom), findWay_free hway, openAndStore, hfree]
    obtain ⟨hservice, hlast, hpool, haccounts, hport, hrest⟩ :=
      begins_outcome (v := openContext i (f.key p) .collecting false (served s p)) (i := i) (prior := .free) h rfl rfl
    refine ⟨hservice, hlast, fun j hj => ?_, ?_, fun w => ?_, hpool, haccounts, hport, hrest⟩
    · rw [(beginStore_frame ..).1, hctx, if_neg hj, (served_frame s p).1]
    · rw [(beginStore_frame ..).1, hctx, if_pos rfl, if_pos rfl]
    · rw [(beginStore_frame ..).2.1, horder, hset]
      by_cases hw : w = setOf (f.key p) <;> simp [hw]

/-! ### A displacement (R40, R41) -/

/-- The victim's way goes from its place to the tail of the open-order list (R36, R39, R41). -/
theorem displaced_order {before after : List Way} {w : Way} (hb : w ∉ before) (ha : w ∉ after) :
    (before ++ w :: after).filter (· ≠ w) = before ++ after := by
  have hkeep : ∀ l : List Way, w ∉ l → l.filter (· ≠ w) = l := fun l hl =>
    List.filter_eq_self.2 fun x hx => by simpa using ne_of_mem_of_not_mem hx hl
  rw [List.filter_append, List.filter_cons_of_neg (by simp), hkeep _ hb, hkeep _ ha]

/-- The state in which the store of a displacing fragment begins: the victim failed, its way opened for the key (R41). -/
def displacing (s : State) (p : PortId) (i : Slot) (f : StagedFrame) : State :=
  openContext i (f.key p) .collecting false (failContext i .displaced (served s p))

/-- A displacement changes PORT_HELD twice: it falls on the victim's port, and rises on the fragment's (R36, R57). -/
theorem displaced_port {k : Key} (h : FrameNext s p f rest) (hk : (s.ctx i).key = some k) (q : PortId) :
    uncounted ((beginStore p i .free f (displacing s p i f)).port q) = uncounted { s.port q with
      staging := if q = p then { f with inService := true } :: rest else (s.port q).staging
      held := ((s.port q).held - if q = k.port then (s.ctx i).heldSegs else 0) +
        if q = p then segsNeeded f.payload.length else 0 } := by
  have hserved : uncounted ((served s p).port q) = uncounted { s.port q with
      staging := if q = p then { f with inService := true } :: rest else (s.port q).staging } := by
    rw [served_port h.2]
    split
    · next e => rw [e]
    · rfl
  have hfailed : uncounted ((displacing s p i f).port q) = uncounted { s.port q with
      staging := if q = p then { f with inService := true } :: rest else (s.port q).staging
      held := (s.port q).held - if q = k.port then (s.ctx i).heldSegs else 0 } := by
    obtain ⟨hsame, hother⟩ := portBecomes_failContext (s := served s p) (i := i) .displaced (by simpa using hk)
    have hopen : (displacing s p i f).port q = (failContext i .displaced (served s p)).port q := (openContext_frame ..).1 q
    rw [hopen]
    by_cases hq : q = k.port
    · subst hq
      rw [hsame, if_pos rfl, (served_frame s p).1]
      simp only [uncounted, Port.mk.injEq] at hserved ⊢
      simp [hserved]
    · rw [hother q hq, if_neg hq, hserved]
      rfl
  rw [beginStore_port]
  split
  · next e =>
    subst e
    simp only [uncounted, Port.mk.injEq] at hfailed ⊢
    simpa using hfailed
  · next e => simpa [e] using hfailed

/-- Settles O24: the victim fails as by itself, and the store begins in its way. -/
theorem displacement : Obligations.Displacement := by
  intro s p f rest i k before after h hkind hfits hroom hfull hreclaim horder hset hbefore heligible hk hnb hna
  have hway : (served s p).freeWay (setOf (f.key p)) = none := (served_freeWay _).trans ((freeWay_none _).2 hfull)
  have hvictim : (served s p).victim (setOf (f.key p)) = some i :=
    (served_victim _).trans (victim_of_order horder hset hbefore heligible)
  have hgath : (s.ctx i).state ≠ .draining := fun e => by simp [Context.eligible, Context.gathering, e] at heligible
  obtain ⟨hfreed, hreports, haccounts, -⟩ :=
    failContext_failsWith (s := served s p) (i := i) .displaced (by simpa using hk)
  obtain ⟨hctx, hothers, hways, hpool, htimers, htimer, hdrain⟩ :=
    freed_after (s := s) hfreed (by simp) (by simp) (by simp) (by simp) (by simp) (by simp)
  rw [if_neg hgath] at hdrain
  obtain ⟨hopened, hopenedOrder⟩ :=
    openContext_table (failContext i .displaced (served s p)) i (f.key p) .collecting false
  have hframe := beginStore_frame (displacing s p i f) p i .free f
  have hopen := openContext_frame (failContext i .displaced (served s p)) i (f.key p) .collecting false
  refine ⟨beginStore p i .free f (displacing s p i f), ?_, ?_, ?_, fun j hj => ?_, ?_, fun w => ?_, ?_, ?_, fun j => ?_, ?_,
    displaced_port h hk, ?_⟩
  · rw [exec_frag h hkind, handleFrag_first ((served_lookup _).trans hfits.1), firstFragment_fits (served_fitsFirst hfits),
      if_pos (served_hasRoom.2 hroom), findWay_displaces hway (by simpa [served_limits] using hreclaim) hvictim]
    rfl
  · rw [beginStore_service]
    refine congrArg some (storeBegun_congr ?_ ?_)
    · simp [displacing, hpool]
    · simp [displacing, hdrain]
  · simp [displacing]
  · rw [hframe.1, displacing, hopened, if_neg hj, hothers j hj]
  · rw [hframe.1, displacing, hopened, if_pos rfl]
  · rw [hframe.2.1, displacing, hopenedOrder, hset]
    split
    · rw [hways, hset, if_pos rfl, horder, displaced_order hnb hna]
    · next hw => rw [hways, hset, if_neg hw]
  · simp [displacing, hreports]
  · simp [displacing, hpool]
  · simp [displacing, htimers]
  · have hall := (((accounts_served s p).trans haccounts).trans (Accounts.same (t := displacing s p i f)
      (fun q => by simp [displacing]) (by simp [displacing]))).trans (accounts_beginStore (p := p) (i := i) (prior := .free) (f := f))
    simpa [lowRaised, displacing, hpool] using hall
  · apply state_eq <;> simp [displacing, hdrain]
    exact timer_slots (by simp) (by simp) (by simp) (by simp)

end

end Sys2Proof.Machine
end

