-- ==== Sys2Proof/Proofs/TableCommands.lean ====
section
/-! SUPPORT. The claims of the table commands: what they answer and what they change (LookupAndReserve, PinAndCancel,
ReleaseRecord). -/

namespace Sys2Proof.Machine

open Sys2Proof.Safety

/-! ### Operands and results (Tables 10-5 and 10-6) -/

theorem opPortId_val {o : Vector Word 4} (h : o[0].toNat % 8 ≤ 3) : (opPortId o).val = o[0].toNat % 8 := by
  simp only [opPortId, opPort, Fin.val_ofNat, BitVec.extractLsb'_toNat, Nat.shiftRight_zero]
  omega

theorem opKey_of_names {o : Vector Word 4} {k : Key} (h : Names o k) : opKey o = k := by
  obtain ⟨hport, hstation, htag⟩ := h
  have hlt := k.port.isLt
  have hs : (opStation o).setWidth 8 = k.station := BitVec.eq_of_toNat_eq (by
    simp only [opStation, BitVec.toNat_setWidth, BitVec.extractLsb'_toNat, Nat.shiftRight_zero]
    omega)
  have ht : opTag o = k.tag := BitVec.eq_of_toNat_eq (by
    simp only [opTag, BitVec.extractLsb'_toNat, Nat.shiftRight_zero]
    omega)
  have hp : opPortId o = k.port := Fin.ext ((opPortId_val (by omega)).trans hport.symm)
  rw [opKey, hp, hs, ht]

theorem code_le (st : CtxState) : st.code ≤ 5 := by cases st <;> decide

/-- State code and pinned stand at places of their own (Table 10-6). -/
theorem statePinnedWord_eq (c : Context) : statePinnedWord c = shownState c := by
  unfold statePinnedWord shownState
  cases c.state <;> cases c.pinned <;> rfl

/-- A low byte beside a high byte. -/
theorem word_or_high {n : Nat} (a : Nat) (h : n < 256) : BitVec.ofNat 16 n ||| word (256 * a) = BitVec.ofNat 16 (n + 256 * a) := by
  refine BitVec.eq_of_toNat_eq ?_
  have hlow : n % 2 ^ 16 = n := by omega
  have hhigh : 256 * a % 2 ^ 16 = 2 ^ 8 * (a % 256) := by omega
  have hsum : (n + 256 * a) % 2 ^ 16 = 2 ^ 8 * (a % 256) + n := by omega
  rw [BitVec.toNat_or, word, BitVec.toNat_ofNat, BitVec.toNat_ofNat, BitVec.toNat_ofNat, hlow, hhigh, hsum,
    Nat.two_pow_add_eq_or_of_lt h, Nat.lor_comm]

theorem highestShown_eq (h : Option (Fin 64)) : highestShown h = match h with | some i => i.val | none => 0xFF := by
  cases h <;> rfl

/-- The results of LOOKUP and NEXT are the fields of the context at their places (R151). -/
theorem contextResults_eq {i : Slot} {c : Context} {k : Key} (hk : c.key = some k) : contextResults i c = shownContext i c k := by
  have hstate : statePinnedWord c ||| word (256 * c.attemptsLeft) =
      BitVec.ofNat 16 (c.state.code + (if c.pinned then 16 else 0) + 256 * c.attemptsLeft) := by
    have hcode := code_le c.state
    rw [statePinnedWord_eq, shownState, word_or_high]
    split <;> omega
  have hcount : c.count.getD 0 = match c.count with | some n => n | none => 0 := by cases c.count <;> rfl
  rw [contextResults, shownContext, hstate, hcount, highestShown_eq, hk]
  rfl

/-- The bitmap has the bit of each index of the list (R32). -/
theorem getLsbD_bitmapOf (l : List (Fin 64)) (i : Fin 64) : (bitmapOf l).getLsbD i.val = true ↔ i ∈ l := by
  induction l with
  | nil => simp [bitmapOf]
  | cons j l ih =>
    have hbit : (1#64 <<< j.val).getLsbD i.val = decide (i = j) := by
      have hi := i.isLt
      rw [BitVec.getLsbD_shiftLeft, BitVec.getLsbD_one, Bool.eq_iff_iff]
      simp only [Bool.and_eq_true, Bool.not_eq_true', decide_eq_true_iff, decide_eq_false_iff_not, Fin.ext_iff]
      omega
    rw [bitmapOf, List.foldr_cons, BitVec.getLsbD_or, hbit, List.mem_cons, ← ih, bitmapOf, Bool.or_eq_true,
      decide_eq_true_iff, or_comm]

theorem getLsbD_receivedBitmap (l : List FragEntry) (i : Fin 64) :
    (receivedBitmap l).getLsbD i.val = true ↔ ∃ e ∈ l, e.index = i := by
  rw [receivedBitmap, getLsbD_bitmapOf, List.mem_map]

/-! ### A command's claim taken and answered (R45, R147) -/

section
variable {s w : State} {f : InFlight} {k : Key} {i : Slot}

theorem exec_commandClaim (h : CommandNext s f) (hw : f.code.isWalk = false) :
    exec .commandClaim s = .next (commandWork f (s.setLastServed .command)) := by
  obtain ⟨hnext, hflight⟩ := h
  refine congrArg Host.Outcome.next ?_
  simp only [takeCommand, hnext, hflight, hw, if_pos]

theorem exec_walkVisit (h : CommandNext s f) (hw : f.code.isWalk = true) :
    exec .walkVisit s = .next (visitWork f (s.setLastServed .command)) := by
  obtain ⟨hnext, hflight⟩ := h
  refine congrArg Host.Outcome.next ?_
  simp only [takeCommand, hnext, hflight, hw, if_pos]

/-- The freeing of a context in the claim of a command, and the answer (R36, R147). -/
theorem freesAndAnswers_of (l : List Word) (hw : w = { s with ports := w.ports, table := { s.table with lastServed := .command } })
    (hports : ∀ q, (w.port q).counters = (s.port q).counters ∧ (w.port q).limits = (s.port q).limits) :
    FreesAndAnswers s (completeCommand .ok l (freeContext i w)) i l := by
  have hpart : ∀ {α : Type} (g : State → α),
      g w = g { s with ports := w.ports, table := { s.table with lastServed := .command } } := fun g => congrArg g hw
  obtain ⟨hctx, hothers, horder, hpool, htimers, htimer, hdrain⟩ := freed_after (s := s) (freeContext_freed w i)
    (fun j => hpart fun v => v.ctx j) (fun u => hpart fun v => v.order u) (fun j => hpart fun v => v.timers j)
    (hpart State.pool) (hpart State.timer) (hpart State.drain)
  obtain ⟨hcmd, haccounts⟩ := completeCommand_cmd (freeContext i w) .ok l
  have hsame : Accounts s (freeContext i w) [] 0 [] :=
    (Accounts.same (t := w) hports (hpart State.stats)).trans (accounts_freeContext w i)
  obtain ⟨hservice, hlast, hmem, -, -, -, -, hreports, hfreedCmd, -, hhost, hfree, hpending⟩ := freeContext_frame w i
  refine ⟨⟨hctx, hothers, horder, hpool, htimers, htimer, hdrain⟩, ?_, hsame.trans haccounts,
    ⟨hlast.trans (hpart fun v => v.table.lastServed), hservice.trans (hpart fun v => v.table.service)⟩,
    state_eq rfl rfl rfl (hmem.trans (hpart State.mem)) rfl (hreports.trans (hpart State.reports)) rfl rfl rfl
      (hhost.trans (hpart State.host)) (hfree.trans (hpart State.free)) (hpending.trans (hpart State.pending))⟩
  rw [hcmd, hfreedCmd, hpart State.cmd]
  rfl

theorem freesAndAnswers_served (l : List Word) :
    FreesAndAnswers s (completeCommand .ok l (freeContext i (s.setLastServed .command))) i l :=
  freesAndAnswers_of l rfl fun _ => ⟨rfl, rfl⟩

/-! ### LOOKUP and RESERVE (R150 to R154) -/

/-- Settles O48: the claim by what its lookup and its way search find, and the bitmap by induction on the list. -/
theorem lookupAndReserve : Obligations.LookupAndReserve := by
  refine ⟨fun s f k h hnames => ⟨fun hcode => ?_, fun hcode => ?_⟩, getLsbD_receivedBitmap⟩
  · have hexec : exec .commandClaim s = .next (claimLookup k (s.setLastServed .command)) := by
      rw [exec_commandClaim h (by rw [hcode]; rfl), commandWork, hcode, opKey_of_names hnames]
    have hlookup : (s.setLastServed .command).lookup k = s.lookup k := rfl
    refine ⟨fun i hi => ?_, fun hnone => ?_⟩
    · obtain ⟨-, -, hk⟩ := lookup_some hi
      rw [hexec, claimLookup, hlookup, hi]
      simp only [setLastServed_ctx, contextResults_eq hk]
      rfl
    · rw [hexec, claimLookup, hlookup, hnone]
      rfl
  · have hexec : exec .commandClaim s = .next (claimReserve k (f.operands[0].getLsbD 8) (s.setLastServed .command)) := by
      rw [exec_commandClaim h (by rw [hcode]; rfl), commandWork, hcode, opKey_of_names hnames]
      rfl
    have hlookup : (s.setLastServed .command).lookup k = s.lookup k := rfl
    have hway : (s.setLastServed .command).freeWay (setOf k) = s.freeWay (setOf k) := rfl
    refine ⟨fun i hi => ?_, fun hnone hfull => ?_, fun i hnone hset hfree hlowest => ?_⟩
    · rw [hexec, claimReserve, hlookup, hi]
      rfl
    · rw [hexec, claimReserve, hlookup, hnone]
      simp only [hway, (freeWay_none _).2 hfull]
      rfl
    · have hkept : (fun e : RecentEntry => !(e.station == k.station && e.tag == k.tag)) =
          fun e => decide ¬ (e.station = k.station ∧ e.tag = k.tag) := by
        funext e
        rw [Bool.eq_iff_iff]
        simp
      rw [hexec, claimReserve, hlookup, hnone]
      simp only [hway, (freeWay_some _).2 ⟨hset, hfree, hlowest⟩, forgetKey, openContext, hkept, hset]
      rfl

/-! ### PIN, UNPIN and CANCEL (R156, R157) -/

/-- A DONE or DRAINING context is none that PIN, UNPIN and CANCEL act on (R156, R157). -/
theorem unfinished_false {c : Context} (h : c.state = .done ∨ c.state = .draining) : c.unfinished = false := by
  rcases h with h | h <;> simp [Context.unfinished, Context.gathering, h]

theorem setPinned_on (v : Bool) (hi : s.lookup k = some i) (hu : (s.ctx i).unfinished = true) :
    setPinned v k s = completeCommand .ok [word i.val, shownState { s.ctx i with pinned := v },
      if (s.ctx i).pinned then 1#16 else 0#16] (s.setCtx i { s.ctx i with pinned := v }) := by
  have hflag : flagAt (s.ctx i).pinned 0 = if (s.ctx i).pinned then 1#16 else 0#16 := by cases (s.ctx i).pinned <;> rfl
  simp only [setPinned, hi, hu, if_pos, statePinnedWord_eq, hflag]

theorem setPinned_none (v : Bool) (hnone : s.lookup k = none) : setPinned v k s = completeCommand .notFound [] s := by
  simp only [setPinned, hnone]

theorem setPinned_wrong (v : Bool) (hi : s.lookup k = some i) (hu : (s.ctx i).unfinished = false) :
    setPinned v k s = wrongState i s := by
  simp [setPinned, hi, hu]

theorem claimCancel_none (hnone : s.lookup k = none) : claimCancel k s = completeCommand .notFound [] s := by
  simp only [claimCancel, hnone]

theorem claimCancel_wrong (hi : s.lookup k = some i) (hu : (s.ctx i).unfinished = false) : claimCancel k s = wrongState i s := by
  simp [claimCancel, hi, hu]

theorem claimCancel_on (hi : s.lookup k = some i) (hu : (s.ctx i).unfinished = true) : claimCancel k s =
    completeCommand .ok [word i.val, word (s.ctx i).heldSegs, word (s.ctx i).storedBytes] (freeContext i s) := by
  simp [claimCancel, hi, hu]

theorem wrongState_served (s : State) (i : Slot) : wrongState i (s.setLastServed .command) =
    answered s 4#4 [BitVec.ofNat 16 i.val, shownState (s.ctx i)] := by
  rw [wrongState, statePinnedWord_eq]
  rfl

/-- The work of PIN, UNPIN and CANCEL where it does not act. -/
theorem exec_pinOrCancel (h : CommandNext s f) (hnames : Names f.operands k)
    (hcode : f.code = .pin ∨ f.code = .unpin ∨ f.code = .cancel) :
    (s.lookup k = none → exec .commandClaim s = .next (answered s 1#4 [])) ∧
    ∀ i, s.lookup k = some i → (s.ctx i).state = .done ∨ (s.ctx i).state = .draining →
      exec .commandClaim s = .next (answered s 4#4 [BitVec.ofNat 16 i.val, shownState (s.ctx i)]) := by
  have hexec := exec_commandClaim h (by rcases hcode with e | e | e <;> rw [e] <;> rfl)
  rw [hexec, commandWork, opKey_of_names hnames]
  refine ⟨fun hnone => ?_, fun i hi hst => ?_⟩
  · have hnone' : (s.setLastServed .command).lookup k = none := hnone
    rcases hcode with e | e | e <;> simp only [e, setPinned_none _ hnone', claimCancel_none hnone'] <;> rfl
  · have hi' : (s.setLastServed .command).lookup k = some i := hi
    have hu : ((s.setLastServed .command).ctx i).unfinished = false := unfinished_false hst
    rcases hcode with e | e | e <;>
      simp only [e, setPinned_wrong _ hi' hu, claimCancel_wrong hi' hu, wrongState_served]

theorem exec_setPinned {v : Bool} (h : CommandNext s f) (hnames : Names f.operands k)
    (hcode : (f.code = .pin ∧ v = true) ∨ (f.code = .unpin ∧ v = false)) :
    exec .commandClaim s = .next (setPinned v k (s.setLastServed .command)) := by
  rcases hcode with ⟨e, rfl⟩ | ⟨e, rfl⟩ <;>
    rw [exec_commandClaim h (by rw [e]; rfl), commandWork, e, opKey_of_names hnames]

/-- Settles O49: no context, a finished one, and one that is acted on. -/
theorem pinAndCancel : Obligations.PinAndCancel := by
  refine fun s f k h hnames => ⟨exec_pinOrCancel h hnames, fun i v hi hu hcode => ?_, fun i hi hu hcode => ?_⟩
  · rw [exec_setPinned h hnames hcode, setPinned_on (s := s.setLastServed .command) v hi hu]
    rfl
  · obtain ⟨-, -, hdraining⟩ := unfinished_ne hu
    have hfrees := freesAndAnswers_served (s := s) (i := i)
      [BitVec.ofNat 16 i.val, BitVec.ofNat 16 (s.ctx i).heldSegs, BitVec.ofNat 16 (s.ctx i).storedBytes]
    refine ⟨_, ?_, hfrees, ?_, fun k' hk' => ?_⟩
    · rw [exec_commandClaim h (by rw [hcode]; rfl), commandWork, hcode, opKey_of_names hnames]
      exact congrArg Host.Outcome.next (claimCancel_on (s := s.setLastServed .command) hi hu)
    · rw [hfrees.freed.drain, if_neg hdraining]
    · exact portBecomes_freeContext (s := s.setLastServed .command) hk'

/-! ### RELEASE (R119, R140) -/

/-- The drain port that a freeing has unbound is unbound again to no effect. -/
theorem unbindDrain_freeContext (h : (s.ctx i).state = .draining) : unbindDrain (freeContext i s) = freeContext i s := by
  have hdrain := (freeContext_freed s i).drain
  rw [if_pos h] at hdrain
  have hunbound : (unbindDrain (freeContext i s)).drain = (freeContext i s).drain := by rw [unbindDrain_drain, hdrain]
  exact state_eq rfl rfl rfl rfl rfl rfl hunbound rfl rfl rfl rfl rfl

/-- The key of a released record is the newest of the list of its port (R119). -/
theorem portBecomes_rememberKey (n : Nat) : PortBecomes s (rememberKey k n (s.setLastServed .command)) k.port fun q => { q with
    recent := (if q.recent.length < 8 then q.recent else q.recent.drop 1) ++
      [{ station := k.station, tag := k.tag, count := n }] } := by
  have hsize : ∀ l : List RecentEntry, (if 8 ≤ l.length then l.drop 1 else l) = if l.length < 8 then l else l.drop 1 := fun l => by
    by_cases h : l.length < 8
    · rw [if_pos h, if_neg (by omega)]
    · rw [if_neg h, if_pos (by omega)]
  unfold rememberKey
  simp only [hsize]
  exact portBecomes_modifyPort (s.setLastServed .command) k.port _

/-- Settles O52: the freeing unbinds the drain port, since the released context is DRAINING. -/
theorem releaseRecord : Obligations.ReleaseRecord := by
  refine fun s f h hcode => ⟨fun hb => ?_, fun i k n hb hdraining hk hn => ?_⟩
  · have hb' : (s.setLastServed .command).drain.bound = none := hb
    rw [exec_commandClaim h (by rw [hcode]; rfl), commandWork, hcode]
    simp only [claimRelease, hb']
    rfl
  · have hb' : (s.setLastServed .command).drain.bound = some i := hb
    have hfrees := freesAndAnswers_of (s := s) (w := rememberKey k n (s.setLastServed .command)) (i := i)
      [BitVec.ofNat 16 i.val, BitVec.ofNat 16 (s.ctx i).heldSegs, BitVec.ofNat 16 (s.ctx i).storedBytes] rfl fun q => by simp
    have hunbound := unbindDrain_freeContext (s := rememberKey k n (s.setLastServed .command)) (i := i) (by simpa using hdraining)
    refine ⟨_, ?_, hfrees, ?_, ?_⟩
    · rw [exec_commandClaim h (by rw [hcode]; rfl), commandWork, hcode]
      simp only [claimRelease, hb', setLastServed_ctx, hk, hn, Option.getD_some, hunbound]
      rfl
    · rw [hfrees.freed.drain, if_pos hdraining]
    · have hfreed := portBecomes_freeContext (s := rememberKey k n (s.setLastServed .command)) (i := i) (k := k) (by simpa using hk)
      refine portBecomes_trans (portBecomes_rememberKey n) hfreed fun q q' e => ?_
      simp only [uncounted, Port.mk.injEq] at e ⊢
      simp [e]

end

end Sys2Proof.Machine
end

