-- ==== Sys2Proof/Proofs/WalkVisits.lean ====
section
/-! SUPPORT. The visits of NEXT and PURGE (WalkVisits). -/

namespace Sys2Proof.Machine

open Sys2Proof.Safety

section
variable {s : State} {f : InFlight} {k : Key}

/-! ### NEXT (R152) -/

theorem visitNext_found (h : (s.ctx f.slot).state ≠ .free) :
    visitNext f s = completeCommand .ok (contextResults f.slot (s.ctx f.slot)) s := if_pos h

theorem visitNext_last (h : (s.ctx f.slot).state = .free) (hlast : f.slot = 63) :
    visitNext f s = completeCommand .notFound [] s := by
  rw [visitNext, if_neg (not_not_intro h), if_pos hlast]

theorem visitNext_goesOn (h : (s.ctx f.slot).state = .free) (hlast : f.slot ≠ 63) : visitNext f s = nextVisit f 0 0 s := by
  rw [visitNext, if_neg (not_not_intro h), if_neg hlast]

/-! ### PURGE (R159, R160) -/

/-- What a PURGE frees (R159), with the fields of its operands at their places in Table 10-5. -/
theorem purged_iff {c : Context} {o : Vector Word 4} (ho : o[0].toNat % 8 ≤ 3) :
    c.purged (opPortId o) (opIncludePinned o) = true ↔ ∃ k, c.key = some k ∧ k.port.val = o[0].toNat % 8 ∧
      c.unfinished = true ∧ (c.pinned = false ∨ o[0].getLsbD 9 = true) := by
  have hport : ∀ k : Key, k.port = opPortId o ↔ k.port.val = o[0].toNat % 8 := fun k => by
    rw [Fin.ext_iff, opPortId_val ho]
  cases hk : c.key with
  | none => simp [Context.purged, hk]
  | some k => simp [Context.purged, hk, hport, opIncludePinned, and_assoc]

theorem visitPurge_stays (h : (s.ctx f.slot).purged (opPortId f.operands) (opIncludePinned f.operands) ≠ true) :
    visitPurge f s = if f.slot = 63 then completeCommand .ok [word f.freed, word f.segments] s
      else nextVisit f f.freed f.segments s := by
  simp only [visitPurge, if_neg h]

theorem visitPurge_frees (h : (s.ctx f.slot).purged (opPortId f.operands) (opIncludePinned f.operands) = true) :
    visitPurge f s = if f.slot = 63 then
        completeCommand .ok [word (f.freed + 1), word (f.segments + (s.ctx f.slot).heldSegs)] (freeContext f.slot s)
      else nextVisit f (f.freed + 1) (f.segments + (s.ctx f.slot).heldSegs) (freeContext f.slot s) := by
  simp only [visitPurge, if_pos h]

/-- A visit of PURGE that frees its context and goes on (R159). -/
theorem freesAndGoesOn (h : CommandNext s f) (freed segments : Nat) :
    Freed s (nextVisit f freed segments (freeContext f.slot (s.setLastServed .command))) f.slot ∧
    (nextVisit f freed segments (freeContext f.slot (s.setLastServed .command))).cmd = (visited s f freed segments).cmd ∧
    Accounts s (nextVisit f freed segments (freeContext f.slot (s.setLastServed .command))) [] 0 [] ∧
    (nextVisit f freed segments (freeContext f.slot (s.setLastServed .command))).table.lastServed = .command ∧
    (nextVisit f freed segments (freeContext f.slot (s.setLastServed .command))).table.service = none := by
  obtain ⟨hctx, hothers, horder, hpool, htimers, htimer, hdrain⟩ := freeContext_freed (s.setLastServed .command) f.slot
  have hsame : Accounts s (s.setLastServed .command) [] 0 [] := .same (fun _ => ⟨rfl, rfl⟩) rfl
  have hnext : Accounts (freeContext f.slot (s.setLastServed .command))
      (nextVisit f freed segments (freeContext f.slot (s.setLastServed .command))) [] 0 [] := .same (fun _ => ⟨rfl, rfl⟩) rfl
  refine ⟨⟨hctx, hothers, horder, hpool, htimers, htimer, hdrain⟩, ?_, (hsame.trans (accounts_freeContext _ _)).trans hnext,
    ?_, ?_⟩
  · simp [nextVisit, visited]
  · simp [nextVisit]
  · simpa [nextVisit] using service_of_next h.1

/-- Settles O53: each visit by whether its slot answers or is freed, and whether it is slot 63. -/
theorem walkVisits : Obligations.WalkVisits := by
  refine ⟨fun s f h hcode => ?_, fun s f h hcode ho => ?_⟩
  · have hexec : exec .walkVisit s = .next (visitNext f (s.setLastServed .command)) := by
      rw [exec_walkVisit h (by rw [hcode]; rfl), visitWork, hcode]
    refine ⟨fun k hst hk => ?_, fun hst hslot => ?_, fun hst hslot => ?_⟩
    · rw [hexec, visitNext_found (s := s.setLastServed .command) hst, setLastServed_ctx, contextResults_eq hk]
      rfl
    · rw [hexec, visitNext_goesOn (s := s.setLastServed .command) hst hslot]
      rfl
    · rw [hexec, visitNext_last (s := s.setLastServed .command) hst hslot]
      rfl
  · have hexec : exec .walkVisit s = .next (visitPurge f (s.setLastServed .command)) := by
      rw [exec_walkVisit h (by rw [hcode]; rfl), visitWork, hcode]
    have hpurged := purged_iff (c := s.ctx f.slot) ho
    refine ⟨fun hnot => ?_, fun k hk hport hu hpin => ?_⟩
    · have hstays := visitPurge_stays (s := s.setLastServed .command) (mt hpurged.1 hnot)
      refine ⟨fun hslot => ?_, fun hslot => ?_⟩
      · rw [hexec, hstays, if_neg hslot]
        rfl
      · rw [hexec, hstays, if_pos hslot]
        rfl
    · have hfrees := visitPurge_frees (s := s.setLastServed .command) (hpurged.2 ⟨k, hk, hport, hu, hpin⟩)
      have hheld := portBecomes_freeContext (s := s.setLastServed .command) (i := f.slot) hk
      refine ⟨fun hslot => ⟨_, by rw [hexec, hfrees, if_pos hslot]; rfl, freesAndAnswers_served _, hheld⟩, fun hslot => ?_⟩
      obtain ⟨hfreed, hcmd, haccounts, hlast, hservice⟩ := freesAndGoesOn h (f.freed + 1) (f.segments + (s.ctx f.slot).heldSegs)
      refine ⟨_, by rw [hexec, hfrees, if_neg hslot]; rfl, hfreed, hcmd, haccounts, hlast, hservice, hheld, ?_⟩
      apply state_eq <;> simp [nextVisit]

end

end Sys2Proof.Machine
end

