-- ==== Sys2Proof/Proofs/FrameDiscards.lean ====
section
/-! SUPPORT. The frame claims that store nothing: an ABORT (AbortOutcomes), and a FRAG that is a duplicate or late
(FragDiscarded). -/

namespace Sys2Proof.Machine

open Sys2Proof.Safety

section
variable {s : State} {p : PortId} {i : Slot} {f : StagedFrame} {rest : List StagedFrame}

/-! ### Frames that store nothing (R16, R53, R69, R70) -/

/-- The outcome of a frame that is discarded without a count. -/
theorem ignored_outcome (h : FrameNext s p f rest) :
    Accounts s (releaseFrame p (served s p)) [] 0 [] ∧
    PortBecomes s (releaseFrame p (served s p)) p (fun q => { q with staging := rest }) ∧
    releaseFrame p (served s p) = { s with
      ports := (releaseFrame p (served s p)).ports, stats := (releaseFrame p (served s p)).stats
      table := { s.table with lastServed := .receiver p } } := by
  refine ⟨(accounts_served s p).trans (accounts_releaseFrame _ p),
    portBecomes_claim h (g := id) ⟨rfl, fun _ _ => rfl⟩ (fun _ _ e => e) (fun _ _ => rfl), ?_⟩
  apply state_eq <;> simp

/-- A frame that is discarded and counted in FRAGS_DUPLICATE. -/
def duplicate (s : State) (p : PortId) : State := releaseFrame p (count p .fragsDuplicate (served s p))

theorem duplicate_outcome (h : FrameNext s p f rest) :
    Accounts s (duplicate s p) [(p, .fragsDuplicate)] 0 [] ∧
    PortBecomes s (duplicate s p) p (fun q => { q with staging := rest }) ∧
    duplicate s p = { s with
      ports := (duplicate s p).ports, stats := (duplicate s p).stats
      table := { s.table with lastServed := .receiver p } } := by
  have haccounts := ((accounts_served s p).trans (accounts_count _ p .fragsDuplicate)).trans (accounts_releaseFrame _ p)
  have hcounted : PortBecomes (served s p) (count p .fragsDuplicate (served s p)) p id :=
    ⟨uncounted_count .., fun _ _ => uncounted_count ..⟩
  refine ⟨haccounts, portBecomes_claim h hcounted (fun _ _ e => e) (fun _ _ => rfl), ?_⟩
  apply state_eq <;> simp [duplicate]

/-- The outcome of a frame whose context fails within its claim (R16, R37). -/
theorem failed_outcome (r : ReportStatus) (h : FrameNext s p f rest) (hi : s.lookup (f.key p) = some i) :
    FailsWith s (releaseFrame p (failContext i r (served s p))) i (f.key p) r [] ∧
    PortBecomes s (releaseFrame p (failContext i r (served s p))) p
      (fun q => { q with staging := rest, held := q.held - (s.ctx i).heldSegs }) ∧
    (releaseFrame p (failContext i r (served s p))).table.lastServed = .receiver p ∧
    (releaseFrame p (failContext i r (served s p))).table.service = none := by
  obtain ⟨-, -, hkey⟩ := lookup_some hi
  have hkey' : ((served s p).ctx i).key = some (f.key p) := by simpa using hkey
  have hbecomes : PortBecomes (served s p) (failContext i r (served s p)) p
      fun q => { q with held := q.held - ((served s p).ctx i).heldSegs } := portBecomes_failContext r hkey'
  rw [(served_frame s p).1] at hbecomes
  refine ⟨failsWith_claim (failContext_failsWith r hkey'),
    portBecomes_claim h hbecomes (fun q q' e => ?_) (fun _ _ => rfl), by simp, by simpa using service_of_next h.1⟩
  simp only [uncounted, Port.mk.injEq] at e ⊢
  simp [e]

/-! ### ABORT (R69, R70) -/

theorem exec_abort (h : FrameNext s p f rest) (hk : f.kind = 0x02#8) :
    exec .abort s = .next (releaseFrame p (abortEffect p f (served s p))) :=
  congrArg Host.Outcome.next (takeFrame_next handleAbort h hk)

theorem gathering_iff (c : Context) : c.gathering = true ↔ c.state = .collecting ∨ c.state = .repairing := by
  simp [Context.gathering]

theorem abortEffect_gathering (hi : s.lookup (f.key p) = some i) (hg : (s.ctx i).gathering = true) :
    abortEffect p f s = failContext i .aborted s := by
  rcases (gathering_iff _).1 hg with hst | hst <;> simp only [abortEffect, hi, hst]

theorem abortEffect_late (h : (∃ i, s.lookup (f.key p) = some i ∧
      ((s.ctx i).state = .done ∨ (s.ctx i).state = .draining)) ∨
    (s.lookup (f.key p) = none ∧ s.recentEntry (f.key p) ≠ none)) : abortEffect p f s = count p .fragsDuplicate s := by
  rcases h with ⟨i, hi, hst | hst⟩ | ⟨hnone, hrecent⟩
  · simp only [abortEffect, hi, hst]
  · simp only [abortEffect, hi, hst]
  · obtain ⟨e, he⟩ := Option.ne_none_iff_exists'.1 hrecent
    simp only [abortEffect, hnone, he]

theorem abortEffect_nothing (h : (∃ i, s.lookup (f.key p) = some i ∧ (s.ctx i).state = .expecting) ∨
    (s.lookup (f.key p) = none ∧ s.recentEntry (f.key p) = none)) : abortEffect p f s = s := by
  rcases h with ⟨i, hi, hst⟩ | ⟨hnone, hrecent⟩
  · simp only [abortEffect, hi, hst]
  · simp only [abortEffect, hnone, hrecent]

/-- Settles O19: the ABORT by what its lookup and its recent-completion list find, which the serving of the frame leaves. -/
theorem abortOutcomes : Obligations.AbortOutcomes := by
  refine fun s p f rest h hkind => ⟨fun i hi hg => ?_, fun hlate => ?_, fun hnothing => ?_⟩
  · refine ⟨_, exec_abort h hkind, ?_⟩
    rw [abortEffect_gathering ((served_lookup _).trans hi) (by simpa using hg)]
    exact failed_outcome .aborted h hi
  · refine ⟨_, exec_abort h hkind, ?_⟩
    rw [abortEffect_late (by simpa [served_lookup, served_recentEntry] using hlate)]
    exact duplicate_outcome h
  · refine ⟨_, exec_abort h hkind, ?_⟩
    rw [abortEffect_nothing (by simpa [served_lookup, served_recentEntry] using hnothing)]
    exact ignored_outcome h

/-! ### FRAG, duplicate or late (R53, R62, R68) -/

theorem fragOnContext_duplicate (hindex : (s.ctx i).hasIndex f.index = true) :
    fragOnContext p i f s = releaseFrame p (count p .fragsDuplicate s) := by
  simp only [fragOnContext, hindex, if_true]

theorem handleFrag_late {n : Nat} (h : (∃ i, s.lookup (f.key p) = some i ∧
      ((s.ctx i).state = .done ∨ (s.ctx i).state = .draining) ∧ (s.ctx i).count = some n) ∨
    (s.lookup (f.key p) = none ∧ ∃ e, s.recentEntry (f.key p) = some e ∧ e.count = n)) :
    handleFrag p f s = answerLate p (f.key p) n s := by
  rcases h with ⟨i, hi, hst | hst, hcount⟩ | ⟨hnone, e, he, hcount⟩
  · simp only [handleFrag, hi, hst, hcount, Option.getD_some]
  · simp only [handleFrag, hi, hst, hcount, Option.getD_some]
  · simp only [handleFrag_first hnone, firstFragment, he, hcount]

/-- The index byte of an ACCEPT is count - 1 with LAST set (R114). -/
theorem acceptReply_eq (k : Key) {n : Nat} (h1 : 1 ≤ n) (h64 : n ≤ 64) : acceptReply k n =
    { kind := .accept, station := k.station, tag := k.tag, index := BitVec.ofNat 8 (0x80 + (n - 1)), bitmap := none } := by
  have hindex : ∀ m : Fin 64, 0x80#8 ||| BitVec.ofNat 8 m.val = BitVec.ofNat 8 (0x80 + m.val) := by decide
  have hlt : n - 1 < 64 := by omega
  rw [acceptReply, Nat.mod_eq_of_lt hlt, hindex ⟨n - 1, hlt⟩]

/-- The outcome of a FRAG that is counted in FRAGS_DUPLICATE and answered with ACCEPT (R62, R68). -/
theorem late_outcome {n : Nat} (h : FrameNext s p f rest) (h1 : 1 ≤ n) (h64 : n ≤ 64) :
    Accounts s (answerLate p (f.key p) n (served s p)) ((p, .fragsDuplicate) :: offerCounts p (s.port p)) 0 [] ∧
    PortBecomes s (answerLate p (f.key p) n (served s p)) p (fun q => { q with
      staging := rest
      replies := offered q { kind := .accept, station := (f.key p).station, tag := (f.key p).tag
                             index := BitVec.ofNat 8 (0x80 + (n - 1)), bitmap := none } }) ∧
    answerLate p (f.key p) n (served s p) = { s with
      ports := (answerLate p (f.key p) n (served s p)).ports, stats := (answerLate p (f.key p) n (served s p)).stats
      table := { s.table with lastServed := .receiver p } } := by
  have hoffer : offerCounts p ((count p .fragsDuplicate (served s p)).port p) = offerCounts p (s.port p) := by
    rw [offerCounts_congr p (uncounted_count ..)]
    simp [offerCounts]
  have haccounts := (((accounts_served s p).trans (accounts_count _ p .fragsDuplicate)).trans
    (accounts_offerReply _ p (acceptReply (f.key p) n))).trans (accounts_releaseFrame _ p)
  have hcounted : PortBecomes (served s p) (count p .fragsDuplicate (served s p)) p id :=
    ⟨uncounted_count .., fun _ _ => uncounted_count ..⟩
  have hanswered : PortBecomes (served s p) (offerReply p (acceptReply (f.key p) n) (count p .fragsDuplicate (served s p))) p
      fun q => { q with replies := offered q (acceptReply (f.key p) n) } :=
    portBecomes_trans hcounted (portBecomes_offerReply ..) fun q q' => uncounted_offered _
  have hbecomes := portBecomes_claim h hanswered (fun q q' => uncounted_offered _) fun _ _ => rfl
  rw [hoffer] at haccounts
  refine ⟨by simpa [answerLate] using haccounts, by rw [← acceptReply_eq (f.key p) h1 h64]; exact hbecomes, ?_⟩
  apply state_eq <;> simp [answerLate]

/-- Settles O20: a duplicate index on an unfinished context, and the two late fragments, which share one answer. -/
theorem fragDiscarded : Obligations.FragDiscarded := by
  refine fun s p f rest h hkind => ⟨fun i hi hu hindex => ?_, fun n hlate h1 h64 => ?_⟩
  · refine ⟨_, exec_frag h hkind, ?_⟩
    rw [handleFrag_on ((served_lookup _).trans hi) (by simpa using hu), fragOnContext_duplicate (by simpa using hindex)]
    exact duplicate_outcome h
  · refine ⟨_, exec_frag h hkind, ?_⟩
    rw [handleFrag_late (by simpa [served_lookup, served_recentEntry] using hlate)]
    exact late_outcome h h1 h64

end

end Sys2Proof.Machine
end

