-- ==== Sys2Proof/Proofs/FillCopy.lean ====
section
/-! SUPPORT. The fill copy: the end of one segment (SegmentEnds), and a whole copy, which writes the payload into its segments
and no other byte (StoredPayloadReadsBack). -/

namespace Sys2Proof.Machine

open Sys2Proof.Safety

/-! ### The end of one segment (R58, R83, R84) -/

section
variable {s : State} {st : StoreClaim} {g g' : Seg}

theorem exec_fillSegmentEnd (hs : s.table.service = some st) :
    exec .fillSegmentEnd s = .next (if st.waiting then s else endSegment st s) := by
  simp only [exec, execFillSegmentEnd, hs]

theorem exec_fillSegmentEnd_waiting (hs : s.table.service = some st) (hw : st.waiting = true) :
    exec .fillSegmentEnd s = .next s := by
  rw [exec_fillSegmentEnd hs, if_pos hw]

theorem exec_fillSegmentEnd_idle (hs : s.table.service = none) : exec .fillSegmentEnd s = .next s := by
  simp only [exec, execFillSegmentEnd, hs]

/-- The claim of a store at its next segment, which waits for a read that needs its bank (R84). -/
def nextSegment (s : State) (st : StoreClaim) (g' : Seg) : StoreClaim :=
  { st with current := st.current + 1, waiting := s.readNeeds.contains (bankOf g') }

/-- The state with its buffer memory and the claim in service replaced: what the end of a segment changes (R58, R83). -/
def goneOn (s : State) (m : Memory) (c : StoreClaim) : State :=
  { s with mem := m, table := { s.table with service := some c } }

theorem goneOn_frame (s : State) (m : Memory) (c : StoreClaim) :
    (goneOn s m c).table.service = some c ∧ (goneOn s m c).mem = m ∧ (goneOn s m c).drain = s.drain := ⟨rfl, rfl, rfl⟩

theorem goneOn_waiting (s : State) (m : Memory) (c : StoreClaim) (l : List Instr) :
    goneOn (waiting s l) m c = waiting (goneOn s m c) l := rfl

theorem nextSegment_waiting (s : State) (st : StoreClaim) (g' : Seg) (l : List Instr) :
    nextSegment (waiting s l) st g' = nextSegment s st g' := rfl

theorem withMem_readNeeds (s : State) (m : Memory) : (withMem s m).readNeeds = s.readNeeds := rfl

theorem withMem_setService (s : State) (m : Memory) (c : StoreClaim) : (withMem s m).setService (some c) = goneOn s m c := rfl

theorem segmentWritten_eq (hg : st.segs[st.current]? = some g) :
    segmentWritten s st = withMem s (writeSegment st.payload st.current g s.mem) := by
  simp only [segmentWritten, hg]

theorem exec_nextSegment (hs : s.table.service = some st) (hw : st.waiting = false) (hg : st.segs[st.current]? = some g)
    (hg' : st.segs[st.current + 1]? = some g') : exec .fillSegmentEnd s =
      .next (goneOn s (writeSegment st.payload st.current g s.mem) (nextSegment s st g')) := by
  rw [exec_fillSegmentEnd hs, if_neg (by simp [hw]), endSegment_eq, hg', segmentWritten_eq hg]
  simp only [State.fillBlocked, withMem_readNeeds, withMem_setService, nextSegment]

end

/-- Settles O25: the engine writes, waits, or stores nothing. -/
theorem segmentEnds : Obligations.SegmentEnds :=
  ⟨fun _ _ _ _ hs hw hg hg' => exec_nextSegment hs hw hg hg', fun _ _ => exec_fillSegmentEnd_waiting,
    fun _ => exec_fillSegmentEnd_idle⟩

/-! ### Segments written in a row (R58) -/

/-- Buffer memory after segments `k`, `k + 1`, … of a payload were written into the segments of a list. -/
def writeSegments (payload : List Byte) : Nat → List Seg → Memory → Memory
  | _, [], m => m
  | k, g :: rest, m => writeSegments payload (k + 1) rest (writeSegment payload k g m)

theorem readByte_writeSegments_outside (payload : List Byte) {x : Nat} (l : List Seg) : ∀ (k : Nat) (m : Memory),
    (∀ g ∈ l, x < g.val * 32 ∨ g.val * 32 + 32 ≤ x) → readByte (writeSegments payload k l m) x = readByte m x := by
  induction l with
  | nil => intros; rfl
  | cons g rest ih =>
    intro k m hx
    obtain ⟨hg, hrest⟩ := List.forall_mem_cons.1 hx
    rw [writeSegments, ih _ _ hrest, readByte_writeSegment, if_neg (by omega)]

/-- A byte of a segment is not written again by the segments behind it, as they are others. -/
theorem readByte_writeSegments_inside (payload : List Byte) {g : Seg} {o : Nat} (ho : o < 32) (l : List Seg) :
    ∀ (k j : Nat) (m : Memory), l.Nodup → l[j]? = some g →
      readByte (writeSegments payload k l m) (g.val * 32 + o) = some (payload.getD (32 * (k + j) + o) 0#8) := by
  induction l with
  | nil => intro k j m _ hj; simp at hj
  | cons h rest ih =>
    intro k j m hnodup hj
    obtain ⟨hnotMem, hrest⟩ := List.nodup_cons.1 hnodup
    cases j with
    | zero =>
      obtain rfl : h = g := by simpa using hj
      have houtside : ∀ g' ∈ rest, h.val * 32 + o < g'.val * 32 ∨ g'.val * 32 + 32 ≤ h.val * 32 + o := fun g' hg' => by
        have hne : h.val ≠ g'.val := fun e => hnotMem (Fin.ext e ▸ hg')
        omega
      rw [writeSegments, readByte_writeSegments_outside payload rest _ _ houtside, readByte_writeSegment,
        if_pos (by omega), Nat.add_sub_cancel_left, Nat.add_zero]
    | succ j =>
      rw [writeSegments, ih (k + 1) j _ hrest (by simpa using hj), Nat.add_right_comm, Nat.add_assoc k j 1]

/-! ### A whole copy (R56, R58, R83) -/

theorem finished_pending (s : State) (st : StoreClaim) : (finished s st).pending = s.pending := by
  unfold finished completeIfFull
  split
  · split <;> simp
  · simp

/-- The segment ends of a store from its current segment on: one for each segment that is left (R83). -/
theorem run_segmentEnds (rest : List Seg) : ∀ (s : State) (st : StoreClaim) (g : Seg), s.table.service = some st →
    st.waiting = false → s.drain.held = none → st.segs.drop st.current = g :: rest →
    ∃ t, Host.Core.run core (rest.length + 1) (waiting s (List.replicate (rest.length + 1) .fillSegmentEnd)) = .next t ∧
      t.table.service = none ∧ t.pending = [] ∧ t.mem = writeSegments st.payload st.current (g :: rest) s.mem := by
  induction rest with
  | nil =>
    intro s st g hs hw _ hdrop
    have hg : st.segs[st.current]? = some g := by rw [← List.head?_drop, hdrop]; rfl
    have hlast : st.segs[st.current + 1]? = none := by rw [← List.head?_drop, ← List.tail_drop, hdrop]; rfl
    have hexec := exec_lastSegment (s := waiting s []) hs hw hg hlast
    refine ⟨releaseFrame st.port (finished (withMem (waiting s []) (writeSegment st.payload st.current g s.mem)) st),
      run_waiting 0 hexec, by simp, ?_, by simp [writeSegments]⟩
    simp [finished_pending, waiting]
  | cons g' rest ih =>
    intro s st g hs hw hheld hdrop
    have hg : st.segs[st.current]? = some g := by rw [← List.head?_drop, hdrop]; rfl
    have hdrop' : st.segs.drop (st.current + 1) = g' :: rest := by rw [← List.tail_drop, hdrop]; rfl
    have hg' : st.segs[st.current + 1]? = some g' := by rw [← List.head?_drop, hdrop']; rfl
    have hnotWaiting : (nextSegment s st g').waiting = false := by simp [nextSegment, State.readNeeds, hheld]
    have hexec := exec_nextSegment (s := waiting s (List.replicate (rest.length + 1) .fillSegmentEnd)) hs hw hg hg'
    rw [goneOn_waiting, nextSegment_waiting] at hexec
    obtain ⟨hservice', hmem', hdrain'⟩ := goneOn_frame s (writeSegment st.payload st.current g s.mem) (nextSegment s st g')
    obtain ⟨t, hrun, hservice, hpending, hmem⟩ := ih _ _ g' hservice' hnotWaiting (by rw [hdrain', hheld]) hdrop'
    rw [hmem'] at hmem
    exact ⟨t, (run_waiting (rest.length + 1) hexec).trans hrun, hservice, hpending, hmem⟩

/-- Settles O27: byte k is the one at offset k mod 32 of segment floor(k / 32), which the later segments leave as it is. -/
theorem storedPayloadReadsBack : Obligations.StoredPayloadReadsBack := by
  intro s st hs hcurrent hw hheld hnodup hpayload hlength
  obtain ⟨g, rest, hsegs⟩ := List.exists_cons_of_length_pos (l := st.segs) (by omega)
  obtain ⟨t, hrun, hservice, hpending, hmem⟩ := run_segmentEnds rest s st g hs hw hheld (by rw [hcurrent, hsegs]; rfl)
  rw [hcurrent, ← hsegs] at hmem
  refine ⟨t, by rw [hsegs]; exact hrun, hservice, hpending, fun k g' hg' => ?_, fun x hx => ?_⟩
  · rw [hmem, readByte_writeSegments_inside st.payload (Nat.mod_lt k (by decide)) st.segs 0 (k / 32) s.mem hnodup hg',
      Nat.zero_add, Nat.div_add_mod]
  · rw [hmem, readByte_writeSegments_outside st.payload st.segs 0 s.mem hx]

end Sys2Proof.Machine
end

section
/-! SUPPORT. The drain port's reads (chapter 7): every byte of a bound record is there, so that no step stops (NoStepStops); a read
below the length, driven at once or held (DrainRead); and the grant or the end of a held read (HeldReadGrantedOrEnded). -/

namespace Sys2Proof.Machine

open Sys2Proof.Safety

/-! ### The bytes of a record (R74, R134) -/

/-- A position below the length of a fragment list lies in a segment of the list: the entries hold a segment for each 32 bytes
(R30, R134). -/
theorem locate_below {p : Nat} (l : List FragEntry) (hl : ∀ e ∈ l, e.segs.length = segsNeeded e.length)
    (hp : p < (l.map (·.length)).sum) : ∃ g o, locate l p = some (g, o) ∧ g ∈ l.flatMap (·.segs) ∧ o < 32 := by
  induction l generalizing p with
  | nil => simp at hp
  | cons e rest ih =>
    obtain ⟨he, hrest⟩ := List.forall_mem_cons.1 hl
    rw [List.map_cons, List.sum_cons] at hp
    rw [locate]
    split
    · next hhere =>
      have hsegs : p / 32 < e.segs.length := by rw [he, segsNeeded]; omega
      exact ⟨e.segs[p / 32], p % 32, by rw [List.getElem?_eq_getElem hsegs],
        List.mem_flatMap.2 ⟨e, List.mem_cons_self, List.getElem_mem hsegs⟩, Nat.mod_lt p (by decide)⟩
    · next hbeyond =>
      obtain ⟨g, o, hloc, hg, ho⟩ := ih (p := p - e.length) hrest (by omega)
      exact ⟨g, o, hloc, by rw [List.flatMap_cons]; exact List.mem_append_right _ hg, ho⟩

section
variable {s : State} {i : Slot} {p : Nat}

/-- Every byte of the bound record was written (R74, R131, R134). -/
theorem recordByte_bound (hr : RecordLaw s) (hd : DrainLaw s) (hb : s.drain.bound = some i) (hp : p < s.drain.len) :
    ∃ g b, s.recordByte i p = some (g, b) := by
  have hc := hr.contexts i
  have hsegs : ∀ e ∈ (s.ctx i).frags, e.segs.length = segsNeeded e.length := fun e he => by
    obtain ⟨-, -, hlength⟩ := hc.entries e he
    exact hlength
  rw [hd.length i hb, hc.bytes] at hp
  obtain ⟨g, o, hloc, hg, ho⟩ := locate_below (s.ctx i).frags hsegs hp
  obtain ⟨b, hbyte⟩ := Option.ne_none_iff_exists'.1 (hd.stored i g hg o ho)
  exact ⟨g, b, by simp only [State.recordByte, hloc, hbyte, Option.map_some]⟩

/-! ### What a read finds (R84, R135) -/

theorem drainWord_last {g : Seg} {low : Byte} {len : Nat} (hlow : s.recordByte i p = some (g, low)) (hlast : ¬ p + 1 < len) :
    s.drainWord i p len = some (0#8 ++ low, [bankOf g]) := by
  simp only [State.drainWord, hlow, if_neg hlast]

theorem drainWord_pair {g g' : Seg} {low high : Byte} {len : Nat} (hlow : s.recordByte i p = some (g, low))
    (hp : p + 1 < len) (hhigh : s.recordByte i (p + 1) = some (g', high)) :
    s.drainWord i p len = some (high ++ low, if g' = g then [bankOf g] else [bankOf g, bankOf g']) := by
  simp only [State.drainWord, hlow, if_pos hp, hhigh]

theorem drainWord_bound (hr : RecordLaw s) (hd : DrainLaw s) (hb : s.drain.bound = some i) (hp : p < s.drain.len) :
    ∃ w needs, s.drainWord i p s.drain.len = some (w, needs) := by
  obtain ⟨g, low, hlow⟩ := recordByte_bound hr hd hb hp
  by_cases hnext : p + 1 < s.drain.len
  · obtain ⟨g', high, hhigh⟩ := recordByte_bound hr hd hb hnext
    exact ⟨_, _, drainWord_pair hlow hnext hhigh⟩
  · exact ⟨_, _, drainWord_last hlow hnext⟩

/-- A read of two bytes needs the banks of both segments (R84). -/
theorem mem_pairNeeds {g g' : Seg} {b : Bank} :
    b ∈ (if g' = g then [bankOf g] else [bankOf g, bankOf g']) ↔ b = bankOf g ∨ b = bankOf g' := by
  split
  · next he => rw [he, List.mem_singleton, or_self]
  · exact List.mem_pair

/-! ### The row DRAIN_DATA_READ (R84, R85, R135, R138) -/

theorem readRecord_driven {w : Word} {needs : List Bank} (hw : s.drainWord i s.drain.pos s.drain.len = some (w, needs))
    (hfree : ∀ b, s.fillBank = some b → b ∉ needs) : readRecord i s = .next (driveWord w s) := by
  unfold readRecord
  rw [hw]
  cases hfill : s.fillBank with
  | none => rfl
  | some b => simp [hfree b hfill]

theorem readRecord_held {w : Word} {needs : List Bank} {b : Bank}
    (hw : s.drainWord i s.drain.pos s.drain.len = some (w, needs)) (hfill : s.fillBank = some b) (hb : b ∈ needs) :
    readRecord i s = .next (holdRead b w needs s) := by
  unfold readRecord
  rw [hw, hfill]
  simp [hb]

/-- Held at its first bank, a read still needs all of them. -/
theorem holdRead_first (b : Bank) (w : Word) (rest : List Bank) (s : State) : holdRead b w (b :: rest) s =
    { s with drain := { s.drain with held := some { pos := s.drain.pos, data := w, needs := b :: rest } } } := by
  simp [holdRead, State.setDrain]

/-- Held at its second bank, a read has made its first access (R84, R85). -/
theorem holdRead_second {b b' : Bank} (hne : b ≠ b') (w : Word) (s : State) : holdRead b' w [b, b'] s =
    { s with drain := { s.drain with held := some { pos := s.drain.pos, data := w, needs := [b'] } } } := by
  simp [holdRead, State.setDrain, hne]

theorem exec_drainDataRead_bound (hready : s.host.phase = .ready) (hheld : s.drain.held = none) (hb : s.drain.bound = some i)
    (hp : s.drain.pos < s.drain.len) : exec .drainDataRead s = readRecord i s := by
  simp only [exec, execDrainDataRead, hheld, Option.isSome_none, initialising_ready hready, hb, if_neg (Nat.not_le.2 hp),
    Bool.false_eq_true, if_false]

theorem exec_drainDataRead_held (hheld : s.drain.held ≠ none) : exec .drainDataRead s = .next s := by
  simp only [exec, execDrainDataRead, Option.isSome_iff_ne_none.2 hheld, if_true]

/-! ### No step stops (R74, R134) -/

/-- A DRAIN_DATA read answers a next state, since every byte below the length was written. -/
theorem drainDataRead_answers (hr : RecordLaw s) (hd : DrainLaw s) : ∃ t, execDrainDataRead s = .next t := by
  unfold execDrainDataRead
  split
  · exact ⟨_, rfl⟩
  split
  · exact ⟨_, rfl⟩
  split
  · exact ⟨_, rfl⟩
  next i hb =>
  split
  · exact ⟨_, rfl⟩
  next hpos =>
  obtain ⟨w, needs, hw⟩ := drainWord_bound hr hd hb (Nat.not_le.1 hpos)
  by_cases hfree : ∀ b, s.fillBank = some b → b ∉ needs
  · exact ⟨_, readRecord_driven hw hfree⟩
  · push Not at hfree
    obtain ⟨b, hfill, hneeds⟩ := hfree
    exact ⟨_, readRecord_held hw hfill hneeds⟩

/-- Only a DRAIN_DATA read can stop: every other row answers a next state in every state (log 1). -/
theorem exec_answers (c : Instr) (hc : c ≠ .drainDataRead) : ∃ t, exec c s = .next t := by
  cases c with
  | drainDataRead => exact absurd rfl hc
  | walkStep | tick | replyEnd | guardEnd | returnMove | drainReadGrant | heldReadEnded | fillSegmentEnd =>
    simp only [exec, execWalkStep, execTick, execReplyEnd, execGuardEnd, execReturnMove, execDrainReadGrant,
      execHeldReadEnded, execFillSegmentEnd]
    split <;> exact ⟨_, rfl⟩
  | unreportedClear route => cases route <;> exact ⟨_, rfl⟩
  | _ => exact ⟨_, rfl⟩

end

/-- Settles O59: the one row that can stop is a DRAIN_DATA read, and it finds every byte of the bound record written. -/
theorem noStepStops : Obligations.NoStepStops := by
  intro s _ hr hd
  unfold step
  split
  · exact ⟨s, rfl⟩
  · next c rest _ =>
    have htaken : Stands s { s with pending := rest } := stands_same (by simp [SameTable]) (by simp [SameWork])
    by_cases hc : c = .drainDataRead
    · rw [hc]
      exact drainDataRead_answers (htaken.recordLaw hr) (htaken.drainLaw hd)
    · exact exec_answers c hc

/-- Settles O33: the fill engine's bank is the first one the read needs, the second, or neither. -/
theorem drainRead : Obligations.DrainRead := by
  intro s i g low hready hb hp hlow
  refine ⟨exec_drainDataRead_held, fun hheld hlast => ?_, fun g' high hheld hnext hhigh => ?_⟩
  · have hw := drainWord_last hlow (Nat.not_lt.2 hlast.ge)
    rw [exec_drainDataRead_bound hready hheld hb hp]
    refine ⟨fun hfree => ?_, fun hfill => ?_⟩
    · exact readRecord_driven hw fun b hfill hmem => hfree (List.mem_singleton.1 hmem ▸ hfill)
    · rw [readRecord_held hw hfill (List.mem_singleton_self _), holdRead_first]
  · have hw := drainWord_pair hlow hnext hhigh
    rw [exec_drainDataRead_bound hready hheld hb hp]
    refine ⟨fun hfree hfree' => ?_, fun hfill => ?_, fun hfree hfill => ?_⟩
    · refine readRecord_driven hw fun b hfill hmem => ?_
      rcases mem_pairNeeds.1 hmem with rfl | rfl
      · exact hfree hfill
      · exact hfree' hfill
    · rw [readRecord_held hw hfill (mem_pairNeeds.2 (.inl rfl))]
      split <;> rw [holdRead_first]
    · have hne : bankOf g ≠ bankOf g' := fun e => hfree (e ▸ hfill)
      have hseg : g' ≠ g := fun e => hne (e ▸ rfl)
      rw [readRecord_held hw hfill (mem_pairNeeds.2 (.inr rfl)), if_neg hseg, holdRead_second hne]

/-! ### A held read (R84, R85, R141, R177) -/

section
variable {s : State} {h : HeldRead}

/-- The grant waits exactly for the fill engine to give back a bank that the read still needs (R84, R85). -/
theorem readGranted_iff (hheld : s.drain.held = some h) : s.readGranted = true ↔ ∀ b, s.fillBank = some b → b ∉ h.needs := by
  unfold State.readGranted State.readNeeds
  rw [hheld]
  cases s.fillBank <;> simp

theorem exec_drainReadGrant (hheld : s.drain.held = some h) : exec .drainReadGrant s = .next (if s.readGranted then
    resumeFill (s.setDrain { s.drain with held := none, readData := h.data, pos := heldAdvance s.drain h }) else s) := by
  simp only [exec, execDrainReadGrant, hheld]

theorem exec_heldReadEnded (hheld : s.drain.held = some h) : exec .heldReadEnded s = .next (resumeFill
    { s.setDrain { s.drain with held := none, readData := Config.floatingBus s.free } with free := s.free + 1 }) := by
  simp only [exec, execHeldReadEnded, hheld]

theorem heldAdvance_eq (d : DrainPort) (h : HeldRead) : heldAdvance d h = if d.bound = none then d.pos else h.pos + 2 := by
  unfold heldAdvance
  cases d.bound <;> rfl

theorem exec_heldRead_none (hheld : s.drain.held = none) :
    exec .drainReadGrant s = .next s ∧ exec .heldReadEnded s = .next s := by
  simp only [exec, execDrainReadGrant, execHeldReadEnded, hheld, and_self]

end

/-- Settles O35: a row that ends the hold lets the fill engine go on, and a grant waits while the engine holds a bank in need. -/
theorem heldReadGrantedOrEnded : Obligations.HeldReadGrantedOrEnded := by
  refine ⟨fun s h hheld hfree => ?_, fun s h b hheld hfill hneeds => ⟨?_, ?_⟩, fun s h hheld => ?_,
    fun s hheld => exec_heldRead_none hheld⟩
  · rw [exec_drainReadGrant hheld, if_pos ((readGranted_iff hheld).2 hfree)]
    exact ⟨_, rfl, rfl, rfl, heldAdvance_eq s.drain h, rfl, rfl⟩
  · rw [State.wait, hheld]
    rfl
  · rw [exec_drainReadGrant hheld, if_neg fun hgranted => (readGranted_iff hheld).1 hgranted b hfill hneeds]
  · exact ⟨_, exec_heldReadEnded hheld, rfl, rfl, rfl, rfl⟩

end Sys2Proof.Machine
end

section
/-! SUPPORT. The segment pool and the resets (chapters 4 and 10): hardware reset and power-up (HardwareResetAndPowerUp), the
initialization walk step by step and whole (InitializationWalk), and the return engine with the conservation of the 1024 segments
(ReturnMoveAndConservation). -/

namespace Sys2Proof.Machine

open Sys2Proof.Safety

/-! ### Hardware reset and power-up (R74, R86, R89, R185) -/

/-- While RESET# is asserted IRQ# and every TXENn are deasserted, every TXDn is high and WAIT# is released (R185). -/
structure OutputsQuiet (t : State) : Prop where
  irq : t.irq = false
  wait : t.wait = false
  ports : ∀ p, t.txen p = false ∧ ∀ bit, t.txd p bit = true

theorem outputsQuiet_resetAssert (s : State) (m : Memory) : OutputsQuiet { resetAssert s with mem := m } where
  irq := by simp [State.irq, resetAssert, State.held]
  wait := rfl
  ports p := by
    have hport : ({ resetAssert s with mem := m } : State).port p = Port.reset := resetAssert_port s p
    simp only [State.txen, State.txd, hport, Port.reset, implies_true, and_self]

/-- Settles O4: each row is one of the two reset operations, or both in turn. -/
theorem hardwareResetAndPowerUp : Obligations.HardwareResetAndPowerUp := by
  refine ⟨fun s c hc => ?_, fun _ => rfl, fun s hphase => ?_, fun s hphase => ?_, fun _ => rfl, fun _ => rfl⟩
  · obtain ⟨m, hexec⟩ : ∃ m, exec c s = .next { resetAssert s with mem := m } := by
      rcases List.mem_pair.1 hc with rfl | rfl
      · exact ⟨s.mem, rfl⟩
      · exact ⟨[], rfl⟩
    obtain ⟨hirq, hwait, hports⟩ := outputsQuiet_resetAssert s m
    exact ⟨_, hexec, hirq, hwait, hports⟩
  · simp only [exec, execResetDeasserted, if_pos hphase, resetDeassert, dividerLoad]
  · simp only [exec, execResetDeasserted, if_neg hphase]

/-! ### The initialization walk (R86, R181, R183) -/

section
variable {s : State} {k : Fin 1024}

/-- The state in which the walk has ended with this free list: READY, SOFT_RESET 0, INIT_DONE (R86, R181, R183). -/
def walkEnded (s : State) (l : List Seg) : State :=
  { s with
    pool := { s.pool with freeList := l }
    host := { s.host with phase := .ready, softReset := false }
    stats := { s.stats with events := s.stats.events ||| 0x020#9 } }

/-- The state in which the walk stands at step `k` with this free list (R86). -/
def walkAt (s : State) (k : Fin 1024) (l : List Seg) : State :=
  { s with pool := { s.pool with freeList := l }, host := { s.host with phase := .walking k } }

theorem walkAt_self (hk : s.host.phase = .walking k) : walkAt s k s.pool.freeList = s := by
  unfold walkAt
  rw [← hk]

theorem exec_walkStep (hk : s.host.phase = .walking k) : exec .walkStep s = .next (if k = 1023 then
    walkEnded s (s.pool.freeList ++ [k]) else walkAt s (k + 1) (s.pool.freeList ++ [k])) := by
  simp only [exec, execWalkStep, hk, walkStep]
  split <;> rfl

theorem exec_walkStep_outside (h : s.host.phase = .ready ∨ s.host.phase = .resetAsserted) : exec .walkStep s = .next s := by
  rcases h with h | h <;> simp only [exec, execWalkStep, h]

/-- Segment `k` behind the segments below it. -/
theorem take_finRange_succ (k : Fin 1024) :
    (List.finRange 1024).take k.val ++ [k] = (List.finRange 1024).take (k.val + 1) := by
  rw [List.take_add_one, List.getElem?_eq_getElem (by simp), List.getElem_finRange]
  rfl

/-- The state in which `k` steps of the walk have ended, with these commands waiting (R86). -/
def walked (s : State) (k : Fin 1024) (l : List Instr) : State := waiting (walkAt s k ((List.finRange 1024).take k.val)) l

theorem exec_walkStep_at (s : State) (k : Fin 1024) (free : List Seg) (l : List Instr) :
    exec .walkStep (waiting (walkAt s k free) l) =
      .next (waiting (if k = 1023 then walkEnded s (free ++ [k]) else walkAt s (k + 1) (free ++ [k])) l) := by
  rw [exec_walkStep (k := k) rfl]
  split <;> rfl

theorem exec_walkStep_last (s : State) (l : List Instr) : exec .walkStep (walked s 1023 l) =
    .next (waiting (walkEnded s (List.finRange 1024)) l) := by
  rw [walked, exec_walkStep_at, if_pos rfl, take_finRange_succ, List.take_of_length_le (by simp)]

theorem val_nextStep (hlast : k ≠ 1023) : (k + 1).val = k.val + 1 := by
  have hne : k.val ≠ 1023 := fun e => hlast (Fin.ext e)
  exact Fin.val_add_one_of_lt' (by omega)

theorem exec_walkStep_next (hlast : k ≠ 1023) (l : List Instr) : exec .walkStep (walked s k l) =
    .next (walked s (k + 1) l) := by
  rw [walked, exec_walkStep_at, if_neg hlast, take_finRange_succ, ← val_nextStep hlast, walked]

/-- The steps that are left end the walk with every segment in order. -/
theorem run_walkSteps (n : Nat) : ∀ k : Fin 1024, k.val + n = 1024 →
    Host.Core.run core n (walked s k (List.replicate n .walkStep)) = .next (waiting (walkEnded s (List.finRange 1024)) []) := by
  induction n with
  | zero => intro k hk; omega
  | succ n ih =>
    intro k hk
    by_cases hlast : k = 1023
    · obtain rfl : n = 0 := by
        have hval : k.val = 1023 := congrArg Fin.val hlast
        omega
      rw [hlast]
      exact run_waiting 0 (exec_walkStep_last s [])
    · exact (run_waiting n (exec_walkStep_next hlast _)).trans (ih (k + 1) (by rw [val_nextStep hlast]; omega))

end

/-- Settles O6: the run is by induction on the steps that are left. -/
theorem initializationWalk : Obligations.InitializationWalk := by
  refine ⟨fun s k hk => exec_walkStep hk, fun s => exec_walkStep_outside, fun s hk hempty => ?_⟩
  have hstart : walked s 0 (List.replicate 1024 .walkStep) = waiting s (List.replicate 1024 .walkStep) := by
    rw [walked, Fin.val_zero, List.take_zero, ← hempty, walkAt_self hk]
  rw [← hstart, run_walkSteps (s := s) 1024 0 rfl, waiting, walkEnded]

/-! ### The return engine and the conservation of segments (R75, R79) -/

section
variable {s : State}

theorem exec_returnMove {g : Seg} {rest : List Seg} (hb : s.pool.backlog = g :: rest) : exec .returnMove s =
    .next { s with pool := { s.pool with freeList := s.pool.freeList ++ [g], backlog := rest } } := by
  simp only [exec, execReturnMove, hb]

theorem exec_returnMove_idle (hb : s.pool.backlog = []) : exec .returnMove s = .next s := by
  simp only [exec, execReturnMove, hb]

/-- A context's segments are counted in PORT_HELD of exactly one port (R80). -/
theorem sum_heldBy {c : Context} (hc : ContextFits c) : ∑ p, heldBy p c = (contextSegs c).length := by
  cases hk : c.key with
  | none =>
    rw [hc.free (by_contra fun hne => hc.key hne hk)]
    simp
  | some k => simp [heldBy_some hk, hc.sums]

theorem length_heldSegments (s : State) :
    (heldSegments s).length = s.total (fun c => (contextSegs c).length) + (serviceSegs s).length := by
  rw [State.total, Fin.sum_univ_def, heldSegments, contexts_toList, List.length_append, List.length_flatMap, List.map_map]
  rfl

/-- With no claim in service, PORT_HELD of the four ports counts the segments that are held (R75, R80). -/
theorem sum_held (hs : TableLaw s) (hidle : s.table.service = none) : ∑ p, (s.port p).held = (heldSegments s).length := by
  have hport : ∀ p, (s.port p).held = ∑ i : Slot, heldBy p (s.ctx i) := fun p => by
    rw [hs.held, heldOn_eq, serviceHeld_none hidle, State.total, Nat.add_zero]
  calc ∑ p, (s.port p).held
      = ∑ i : Slot, ∑ p, heldBy p (s.ctx i) := by rw [Finset.sum_congr rfl fun p _ => hport p, Finset.sum_comm]
    _ = ∑ i : Slot, (contextSegs (s.ctx i)).length := Finset.sum_congr rfl fun i _ => sum_heldBy (tableLaw_fits hs i)
    _ = (heldSegments s).length := by rw [length_heldSegments, serviceSegs_none hidle, State.total, List.length_nil, Nat.add_zero]

/-- In READY every segment is free, on its way back, or held (R75). -/
theorem segments_conserved (hs : TableLaw s) (hready : s.host.phase = .ready) :
    s.poolFree + s.poolBacklog + (heldSegments s).length = 1024 := by
  have hplaces := hs.places
  simp only [placesOk, hready] at hplaces
  simpa [State.poolFree, State.poolBacklog, Nat.add_assoc] using hplaces.length_eq

end

/-- Settles O31: the conservation counts each segment where the table law places it. -/
theorem returnMoveAndConservation : Obligations.ReturnMoveAndConservation := by
  refine ⟨fun s g rest => exec_returnMove, fun s => exec_returnMove_idle, fun s hs hready hidle => ?_⟩
  rw [← segments_conserved hs hready, ← sum_held hs hidle, Fin.sum_univ_four]

end Sys2Proof.Machine
end

section
/-! SUPPORT. The timer unit and the repair protocol (chapter 5): ticks and the end of a countdown (TickAndExpiry), the search for
the claim presented next, a repair step with attempts left (RepairStep), and the void and failing expiries (ExpiryOutcomes). -/

namespace Sys2Proof.Machine

open Sys2Proof.Safety

/-! ### The countdowns of a slot (R91, R92) -/

/-- One countdown of a slot with its mark (R91). -/
def SlotTimers.countdown (v : SlotTimers) (kind : CountdownKind) : Option Nat × Bool := (v.value kind, v.mark kind)

theorem countdown_ticked (v : SlotTimers) (kind : CountdownKind) :
    v.ticked.countdown kind = tickCountdown (v.countdown kind) := by cases kind <;> rfl

theorem tickCountdown_above {v : Nat} (m : Bool) (hv : 2 ≤ v) : tickCountdown (some v, m) = (some (v - 1), m) :=
  if_neg (by omega)

/-- A countdown loaded with `v` runs for `v` ticks (R92, R93). -/
theorem iterate_tickCountdown {v n : Nat} (m : Bool) (hv : 1 ≤ v) (hn : n ≤ v) :
    tickCountdown^[n] (some v, m) = if n < v then (some (v - n), m) else (none, true) := by
  induction n with
  | zero => rw [if_pos (by omega)]; rfl
  | succ n ih =>
    rw [Function.iterate_succ_apply', ih (by omega), if_pos (by omega)]
    by_cases hlast : n + 1 < v
    · rw [tickCountdown_above m (by omega), if_pos hlast, Nat.sub_sub]
    · obtain rfl : v = n + 1 := by omega
      rw [Nat.add_sub_cancel_left, if_neg hlast]
      rfl

/-! ### The presented claim (R95) -/

section
variable {s t : State}

/-- Presenting an expiry claim changes the presented claim alone. -/
theorem presentExpiry_eq (s : State) : presentExpiry s =
    { s with timer := { s.timer with claim := s.timer.claim.or (s.firstMarked.map claimAt) } } := by
  unfold presentExpiry
  split
  · next c hclaim =>
    have hkeep : s.timer.claim.or (s.firstMarked.map claimAt) = s.timer.claim := by rw [hclaim]; rfl
    rw [hkeep]
  · next hclaim => rw [hclaim, Option.none_or]

theorem presentExpiry_timers (s : State) (i : Slot) : (presentExpiry s).timers i = s.timers i := by simp

theorem firstMarked_congr (htimers : ∀ i, t.timers i = s.timers i) (hscan : t.timer.scan = s.timer.scan) :
    t.firstMarked = s.firstMarked := by
  have hmarked : t.markedAt = s.markedAt := funext fun pos => by simp only [State.markedAt, htimers]
  rw [State.firstMarked, hmarked, hscan, State.firstMarked]

@[simp] theorem firstMarked_presentExpiry (s : State) : (presentExpiry s).firstMarked = s.firstMarked :=
  firstMarked_congr (by simp) (by simp)

theorem positionOf_claimAt (pos : Fin 128) : positionOf (claimAt pos) = pos := by
  rcases Nat.mod_two_eq_zero_or_one pos.val with h | h <;> ext <;> simp only [positionOf, claimAt, h] <;> simp <;> omega

theorem markedAt_positionOf (s : State) (c : ExpiryClaim) : s.markedAt (positionOf c) = (s.timers c.slot).mark c.kind := by
  simp only [State.markedAt, claimAt_positionOf]

/-- The search finds the marked position that comes first from the scan position on (R95). -/
theorem firstMarked_some {pos : Fin 128} : s.firstMarked = some pos ↔
    s.markedAt pos = true ∧ ∀ q, s.markedAt q = true → pos - s.timer.scan ≤ q - s.timer.scan := by
  simp only [State.firstMarked, List.find?_eq_some_iff_getElem, List.getElem_map, List.getElem_finRange, List.length_map,
    List.length_finRange, Bool.not_eq_true']
  refine and_congr_right fun _ => ⟨?_, fun hfirst => ?_⟩
  · rintro ⟨d, hd, rfl, hbefore⟩ q hq
    by_contra hlt
    rw [add_sub_cancel_left, not_le] at hlt
    have hclear := hbefore (q - s.timer.scan).val hlt
    simp [hq] at hclear
  · refine ⟨(pos - s.timer.scan).val, (pos - s.timer.scan).isLt, by simp, fun j hj => ?_⟩
    by_contra hmarked
    have hle := hfirst _ (Bool.eq_true_of_not_eq_false hmarked)
    rw [add_sub_cancel_left] at hle
    exact absurd hj (not_lt.2 hle)

/-- The claim of the first marked position, by the claims themselves (R95). -/
theorem firstMarked_claim {d : ExpiryClaim} : s.firstMarked.map claimAt = some d ↔
    (s.timers d.slot).mark d.kind = true ∧ ∀ e : ExpiryClaim, (s.timers e.slot).mark e.kind = true →
      positionOf d - s.timer.scan ≤ positionOf e - s.timer.scan := by
  have hposition : s.firstMarked.map claimAt = some d ↔ s.firstMarked = some (positionOf d) := by
    rw [Option.map_eq_some_iff]
    constructor
    · rintro ⟨pos, hpos, rfl⟩
      rw [hpos, positionOf_claimAt]
    · exact fun h => ⟨_, h, claimAt_positionOf d⟩
  rw [hposition, firstMarked_some, markedAt_positionOf]
  refine and_congr_right fun _ => ⟨fun h e he => h _ (by rwa [markedAt_positionOf]), fun h q hq => ?_⟩
  rw [← positionOf_claimAt q] at hq ⊢
  exact h _ (by rwa [markedAt_positionOf] at hq)

/-! ### A tick (R89 to R93) -/

theorem exec_tick (hrun : s.timer.divider ≠ none) : exec .tick s = .next (tickState s) := by
  obtain ⟨d, hd⟩ := Option.ne_none_iff_exists'.1 hrun
  simp only [exec, execTick, hd]

theorem exec_tick_stopped (hstop : s.timer.divider = none) : exec .tick s = .next s := by
  simp only [exec, execTick, hstop]

theorem tickState_eq (s : State) : tickState s = presentExpiry (ticked s) := rfl

theorem tickState_countdown (s : State) (i : Slot) (kind : CountdownKind) :
    ((tickState s).timers i).countdown kind = tickCountdown ((s.timers i).countdown kind) := by
  rw [tickState_eq, presentExpiry_timers, ticked_timers, countdown_ticked]

theorem tickState_divider (s : State) : (tickState s).timer.divider = dividerLoad s.timer.tick := by
  rw [tickState_eq, presentExpiry_eq]
  rfl

theorem tickState_tick (s : State) : (tickState s).timer.tick = s.timer.tick := by
  rw [tickState_eq, presentExpiry_eq]
  rfl

theorem tickState_claim (s : State) :
    (tickState s).timer.claim = s.timer.claim.or ((tickState s).firstMarked.map claimAt) := by
  rw [tickState_eq, firstMarked_presentExpiry, presentExpiry_claim]
  rfl

theorem tickState_waiting (s : State) (l : List Instr) : tickState (waiting s l) = waiting (tickState s) l := by
  simp only [tickState_eq, presentExpiry_eq]
  rfl

/-- With the timebase running, and going on to run, every waiting tick occurs (R89, R90). -/
theorem run_ticks (n : Nat) (hrun : s.timer.divider ≠ none) (htick : s.timer.tick ≠ 0#16) :
    Host.Core.run core n (waiting s (List.replicate n .tick)) = .next (waiting (tickState^[n] s) []) := by
  induction n generalizing s with
  | zero => rfl
  | succ n ih =>
    have hnext : exec .tick (waiting s (List.replicate n .tick)) = .next (waiting (tickState s) (List.replicate n .tick)) := by
      rw [exec_tick (s := waiting s (List.replicate n .tick)) hrun, tickState_waiting]
    have hdivider : (tickState s).timer.divider ≠ none := by simp [tickState_divider, dividerLoad, htick]
    exact (run_waiting n hnext).trans (ih hdivider (by rwa [tickState_tick]))

theorem iterate_tickState_countdown (n : Nat) (s : State) (i : Slot) (kind : CountdownKind) :
    ((tickState^[n] s).timers i).countdown kind = tickCountdown^[n] ((s.timers i).countdown kind) :=
  Function.Semiconj.iterate_right (f := fun u : State => (u.timers i).countdown kind)
    (fun u => tickState_countdown u i kind) n s

/-! ### One countdown's part of a tick (R92, log 16) -/

theorem exec_countdownExpiry {i : Slot} {kind : CountdownKind} (hrun : s.timer.divider ≠ none)
    (hone : (s.timers i).value kind = some 1) : exec (.countdownExpiry i kind) s =
      .next (presentExpiry (s.setTimers i ((s.timers i).expire kind))) := by
  simp only [exec, execCountdownExpiry, if_pos (And.intro (Option.isSome_iff_ne_none.2 hrun) hone)]

theorem exec_countdownExpiry_outside {i : Slot} {kind : CountdownKind}
    (h : s.timer.divider = none ∨ (s.timers i).value kind ≠ some 1) : exec (.countdownExpiry i kind) s = .next s := by
  have hnot : ¬ (s.timer.divider.isSome ∧ (s.timers i).value kind = some 1) := by
    rintro ⟨hrun, hone⟩
    exact h.elim (fun hstop => by rw [hstop] at hrun; cases hrun) (absurd hone)
  simp only [exec, execCountdownExpiry, if_neg hnot]

end

/-- Settles O28: a tick and its part for one countdown, and the run by iterating the tick of a countdown. -/
theorem tickAndExpiry : Obligations.TickAndExpiry := by
  refine ⟨fun s hrun => ⟨_, exec_tick hrun, ?_, fun i kind => ?_, tickState_divider s, tickState_tick s, ?_, tickState_claim s⟩,
    fun s => exec_tick_stopped, fun s i kind hrun hone => ⟨_, exec_countdownExpiry hrun hone, ?_⟩,
    fun s i kind => exec_countdownExpiry_outside, fun s i kind v n hrun htick hv hpos hn => ?_⟩
  · rw [tickState_eq, presentExpiry_eq]
    rfl
  · have hcountdown := tickState_countdown s i kind
    simp only [SlotTimers.countdown] at hcountdown
    refine ⟨fun hv => ?_, fun v hv htwo => ?_, fun hv => ?_⟩
    · rw [hv] at hcountdown
      exact Prod.ext_iff.1 hcountdown
    · rw [hv, tickCountdown_above _ htwo] at hcountdown
      exact Prod.ext_iff.1 hcountdown
    · rw [hv] at hcountdown
      exact Prod.ext_iff.1 hcountdown
  · rw [tickState_eq, presentExpiry_eq]
    rfl
  · refine ⟨by rw [presentExpiry_eq]; rfl, ?_, fun j hj => ?_, by simp, by simp, by simp, by simp⟩
    · rw [presentExpiry_timers, setTimers_timers_same]
      cases kind <;> rfl
    · rw [presentExpiry_timers, setTimers_timers_ne _ _ _ _ hj]
  · have hcountdown := iterate_tickState_countdown n s i kind
    simp only [SlotTimers.countdown] at hcountdown
    rw [hv, iterate_tickCountdown _ hpos hn] at hcountdown
    refine ⟨_, run_ticks n hrun htick, fun hbelow => ?_, fun hend => ?_⟩
    · rw [if_pos hbelow] at hcountdown
      exact Prod.ext_iff.1 hcountdown
    · rw [if_neg (by omega)] at hcountdown
      exact Prod.ext_iff.1 hcountdown

/-! ### An expiry claim taken (R95, R96) -/

section
variable {s : State} {c : ExpiryClaim}

theorem expiryTaken_eq (s : State) (c : ExpiryClaim) : expiryTaken s c =
    presentExpiry { s.setLastServed .timer with timer := withdrawn s c } := by
  rw [presentExpiry_eq]
  rfl

@[simp] theorem expiryTaken_port (s : State) (c : ExpiryClaim) (q : PortId) : (expiryTaken s c).port q = s.port q := rfl

@[simp] theorem expiryTaken_ctx (s : State) (c : ExpiryClaim) (j : Slot) : (expiryTaken s c).ctx j = s.ctx j := rfl

@[simp] theorem expiryTaken_table (s : State) (c : ExpiryClaim) :
    (expiryTaken s c).table = { s.table with lastServed := .timer } := rfl

theorem expiryTaken_timers (s : State) (c : ExpiryClaim) (j : Slot) : (expiryTaken s c).timers j =
    if j = c.slot then (s.timers c.slot).clearMark c.kind else s.timers j :=
  setTimers_timers s c.slot j ((s.timers c.slot).clearMark c.kind)

/-- The claim's mark alone is cleared (R96). -/
theorem expiryTaken_mark (s : State) (c : ExpiryClaim) (i : Slot) (kind : CountdownKind) :
    ((expiryTaken s c).timers i).mark kind = true ↔ (s.timers i).mark kind = true ∧ (⟨i, kind⟩ : ExpiryClaim) ≠ c := by
  obtain ⟨j, k⟩ := c
  rw [expiryTaken_timers]
  by_cases hi : i = j
  · subst hi
    cases k <;> cases kind <;> simp [SlotTimers.clearMark, SlotTimers.mark]
  · simp [hi]

/-- No countdown changes (R96). -/
theorem expiryTaken_value (s : State) (c : ExpiryClaim) (i : Slot) (kind : CountdownKind) :
    ((expiryTaken s c).timers i).value kind = (s.timers i).value kind := by
  rw [expiryTaken_timers]
  split
  · next hi =>
    rw [hi]
    cases c.kind <;> cases kind <;> rfl
  · rfl

theorem accounts_expiryTaken (s : State) (c : ExpiryClaim) : Accounts s (expiryTaken s c) [] 0 [] :=
  .same (fun _ => ⟨rfl, rfl⟩) rfl

theorem portBecomes_expiryTaken {t : State} {p : PortId} {f : Port → Port} (h : PortBecomes (expiryTaken s c) t p f) :
    PortBecomes s t p f := by
  simpa only [PortBecomes, expiryTaken_port] using h

/-- The scan position moves past the claim (R95). -/
theorem expiryTaken_scan (s : State) (c : ExpiryClaim) : (expiryTaken s c).timer.scan.val =
    (2 * c.slot.val + (if c.kind = .repair then 0 else 1) + 1) % 128 := by
  show (positionOf c + 1).val = _
  rw [Fin.val_add]
  obtain ⟨i, kind⟩ := c
  cases kind <;> rfl

theorem expiryTaken_claim (s : State) (c : ExpiryClaim) :
    (expiryTaken s c).timer.claim = (expiryTaken s c).firstMarked.map claimAt := by
  rw [expiryTaken_eq, firstMarked_presentExpiry, presentExpiry_claim]
  rfl

/-- The next claim in its turn is taken, and acts if its mark is set (R95 to R97). -/
theorem takeExpiry_next {act : Slot → State → State} (h : ExpiryNext s c) : takeExpiry c.kind act s =
    if (s.timers c.slot).mark c.kind then act c.slot (expiryTaken s c) else expiryTaken s c := by
  obtain ⟨hnext, hclaim⟩ := h
  rw [expiryTaken_eq]
  simp only [takeExpiry, hnext, hclaim, if_pos]
  rfl

theorem exec_expiry_void (h : ExpiryNext s c) (hclear : (s.timers c.slot).mark c.kind = false) :
    exec (match c.kind with | .repair => .repairExpiry | .life => .lifeExpiry) s = .next (expiryTaken s c) := by
  have htaken : ∀ act, takeExpiry c.kind act s = expiryTaken s c := fun act => by
    rw [takeExpiry_next h, hclear, if_neg Bool.false_ne_true]
  obtain ⟨i, kind⟩ := c
  cases kind with
  | repair => exact congrArg Host.Outcome.next (htaken repairStep)
  | life => exact congrArg Host.Outcome.next (htaken lifeFailure)

end

/-! ### A repair step (R98, R99) -/

section
variable {s : State} {i : Slot} {k : Key}

theorem exec_repairExpiry (h : ExpiryNext s ⟨i, .repair⟩) (hmark : (s.timers i).repairMark = true) :
    exec .repairExpiry s = .next (repairStep i (expiryTaken s ⟨i, .repair⟩)) :=
  congrArg Host.Outcome.next ((takeExpiry_next h).trans (if_pos hmark))

theorem exec_lifeExpiry (h : ExpiryNext s ⟨i, .life⟩) (hmark : (s.timers i).lifeMark = true) :
    exec .lifeExpiry s = .next (lifeFailure i (expiryTaken s ⟨i, .life⟩)) :=
  congrArg Host.Outcome.next ((takeExpiry_next h).trans (if_pos hmark))

theorem repairStep_eq (hk : (s.ctx i).key = some k) (hg : (s.ctx i).gathering = true) : repairStep i s =
    if (s.ctx i).attemptsLeft = 0 then failContext i .timedOut s else spendAttempt i k s := by
  simp only [repairStep, hk, hg, if_true]

theorem lifeFailure_eq (hg : (s.ctx i).gathering = true) : lifeFailure i s = failContext i .expired s := if_pos hg

/-- The bitmap of REPEAT has a bit for each missing index (R99). -/
theorem getLsbD_missingBitmap (c : Context) (j : Fin 64) : (missingBitmap c).getLsbD j.val = true ↔ Missing c j := by
  rw [missingBitmap, getLsbD_bitmapOf, missing_iff]
  simp [Context.hasIndex, and_comm]

theorem eq_missingBitmap {c : Context} {b : BitVec 64} (h : ∀ j : Fin 64, b.getLsbD j.val = true ↔ Missing c j) :
    b = missingBitmap c :=
  BitVec.eq_of_getLsbD_eq fun j hj => Bool.eq_iff_iff.2 ((h ⟨j, hj⟩).trans (getLsbD_missingBitmap c ⟨j, hj⟩).symm)

/-- The REPEAT of R99, field by field. -/
theorem repeatReply_eq (k : Key) (c : Context) : repeatReply k c =
    { kind := .repeat, station := k.station, tag := k.tag, bitmap := some (missingBitmap c)
      index := BitVec.ofNat 8 ((match c.highest with | some h => h.val | none => 0) + (if c.count = none then 64 else 0)) } := by
  unfold repeatReply
  cases c.highest <;> cases c.count <;> rfl

theorem offerReply_repair (p q : PortId) (r : Reply) (s : State) : ((offerReply p r s).port q).repair = (s.port q).repair := by
  refine (congrArg Port.repair (uncounted_offerReply s p q r)).trans ?_
  split
  · next e => rw [e]; rfl
  · rfl

theorem spendAttempt_eq (i : Slot) (k : Key) (s : State) : spendAttempt i k s =
    loadRepair i (some (max (s.port k.port).repair.toNat 1))
      ((offerReply k.port (repeatReply k (s.ctx i)) s).setCtx i (attemptSpent (s.ctx i))) := by
  rw [← offerReply_repair k.port k.port (repeatReply k (s.ctx i)) s]
  rfl

theorem spendAttempt_ctx (i : Slot) (k : Key) (s : State) (j : Slot) :
    (spendAttempt i k s).ctx j = if j = i then attemptSpent (s.ctx i) else s.ctx j := by
  simp [spendAttempt_eq, setCtx_ctx]

theorem spendAttempt_timers (i : Slot) (k : Key) (s : State) (j : Slot) : (spendAttempt i k s).timers j =
    if j = i then { s.timers i with repair := some (max (s.port k.port).repair.toNat 1), repairMark := false }
    else s.timers j := by
  simp [spendAttempt_eq]

theorem accounts_spendAttempt (i : Slot) (k : Key) (s : State) :
    Accounts s (spendAttempt i k s) (offerCounts k.port (s.port k.port)) 0 [] := by
  rw [spendAttempt_eq]
  simpa using (accounts_offerReply s k.port (repeatReply k (s.ctx i))).trans
    (.same (t := loadRepair i _ (State.setCtx _ i (attemptSpent (s.ctx i)))) (fun _ => ⟨rfl, rfl⟩) rfl)

theorem portBecomes_spendAttempt (i : Slot) (k : Key) (s : State) : PortBecomes s (spendAttempt i k s) k.port
    fun q => { q with replies := offered q (repeatReply k (s.ctx i)) } := by
  rw [spendAttempt_eq]
  exact portBecomes_offerReply s k.port (repeatReply k (s.ctx i))

theorem spendAttempt_frame (i : Slot) (k : Key) (s : State) : spendAttempt i k s = { s with
    ports := (spendAttempt i k s).ports, stats := (spendAttempt i k s).stats
    table := { s.table with contexts := (spendAttempt i k s).table.contexts }
    timer := { s.timer with slots := (spendAttempt i k s).timer.slots } } := by
  rw [spendAttempt_eq]
  have htable : (offerReply k.port (repeatReply k (s.ctx i)) s).table = s.table := by simp
  apply state_eq
  case table =>
    rw [← htable]
    rfl
  case timer => exact timer_slots (by simp) (by simp) (by simp) (by simp)
  all_goals simp

end

/-- Settles O29: an attempt is spent in the state after the taking of the claim. (The name `repairStep` is the model's own.) -/
theorem repairStepOffersRepeat : Obligations.RepairStep := by
  intro s i k r b h hmark hg hk hleft hb hr
  obtain rfl := eq_missingBitmap hb
  have hreply : r = repeatReply k (s.ctx i) := hr.trans (repeatReply_eq k (s.ctx i)).symm
  have hexec : exec .repairExpiry s = .next (spendAttempt i k (expiryTaken s ⟨i, .repair⟩)) := by
    rw [exec_repairExpiry h hmark, repairStep_eq (k := k) (by simpa using hk) (by simpa using hg), if_neg]
    simpa using Nat.ne_of_gt hleft
  refine ⟨_, hexec, ?_, fun j hj => ⟨?_, ?_⟩, ?_, ?_, ?_, ?_⟩
  · rw [spendAttempt_ctx, if_pos rfl]
    rfl
  · rw [spendAttempt_ctx, if_neg hj, expiryTaken_ctx]
  · rw [spendAttempt_timers, if_neg hj, expiryTaken_timers, if_neg hj]
  · rw [spendAttempt_timers, if_pos rfl, expiryTaken_timers, if_pos rfl]
    rfl
  · exact (accounts_expiryTaken s _).trans (accounts_spendAttempt i k _)
  · rw [hreply]
    exact portBecomes_expiryTaken (portBecomes_spendAttempt i k _)
  · exact spendAttempt_frame i k (expiryTaken s ⟨i, .repair⟩)

/-! ### The expiries that fail a context (R97, R100, R102) -/

/-- A context failed by an expiry claim fails as it does in the state after the taking (R100, R102). -/
theorem failed_by_expiry {s : State} {c : ExpiryClaim} {k : Key} (r : ReportStatus) (h : ExpiryNext s c)
    (hk : (s.ctx c.slot).key = some k) :
    FailsWith (expiryTaken s c) (failContext c.slot r (expiryTaken s c)) c.slot k r [] ∧
    PortBecomes s (failContext c.slot r (expiryTaken s c)) k.port
      (fun q => { q with held := q.held - (s.ctx c.slot).heldSegs }) ∧
    (failContext c.slot r (expiryTaken s c)).table.lastServed = .timer ∧
    (failContext c.slot r (expiryTaken s c)).table.service = none := by
  have hkey : ((expiryTaken s c).ctx c.slot).key = some k := by simpa using hk
  have hbecomes := portBecomes_expiryTaken (portBecomes_failContext r hkey)
  rw [expiryTaken_ctx] at hbecomes
  exact ⟨failContext_failsWith r hkey, hbecomes, by simp, by simpa using service_of_next h.1⟩

/-- Settles O30: the void claim, the two failures, and what the taking itself does. -/
theorem expiryOutcomes : Obligations.ExpiryOutcomes := by
  refine ⟨fun s c => exec_expiry_void, fun s i k h hmark hg hk hleft => ⟨_, ?_, failed_by_expiry .timedOut h hk⟩,
    fun s i k h hmark hg hk => ⟨_, ?_, failed_by_expiry .expired h hk⟩, fun s c => ⟨?_, fun i kind => ?_, fun i kind hne => ?_, ?_,
      fun d => ?_⟩⟩
  · rw [exec_repairExpiry h hmark, repairStep_eq (k := k) (by simpa using hk) (by simpa using hg), if_pos (by simpa using hleft)]
  · rw [exec_lifeExpiry h hmark, lifeFailure_eq (by simpa using hg)]
  · simp [← Bool.not_eq_true, expiryTaken_mark]
  · exact expiryTaken_value s c i kind
  · rw [Bool.eq_iff_iff, expiryTaken_mark, and_iff_left hne]
  · exact expiryTaken_scan s c
  · rw [expiryTaken_claim, firstMarked_claim]
    simp only [expiryTaken_mark, and_assoc, and_imp]

end Sys2Proof.Machine
end

section
/-! SUPPORT. Reports and the record drain (chapter 7): where a record's bytes lie (RecordBytePlace), a bound record read whole
(WholeRecordRead), the writes of DRAIN_POS (DrainPosWrite), the lost failure entries (UnreportedCounter) and the claim of TAKE
(TakeReport). -/

namespace Sys2Proof.Machine

open Sys2Proof.Safety

/-! ### Where a record byte lies (R134) -/

theorem locate_here {e : FragEntry} {k : Nat} {g : Seg} (rest : List FragEntry) (hk : k < e.length)
    (hg : e.segs[k / 32]? = some g) : locate (e :: rest) k = some (g, k % 32) := by
  rw [locate, if_pos hk, hg]

/-- The entries before take up their length of the record. -/
theorem locate_append (before l : List FragEntry) (k : Nat) :
    locate (before ++ l) ((before.map (·.length)).sum + k) = locate l k := by
  induction before with
  | nil => rw [List.nil_append, List.map_nil, List.sum_nil, Nat.zero_add]
  | cons e before ih =>
    have hrest : e.length + (before.map (·.length)).sum + k - e.length = (before.map (·.length)).sum + k := by omega
    rw [List.cons_append, List.map_cons, List.sum_cons, locate, if_neg (by omega), hrest, ih]

theorem locate_beyond {l : List FragEntry} {p : Nat} (hp : (l.map (·.length)).sum ≤ p) : locate l p = none := by
  have h := locate_append l [] (p - (l.map (·.length)).sum)
  rwa [List.append_nil, Nat.add_sub_cancel' hp] at h

/-- Settles O32: the search passes the entries before, and stops at the entry or runs out of the list. -/
theorem recordBytePlace : Obligations.RecordBytePlace := by
  refine fun s i => ⟨fun before after e k g hl hk hg => ?_, fun p hp => ?_⟩
  · simp only [State.recordByte, hl, locate_append, locate_here after hk hg, segAddr]
  · simp only [State.recordByte, locate_beyond hp]

/-! ### A bound record read whole (R134 to R136) -/

/-- READY, with nothing in service and no read held, the drain port is bound at position 0 to the record of these bytes. -/
structure BoundTo (s : State) (i : Slot) (bytes : List Byte) : Prop where
  ready : s.host.phase = .ready
  bound : s.drain.bound = some i
  held : s.drain.held = none
  start : s.drain.pos = 0
  length : s.drain.len = bytes.length
  idle : s.table.service = none
  bytes : ∀ p b, bytes[p]? = some b → ∃ g, s.recordByte i p = some (g, b)

/-- What read number `n` from position 0 returns: bytes 2n and 2n + 1, with 0 above an odd end (R135). -/
def recordWord (bytes : List Byte) (n : Nat) : Word := bytes.getD (2 * n + 1) 0#8 ++ bytes.getD (2 * n) 0#8

/-- The word last driven after `n` reads from position 0. -/
def lastWord (d : DrainPort) (bytes : List Byte) : Nat → Word
  | 0 => d.readData
  | n + 1 => recordWord bytes n

/-- The state after `n` reads of the record from position 0. -/
def readOut (s : State) (bytes : List Byte) (n : Nat) : State :=
  { s with drain := { s.drain with pos := 2 * n, readData := lastWord s.drain bytes n } }

theorem readOut_zero {s : State} (bytes : List Byte) (hstart : s.drain.pos = 0) : readOut s bytes 0 = s := by
  rw [readOut, lastWord, Nat.mul_zero, ← hstart]

/-- A read below the length finds its two bytes, or the last byte of an odd record (R135). -/
theorem drainWord_record {s : State} {i : Slot} {bytes : List Byte}
    (hbytes : ∀ p b, bytes[p]? = some b → ∃ g, s.recordByte i p = some (g, b)) {n : Nat} (hn : 2 * n < bytes.length) :
    ∃ needs, s.drainWord i (2 * n) bytes.length = some (recordWord bytes n, needs) := by
  obtain ⟨g, hlow⟩ := hbytes (2 * n) _ (List.getElem?_eq_getElem hn)
  rw [recordWord, List.getD_eq_getElem _ _ hn]
  by_cases hnext : 2 * n + 1 < bytes.length
  · obtain ⟨g', hhigh⟩ := hbytes (2 * n + 1) _ (List.getElem?_eq_getElem hnext)
    rw [List.getD_eq_getElem _ _ hnext]
    exact ⟨_, drainWord_pair hlow hnext hhigh⟩
  · rw [List.getD_eq_default _ _ (Nat.not_lt.1 hnext)]
    exact ⟨_, drainWord_last hlow hnext⟩

/-- A read at or above the length, or with the port not bound, touches nothing and faults (R136). -/
theorem exec_drainDataRead_refused {s : State} (hready : s.host.phase = .ready) (hheld : s.drain.held = none)
    (hrefused : s.drain.bound = none ∨ s.drain.len ≤ s.drain.pos) :
    exec .drainDataRead s = .next (raise .drainFault (readZero s)) := by
  simp only [exec, execDrainDataRead, hheld, Option.isSome_none, initialising_ready hready, Bool.false_eq_true, if_false]
  cases hbound : s.drain.bound with
  | none => rfl
  | some i => exact if_pos (hrefused.resolve_left (by simp [hbound]))

section
variable {s : State} {i : Slot} {bytes : List Byte}

/-- Read number `n` of a bound record is driven at once, since the fill engine holds no bank (R135). -/
theorem exec_drainDataRead_next (h : BoundTo s i bytes) {n : Nat} (hn : 2 * n < bytes.length) (l : List Instr) :
    exec .drainDataRead (waiting (readOut s bytes n) l) = .next (waiting (readOut s bytes (n + 1)) l) := by
  obtain ⟨needs, hword⟩ := drainWord_record h.bytes hn
  have hlen : (waiting (readOut s bytes n) l).drain.len = bytes.length := h.length
  have hfill : (waiting (readOut s bytes n) l).fillBank = none := by
    unfold State.fillBank
    rw [show (waiting (readOut s bytes n) l).table.service = none from h.idle]
  rw [exec_drainDataRead_bound (s := waiting (readOut s bytes n) l) h.ready h.held h.bound (by rw [hlen]; exact hn),
    readRecord_driven (w := recordWord bytes n) (needs := needs) (by rw [hlen]; exact hword)
      (fun b hb => by rw [hfill] at hb; cases hb)]
  rfl

/-- The first `n` reads of a bound record, with `r` commands left to run. -/
theorem run_drainDataReads (h : BoundTo s i bytes) (n r : Nat) (l : List Instr) (hn : n ≤ (bytes.length + 1) / 2) :
    Host.Core.run core (n + r) (waiting s (List.replicate n .drainDataRead ++ l)) =
      Host.Core.run core r (waiting (readOut s bytes n) l) := by
  induction n generalizing r l with
  | zero => rw [Nat.zero_add, readOut_zero bytes h.start]; rfl
  | succ n ih =>
    rw [List.replicate_succ', List.append_assoc, Nat.add_right_comm, Nat.add_assoc]
    exact (ih (r + 1) (.drainDataRead :: l) (by omega)).trans
      (run_waiting r (exec_drainDataRead_next h (by omega) l))

end

/-- Settles O37: the reads up to the end by induction, and the read after them at or above the length. -/
theorem wholeRecordRead : Obligations.WholeRecordRead := by
  intro s i bytes hready hbound hheld hstart hlength hidle hbytes
  have h : BoundTo s i bytes := ⟨hready, hbound, hheld, hstart, hlength, hidle, hbytes⟩
  refine ⟨fun n hn => ?_, ?_⟩
  · have hrun := run_drainDataReads h (n + 1) 0 [] (by omega)
    rw [List.append_nil] at hrun
    exact ⟨_, hrun, rfl, rfl⟩
  · have hrun := run_drainDataReads h ((bytes.length + 1) / 2) 1 [.drainDataRead] (Nat.le_refl _)
    rw [← List.replicate_succ'] at hrun
    have hend := exec_drainDataRead_refused (s := waiting (readOut s bytes ((bytes.length + 1) / 2)) []) hready hheld
      (.inr (show s.drain.len ≤ 2 * ((bytes.length + 1) / 2) by omega))
    exact ⟨_, hrun.trans (run_waiting 0 hend), rfl, by rw [flagSet_raise, decide_eq_true rfl, Bool.or_true]⟩

/-! ### DRAIN_POS (R137) -/

/-- Settles O36, by the phase and the three rows of R137. -/
theorem drainPosWrite : Obligations.DrainPosWrite := by
  intro s v hbus
  have hexec : exec (.drainPosWrite v) s = .next (writeDrainPos v s) := congrArg Host.Outcome.next (if_pos hbus)
  rw [hexec]
  refine ⟨fun hready hbound hlt => ?_, fun hready hrefused => ?_, fun hinit => ?_⟩
  · have hset : writeDrainPos v s = s.setDrain { s.drain with pos := v.toNat / 2 * 2 } := by
      rw [writeDrainPos, initialising_ready hready, if_neg Bool.false_ne_true,
        if_pos ⟨Option.isSome_iff_ne_none.2 hbound, hlt⟩]
    rw [hset]
    exact ⟨_, rfl, rfl, fun heven => by simp only [setDrain_drain]; omega, fun hodd => by simp only [setDrain_drain]; omega⟩
  · have hfault : writeDrainPos v s = raise .drainFault s := by
      rw [writeDrainPos, initialising_ready hready, if_neg Bool.false_ne_true, if_neg]
      rintro ⟨hsome, hlt⟩
      rcases hrefused with hnone | hle
      · simp [hnone] at hsome
      · omega
    rw [hfault]
    exact ⟨_, rfl, rfl, accounts_raise s .drainFault⟩
  · rw [writeDrainPos, if_pos hinit]

/-! ### UNREPORTED (R127, R169, R170) -/

/-- An increment of UNREPORTED changes the statistics alone (R170). -/
theorem countUnreported_rest (s : State) : ∃ stats, countUnreported s = { s with stats := stats } := by
  unfold countUnreported
  split
  · exact ⟨_, rfl⟩
  split
  · exact ⟨_, rfl⟩
  · exact ⟨_, rfl⟩

/-- Settles O43: the entry lost or appended, the two clearing writes, and the order of a clear and an increment. -/
theorem unreportedCounter : Obligations.UnreportedCounter := by
  refine ⟨fun s e hfull => ?_, fun s e hroom => ?_, fun s v hbus => ⟨?_, fun hv => ?_⟩, fun s => ⟨rfl, rfl, rfl, rfl⟩⟩
  · have haccounts := accounts_appendFailure s e
    rw [if_neg (Nat.not_lt.2 hfull), if_neg (Nat.not_lt.2 hfull)] at haccounts
    refine ⟨haccounts, ?_⟩
    obtain ⟨stats, hcount⟩ := countUnreported_rest s
    rw [appendFailure, if_neg (Nat.not_lt.2 hfull), hcount]
    rfl
  · have haccounts := accounts_appendFailure s e
    rw [if_pos hroom, if_pos hroom] at haccounts
    refine ⟨haccounts, ?_⟩
    rw [appendFailure, if_pos hroom]
    rfl
  · exact congrArg Host.Outcome.next (hostWrite_free hbus .unreported v)
  · exact congrArg Host.Outcome.next ((hostWrite_free hbus .status v).trans (if_pos hv))

/-! ### TAKE (R128, R130, R131) -/

/-- The fields of an entry at their places in Table 10-7 (R125). -/
theorem reportWords_eq (e : ReportEntry) : reportWords e =
    [BitVec.ofNat 16 (e.status.code + 256 * (match e.slot with | some i => i.val | none => 0xFF)),
     BitVec.ofNat 16 (e.key.port.val + 256 * e.key.station.toNat),
     BitVec.ofNat 16 (e.key.tag.toNat + 256 * e.attemptsUsed),
     BitVec.ofNat 16 (match e.length with | some n => n | none => 0),
     BitVec.ofNat 16 ((match e.count with | some n => n | none => 0) +
       256 * (match e.highest with | some h => h.val | none => 0xFF)),
     BitVec.ofNat 16 (match e.fragments with | some n => n | none => 0)] := by
  rw [reportWords, highestShown_eq]
  cases e.length <;> cases e.count <;> cases e.fragments <;> rfl

/-- Settles O51: an empty queue, a success entry with the port bound or not, and a failure entry. -/
theorem takeReport : Obligations.TakeReport := by
  intro s f h hcode
  have hexec : exec .commandClaim s = .next (claimTake (s.setLastServed .command)) := by
    rw [exec_commandClaim h (by rw [hcode]; rfl), commandWork, hcode]
  have hreports : (s.setLastServed .command).reports = s.reports := rfl
  have hbound : (s.setLastServed .command).drain.bound = s.drain.bound := rfl
  rw [hexec]
  refine ⟨fun hnil => ?_, fun e rest hhead => ⟨fun i hslot hbusy => ?_, fun i n hslot hlength hidle => ?_, fun hslot => ?_,
    fun j => ?_, reportWords_eq e⟩⟩
  · simp only [claimTake, hreports, hnil]
    rfl
  · simp only [claimTake, hreports, hhead, hslot, hbound, Option.isSome_iff_ne_none.2 hbusy, if_true]
    rfl
  · simp only [claimTake, hreports, hhead, hslot, hbound, hidle, hlength, Option.isSome_none, Bool.false_eq_true, if_false,
      takeHead, bindDrain, Option.getD_some, setDrain_reports, setCtx_reports, List.drop_one, List.tail_cons]
    rfl
  · simp only [claimTake, hreports, hhead, hslot, takeHead, List.drop_one, List.tail_cons]
    rfl
  · simp only [readReg, State.reportHeadWord, hhead]

end Sys2Proof.Machine
end

section
/-! SUPPORT. What the statistics and event block records stands: every row but the writes of its own registers and the resets only
counts and raises (R164 to R172). One relation, `Accounted`, and one lemma of it for each operation; with it a DRAIN_DATA read that
touches no memory (DrainReadRefused). -/

namespace Sys2Proof.Machine

open Sys2Proof.Safety

/-! ### The relation -/

/-- From `s` to `t` counters were incremented and events raised, and nothing else of the statistics and event block changed. -/
def Accounted (s t : State) : Prop := ∃ l lost ev, Accounts s t l lost ev

theorem Accounted.refl (s : State) : Accounted s s := ⟨_, _, _, .refl s⟩

theorem Accounted.trans {s t u : State} : Accounted s t → Accounted t u → Accounted s u
  | ⟨_, _, _, h⟩, ⟨_, _, _, h'⟩ => ⟨_, _, _, h.trans h'⟩

/-- Neither the block nor a port's counters changed. -/
theorem Accounted.same {s t : State}
    (hp : ∀ p, (t.port p).counters = (s.port p).counters ∧ (t.port p).limits = (s.port p).limits) (hs : t.stats = s.stats) : Accounted s t := ⟨_, _, _, .same hp hs⟩

/-- An event flag that is set stays set (R171). -/
theorem Accounted.flagSet {s t : State} {e : Event} : Accounted s t → flagSet s e = true → flagSet t e = true
  | ⟨_, _, _, h⟩, hs => (h.events e).2 (.inl hs)

section
variable (s : State)

/-! ### Counters, events, reports and replies -/

theorem accounted_raise (e : Event) : Accounted s (raise e s) := ⟨_, _, _, accounts_raise s e⟩

theorem accounted_count (p : PortId) (c : Counter) : Accounted s (count p c s) := ⟨_, _, _, accounts_count s p c⟩

theorem accounted_modifyPort (p : PortId) (f : Port → Port) (h : ∀ q, (f q).counters = q.counters ∧ (f q).limits = q.limits) :
    Accounted s (s.modifyPort p f) := ⟨_, _, _, accounts_modifyPort s p f (h _).1 (h _).2⟩

theorem accounted_offerReply (p : PortId) (r : Reply) : Accounted s (offerReply p r s) := ⟨_, _, _, accounts_offerReply s p r⟩

theorem accounted_appendFailure (e : ReportEntry) : Accounted s (appendFailure e s) := ⟨_, _, _, accounts_appendFailure s e⟩

theorem accounted_freeContext (i : Slot) : Accounted s (freeContext i s) := ⟨_, _, _, accounts_freeContext s i⟩

theorem accounted_failContext (i : Slot) (st : ReportStatus) : Accounted s (failContext i st s) := by
  unfold failContext
  split
  · exact ((accounted_appendFailure s _).trans (accounted_count _ _ _)).trans (accounted_freeContext _ i)
  · exact .refl s

/-! ### Parts of the state outside the block -/

theorem accounted_setCtx (i : Slot) (c : Context) : Accounted s (s.setCtx i c) := .same (fun _ => ⟨rfl, rfl⟩) rfl

theorem accounted_setTimers (i : Slot) (v : SlotTimers) : Accounted s (s.setTimers i v) := .same (fun _ => ⟨rfl, rfl⟩) rfl

theorem accounted_setService (c : Option StoreClaim) : Accounted s (s.setService c) := .same (fun _ => ⟨rfl, rfl⟩) rfl

theorem accounted_setLastServed (c : Claimant) : Accounted s (s.setLastServed c) := .same (fun _ => ⟨rfl, rfl⟩) rfl

theorem accounted_setDrain (d : DrainPort) : Accounted s (s.setDrain d) := .same (fun _ => ⟨rfl, rfl⟩) rfl

theorem accounted_timer (v : TimerUnit) : Accounted s { s with timer := v } := .same (fun _ => ⟨rfl, rfl⟩) rfl

theorem accounted_cmd (c : CommandUnit) : Accounted s { s with cmd := c } := .same (fun _ => ⟨rfl, rfl⟩) rfl

/-- A change of the segment pool, buffer memory, the report queue, the host port or the count of free values. -/
theorem accounted_units {pool : Pool} {mem : Memory} {reports : List ReportEntry} {host : HostPort} {free : Nat} :
    Accounted s { s with pool := pool, mem := mem, reports := reports, host := host, free := free } :=
  .same (fun _ => ⟨rfl, rfl⟩) rfl

theorem accounted_openContext (i : Slot) (k : Key) (st : CtxState) (pinned : Bool) :
    Accounted s (openContext i k st pinned s) := .same (fun _ => ⟨rfl, rfl⟩) rfl

theorem accounted_forgetKey (k : Key) : Accounted s (forgetKey k s) := .same (fun _ => by simp) rfl

theorem accounted_rememberKey (k : Key) (n : Nat) : Accounted s (rememberKey k n s) := .same (fun _ => by simp) rfl

/-! ### Receivers (R2, R8 to R15, R20, R21) -/

theorem accounted_setRx (p : PortId) (r : Receiver) : Accounted s (setRx p r s) :=
  accounted_modifyPort s p _ fun _ => ⟨rfl, rfl⟩

theorem accounted_endFrame (p : PortId) (ch : CharPhase) : Accounted s (endFrame p ch s) :=
  ⟨_, _, _, (endFrame_frameEnds s p ch).accounts⟩

theorem accounted_dropFrame (p : PortId) (ch : CharPhase) : Accounted s (dropFrame p ch s) :=
  (accounted_count s p _).trans (accounted_endFrame _ p ch)

theorem accounted_judgeFrame (p : PortId) (v : Byte) : Accounted s (judgeFrame p v s) := by
  have hgood := accounted_count s p .framesGood
  unfold judgeFrame
  dsimp only
  split
  · exact accounted_count s p _
  split
  · exact hgood.trans (accounted_count _ p _)
  split
  · exact hgood.trans ⟨_, _, _, accounts_stageFrame _ p⟩
  · exact hgood.trans (accounted_count _ p _)

theorem accounted_takeGood_inFrame {p : PortId} (v : Byte) (h : (s.port p).rx.inFrame) : Accounted s (takeGood p v s) := by
  cases hp : (s.port p).rx.position with
  | awaitingLen =>
    by_cases hv : validLen v = true
    · rw [takeGood_len h hp hv]; exact accounted_setRx s p _
    · rw [takeGood_badLen h hp hv]; exact accounted_dropFrame s p _
  | bodyByte => rw [takeGood_body h hp]; exact accounted_setRx s p _
  | crcLow => rw [takeGood_crcLow h hp]; exact accounted_setRx s p _
  | crcHigh => rw [takeGood_crcHigh h hp]; exact (accounted_judgeFrame s p v).trans (accounted_endFrame _ p _)

theorem accounted_takeGood (p : PortId) (v : Byte) : Accounted s (takeGood p v s) := by
  cases hs : (s.port p).rx.state with
  | off => simp only [takeGood, hs]; exact .refl s
  | hunt =>
    by_cases hv : v = 0xC3#8
    · rw [hv, takeGood_sync hs]; exact accounted_setRx s p _
    · rw [takeGood_skipped hs hv]; exact accounted_setRx s p _
  | receiving | stopping => exact accounted_takeGood_inFrame s v (by simp [Receiver.inFrame, hs])

theorem accounted_takeBad (p : PortId) : Accounted s (takeBad p s) := by
  unfold takeBad
  dsimp only
  split
  · exact .refl s
  · exact accounted_setRx s p _
  · exact accounted_dropFrame s p _
  · exact accounted_dropFrame s p _

theorem accounted_takeCharacter (p : PortId) (c : Character) : Accounted s (takeCharacter p c s) := by
  unfold takeCharacter
  split
  · exact accounted_takeGood s p _
  · exact accounted_takeBad s p
  · exact .refl s

theorem accounted_sampleLine (p : PortId) (samples : List Bool) : Accounted s (sampleLine p samples s) := by
  unfold sampleLine
  dsimp only
  split
  · exact .refl s
  · exact accounted_setRx s p _
  · exact .refl s

/-! ### Transmitters (R18, R21) -/

theorem accounted_startReply (p : PortId) : Accounted s (startReply p s) := by
  unfold startReply
  split
  · exact accounted_modifyPort s p _ fun _ => ⟨rfl, rfl⟩
  · exact .refl s

theorem accounted_endReply (p : PortId) (x : Transmission) : Accounted s (endReply p x s) :=
  ⟨_, _, _, (endReply_spec s p x).1⟩

theorem accounted_endGuard (p : PortId) : Accounted s (endGuard p s) := by
  have hidle : Accounted s (s.modifyPort p fun q => { q with tx := none }) := accounted_modifyPort s p _ fun _ => ⟨rfl, rfl⟩
  unfold endGuard
  dsimp only
  split
  · exact hidle.trans (accounted_startReply _ p)
  split
  · exact hidle.trans (accounted_raise _ _)
  · exact hidle

/-! ### Frame claims (R50 to R72) -/

theorem accounted_releaseFrame (p : PortId) : Accounted s (releaseFrame p s) := ⟨_, _, _, accounts_releaseFrame s p⟩

theorem accounted_beginStore (p : PortId) (i : Slot) (prior : CtxState) (f : StagedFrame) :
    Accounted s (beginStore p i prior f s) := ⟨_, _, _, accounts_beginStore⟩

theorem accounted_answerLate (p : PortId) (k : Key) (n : Nat) : Accounted s (answerLate p k n s) :=
  ((accounted_count s p _).trans (accounted_offerReply _ p _)).trans (accounted_releaseFrame _ p)

theorem accounted_refuseFrag (p : PortId) (f : StagedFrame) : Accounted s (refuseFrag p f s) :=
  ((accounted_offerReply s p _).trans (accounted_count _ p _)).trans (accounted_releaseFrame _ p)

theorem accounted_fragOnContext (p : PortId) (i : Slot) (f : StagedFrame) : Accounted s (fragOnContext p i f s) := by
  have hfail : ∀ st, Accounted s (releaseFrame p (failContext i st s)) := fun st =>
    (accounted_failContext s i st).trans (accounted_releaseFrame _ p)
  unfold fragOnContext
  dsimp only
  split
  · exact (accounted_count s p _).trans (accounted_releaseFrame _ p)
  split
  · exact hfail _
  split
  · exact hfail _
  split
  · exact accounted_beginStore s p i _ f
  · exact accounted_refuseFrag s p f

theorem accounted_openAndStore (p : PortId) (i : Slot) (f : StagedFrame) : Accounted s (openAndStore p i f s) :=
  (accounted_openContext s i _ _ _).trans (accounted_beginStore _ p i _ f)

theorem accounted_findWay (p : PortId) (f : StagedFrame) : Accounted s (findWay p f s) := by
  unfold findWay
  dsimp only
  split
  · exact accounted_openAndStore s p _ f
  split
  · split
    · exact (accounted_failContext s _ _).trans (accounted_openAndStore _ p _ f)
    · exact accounted_refuseFrag s p f
  · exact accounted_refuseFrag s p f

theorem accounted_refuseOversize (p : PortId) (f : StagedFrame) : Accounted s (refuseOversize p f s) :=
  ((accounted_appendFailure s _).trans (accounted_count _ p _)).trans (accounted_releaseFrame _ p)

theorem accounted_firstFragment (p : PortId) (f : StagedFrame) : Accounted s (firstFragment p f s) := by
  unfold firstFragment
  split
  · exact accounted_answerLate s p _ _
  split
  · exact accounted_refuseOversize s p f
  split
  · exact accounted_findWay s p f
  · exact accounted_refuseFrag s p f

theorem accounted_handleFrag (p : PortId) (f : StagedFrame) : Accounted s (handleFrag p f s) := by
  unfold handleFrag
  split
  · split
    · exact accounted_answerLate s p _ _
    · exact accounted_answerLate s p _ _
    · exact accounted_fragOnContext s p _ f
  · exact accounted_firstFragment s p f

theorem accounted_abortEffect (p : PortId) (f : StagedFrame) : Accounted s (abortEffect p f s) := by
  unfold abortEffect
  split
  · split
    · exact accounted_failContext s _ _
    · exact accounted_failContext s _ _
    · exact accounted_count s p _
    · exact accounted_count s p _
    · exact .refl s
  · split
    · exact accounted_count s p _
    · exact .refl s

theorem accounted_handleAbort (p : PortId) (f : StagedFrame) : Accounted s (handleAbort p f s) :=
  (accounted_abortEffect s p f).trans (accounted_releaseFrame _ p)

theorem accounted_handleQuery (p : PortId) (f : StagedFrame) : Accounted s (handleQuery p f s) :=
  (accounted_offerReply s p _).trans (accounted_releaseFrame _ p)

theorem accounted_served (p : PortId) : Accounted s (served s p) := ⟨_, _, _, accounts_served s p⟩

/-- A frame claim only counts and raises when its handling does (R15, R45). -/
theorem accounted_takeFrame {kind : Byte} {handle : PortId → StagedFrame → State → State}
    (h : ∀ (u : State) (p : PortId) (f : StagedFrame), Accounted u (handle p f u)) : Accounted s (takeFrame kind handle s) := by
  unfold takeFrame
  split
  · split
    · split
      · exact (accounted_served s _).trans (h _ _ _)
      · exact .refl s
    · exact .refl s
  · exact .refl s

/-! ### The store (R58 to R61) -/

theorem accounted_completeIfFull (p : PortId) (i : Slot) : Accounted s (completeIfFull p i s) := by
  unfold completeIfFull
  split
  · split
    · exact ⟨_, _, _, accounts_completeRecord s p i _⟩
    · exact .refl s
  · exact .refl s

theorem accounted_finishStore (st : StoreClaim) : Accounted s (finishStore st s) := by
  have hstored : Accounted s (stored s st) := ⟨_, _, _, accounts_stored s st⟩
  exact (hstored.trans (accounted_completeIfFull _ _ _)).trans ⟨_, _, _, accounts_endClaim _ _⟩

theorem accounted_endSegment (st : StoreClaim) : Accounted s (endSegment st s) := by
  have hnext : ∀ u : State, Accounted u (match st.segs[st.current + 1]? with
      | some g => u.setService (some { st with current := st.current + 1, waiting := u.fillBlocked g })
      | none => finishStore st u) := fun u => by
    split
    · exact accounted_setService u _
    · exact accounted_finishStore u st
  unfold endSegment
  dsimp only
  cases st.segs[st.current]? with
  | none => exact hnext s
  | some g => exact (accounted_units s).trans (hnext _)

/-! ### The command unit (R130 to R162) -/

/-- A command completed after a change that leaves the counters (R147). -/
theorem accounted_completeCommand {s u : State} (st : CommandStatus) (l : List Word) (h : Accounted s u) :
    Accounted s (completeCommand st l u) := h.trans ⟨_, _, _, (completeCommand_cmd u st l).2⟩

theorem accounted_answer (st : CommandStatus) (l : List Word) : Accounted s (completeCommand st l s) :=
  accounted_completeCommand st l (.refl s)

theorem accounted_writeCmd (v : Word) : Accounted s (writeCmd v s) := by
  unfold writeCmd
  dsimp only
  split
  · exact accounted_completeCommand _ _ (accounted_cmd s _)
  split
  · exact accounted_raise s _
  split
  · exact accounted_completeCommand _ _ (accounted_cmd s _)
  · split
    · exact accounted_cmd s _
    · exact accounted_completeCommand _ _ (accounted_cmd s _)

theorem accounted_takeHead (e : ReportEntry) : Accounted s (takeHead e s) :=
  accounted_completeCommand _ _ (accounted_units s)

theorem accounted_claimTake : Accounted s (claimTake s) := by
  unfold claimTake
  split
  · exact accounted_answer s _ _
  split
  · exact accounted_takeHead s _
  split
  · exact accounted_answer s _ _
  · exact ((accounted_setCtx s _ _).trans (accounted_setDrain _ _)).trans (accounted_takeHead _ _)

theorem accounted_claimRelease : Accounted s (claimRelease s) := by
  have hfreed : ∀ (u : State) (i : Slot), Accounted u (unbindDrain (freeContext i u)) := fun u i =>
    (accounted_freeContext u i).trans (accounted_setDrain _ _)
  unfold claimRelease
  split
  · exact accounted_answer s _ _
  · dsimp only
    split
    · exact accounted_completeCommand _ _ ((accounted_rememberKey s _ _).trans (hfreed _ _))
    · exact accounted_completeCommand _ _ (hfreed s _)

theorem accounted_claimLookup (k : Key) : Accounted s (claimLookup k s) := by
  unfold claimLookup
  split <;> exact accounted_answer s _ _

theorem accounted_claimReserve (k : Key) (pinned : Bool) : Accounted s (claimReserve k pinned s) := by
  unfold claimReserve
  split
  · exact accounted_answer s _ _
  split
  · exact accounted_answer s _ _
  · exact accounted_completeCommand _ _ ((accounted_openContext s _ _ _ _).trans (accounted_forgetKey _ k))

theorem accounted_setPinned (v : Bool) (k : Key) : Accounted s (setPinned v k s) := by
  unfold setPinned
  split
  · exact accounted_answer s _ _
  · dsimp only
    split
    · exact accounted_completeCommand _ _ (accounted_setCtx s _ _)
    · exact accounted_answer s _ _

theorem accounted_claimCancel (k : Key) : Accounted s (claimCancel k s) := by
  unfold claimCancel
  split
  · exact accounted_answer s _ _
  · dsimp only
    split
    · exact accounted_completeCommand _ _ (accounted_freeContext s _)
    · exact accounted_answer s _ _

theorem accounted_claimForget (all : Bool) (k : Key) : Accounted s (claimForget all k s) := by
  unfold claimForget
  split
  · exact accounted_completeCommand _ _ (accounted_modifyPort s _ _ fun _ => ⟨rfl, rfl⟩)
  split
  · exact accounted_completeCommand _ _ (accounted_forgetKey s k)
  · exact accounted_answer s _ _

theorem accounted_commandWork (f : InFlight) : Accounted s (commandWork f s) := by
  unfold commandWork
  dsimp only
  split
  · exact accounted_claimTake s
  · exact accounted_claimRelease s
  · exact accounted_claimLookup s _
  · exact accounted_claimReserve s _ _
  · exact accounted_setPinned s true _
  · exact accounted_setPinned s false _
  · exact accounted_claimCancel s _
  · exact accounted_claimForget s _ _
  · exact .refl s
  · exact .refl s

theorem accounted_nextVisit (f : InFlight) (freed segments : Nat) : Accounted s (nextVisit f freed segments s) :=
  accounted_cmd s _

theorem accounted_visitNext (f : InFlight) : Accounted s (visitNext f s) := by
  unfold visitNext
  split
  · exact accounted_answer s _ _
  split
  · exact accounted_answer s _ _
  · exact accounted_nextVisit s f 0 0

theorem accounted_visitPurge (f : InFlight) : Accounted s (visitPurge f s) := by
  have hnext : ∀ (u : State) (freed segments : Nat), Accounted u
      (if f.slot = 63 then completeCommand .ok [word freed, word segments] u else nextVisit f freed segments u) := by
    intro u freed segments
    split
    · exact accounted_answer u _ _
    · exact accounted_nextVisit u f _ _
  unfold visitPurge
  dsimp only
  generalize (s.ctx f.slot).purged _ _ = hit
  cases hit with
  | true => exact (accounted_freeContext s f.slot).trans (hnext _ _ _)
  | false => exact hnext s _ _

theorem accounted_visitWork (f : InFlight) : Accounted s (visitWork f s) := by
  unfold visitWork
  split
  · exact accounted_visitNext s f
  · exact accounted_visitPurge s f
  · exact .refl s

theorem accounted_takeCommand {walk : Bool} {work : InFlight → State → State}
    (h : ∀ (u : State) (f : InFlight), Accounted u (work f u)) : Accounted s (takeCommand walk work s) := by
  unfold takeCommand
  split
  · split
    · exact (accounted_setLastServed s _).trans (h _ _)
    · exact .refl s
  · exact .refl s

/-! ### The timer unit (R89 to R102) -/

theorem accounted_presentExpiry : Accounted s (presentExpiry s) := .same (fun _ => by simp) (by simp)

theorem accounted_takeExpiry {kind : CountdownKind} {act : Slot → State → State}
    (h : ∀ (u : State) (i : Slot), Accounted u (act i u)) : Accounted s (takeExpiry kind act s) := by
  unfold takeExpiry
  split
  · next c _ _ =>
    split
    · have hact : ∀ u : State, Accounted u
          (if (s.timers c.slot).mark kind then act c.slot (presentExpiry u) else presentExpiry u) := by
        intro u
        split
        · exact (accounted_presentExpiry u).trans (h _ _)
        · exact accounted_presentExpiry u
      exact ((accounted_setLastServed s _).trans (accounted_timer _ _)).trans
        ((accounted_setTimers _ c.slot _).trans (hact _))
    · exact .refl s
  · exact .refl s

theorem accounted_repairStep (i : Slot) : Accounted s (repairStep i s) := by
  unfold repairStep
  dsimp only
  split
  · split
    · split
      · exact accounted_failContext s i _
      · exact ⟨_, _, _, accounts_spendAttempt i _ s⟩
    · exact .refl s
  · exact .refl s

theorem accounted_lifeFailure (i : Slot) : Accounted s (lifeFailure i s) := by
  unfold lifeFailure
  split
  · exact accounted_failContext s i _
  · exact .refl s

/-! ### The drain port and the walk (R86, R133 to R138) -/

theorem accounted_writeDrainPos (v : Word) : Accounted s (writeDrainPos v s) := by
  unfold writeDrainPos
  split
  · exact .refl s
  split
  · exact accounted_setDrain s _
  · exact accounted_raise s _

theorem accounted_resetDeassert : Accounted s (resetDeassert s) := .same (fun _ => ⟨rfl, rfl⟩) rfl

theorem accounted_walkStep (k : Fin 1024) : Accounted s (walkStep k s) := by
  unfold walkStep
  dsimp only
  split
  · exact (accounted_units s).trans (accounted_raise _ _)
  · exact accounted_units s

/-! ### Registers (R19 to R23, R178) -/

theorem accounted_disablePort {p : PortId} (h : (s.port p).rx.state = .hunt ∨ (s.port p).rx.state = .receiving) :
    Accounted s (disablePort p s) := by
  rcases h with h | h
  · exact ⟨_, _, _, (disablePort_hunt s p h).1⟩
  · exact ⟨_, _, _, (disablePort_receiving s p h).1⟩

theorem accounted_requestEnable (p : PortId) : Accounted s (requestEnable p s) := by
  unfold requestEnable
  dsimp only
  split <;> exact accounted_modifyPort s p _ fun _ => ⟨rfl, rfl⟩

theorem accounted_applyEnable (p : PortId) (en : Bool) : Accounted s (applyEnable p en s) := by
  cases hs : (s.port p).rx.state with
  | off =>
    rw [applyEnable_off hs]
    split
    · exact accounted_requestEnable s p
    · exact .refl s
  | stopping => rw [applyEnable_stopping hs]; exact .refl s
  | hunt | receiving =>
    cases en with
    | true => rw [applyEnable_none (by simp [hs])]; exact .refl s
    | false => rw [applyEnable_disable (by simp [hs])]; exact accounted_disablePort s (by simp [hs])

theorem accounted_writePortCtrl (p : PortId) (v : Word) : Accounted s (writePortCtrl p v s) :=
  (accounted_modifyPort s p (storeCtrl v) fun _ => ⟨rfl, rfl⟩).trans (accounted_applyEnable _ p _)

theorem accounted_writePortAddr (p : PortId) (v : Word) : Accounted s (writePortAddr p v s) := by
  unfold writePortAddr
  split
  · exact accounted_modifyPort s p _ fun _ => ⟨rfl, rfl⟩
  · exact .refl s

theorem accounted_writePortRate (p : PortId) (v : Word) : Accounted s (writePortRate p v s) := by
  unfold writePortRate
  split
  · exact accounted_modifyPort s p _ fun _ => ⟨rfl, rfl⟩
  · exact .refl s

/-- The registers that REGISTER_WRITE reaches but for CTRL and STATUS hold no part of the block (R178). -/
theorem accounted_writeReg_rowless {r : Reg} (v : Word) (hctrl : r ≠ .ctrl) (hstatus : r ≠ .status) (hrow : r.hasRow = false) :
    Accounted s (writeReg r v s) := by
  by_cases hr : r.readOnly = true
  · rw [writeReg_readOnly v s hr]
    exact .refl s
  cases r with
  | ctrl => exact absurd rfl hctrl
  | status => exact absurd rfl hstatus
  | portSelect | poolLow => exact accounted_units s
  | operand => exact accounted_cmd s _
  | portQuota => exact accounted_modifyPort s _ (fun q => { q with quota := _ }) fun _ => ⟨rfl, rfl⟩
  | portGap => exact accounted_modifyPort s _ (fun q => { q with gap := v }) fun _ => ⟨rfl, rfl⟩
  | portRepair => exact accounted_modifyPort s _ (fun q => { q with repair := v }) fun _ => ⟨rfl, rfl⟩
  | portLife => exact accounted_modifyPort s _ (fun q => { q with life := v }) fun _ => ⟨rfl, rfl⟩
  | portReclimit => exact accounted_modifyPort s _ (fun q => { q with reclimit := _ }) fun _ => ⟨rfl, rfl⟩
  | events | eventEnable | tick | unreported | cmd | drainPos | portCtrl | portAddr | portRate | counter | portLimits => cases hrow
  | poolFree | poolBacklog | cmdStatus | result | reportCount | reportHead | drainData | drainLen | portHeld | portState =>
    exact absurd rfl hr

theorem accounted_writeRegister {o : Byte} {v : Word} (hw : registerWriteOk o v = true) : Accounted s (writeRegister o v s) := by
  unfold writeRegister
  split
  · next r hr =>
    unfold hostWrite
    split
    · rcases registerWriteOk_reg hw hr with ⟨rfl, hv⟩ | ⟨rfl, hv⟩ | ⟨hctrl, hstatus, hrow⟩
      · rw [show writeReg .ctrl v s = s from writeCtrl_zero v s hv]; exact .refl s
      · rw [show writeReg .status v s = s from if_neg (by rw [hv]; decide)]; exact .refl s
      · exact accounted_writeReg_rowless s v hctrl hstatus hrow
    · exact .refl s
  · exact .refl s

/-! ### Every command -/

theorem accounted_ite {c : Prop} [Decidable c] {t : State} (h : Accounted s t) : Accounted s (if c then t else s) := by
  split
  · exact h
  · exact .refl s

theorem accounted_hostWrite {r : Reg} {v : Word} (h : Accounted s (writeReg r v s)) : Accounted s (hostWrite r v s) :=
  accounted_ite s h

end

/-- The rows that write a register of the statistics and event block, and the resets: all that clear a counter or a flag, and the
write of EVENT_ENABLE (R167 to R173, R184, R185). -/
def writesStats : Instr → Bool
  | .unreportedClear _ _ | .eventEnableWrite _ => true
  | c => clearsCounters c || clearsEvents c

section
variable {s t : State}

/-- A command whose outcome is one next state only counts and raises when that state does. -/
theorem accounted_next {u : State} (hk : Accounted s u) (h : Host.Outcome.next (φ := Fault) (ρ := Refusal) u = .next t) :
    Accounted s t := by
  cases h
  exact hk

/-! Commands whose occasion is a part of the state. -/

theorem accounted_execWalkStep (h : execWalkStep s = .next t) : Accounted s t := by
  unfold execWalkStep at h
  split at h
  · exact accounted_next (accounted_walkStep s _) h
  · exact accounted_next (.refl s) h
  · exact accounted_next (.refl s) h

theorem accounted_execTick (h : execTick s = .next t) : Accounted s t := by
  unfold execTick at h
  split at h
  · exact accounted_next ((accounted_timer s _).trans (accounted_presentExpiry _)) h
  · exact accounted_next (.refl s) h

theorem accounted_execReplyEnd {p : PortId} (h : execReplyEnd p s = .next t) : Accounted s t := by
  unfold execReplyEnd at h
  split at h
  · next x _ =>
    refine accounted_next ?_ h
    split
    · exact .refl s
    · exact accounted_endReply s p x
  · exact accounted_next (.refl s) h

theorem accounted_execGuardEnd {p : PortId} (h : execGuardEnd p s = .next t) : Accounted s t := by
  unfold execGuardEnd at h
  split at h
  · exact accounted_next (accounted_ite s (accounted_endGuard s p)) h
  · exact accounted_next (.refl s) h

theorem accounted_execReturnMove (h : execReturnMove s = .next t) : Accounted s t := by
  unfold execReturnMove at h
  split at h
  · exact accounted_next (accounted_units s) h
  · exact accounted_next (.refl s) h

theorem accounted_execFillSegmentEnd (h : execFillSegmentEnd s = .next t) : Accounted s t := by
  unfold execFillSegmentEnd at h
  split at h
  · next st _ =>
    refine accounted_next ?_ h
    split
    · exact .refl s
    · exact accounted_endSegment s st
  · exact accounted_next (.refl s) h

theorem accounted_readRecord {i : Slot} (h : readRecord i s = .next t) : Accounted s t := by
  unfold readRecord at h
  split at h
  · cases h
  split at h
  · split at h
    · exact accounted_next (accounted_setDrain s _) h
    · exact accounted_next (accounted_setDrain s _) h
  · exact accounted_next (accounted_setDrain s _) h

theorem accounted_execDrainDataRead (h : execDrainDataRead s = .next t) : Accounted s t := by
  have hfault : Accounted s (raise .drainFault (readZero s)) := (accounted_setDrain s _).trans (accounted_raise _ _)
  unfold execDrainDataRead at h
  split at h
  · exact accounted_next (.refl s) h
  split at h
  · exact accounted_next (accounted_setDrain s _) h
  split at h
  · exact accounted_next hfault h
  split at h
  · exact accounted_next hfault h
  · exact accounted_readRecord h

theorem accounted_execDrainReadGrant (h : execDrainReadGrant s = .next t) : Accounted s t := by
  unfold execDrainReadGrant at h
  split at h
  · exact accounted_next (accounted_ite s ((accounted_setDrain s _).trans (accounted_setService _ _))) h
  · exact accounted_next (.refl s) h

theorem accounted_execHeldReadEnded (h : execHeldReadEnded s = .next t) : Accounted s t := by
  unfold execHeldReadEnded at h
  split at h
  · exact accounted_next (((accounted_setDrain s _).trans (accounted_units _)).trans (accounted_setService _ _)) h
  · exact accounted_next (.refl s) h

/-- Every command that does not write the block's registers, and is no reset, only counts and raises. -/
theorem exec_accounted (c : Instr) (hw : c.wellFormed = true) (hc : writesStats c = false) (h : exec c s = .next t) :
    Accounted s t := by
  cases c with
  | powerUp | hardwareReset | softReset | counterClear | portLimitsWrite | unreportedClear | eventsWrite | eventEnableWrite =>
    cases hc
  | resetDeasserted => exact accounted_next (accounted_ite s (accounted_resetDeassert s)) h
  | walkStep => exact accounted_execWalkStep h
  | syncReceived | goodCharacter | characterSkipped | badLen | framingError | frameCompletion =>
    exact accounted_next (accounted_takeCharacter s _ _) h
  | characterTimeout p => exact accounted_next (accounted_ite s (accounted_dropFrame s p _)) h
  | startEdge line => exact accounted_next (accounted_sampleLine s _ _) h
  | startCheck p level => exact accounted_next (accounted_ite s (accounted_setRx s p _)) h
  | frag => exact accounted_next (accounted_takeFrame s accounted_handleFrag) h
  | abort => exact accounted_next (accounted_takeFrame s accounted_handleAbort) h
  | query => exact accounted_next (accounted_takeFrame s accounted_handleQuery) h
  | fillSegmentEnd => exact accounted_execFillSegmentEnd h
  | tick => exact accounted_execTick h
  | countdownExpiry =>
    exact accounted_next (accounted_ite s ((accounted_setTimers s _ _).trans (accounted_presentExpiry _))) h
  | repairExpiry => exact accounted_next (accounted_takeExpiry s accounted_repairStep) h
  | lifeExpiry => exact accounted_next (accounted_takeExpiry s accounted_lifeFailure) h
  | replyStart p => exact accounted_next (accounted_startReply s p) h
  | replyEnd => exact accounted_execReplyEnd h
  | guardEnd => exact accounted_execGuardEnd h
  | returnMove => exact accounted_execReturnMove h
  | drainDataRead => exact accounted_execDrainDataRead h
  | drainReadGrant => exact accounted_execDrainReadGrant h
  | heldReadEnded => exact accounted_execHeldReadEnded h
  | drainPosWrite v => exact accounted_next (accounted_ite s (accounted_writeDrainPos s v)) h
  | portEnable v | portDisable v | portCtrlWrite v =>
    exact accounted_next (accounted_hostWrite s (r := .portCtrl) (accounted_writePortCtrl s _ v)) h
  | portAddrWrite v => exact accounted_next (accounted_hostWrite s (r := .portAddr) (accounted_writePortAddr s _ v)) h
  | portRateWrite v => exact accounted_next (accounted_hostWrite s (r := .portRate) (accounted_writePortRate s _ v)) h
  | tickWrite v => exact accounted_next (accounted_hostWrite s (r := .tick) (accounted_timer s _)) h
  | registerWrite o v => exact accounted_next (accounted_writeRegister s hw) h
  | take | release | lookup | next | reserve | pin | unpin | cancel | purge | forget | badCommand =>
    exact accounted_next (accounted_ite s (accounted_writeCmd s _)) h
  | commandClaim => exact accounted_next (accounted_takeCommand s accounted_commandWork) h
  | walkVisit => exact accounted_next (accounted_takeCommand s accounted_visitWork) h

/-! ### Event flags (R171, R172) -/

theorem clearLimits_stats (p : PortId) (v : Word) : (clearLimits p v s).stats = s.stats := by
  unfold clearLimits
  generalize allCounters = l
  induction l generalizing s with
  | nil => rfl
  | cons c l ih =>
    rw [List.foldl_cons, ih]
    split <;> rfl

theorem hostWrite_events {r : Reg} {v : Word} (hw : (writeReg r v s).stats.events = s.stats.events) :
    (hostWrite r v s).stats.events = s.stats.events := by
  unfold hostWrite
  split
  · exact hw
  · rfl

theorem writeStatus_events (v : Word) : (writeStatus v s).stats.events = s.stats.events := by
  unfold writeStatus
  split <;> rfl

/-- The writes of the block's other registers leave EVENTS as it is. -/
theorem events_of_writesStats {c : Instr} (hc : writesStats c = true) (hkeep : clearsEvents c = false) (h : exec c s = .next t) :
    t.stats.events = s.stats.events := by
  have hnext : ∀ {r : Reg} {v : Word}, (writeReg r v s).stats.events = s.stats.events →
      Host.Outcome.next (φ := Fault) (ρ := Refusal) (hostWrite r v s) = .next t → t.stats.events = s.stats.events := by
    intro r v hw he
    cases he
    exact hostWrite_events hw
  cases c with
  | powerUp | hardwareReset | softReset | eventsWrite => cases hkeep
  | counterClear c v => exact hnext (r := .counter c) (v := v) rfl h
  | portLimitsWrite v => exact hnext (r := .portLimits) (congrArg Stats.events (clearLimits_stats _ v)) h
  | eventEnableWrite v => exact hnext (r := .eventEnable) (v := v) rfl h
  | unreportedClear route v =>
    cases route with
    | counter => exact hnext (r := .unreported) (v := v) rfl h
    | status => exact hnext (r := .status) (writeStatus_events v) h
  | _ => cases hc

/-- A flag of EVENTS stands until the host clears it or a reset does (R171, R172). -/
theorem flagSet_stands {e : Event} {c : Instr} (hw : c.wellFormed = true) (hkeep : clearsEvents c = false)
    (h : exec c s = .next t) (hs : flagSet s e = true) : flagSet t e = true := by
  by_cases hc : writesStats c = true
  · rwa [flagSet, events_of_writesStats hc hkeep h]
  · exact (exec_accounted c hw (Bool.eq_false_of_not_eq_true hc) h).flagSet hs

/-! ### A read that touches no memory (R136) -/

/-- A DRAIN_DATA read during the walk, or while RESET# is asserted, returns 0 (R136, R185). -/
theorem exec_drainDataRead_initialising (hinit : s.initialising = true) (hheld : s.drain.held = none) :
    exec .drainDataRead s = .next (readZero s) := by
  simp only [exec, execDrainDataRead, hheld, Option.isSome_none, hinit, Bool.false_eq_true, if_false, if_true]

/-- A context that holds no segment has no fragments, since an entry has a byte at least (R30). -/
theorem frags_nil_of_segs {c : Context} (hc : ContextLaw c) (hnone : contextSegs c = []) : c.frags = [] := by
  refine List.eq_nil_iff_forall_not_mem.2 fun e he => ?_
  obtain ⟨hpos, -, hsegs⟩ := hc.entries e he
  rw [List.flatMap_eq_nil_iff.1 hnone e he, segsNeeded, List.length_nil] at hsegs
  omega

/-- While INITIALISING no context holds a segment (R86). -/
theorem contextSegs_initialising (hs : TableLaw s) (hinit : s.initialising = true) (i : Slot) : contextSegs (s.ctx i) = [] := by
  have hheld : heldSegments s = [] := by
    have hplaces := hs.places
    unfold placesOk at hplaces
    split at hplaces
    · next hready => simp [State.initialising, hready] at hinit
    · exact hplaces.2.2
    · exact hplaces.2.2
  rw [heldSegments, contexts_toList, List.append_eq_nil_iff, List.flatMap_eq_nil_iff] at hheld
  exact hheld.1 _ (List.mem_map_of_mem (List.mem_finRange i))

/-- While INITIALISING the drain port is not bound: a DRAINING context would hold fragments (R34, R133). -/
theorem bound_initialising (hs : TableLaw s) (hr : RecordLaw s) (hinit : s.initialising = true) : s.drain.bound = none := by
  refine Option.eq_none_iff_forall_ne_some.2 fun i hbound => ?_
  have hdraining := (hs.drain i).2 hbound
  rcases (hr.empty i).1 (frags_nil_of_segs (hr.contexts i) (contextSegs_initialising hs hinit i)) with e | e | ⟨st, hst, -⟩
  · rw [hdraining] at e; cases e
  · rw [hdraining] at e; cases e
  · rw [(hs.quiet hinit).service] at hst; cases hst

end

/-- Settles O34: the refused read and the read of the walk are one change of the drain port each; the flag stands with every row. -/
theorem drainReadRefused : Obligations.DrainReadRefused := by
  refine ⟨fun s hready hheld hrefused => ?_, fun s hinit hheld => exec_drainDataRead_initialising hinit hheld,
    fun s hd => ⟨fun hb => (hd.unbound hb).2, fun hs hr hinit => ?_⟩, fun c s t => flagSet_stands⟩
  · refine ⟨_, exec_drainDataRead_refused hready hheld (hrefused.imp_right And.right), rfl, congrArg Option.isSome hheld, rfl,
      rfl, ?_, by rw [flagSet_raise, decide_eq_true rfl, Bool.or_true]⟩
    exact (Accounts.same (s := s) (t := readZero s) (fun _ => ⟨rfl, rfl⟩) rfl).trans (accounts_raise _ .drainFault)
  · have hbound := bound_initialising hs hr hinit
    exact ⟨hbound, (hd.unbound hbound).2⟩

end Sys2Proof.Machine
end

section
/-! SUPPORT. Writes to CMD (chapter 8): the row of a command and the row of an unknown code, decided in the order of R144
(CommandDecision). -/

namespace Sys2Proof.Machine

open Sys2Proof.Safety

/-! ### Command codes (Table 10-4) -/

/-- The decoding of CMD inverts the table of codes. -/
theorem commandOf_eq_some_iff {b : Byte} {c : CommandCode} : commandOf b = some c ↔ b = codeOf c := by
  refine ⟨fun h => ?_, fun h => ?_⟩
  · unfold commandOf at h
    split_ifs at h <;> cases h <;> assumption
  · subst h
    cases c <;> rfl

theorem codeOf_range (c : CommandCode) : 1 ≤ (codeOf c).toNat ∧ (codeOf c).toNat ≤ 10 := by
  cases c <;> decide

theorem commandOf_eq_none {b : Byte} (h : b.toNat = 0 ∨ 10 < b.toNat) : commandOf b = none := by
  refine Option.eq_none_iff_forall_ne_some.2 fun c hc => ?_
  have hrange := codeOf_range c
  rw [← commandOf_eq_some_iff.1 hc] at hrange
  omega

/-! ### The cases of R144 -/

section
variable {s : State}

/-- A command that completes in the command unit (R144, R147). -/
theorem completeAtOnce_eq (b : Byte) (st : CommandStatus) : completeAtOnce b st s = decidedAtOnce s b st.code := rfl

theorem writeCmd_initialising (v : Word) (hinit : s.initialising = true) :
    writeCmd v s = decidedAtOnce s (v.extractLsb' 0 8) 9#4 := if_pos hinit

theorem writeCmd_busy (v : Word) (hinit : s.initialising = false) (hbusy : s.cmd.inFlight ≠ none) :
    writeCmd v s = raise .cmdOverrun s := by
  simp [writeCmd, hinit, Option.isSome_iff_ne_none.2 hbusy]

section
variable {c : CommandCode} (v : Word) (hinit : s.initialising = false) (hidle : s.cmd.inFlight = none)
include hinit hidle

theorem writeCmd_unknown (hcode : commandOf (v.extractLsb' 0 8) = none) :
    writeCmd v s = decidedAtOnce s (v.extractLsb' 0 8) 10#4 := by
  simp [writeCmd, hinit, hidle, hcode, completeAtOnce_eq, CommandStatus.code]

theorem writeCmd_outOfRange (hcode : commandOf (v.extractLsb' 0 8) = some c) (hout : ¬ InRange c s.cmd.operands) :
    writeCmd v s = decidedAtOnce s (v.extractLsb' 0 8) 8#4 := by
  rw [inRange_iff] at hout
  simp [writeCmd, hinit, hidle, hcode, hout, completeAtOnce_eq, CommandStatus.code]

theorem writeCmd_accepted (hcode : commandOf (v.extractLsb' 0 8) = some c) (hin : InRange c s.cmd.operands) :
    writeCmd v s = acceptCommand (v.extractLsb' 0 8) c s := by
  rw [inRange_iff] at hin
  simp [writeCmd, hinit, hidle, hcode, hin]

end

theorem exec_codeRow (u : Byte) (c : CommandCode) (hfree : s.busFree = true) :
    exec (codeRow u c) s = .next (writeCmd (u ++ codeOf c) s) := by
  cases c <;> exact congrArg Host.Outcome.next (if_pos hfree)

theorem exec_badCommand (v : Word) (hfree : s.busFree = true) : exec (.badCommand v) s = .next (writeCmd v s) :=
  congrArg Host.Outcome.next (if_pos hfree)

/-- The slot operand, within the range of R146. -/
theorem opSlotId_val {o : Vector Word 4} (h : o[3].toNat % 256 ≤ 63) : (opSlotId o).val = o[3].toNat % 256 := by
  simp only [opSlotId, opSlot, Fin.val_ofNat, BitVec.extractLsb'_toNat, Nat.shiftRight_zero]
  omega

end

/-- Settles O47: the rows of the ten codes and of the unknown ones by the cases of R144. -/
theorem commandDecision : Obligations.CommandDecision := by
  refine ⟨fun s c u hfree => ?_, fun s v hfree hcode => ?_⟩
  · rw [exec_codeRow u c hfree]
    have hlow : (u ++ codeOf c : Word).extractLsb' 0 8 = codeOf c := BitVec.extractLsb'_append_eq_right
    have hknown : commandOf ((u ++ codeOf c : Word).extractLsb' 0 8) = some c := commandOf_eq_some_iff.2 hlow
    refine ⟨fun hinit => ?_, fun hinit hbusy => ?_, fun hinit hidle hout => ?_, fun hinit hidle hin => ?_⟩
    · rw [writeCmd_initialising _ hinit, hlow]
    · rw [writeCmd_busy _ hinit hbusy]
      rfl
    · rw [writeCmd_outOfRange _ hinit hidle hknown hout, hlow]
    · rw [writeCmd_accepted _ hinit hidle hknown hin, hlow]
      refine ⟨_, rfl, rfl, rfl, rfl, rfl, fun hc => ?_, fun hc => ?_⟩
      · subst hc
        exact opSlotId_val hin
      · subst hc
        rfl
  · have hlow : v.extractLsb' 0 8 = v.setWidth 8 := (BitVec.setWidth_eq_extractLsb' (by decide)).symm
    have hunknown : commandOf (v.extractLsb' 0 8) = none := commandOf_eq_none (by rwa [hlow, BitVec.toNat_setWidth])
    rw [exec_badCommand v hfree]
    refine ⟨fun hinit => ?_, fun hinit hbusy => ?_, fun hinit hidle => ?_⟩
    · rw [writeCmd_initialising _ hinit, hlow]
    · rw [writeCmd_busy _ hinit hbusy]
      rfl
    · rw [writeCmd_unknown _ hinit hidle hunknown, hlow]

end Sys2Proof.Machine
end

section
/-! SUPPORT. The claim of FORGET (R162): what the search of a recent-completion list finds and what the removal leaves
(ForgetEntries). -/

namespace Sys2Proof.Machine

open Sys2Proof.Safety

section
variable {s : State} {f : InFlight} {k : Key}

/-- The entry is of the station and tag of the key (R121). -/
theorem recentMatch_iff {e : RecentEntry} : (e.station == k.station && e.tag == k.tag) = true ↔
    e.station = k.station ∧ e.tag = k.tag := by
  rw [Bool.and_eq_true, beq_iff_eq, beq_iff_eq]

/-- The search finds the one entry of the key. -/
theorem recentEntry_of_split {before after : List RecentEntry} {e : RecentEntry}
    (hlist : (s.port k.port).recent = before ++ e :: after) (he : e.station = k.station ∧ e.tag = k.tag)
    (hbefore : ∀ x ∈ before, ¬ (x.station = k.station ∧ x.tag = k.tag)) : s.recentEntry k = some e := by
  have hnone : before.find? (fun x => x.station == k.station && x.tag == k.tag) = none :=
    List.find?_eq_none.2 fun x hx => mt recentMatch_iff.1 (hbefore x hx)
  rw [State.recentEntry, hlist, List.find?_append, hnone, Option.none_or, List.find?_cons, recentMatch_iff.2 he]

/-- The removal of the one entry of the key leaves the others in their order (R120). -/
theorem forgetKey_of_split {before after : List RecentEntry} {e : RecentEntry}
    (hlist : (s.port k.port).recent = before ++ e :: after) (he : e.station = k.station ∧ e.tag = k.tag)
    (hothers : ∀ x ∈ before ++ after, ¬ (x.station = k.station ∧ x.tag = k.tag)) :
    forgetKey k s = s.modifyPort k.port fun q => { q with recent := before ++ after } := by
  have hkept : ∀ x ∈ before ++ after, (!(x.station == k.station && x.tag == k.tag)) = true := fun x hx => by
    rw [Bool.not_eq_true', Bool.eq_false_iff]
    exact mt recentMatch_iff.1 (hothers x hx)
  have hgone : ¬ (!(e.station == k.station && e.tag == k.tag)) = true := by rw [recentMatch_iff.2 he]; decide
  have hfilter : (s.port k.port).recent.filter (fun x => !(x.station == k.station && x.tag == k.tag)) = before ++ after := by
    rw [hlist, List.filter_append, List.filter_cons, if_neg hgone, ← List.filter_append, List.filter_eq_self.2 hkept]
  rw [forgetKey]
  simp only [State.modifyPort, hfilter]

/-- The key operand's port is in range without a station: the all option uses the port alone (R146, R162). -/
theorem opKey_port {o : Vector Word 4} (h : k.port.val = o[0].toNat % 8) : (opKey o).port = k.port :=
  Fin.ext ((opPortId_val (by have := k.port.isLt; omega)).trans h.symm)

theorem exec_claimForget (h : CommandNext s f) (hcode : f.code = .forget) : exec .commandClaim s =
    .next (claimForget (f.operands[0].getLsbD 10) (opKey f.operands) (s.setLastServed .command)) := by
  rw [exec_commandClaim h (by rw [hcode]; rfl), commandWork, hcode]
  rfl

end

/-- Settles O50: the all option, and without it the search of the list by what it finds. -/
theorem forgetEntries : Obligations.ForgetEntries := by
  refine fun s f k h hcode hport => ⟨fun hall => ?_, fun hone hnames => ?_⟩
  · rw [exec_claimForget h hcode, hall, claimForget, if_pos rfl, opKey_port hport]
    rfl
  · rw [exec_claimForget h hcode, hone, opKey_of_names hnames]
    refine ⟨fun before e after hlist hstation htag hothers => ?_, fun habsent => ?_⟩
    · have hfound : (s.setLastServed .command).recentEntry k = some e :=
        recentEntry_of_split hlist ⟨hstation, htag⟩ fun x hx => hothers x (List.mem_append_left _ hx)
      have hremoved := forgetKey_of_split (s := s.setLastServed .command) hlist ⟨hstation, htag⟩ hothers
      simp only [claimForget, hfound, hremoved, Bool.false_eq_true, if_false]
      rfl
    · have hnone : (s.setLastServed .command).recentEntry k = none := recentEntry_none.2 habsent
      simp only [claimForget, hnone, Bool.false_eq_true, if_false]
      rfl

end Sys2Proof.Machine
end

section
/-! SUPPORT. The per-port counters (chapter 9): an increment below the limit and at it, and the rows that leave a full counter
full (CounterIncrement); the clear of one counter (CounterClear) and of those a PORT_LIMITS write names (PortLimitsWrite). -/

namespace Sys2Proof.Machine

open Sys2Proof.Safety

/-! ### An increment (R165) -/

section
variable (s : State) (p : PortId) (c : Counter)

/-- An increment changes the ports and the statistics alone. -/
theorem count_rest : count p c s = { s with ports := (count p c s).ports, stats := (count p c s).stats } := by
  unfold count
  dsimp only
  split
  · rfl
  split <;> rfl

/-- At 65535 an increment changes nothing. -/
theorem count_full (hfull : s.counter p c = 0xFFFF#16) : count p c s = s := if_pos hfull

/-- Only the increment that reaches 65535 changes the statistics and event block. -/
theorem count_stats (hv : s.counter p c ≠ 0xFFFE#16) : (count p c s).stats = s.stats := by
  unfold count
  dsimp only
  rw [if_neg hv]
  split <;> rfl

/-- The increments of one counter come to its limit when they are enough for it, and then the flag is set and STAT_LIMIT raised. -/
theorem countMany_reaches {n : Nat} (h : reaches (s.counter p c) n) : (countMany p c n s).counter p c = 0xFFFF#16 ∧
    (countMany p c n s).limitFlag p c = true ∧ flagSet (countMany p c n s) .statLimit = true := by
  have haccounts := accounts_countMany s p c n
  have hcount : (List.replicate n (p, c)).count (p, c) = n := List.count_replicate_self
  have hreaches : reaches (s.counter p c) ((List.replicate n (p, c)).count (p, c)) := by rwa [hcount]
  refine ⟨(counter_eq_iff _ 65535 (by omega)).2 ?_, (haccounts.limits p c).2 (.inr hreaches),
    (haccounts.events .statLimit).2 (.inr (.inr ⟨rfl, .inl ⟨p, c, hreaches⟩⟩))⟩
  rw [haccounts.counters, hcount, Nat.min_eq_left h.2]

end

section
variable {s t : State} {p : PortId} {c : Counter}

/-! ### A full counter stands (R165) -/

/-- Whatever is counted, a counter at 65535 stays there. -/
theorem Accounted.counter_full : Accounted s t → s.counter p c = 0xFFFF#16 → t.counter p c = 0xFFFF#16
  | ⟨l, _, _, h⟩, hfull => by
    have hv : (s.counter p c).toNat = 65535 := (counter_eq_iff _ 65535 (by omega)).1 hfull
    refine (counter_eq_iff _ 65535 (by omega)).2 ?_
    rw [h.counters, hv]
    omega

/-- What a register's write leaves as it is stands in every host write to it, ignored or not. -/
theorem hostWrite_part {α : Type} (g : State → α) {r : Reg} {v : Word} (hw : g (writeReg r v s) = g s) :
    g (hostWrite r v s) = g s := by
  unfold hostWrite
  split
  · exact hw
  · rfl

/-- The writes of EVENTS, EVENT_ENABLE and UNREPORTED leave every port as it is. -/
theorem ports_of_writesStats {i : Instr} (hstats : writesStats i = true) (hkeep : clearsCounters i = false)
    (h : exec i s = .next t) : t.ports = s.ports := by
  have hnext : ∀ {r : Reg} {v : Word}, (writeReg r v s).ports = s.ports →
      Host.Outcome.next (φ := Fault) (ρ := Refusal) (hostWrite r v s) = .next t → t.ports = s.ports := by
    intro r v hw he
    cases he
    exact hostWrite_part State.ports hw
  cases i with
  | powerUp | hardwareReset | softReset | counterClear | portLimitsWrite => cases hkeep
  | eventsWrite v => exact hnext (r := .events) (v := v) rfl h
  | eventEnableWrite v => exact hnext (r := .eventEnable) (v := v) rfl h
  | unreportedClear route v =>
    cases route with
    | counter => exact hnext (r := .unreported) (v := v) rfl h
    | status =>
      refine hnext (r := .status) (v := v) ?_ h
      show (writeStatus v s).ports = s.ports
      unfold writeStatus
      split <;> rfl
  | _ => cases hstats

/-- A counter at 65535 stays there until the host clears it or a reset does. -/
theorem counter_full_stands {i : Instr} (hw : i.wellFormed = true) (hkeep : clearsCounters i = false) (h : exec i s = .next t)
    (hfull : s.counter p c = 0xFFFF#16) : t.counter p c = 0xFFFF#16 := by
  by_cases hstats : writesStats i = true
  · rwa [State.counter, State.port, ports_of_writesStats hstats hkeep h]
  · exact (exec_accounted i hw (Bool.eq_false_of_not_eq_true hstats) h).counter_full hfull

end

/-- Settles O14: the increment by the counter's distance from 65535, a run of increments, and every row beside the clears. -/
theorem counterIncrement : Obligations.CounterIncrement := by
  intro s p c
  have hcounter := counter_count s p p c c
  rw [if_pos ⟨rfl, rfl⟩] at hcounter
  have hat (n : Nat) (hn : n < 65536) := counter_eq_iff (s.counter p c) n hn
  refine ⟨fun hlow => ?_, fun hlast => ?_, fun hfull => count_full s p c ((hat 65535 (by omega)).2 hfull), fun q d hne => ?_,
    fun q => uncounted_count s p q c, count_rest s p c, fun n => ⟨rfl, rfl⟩, fun hv => countMany_reaches s p c ?_,
    counterLaw_of_accounts (accounts_count s p c), fun i t hw hkeep h hfull => counter_full_stands hw hkeep h hfull,
    resetAssert s, rfl, ?_, ?_⟩
  · have hv : s.counter p c ≠ 0xFFFE#16 := fun e => by
      have := (hat 65534 (by omega)).1 e
      omega
    refine ⟨by omega, ?_, count_stats s p c hv⟩
    rw [limitFlag_count, decide_eq_false fun h => hv h.2, Bool.or_false]
  · have hv : s.counter p c = 0xFFFE#16 := (hat 65534 (by omega)).2 hlast
    refine ⟨(counter_eq_iff _ 65535 (by omega)).2 (by omega), ?_, fun e => ?_⟩
    · rw [limitFlag_count, decide_eq_true ⟨⟨rfl, rfl⟩, hv⟩, Bool.or_true]
    · rw [flagSet_count]
      simp only [hv, and_true]
  · have hother : ¬ (q = p ∧ d = c) := fun h => hne (Prod.ext h.1 h.2)
    refine ⟨BitVec.eq_of_toNat_eq ?_, ?_⟩
    · have := (s.counter q d).isLt
      rw [counter_count, if_neg hother]
      omega
    · rw [limitFlag_count, decide_eq_false fun h => hother h.1, Bool.or_false]
  · unfold reaches
    omega
  · simp only [State.counter, resetAssert_port, Port.reset, Fin.getElem_fin, Vector.getElem_replicate]
  · simp only [State.limitFlag, resetAssert_port, Port.reset, BitVec.getLsbD_zero]

/-! ### What a clear leaves unchanged (R167, R168) -/

/-- From `s` to `t` nothing changed but counters and limit flags of port `p`. -/
structure ClearedAt (p : PortId) (s t : State) : Prop where
  others : ∀ q, q ≠ p → t.port q = s.port q
  uncounted : ∀ q, uncounted (t.port q) = uncounted (s.port q)
  rest : t = { s with ports := t.ports }

theorem ClearedAt.refl (p : PortId) (s : State) : ClearedAt p s s := ⟨fun _ _ => rfl, fun _ => rfl, rfl⟩

theorem ClearedAt.trans {p : PortId} {s t u : State} (h : ClearedAt p s t) (h' : ClearedAt p t u) : ClearedAt p s u where
  others q hq := (h'.others q hq).trans (h.others q hq)
  uncounted q := (h'.uncounted q).trans (h.uncounted q)
  rest := by rw [h'.rest, h.rest]

section
variable (s : State) (p : PortId) (c d : Counter) (v : Word)

/-! ### The clear of one counter (R167) -/

theorem clearedAt_clearCounter : ClearedAt p s (clearCounter p c s) where
  others q hq := modifyPort_port_ne s p q _ hq
  uncounted q := modifyPort_part s uncounted p q _ fun _ => rfl
  rest := rfl

theorem counter_clearCounter : (clearCounter p c s).counter p d = if d = c then 0#16 else s.counter p d := by
  have h : (clearCounter p c s).counter p d = if p = p ∧ d = c then 0#16 else s.counter p d :=
    counter_modifyPort_set s p p c d 0#16 _ fun _ => rfl
  simpa only [true_and] using h

/-- A counter at 0 with its limit flag clear is cleared already. -/
theorem clearCounter_of_clear (hcounter : s.counter p c = 0#16) (hflag : s.limitFlag p c = false) : clearCounter p c s = s := by
  have hcounters : (s.port p).counters.set (counterIdx c) 0#16 = (s.port p).counters := by
    rw [← hcounter]
    exact Vector.set_getElem_self _
  have hlimits : (s.port p).limits &&& ~~~(1#10 <<< (counterIdx c).val) = (s.port p).limits := by
    refine BitVec.eq_of_getLsbD_eq fun j hj => ?_
    by_cases hjc : j = (counterIdx c).val
    · subst hjc
      rw [BitVec.getLsbD_and, show (s.port p).limits.getLsbD _ = false from hflag, Bool.false_and]
    · have hbit : (1#10 <<< (counterIdx c).val).getLsbD j = false := by
        simp [hj]
        omega
      rw [BitVec.getLsbD_and, BitVec.getLsbD_not, hbit, decide_eq_true hj, Bool.not_false, Bool.and_true, Bool.and_true]
  have hports : (clearCounter p c s).ports = s.ports := ports_ext fun q => by
    rw [clearCounter, modifyPort_port]
    split
    · next hq =>
      subst hq
      rw [hcounters, hlimits]
    · rfl
  calc clearCounter p c s = { s with ports := (clearCounter p c s).ports } := rfl
    _ = s := by rw [hports]

/-! ### The clears of a PORT_LIMITS write (R168) -/

theorem mem_allCounters : c ∈ allCounters := by
  cases c <;> decide

/-- The clears of a PORT_LIMITS write among the counters of a list. -/
def clearNamed (l : List Counter) : State :=
  l.foldl (fun s c => if v.getLsbD (counterIdx c).val then clearCounter p c s else s) s

theorem clearLimits_eq_clearNamed : clearLimits p v s = clearNamed s p v allCounters := rfl

theorem clearNamed_cons (l : List Counter) : clearNamed s p v (c :: l) =
    clearNamed (if v.getLsbD (counterIdx c).val then clearCounter p c s else s) p v l := rfl

theorem clearedAt_clearNamed (l : List Counter) : ClearedAt p s (clearNamed s p v l) := by
  induction l generalizing s with
  | nil => exact .refl p s
  | cons c l ih =>
    rw [clearNamed_cons]
    split
    · exact (clearedAt_clearCounter s p c).trans (ih _)
    · exact ih s

/-- A named counter of the list is cleared, and every other stands. -/
theorem counter_clearNamed (l : List Counter) : (clearNamed s p v l).counter p d =
    if d ∈ l ∧ v.getLsbD (counterIdx d).val = true then 0#16 else s.counter p d := by
  induction l generalizing s with
  | nil => simp [clearNamed]
  | cons c l ih =>
    rw [clearNamed_cons, ih]
    by_cases hd : d = c
    · subst hd
      cases v.getLsbD (counterIdx d).val <;> simp [counter_clearCounter]
    · cases v.getLsbD (counterIdx c).val <;> simp [counter_clearCounter, hd]

theorem limitFlag_clearNamed (l : List Counter) : (clearNamed s p v l).limitFlag p d =
    (s.limitFlag p d && !decide (d ∈ l ∧ v.getLsbD (counterIdx d).val = true)) := by
  induction l generalizing s with
  | nil => simp [clearNamed]
  | cons c l ih =>
    rw [clearNamed_cons, ih]
    by_cases hd : d = c
    · subst hd
      cases v.getLsbD (counterIdx d).val <;> simp [limitFlag_clearCounter]
    · cases v.getLsbD (counterIdx c).val <;> simp [limitFlag_clearCounter, hd]

theorem counter_clearLimits : (clearLimits p v s).counter p d =
    if v.getLsbD (counterIdx d).val = true then 0#16 else s.counter p d := by
  rw [clearLimits_eq_clearNamed, counter_clearNamed]
  simp only [mem_allCounters, true_and]

theorem limitFlag_clearLimits : (clearLimits p v s).limitFlag p d = (s.limitFlag p d && !v.getLsbD (counterIdx d).val) := by
  rw [clearLimits_eq_clearNamed, limitFlag_clearNamed]
  simp only [mem_allCounters, true_and, Bool.decide_eq_true]

end

/-! ### The rows (R167, R168) -/

/-- A field read in a register stands at its bits, and 0 above it. -/
theorem getLsbD_setWidth_word {w : Nat} (x : BitVec w) (hw : w ≤ 16) (j : Nat) : (x.setWidth 16).getLsbD j = x.getLsbD j := by
  rw [BitVec.getLsbD_setWidth]
  by_cases hj : j < 16
  · rw [decide_eq_true hj, Bool.true_and]
  · rw [BitVec.getLsbD_of_ge x j (by omega), Bool.and_false]

/-- Settles O41: the write is the clear of the selected port's counter. -/
theorem counterClear : Obligations.CounterClear := by
  intro s c v hbus
  have hcleared := clearedAt_clearCounter s s.host.portSelect c
  refine ⟨clearCounter s.host.portSelect c s, congrArg Host.Outcome.next (hostWrite_free hbus (.counter c) v), ?_, ?_,
    fun d hd => ⟨?_, ?_⟩, hcleared.others, hcleared.uncounted, hcleared.rest, clearCounter_of_clear s _ c⟩
  · rw [counter_clearCounter, if_pos rfl]
  · rw [limitFlag_clearCounter, decide_eq_true ⟨rfl, rfl⟩, Bool.not_true, Bool.and_false]
  · rw [counter_clearCounter, if_neg hd]
  · rw [limitFlag_clearCounter, decide_eq_false fun h => hd h.2, Bool.not_false, Bool.and_true]

/-- Settles O42: the read is the ten flags, the write the clears it names. -/
theorem portLimitsWrite : Obligations.PortLimitsWrite := by
  intro s v hbus
  have hread : readRegister 0x78#8 s = (s.port s.host.portSelect).limits.setWidth 16 :=
    readRegister_at (r := .portLimits) (busFree_phase hbus) rfl
  have hcleared : ClearedAt s.host.portSelect s (clearLimits s.host.portSelect v s) :=
    clearedAt_clearNamed s s.host.portSelect v allCounters
  refine ⟨fun c => ?_, fun j hj => ?_, clearLimits s.host.portSelect v s,
    congrArg Host.Outcome.next (hostWrite_free hbus .portLimits v), fun c hc => ⟨?_, ?_⟩, fun c hc => ⟨?_, ?_⟩,
    hcleared.others, hcleared.uncounted, hcleared.rest⟩
  · rw [hread, limits_getLsbD, State.limitFlag]
  · rw [hread, getLsbD_setWidth_word _ (by decide), BitVec.getLsbD_of_ge _ _ hj]
  · rw [counter_clearLimits, if_pos hc]
  · rw [limitFlag_clearLimits, hc, Bool.not_true, Bool.and_false]
  · rw [counter_clearLimits, hc, if_neg Bool.false_ne_true]
  · rw [limitFlag_clearLimits, hc, Bool.not_false, Bool.and_true]

end Sys2Proof.Machine
end

section
/-! SUPPORT. The event flags and their enables (chapter 9): a write to EVENTS and the order of a raise and a clear (EventsWrite);
EVENT_ENABLE and the level of IRQ# (EventEnableWrite). -/

namespace Sys2Proof.Machine

open Sys2Proof.Safety

/-! ### The nine positions (Table 10-3) -/

theorem Event.exists_bit {j : Nat} (hj : j < 9) : ∃ e : Event, e.bit = j :=
  match j, hj with
  | 0, _ => ⟨.reportAdded, rfl⟩
  | 1, _ => ⟨.cmdDone, rfl⟩
  | 2, _ => ⟨.poolLow, rfl⟩
  | 3, _ => ⟨.statLimit, rfl⟩
  | 4, _ => ⟨.portOff, rfl⟩
  | 5, _ => ⟨.initDone, rfl⟩
  | 6, _ => ⟨.cmdOverrun, rfl⟩
  | 7, _ => ⟨.drainFault, rfl⟩
  | 8, _ => ⟨.reportLost, rfl⟩

theorem Event.bit_lt (e : Event) : e.bit < 9 := by
  cases e <;> decide

/-- Nine flags or enables are known by the one of each event. -/
theorem events_ext {a b : BitVec 9} (h : ∀ e : Event, a.getLsbD e.bit = b.getLsbD e.bit) : a = b := by
  refine BitVec.eq_of_getLsbD_eq fun j hj => ?_
  obtain ⟨e, rfl⟩ := Event.exists_bit hj
  exact h e

section
variable (s : State) (e : Event) (v : Word)

/-! ### A write to EVENTS (R172) -/

theorem flagSet_clearEvents : flagSet (clearEvents v s) e = (flagSet s e && !v.getLsbD e.bit) := by
  simp only [flagSet, clearEvents, BitVec.getLsbD_and, BitVec.getLsbD_not, BitVec.getLsbD_setWidth, e.bit_lt, decide_true,
    Bool.true_and]

/-- Of different flags a raise and a clear are independent. -/
theorem clearEvents_raise (he : v.getLsbD e.bit = false) : clearEvents v (raise e s) = raise e (clearEvents v s) := by
  have hevents : (clearEvents v (raise e s)).stats.events = (raise e (clearEvents v s)).stats.events := by
    refine events_ext fun e' => ?_
    show flagSet (clearEvents v (raise e s)) e' = flagSet (raise e (clearEvents v s)) e'
    rw [flagSet_clearEvents, flagSet_raise, flagSet_raise, flagSet_clearEvents]
    by_cases h : e' = e
    · rw [h, he]
      simp only [decide_true, Bool.or_true, Bool.not_false, Bool.and_true]
    · rw [decide_eq_false h, Bool.or_false, Bool.or_false]
  exact congrArg (fun events => { s with stats := { s.stats with events := events } }) hevents

/-- Positions that name no flag are ignored. -/
theorem clearEvents_congr {w : Word} (h : ∀ j, j < 9 → w.getLsbD j = v.getLsbD j) : clearEvents w s = clearEvents v s := by
  have hw : w.setWidth 9 = v.setWidth 9 := events_ext fun e => by
    rw [BitVec.getLsbD_setWidth, BitVec.getLsbD_setWidth, h _ e.bit_lt]
  rw [clearEvents, hw, clearEvents]

/-- A raised event touches neither RESET# nor a held read, so the bus is as free as before. -/
theorem busFree_raise : (raise e s).busFree = s.busFree := rfl

theorem exec_eventsWrite (h : s.busFree = true) : exec (.eventsWrite v) s = .next (clearEvents v s) :=
  congrArg Host.Outcome.next (hostWrite_free h .events v)

/-! ### EVENT_ENABLE and IRQ# (R173, R174) -/

/-- The level of IRQ#, flag by flag (R174). -/
theorem irq_iff : s.irq = true ↔ ∃ e : Event, flagSet s e = true ∧ s.stats.enable.getLsbD e.bit = true := by
  have hnone : s.stats.events &&& s.stats.enable = 0#9 ↔
      ∀ e : Event, ¬ (flagSet s e = true ∧ s.stats.enable.getLsbD e.bit = true) := by
    refine ⟨fun h e hboth => ?_, fun h => events_ext fun e => ?_⟩
    · have hbit : (s.stats.events &&& s.stats.enable).getLsbD e.bit = true := by
        rw [BitVec.getLsbD_and]
        exact Bool.and_eq_true_iff.2 hboth
      rw [h, BitVec.getLsbD_zero] at hbit
      cases hbit
    · rw [BitVec.getLsbD_and, BitVec.getLsbD_zero]
      exact Bool.eq_false_of_not_eq_true fun hboth => h e (Bool.and_eq_true_iff.1 hboth)
  rw [State.irq, bne_iff_ne, ne_eq, hnone, not_forall_not]

/-- EVENT_ENABLE reads the nine enables, with 0 elsewhere. -/
theorem readRegister_eventEnable (h : s.host.phase ≠ .resetAsserted) (j : Nat) :
    (readRegister 0x06#8 s).getLsbD j = s.stats.enable.getLsbD j := by
  rw [readRegister_at (r := .eventEnable) h rfl]
  exact getLsbD_setWidth_word _ (by decide) j

theorem enable_writeEventEnable {j : Nat} (hj : j < 9) : (writeEventEnable v s).stats.enable.getLsbD j = v.getLsbD j := by
  simp only [writeEventEnable, BitVec.getLsbD_setWidth, hj, decide_true, Bool.true_and]

end

/-- Settles O44: the write is the clear of the flags it names, which commutes with the raise of any other. -/
theorem eventsWrite : Obligations.EventsWrite := by
  intro s v hbus
  refine ⟨clearEvents v s, exec_eventsWrite s v hbus, fun e => flagSet_clearEvents s e v, rfl, fun e he => ⟨⟨_,
    exec_eventsWrite (raise e s) v ((busFree_raise s e).trans hbus), ?_⟩, ?_⟩, fun e he => ?_, fun w hw => ?_⟩
  · rw [flagSet_clearEvents, he, Bool.not_true, Bool.and_false]
  · rw [flagSet_raise, decide_eq_true rfl, Bool.or_true]
  · rw [exec_eventsWrite (raise e s) v ((busFree_raise s e).trans hbus), clearEvents_raise s e v he]
  · rw [exec_eventsWrite s w hbus, clearEvents_congr s v hw]

/-- Settles O45: the stored enables, the level of IRQ# in any state, and the two resets. -/
theorem eventEnableWrite : Obligations.EventEnableWrite := by
  refine ⟨fun s v hbus => ?_, fun s => ⟨irq_iff s, readRegister_eventEnable s⟩,
    fun s => ⟨resetAssert s, rfl, rfl, (outputsQuiet_resetAssert s s.mem).irq⟩, fun s v hbus hv => ?_⟩
  · have hread := readRegister_eventEnable (writeEventEnable v s) (busFree_phase (s := s) hbus)
    refine ⟨writeEventEnable v s, congrArg Host.Outcome.next (hostWrite_free hbus .eventEnable v),
      fun j hj => enable_writeEventEnable s v hj, rfl, ?_, fun j hj => ?_, fun j hj => ?_⟩
    · rw [irq_iff]
      refine exists_congr fun e => ?_
      rw [enable_writeEventEnable s v e.bit_lt]
      rfl
    · rw [hread, enable_writeEventEnable s v hj]
    · rw [hread, BitVec.getLsbD_of_ge _ _ hj]
  · refine ⟨softResetState s, ?_, rfl⟩
    show Host.Outcome.next (if s.busFree then writeCtrl v s else s) = _
    rw [if_pos hbus, writeCtrl, if_pos hv]

end Sys2Proof.Machine
end

section
/-! SUPPORT. Host writes to a bus that is not free (chapter 10): every host write row asks first for the bus, and without it
leaves the state as it is (HostWritesNeedTheBus). -/

namespace Sys2Proof.Machine

open Sys2Proof.Safety

section
variable {s : State}

/-- The bus is not free in the two cases of R185 and R176. -/
theorem busFree_eq_false_iff : s.busFree = false ↔ s.host.phase = .resetAsserted ∨ s.drain.held ≠ none := by
  rw [State.busFree, Bool.and_eq_false_iff, bne_eq_false_iff_eq, Option.isNone_eq_false_iff, Option.isSome_iff_ne_none]

theorem hostWrite_ignored (h : ¬ s.busFree = true) (r : Reg) (v : Word) : hostWrite r v s = s :=
  if_neg h

/-- A write at an offset is ignored at a register because the bus is not free, and elsewhere because it selects none. -/
theorem writeRegister_ignored (h : ¬ s.busFree = true) (offset : Byte) (v : Word) : writeRegister offset v s = s := by
  unfold writeRegister
  split
  · exact hostWrite_ignored h _ v
  · rfl

theorem commandWrite_ignored (h : ¬ s.busFree = true) (upper code : Byte) : commandWrite upper code s = .next s :=
  congrArg Host.Outcome.next (if_neg h)

/-- The host write rows: those with a guard of their own, the commands of CMD, and the writes to a register by name or offset. -/
theorem exec_hostWrite_ignored {c : Instr} (hc : isHostWrite c = true) (h : ¬ s.busFree = true) : exec c s = .next s := by
  cases c with
  | softReset | drainPosWrite | badCommand => exact congrArg Host.Outcome.next (if_neg h)
  | take u | release u | lookup u | next u | reserve u | pin u | unpin u | cancel u | purge u | forget u =>
    exact commandWrite_ignored h u _
  | portEnable v | portDisable v | portCtrlWrite v => exact congrArg Host.Outcome.next (hostWrite_ignored h .portCtrl v)
  | portAddrWrite v => exact congrArg Host.Outcome.next (hostWrite_ignored h .portAddr v)
  | portRateWrite v => exact congrArg Host.Outcome.next (hostWrite_ignored h .portRate v)
  | tickWrite v => exact congrArg Host.Outcome.next (hostWrite_ignored h .tick v)
  | counterClear k v => exact congrArg Host.Outcome.next (hostWrite_ignored h (.counter k) v)
  | portLimitsWrite v => exact congrArg Host.Outcome.next (hostWrite_ignored h .portLimits v)
  | unreportedClear route v =>
    cases route with
    | counter => exact congrArg Host.Outcome.next (hostWrite_ignored h .unreported v)
    | status => exact congrArg Host.Outcome.next (hostWrite_ignored h .status v)
  | eventsWrite v => exact congrArg Host.Outcome.next (hostWrite_ignored h .events v)
  | eventEnableWrite v => exact congrArg Host.Outcome.next (hostWrite_ignored h .eventEnable v)
  | registerWrite offset v => exact congrArg Host.Outcome.next (writeRegister_ignored h offset v)
  | _ => cases hc

end

/-- Settles O38: in both cases the bus is not free, and every host write row is then ignored. -/
theorem hostWritesNeedTheBus : Obligations.HostWritesNeedTheBus :=
  fun _ _ hc hbus => exec_hostWrite_ignored hc (Bool.eq_false_iff.1 (busFree_eq_false_iff.2 hbus))

end Sys2Proof.Machine
end

section
/-! SUPPORT. One step of the block: the two cases of its queue of waiting commands (StepRunsTheFrontCommand). -/

namespace Sys2Proof.Machine

section
variable {s : State}

/-- The front command runs on the state that the rest of the queue is left in. -/
theorem step_of_pending_cons {c : Instr} {rest : List Instr} (h : s.pending = c :: rest) :
    step s = exec c { s with pending := rest } := by
  rw [step, h]

/-- With no command waiting the block idles (log 2). -/
theorem step_of_pending_nil (h : s.pending = []) : step s = .next s := by
  rw [step, h]

end

/-- Settles O1: the two cases of the queue, a command at its front and none. -/
theorem stepRunsTheFrontCommand : Obligations.StepRunsTheFrontCommand :=
  ⟨fun c s rest => step_of_pending_cons (s := { s with pending := c :: rest }) rfl, fun _ => step_of_pending_nil⟩

end Sys2Proof.Machine
end
